-- ==== Sys2Proof/Word.lean ====
section
/-! DEFINITION. The words of the bus (rules R80, R81), the bytes of the randomness port (rule R32) and bit vectors of
a length the parameters fix (rule R88). -/

namespace Sys2Proof

/-- One host word: every register and every memory word is 32 bits wide (10_state.md section 3, rule R81).
A field element (rule R8) is held in one as well, in bits M-1..0, with M at most 16 (rule R7). -/
abbrev Word := BitVec 32

/-- One byte of the randomness port (rule R32), and one cell of the memory list. -/
abbrev Byte := BitVec 8

/-- A bit vector whose length a parameter fixes (EVEC, SYN, one row of MAT): the number whose bit `i` is element `i`
(rules R11, R13). -/
abbrev Bits := Nat

end Sys2Proof
end

