-- ==== Sys2Proof/Config.lean ====
section
/-! DEFINITION. What an instance fixes when it is built: the parameter record of rule R5 with the numbers derived from
it (rule R6), the parameter sets the spec writes out, and the free values (93_implementation_defined.md U12, U13, U14). -/

namespace Sys2Proof

/-- The parameter record `P` of rule R5. It is fixed at build time; the state carries it because the parameter
registers (rule R33) hold it, and no step changes it. Which records are legal (rule R7) is `Params.legal`. -/
structure Params where
  /-- M, the field degree. -/
  m : Nat
  /-- FIELD_POLY: bit `i` is the coefficient of `z^i`. -/
  fieldPoly : Word
  /-- T, the degree of the Goppa polynomial. -/
  t : Nat
  /-- N, the code length. -/
  n : Nat
  /-- VARIANT_F, the semi-systematic "f" variant. -/
  variantF : Bool
  /-- MU, the rows of the pivot window. -/
  mu : Nat
  /-- NU, the columns of the pivot window. -/
  nu : Nat
  /-- GOPPA_MAX_TRIES, an OPEN parameter (D22). -/
  goppaMaxTries : Nat
  /-- FW_MAX_TRIES, an OPEN parameter (D29). -/
  fwMaxTries : Nat
  /-- SUPPORT_DRAWS, an OPEN parameter (D23). -/
  supportDraws : Nat
  /-- CORE_ID, an OPEN parameter (D46). -/
  coreId : Word
  deriving DecidableEq, Repr

namespace Params

/-- R = M*T, the parity-check rows (rule R6). -/
abbrev r (p : Params) : Nat := p.m * p.t

/-- K = N - R, the code dimension (rule R6). -/
abbrev k (p : Params) : Nat := p.n - p.r

/-- ROW_WORDS = ceil(N/32), the words of one MAT row and of EVEC (rules R84, R89). -/
abbrev rowWords (p : Params) : Nat := (p.n + 31) / 32

/-- ceil(R/32), the words of SYN (rule R84). -/
abbrev synWords (p : Params) : Nat := (p.r + 31) / 32

/-- PARAM_FLAGS.N_EQ_Q: N = 2^M (rule R33). -/
abbrev nEqQ (p : Params) : Bool := p.n == 2 ^ p.m

/-- tau, the draws one attempt of FW_SAMPLE takes (rule R251). -/
abbrev tau (p : Params) : Nat := if p.nEqQ then p.t else 2 * p.t

/-- The TOY set of rule R5, the spec's own (D51). CORE_ID is OPEN: 0 here (DESIGN CHOICE, notes/assumptions/1.md). -/
def toy : Params where
  m := 4
  fieldPoly := 0x13#32
  t := 2
  n := 12
  variantF := false
  mu := 0
  nu := 0
  goppaMaxTries := 4
  fwMaxTries := 4
  supportDraws := 16
  coreId := 0#32

/-- TOYF: TOY with the f variant and a pivot window of 2 rows and 4 columns (rule R5). -/
def toyF : Params := { toy with variantF := true, mu := 2, nu := 4 }

/-- TOYQ: TOY with N = 16 = 2^M (rule R5). -/
def toyQ : Params := { toy with n := 16 }

/-- The named sets of rule R5 [there: from general knowledge, informative, G1-G3]: M, FIELD_POLY, T and N are the
table's, the f sets have the window (32, 64), and the OPEN parameters stay arguments. -/
def named (m : Nat) (poly : Word) (t n : Nat) (f : Bool) (goppaTries fwTries draws : Nat) (id : Word) : Params where
  m := m
  fieldPoly := poly
  t := t
  n := n
  variantF := f
  mu := if f then 32 else 0
  nu := if f then 64 else 0
  goppaMaxTries := goppaTries
  fwMaxTries := fwTries
  supportDraws := draws
  coreId := id

/-- mceliece348864 and mceliece348864f (rule R5's table). -/
def mceliece348864 := named 12 0x1009#32 64 3488
/-- mceliece460896 and mceliece460896f (rule R5's table). -/
def mceliece460896 := named 13 0x201B#32 96 4608
/-- mceliece6688128 and mceliece6688128f (rule R5's table). -/
def mceliece6688128 := named 13 0x201B#32 128 6688
/-- mceliece6960119 and mceliece6960119f (rule R5's table). -/
def mceliece6960119 := named 13 0x201B#32 119 6960
/-- mceliece8192128 and mceliece8192128f (rule R5's table). -/
def mceliece8192128 := named 13 0x201B#32 128 8192

end Params

/-- FREE VALUE: what the `n`-th read of an UNSPECIFIED register or memory word returns while the engine is BUSY: "a
free 32-bit input under no law" (rules R42, R357; U12, U13). It has no body, so nothing can be proved of its value. -/
opaque Config.freeRead : Nat → Word

/-- FREE VALUE: how many randomness bytes the `n`-th aborted command had taken, before it is brought into the range
"between 0 and its full consumption" (rule R146; U14). It has no body. -/
opaque Config.freeTaken : Nat → Nat

end Sys2Proof
end

