-- ==== Sys2Proof/Syntax.lean ====
section
/-! DEFINITION. The commands of "CORE command set 1": one constructor per row of spec/opcode_table.json (rule R113).
No command carries an operand: every operand is implicit (rule R111). -/

namespace Sys2Proof

/-- The 17 commands of rule R113. -/
inductive Instr where
  /-- NOP, 0x00 (rule R149). -/
  | nop
  /-- GF_ADD, 0x01 (rule R163). -/
  | gfAdd
  /-- GF_MUL, 0x02 (rule R164). -/
  | gfMul
  /-- GF_INV, 0x03 (rule R165). -/
  | gfInv
  /-- POLY_MUL, 0x04 (rule R171). -/
  | polyMul
  /-- POLY_MULMOD, 0x05 (rule R172). -/
  | polyMulmod
  /-- IRRED_TEST, 0x10 (rule R190). -/
  | irredTest
  /-- GOPPA_SAMPLE, 0x11 (rule R192). -/
  | goppaSample
  /-- SUPPORT_GEN, 0x12 (rule R197). -/
  | supportGen
  /-- BUILD_H, 0x20 (rule R220). -/
  | buildH
  /-- SYSTEMATIZE, 0x21 (rule R223). -/
  | systematize
  /-- FW_SAMPLE, 0x30 (rule R250). -/
  | fwSample
  /-- ENCODE, 0x31 (rule R255). -/
  | encode
  /-- DEC_SYNDROME, 0x40 (rule R280). -/
  | decSyndrome
  /-- BM_SOLVE, 0x41 (rule R283). -/
  | bmSolve
  /-- ROOT_FIND, 0x42 (rule R287). -/
  | rootFind
  /-- DECODE, 0x43 (rule R291). -/
  | decode
  deriving DecidableEq, Repr

/-- The rows of rule R113's table, in its order. -/
def Instr.all : List Instr :=
  [.nop, .gfAdd, .gfMul, .gfInv, .polyMul, .polyMulmod, .irredTest, .goppaSample, .supportGen] ++
  [.buildH, .systematize, .fwSample, .encode, .decSyndrome, .bmSolve, .rootFind, .decode]

end Sys2Proof
end

