-- ==== Sys2Proof/Machine/State.lean ====
section
/-! DEFINITION. The state of the CORE as plain data (10_state.md), the reasons a step can stop, and the machine right
after power-on reset (rules R61, R350). -/

namespace Sys2Proof.Machine

/-- Why the machine stops. All three are the stops the spec itself tells a model to make. -/
inductive Fault where
  /-- BUS_ERROR: raised by a host access that rules R81-R85 do not admit (rule R83: "A model returns a host-access fault
  BUS_ERROR to the host agent"). It carries the read data of the error response: a word for a read, nothing for a write.
  Safe: the hardware answers the error response and goes on unchanged. -/
  | busError (readData : Option Word)
  /-- UNINIT: raised by a host read of an unwritten memory word and by a command one of whose inputs is unwritten
  (rules R60, R147). Safe: "it removes runs the hardware has, never adds them". -/
  | uninit
  /-- Raised by a step from a state whose ERRCODE is one of 4 to 15 (93_implementation_defined.md U20: "A model that
  finds one must fault"). Safe: rule R320 never produces one, and no run from reset reaches such a state. -/
  | reservedErrcode
  deriving DecidableEq, Repr

/-- Why the model has no meaning for a step. -/
inductive Refusal where
  /-- Raised by `exec` for a command that has no meaning yet. No arm raises it. Safe. -/
  | notModelled (mnemonic : String)
  /-- Raised by a step of a state that carries an illegal parameter record (93_implementation_defined.md U22: "refuse:
  no instance exists"). Safe. -/
  | illegalParams
  deriving DecidableEq, Repr

/-- The fields of STATUS (rule R37). Its other bits read 0 and ignore writes (rule R34), so no bit is lost;
`Status.toWord` is the word the host reads. -/
structure Status where
  /-- BUSY, bit 0. -/
  busy : Bool
  /-- DONE, bit 1. -/
  done : Bool
  /-- OK, bit 2. -/
  ok : Bool
  /-- ERR, bit 3. -/
  err : Bool
  /-- WERR, bit 4. -/
  werr : Bool
  /-- ERRCODE, bits 11:8. -/
  errcode : BitVec 4
  /-- LAST_OP, bits 23:16. -/
  lastOp : BitVec 8
  deriving DecidableEq, Repr

/-- ENG, with the command in flight while it is BUSY (rule R46). The working storage of a command does not outlive it
and is not visible, so it is not state. -/
inductive Engine where
  | idle
  | busy (i : Instr)
  deriving DecidableEq, Repr

/-- What the outside world does to the CORE at its ports (rule R32). -/
inductive Act where
  /-- `MemRead(addr, width)`; a width other than 4 is a platform bridge's narrow access (rule R81). -/
  | read (addr width : Nat)
  /-- `MemWrite(addr, width, data)`. -/
  | write (addr width : Nat) (data : Word)
  /-- The randomness source offers one more byte (rule R95). -/
  | offer (b : Byte)
  /-- `rst_n` goes low and high again (rule R350). -/
  | powerOn
  deriving DecidableEq, Repr

/-- One input in the order the ports accept it (rules R80, R93). `overlap` is the schedule the spec leaves open
(rule R360: a command's duration is UNSPECIFIED). On a CMD write it says that the command issued is still in flight
when the next input arrives; on an input met while BUSY, that the port accepts it before the command completes. -/
structure Input where
  act : Act
  overlap : Bool
  deriving DecidableEq, Repr

/-- The randomness port (rule R95): the bytes the source has offered and no command has taken, in stream order, and
RCNT (rule R42). -/
structure RandomPort where
  offered : List Byte
  rcnt : BitVec 64
  deriving DecidableEq, Repr

/-- The memory windows of rule R84 as one list of (offset, byte) cells, offsets strictly rising. A word is written when
its four bytes are listed; an unlisted byte is unwritten and has no value (rule R60). Byte `k` of a word is its bits
8k+7..8k: no access sees bytes (rule R90). -/
abbrev Memory := List Host.Cell

/-- All the state of one CORE instance and of its ports. -/
structure State where
  /-- The parameter registers ID to PARAM_R (rule R33). -/
  params : Params
  /-- CTRL.IRQ_EN; SRST always reads 0 (rule R35). -/
  irqEn : Bool
  /-- CMD, "all 32 bits" as written (rule R36). -/
  cmd : Word
  /-- STATUS (rule R37). -/
  status : Status
  /-- OPA (rule R39). -/
  opa : Word
  /-- OPB (rule R39). -/
  opb : Word
  /-- RES (rule R40). -/
  res : Word
  /-- WEIGHT, bits 16:0 (rule R41). -/
  weight : BitVec 17
  /-- TRIES (rule R41). -/
  tries : Word
  /-- ACCEPT, bits 16:0 (rule R41). -/
  accept : BitVec 17
  /-- BM_L, bits 15:0 (rule R41). -/
  bmL : BitVec 16
  /-- PIVMASK_HI : PIVMASK_LO (rules R41, R226). -/
  pivmask : BitVec 64
  /-- RCNT_HI : RCNT_LO and the stream (rules R42, R95). -/
  port : RandomPort
  /-- The memories G, PA, PB, PR, SIG, S, L, EVEC, SYN and MAT (rules R43, R84) with their written marks (R60). -/
  mem : Memory
  /-- ENG (rule R46). -/
  eng : Engine
  /-- MODEL'S OWN: what the ports accept next, oldest first. -/
  inputs : List Input
  /-- The read data of the host port (rule R32): what the last completed host read returned. -/
  rdata : Word
  /-- MODEL'S OWN: how many free values the run has used. -/
  draws : Nat
  deriving DecidableEq, Repr

/-- Every field of STATUS at 0 (rule R61). -/
def Status.reset : Status where
  busy := false
  done := false
  ok := false
  err := false
  werr := false
  errcode := 0#4
  lastOp := 0#8

/-- The instance built for `p`, right after power-on reset (rules R61, R350): registers 0, ENG idle, every memory word
unwritten, no byte offered, nothing waiting at the ports. -/
def State.resetOf (p : Params) : State where
  params := p
  irqEn := false
  cmd := 0#32
  status := Status.reset
  opa := 0#32
  opb := 0#32
  res := 0#32
  weight := 0#17
  tries := 0#32
  accept := 0#17
  bmL := 0#16
  pivmask := 0#64
  port := ⟨[], 0#64⟩
  mem := []
  eng := .idle
  inputs := []
  rdata := 0#32
  draws := 0

/-- The machine after reset. The parameters are arguments of the spec (rule R5); the instance the model starts is the
spec's own TOY (DESIGN CHOICE, notes/assumptions/1.md), and every meaning works for every legal record. -/
def State.reset : State := State.resetOf Params.toy

end Sys2Proof.Machine
end

