-- ==== Sys2Proof/Machine/Memory.lean ====
section
/-! DEFINITION. The named operations over the memory list: one byte, one host word, a run of words, and `havoc`
(rules R14, R60, R80, R92). Byte order within a word is decided here, once. -/

namespace Sys2Proof.Machine

namespace Memory

/-- The canonical form: offsets strictly rising, so no offset is listed twice. An unlisted byte reads as nothing, so no
entry can equal what an unlisted one reads as. -/
abbrev wf (m : Memory) : Prop := (m.map Prod.fst).Pairwise (· < ·)

/-- The byte at `a`, or nothing where it is unwritten (rule R60). -/
def read (m : Memory) (a : Nat) : Option Byte :=
  match m with
  | [] => none
  | (k, b) :: rest => if k = a then some b else Memory.read rest a

/-- Store one byte, keeping the list in its canonical form. -/
def write (m : Memory) (a : Nat) (b : Byte) : Memory :=
  match m with
  | [] => [(a, b)]
  | (k, c) :: rest =>
    if a < k then (a, b) :: (k, c) :: rest
    else if a = k then (a, b) :: rest
    else (k, c) :: Memory.write rest a b

/-- Bits 8k+7..8k of a word. -/
def byteOf (w : Word) (k : Nat) : Byte := w.extractLsb' (8 * k) 8

/-- The word at offset `a`, or nothing where a byte of it is unwritten. -/
def readWord (m : Memory) (a : Nat) : Option Word := do
  let b0 ← Memory.read m a
  let b1 ← Memory.read m (a + 1)
  let b2 ← Memory.read m (a + 2)
  let b3 ← Memory.read m (a + 3)
  return b3 ++ b2 ++ b1 ++ b0

/-- Store the word `w` at offset `a`; the word is written from then on (rule R60). -/
def writeWord (m : Memory) (a : Nat) (w : Word) : Memory :=
  Memory.write (Memory.write (Memory.write (Memory.write m a (byteOf w 0)) (a + 1) (byteOf w 1)) (a + 2) (byteOf w 2))
    (a + 3) (byteOf w 3)

/-- The `n` words from offset `a` on, or nothing where one of them is unwritten. -/
def readWords (m : Memory) (a : Nat) : Nat → Option (List Word)
  | 0 => some []
  | n + 1 => do
    let w ← Memory.readWord m a
    let ws ← Memory.readWords m (a + 4) n
    return w :: ws

/-- Store words one after another from offset `a` on. -/
def writeWords (m : Memory) (a : Nat) : List Word → Memory
  | [] => m
  | w :: ws => Memory.writeWords (Memory.writeWord m a w) (a + 4) ws

/-- `havoc` of the `n` words from offset `a` on: they become unwritten (rules R14, R60). -/
def havoc (m : Memory) (a n : Nat) : Memory := m.filter fun c => !(a ≤ c.1 && c.1 < a + 4 * n)

end Memory

end Sys2Proof.Machine
end

