-- ==== Sys2Proof/Machine/Operands.lean ====
section
/-! DEFINITION. The operands of the commands: the memory windows and the registers of the address map (rules R33, R84),
the address a host access names (rules R80-R85), and the fixed operand sets of rule R114. -/

namespace Sys2Proof.Machine

/-- Bit vectors packed into words (rule R88). -/
def Bits.ofWords (ws : List Word) : Bits := ws.foldr (fun w acc => w.toNat + acc <<< 32) 0

/-- The first `n` words of a bit vector: bit `i` of it is bit `i mod 32` of word `i / 32` (rule R88). -/
def Bits.toWords (n : Nat) (v : Bits) : List Word := (List.range n).map fun k => BitVec.ofNat 32 (v >>> (32 * k))

/-- The bit vector whose element `i` is entry `i` of the list. -/
def Bits.ofList (l : List Bool) : Bits := l.foldr (fun b acc => b.toNat + 2 * acc) 0

/-- The memories (rule R43). -/
inductive Region where
  | g | pa | pb | pr | sig | s | l | evec | syn | mat
  deriving DecidableEq, Repr

namespace Region

/-- All memories, in the order of rule R84. -/
def all : List Region := [.g, .pa, .pb, .pr, .sig, .s, .l, .evec, .syn, .mat]

/-- The fixed byte offset of a window (rule R84). -/
def base : Region → Nat
  | g => 0x0010000
  | pa => 0x0011000
  | pb => 0x0012000
  | pr => 0x0013000
  | sig => 0x0014000
  | s => 0x0015000
  | l => 0x0040000
  | evec => 0x0080000
  | syn => 0x0082000
  | mat => 0x1000000

/-- The used words of a window (rule R84). -/
def words (p : Params) : Region → Nat
  | g => p.t + 1
  | pa => p.t + 1
  | pb => p.t + 1
  | pr => 2 * p.t + 1
  | sig => p.t + 1
  | s => 2 * p.t
  | l => p.n
  | evec => p.rowWords
  | syn => p.synWords
  | mat => p.r * p.rowWords

/-- The offset of word `i` (rule R85). -/
def addr (r : Region) (i : Nat) : Nat := r.base + 4 * i

/-- The byte offset `a` lies in the used words of the window. -/
def has (p : Params) (r : Region) (a : Nat) : Bool := r.base ≤ a && a < r.base + 4 * r.words p

end Region

/-- The low `n` bits of a word. -/
def lowMask (n : Nat) : Word := BitVec.ofNat 32 (2 ^ min n 32 - 1)

/-- The bits word `i` of a memory holds: an element's M bits (rule R86), or a bit vector's bits short of its length, the
padding above it reading 0 and ignoring writes (rules R88, R89). -/
def wordMask (p : Params) (r : Region) (i : Nat) : Word :=
  match r with
  | .g | .pa | .pb | .pr | .sig | .s | .l => lowMask p.m
  | .evec => lowMask (p.n - 32 * i)
  | .syn => lowMask (p.r - 32 * i)
  | .mat => lowMask (p.n - 32 * (i % p.rowWords))

/-- The registers of 10_state.md section 3. -/
inductive Reg where
  | id | paramM | paramT | paramN | paramK | paramFlags | fieldPoly | paramMunu | goppaMaxTries | fwMaxTries
  | supportDraws | paramR | ctrl | cmd | status | opa | opb | res | weight | tries | accept | bmL | pivmaskLo
  | pivmaskHi | rcntLo | rcntHi
  deriving DecidableEq, Repr

namespace Reg

/-- Every register, in the table's order. -/
def all : List Reg :=
  [id, paramM, paramT, paramN, paramK, paramFlags, fieldPoly, paramMunu, goppaMaxTries, fwMaxTries, supportDraws] ++
  [paramR, ctrl, cmd, status, opa, opb, res, weight, tries, accept, bmL, pivmaskLo, pivmaskHi, rcntLo, rcntHi]

/-- The byte offset of a register (10_state.md section 3). -/
def offset : Reg → Nat
  | id => 0x000
  | paramM => 0x004
  | paramT => 0x008
  | paramN => 0x00C
  | paramK => 0x010
  | paramFlags => 0x014
  | fieldPoly => 0x018
  | paramMunu => 0x01C
  | goppaMaxTries => 0x020
  | fwMaxTries => 0x024
  | supportDraws => 0x028
  | paramR => 0x02C
  | ctrl => 0x040
  | cmd => 0x044
  | status => 0x048
  | opa => 0x050
  | opb => 0x054
  | res => 0x058
  | weight => 0x05C
  | tries => 0x060
  | accept => 0x064
  | bmL => 0x068
  | pivmaskLo => 0x06C
  | pivmaskHi => 0x070
  | rcntLo => 0x074
  | rcntHi => 0x078

/-- The registers whose reads are exact while BUSY: "STATUS, CTRL, CMD, ID and the parameter registers" (rule R357). -/
def exactWhileBusy : Reg → Bool
  | id | paramM | paramT | paramN | paramK | paramFlags | fieldPoly | paramMunu | goppaMaxTries | fwMaxTries
  | supportDraws | paramR | ctrl | cmd | status => true
  | opa | opb | res | weight | tries | accept | bmL | pivmaskLo | pivmaskHi | rcntLo | rcntHi => false

end Reg

/-- What an admissible host access names. -/
inductive Target where
  /-- A register. -/
  | reg (r : Reg)
  /-- A reserved offset of the register window: reads 0, ignores writes (rule R34). -/
  | reserved
  /-- Word `i` of a memory (rule R85). -/
  | word (r : Region) (i : Nat)
  deriving DecidableEq, Repr

/-- The target of a host access, or nothing where it gets a bus error: a misaligned offset, another width than 4 bytes,
an offset outside every window, a word past the used size (rules R81-R85). -/
def locate (p : Params) (addr width : Nat) : Option Target :=
  if width ≠ 4 ∨ addr % 4 ≠ 0 then none
  else if addr < 0x1000 then
    match Reg.all.find? fun r => r.offset == addr with
    | some r => some (.reg r)
    | none => some .reserved
  else
    match Region.all.find? fun r => r.has p addr with
    | some r => some (.word r ((addr - r.base) / 4))
    | none => none

/-- The words one command reads: `count` words of a memory from word `first` on. -/
structure Span where
  region : Region
  first : Nat
  count : Nat
  deriving DecidableEq, Repr

/-- A whole memory. -/
def Region.span (p : Params) (r : Region) : Span := ⟨r, 0, r.words p⟩

/-- The memories a command reads, the "reads" column of rule R114. For ENCODE it is, in each row, the words that hold a
bit of columns R..N-1. -/
def inputSpans (p : Params) : Instr → List Span
  | .nop => []
  | .gfAdd => []
  | .gfMul => []
  | .gfInv => []
  | .polyMul => [Region.pa.span p, Region.pb.span p]
  | .polyMulmod => [Region.pa.span p, Region.pb.span p, Region.g.span p]
  | .irredTest => [Region.g.span p]
  | .goppaSample => []
  | .supportGen => []
  | .buildH => [Region.g.span p, Region.l.span p]
  | .systematize => Region.mat.span p :: if p.variantF then [Region.l.span p] else []
  | .fwSample => []
  | .encode =>
    Region.evec.span p ::
      (List.range p.r).map fun r => ⟨.mat, r * p.rowWords + p.r / 32, p.rowWords - p.r / 32⟩
  | .decSyndrome => [Region.syn.span p, Region.g.span p, Region.l.span p]
  | .bmSolve => [Region.s.span p]
  | .rootFind => [Region.sig.span p, Region.l.span p, Region.g.span p, Region.s.span p]
  | .decode => [Region.syn.span p, Region.g.span p, Region.l.span p]

/-- The memories a command may write, the "writes" column of rule R114 with the refinement of rule R150: what an abort
makes unwritten (rule R146). -/
def writeSet (p : Params) : Instr → List Region
  | .nop => []
  | .gfAdd => []
  | .gfMul => []
  | .gfInv => []
  | .polyMul => [.pr]
  | .polyMulmod => [.pr]
  | .irredTest => []
  | .goppaSample => [.g]
  | .supportGen => [.l]
  | .buildH => [.mat]
  | .systematize => if p.variantF then [.mat, .l] else [.mat]
  | .fwSample => [.evec]
  | .encode => [.syn]
  | .decSyndrome => [.s]
  | .bmSolve => [.sig]
  | .rootFind => [.evec]
  | .decode => [.s, .sig, .evec]

end Sys2Proof.Machine
end

