-- ==== Sys2Proof/Machine/Field.lean ====
section
/-! DEFINITION. Arithmetic in GF(2^M) and on polynomials over it (41_field_arithmetic.md sections 1 and 3), and the
irreducibility predicate (rule R191). A polynomial is the list of its coefficients, index = power (rule R12). -/

namespace Sys2Proof.Machine

/-- `gadd(a, b) = a ^ b` (rule R160). -/
def gadd (a b : Word) : Word := a ^^^ b

/-- The product of `a` and `b` over GF(2), before reduction: add `a*z^i` where bit `i` of `b` is set (rule R161). -/
def gmulRaw (p : Params) (a b : Word) : Word :=
  (List.range p.m).foldl (fun acc i => if b.getLsbD i then acc ^^^ (a <<< i) else acc) 0#32

/-- The reduction of rule R161: from bit 2M-2 down to bit M, add FIELD_POLY where the bit is set; bits M-1..0 stay. -/
def greduce (p : Params) (x : Word) : Word :=
  (List.range (p.m - 1)).foldr (fun k acc => if acc.getLsbD (p.m + k) then acc ^^^ (p.fieldPoly <<< k) else acc) x &&&
    lowMask p.m

/-- `gmul(a, b)`, the product modulo FIELD_POLY (rule R161). -/
def gmul (p : Params) (a b : Word) : Word := greduce p (gmulRaw p a b)

/-- `a^n`, the power computed with gmul, one factor after another. -/
def gpow (p : Params) (a : Word) : Nat → Word
  | 0 => 1#32
  | n + 1 => gmul p (gpow p a n) a

/-- `a^2 * a^4 * ... * a^(2^n)`, with `sq` the square to start from and `acc` the product so far. -/
def squareChain (p : Params) (sq acc : Word) : Nat → Word
  | 0 => acc
  | n + 1 => squareChain p (gmul p sq sq) (gmul p acc (gmul p sq sq)) n

/-- `ginv(a) = a^(2^M - 2)`, and so `ginv(0) = 0` (rule R162). The exponent is 2 + 4 + ... + 2^(M-1), so the power is
the product of M-1 squares. -/
def ginv (p : Params) (a : Word) : Word := squareChain p a 1#32 (p.m - 1)

/-- Coefficient `i` of a polynomial, 0 above the end of the list. -/
def coeff (c : List Word) (i : Nat) : Word := c.getD i 0#32

/-- `peval(P, a)` by Horner's rule from the highest index down (rule R170). -/
def peval (p : Params) (c : List Word) (a : Word) : Word := c.foldr (fun ci v => gadd (gmul p v a) ci) 0#32

/-- `deg(P)`: the largest index with a nonzero coefficient; nothing stands for -1 (rule R12). -/
def degree (c : List Word) : Option Nat := (List.range c.length).reverse.find? fun i => coeff c i != 0#32

/-- `w, w*a, w*a^2, ...`, `n` terms. -/
def geometric (p : Params) (w a : Word) : Nat → List Word
  | 0 => []
  | n + 1 => w :: geometric p (gmul p w a) a n

/-- Coefficient `k` of the product of two polynomials of degree at most `t` (rule R171): `i` runs from max(0, k-t) to
min(k, t). -/
def convAt (p : Params) (t : Nat) (a b : List Word) (k : Nat) : Word :=
  (List.range' (k - t) (min k t + 1 - (k - t))).foldl
    (fun acc i => gadd acc (gmul p (coeff a i) (coeff b (k - i)))) 0#32

/-- The product PR[0..2T] of rule R171. -/
def polyMul (p : Params) (a b : List Word) : List Word := (List.range (2 * p.t + 1)).map (convAt p p.t a b)

/-- One round of rule R173: take `c = P[t + k]` and subtract `c * x^k * g`, which clears P[t + k]. -/
def pmodRound (p : Params) (g : List Word) (t k : Nat) (c : List Word) : List Word :=
  let top := coeff c (t + k)
  (List.range (t + 1)).foldl (fun c i => c.set (k + i) (gadd (coeff c (k + i)) (gmul p top (coeff g i)))) c

/-- `pmod(P, g)`: the remainder of P by the monic `g` of degree `t`, from the highest index down (rule R173). -/
def pmod (p : Params) (c g : List Word) (t : Nat) : List Word :=
  ((List.range (c.length - t)).foldr (pmodRound p g t) c).take t

/-- The `x`-th monic polynomial of degree `d`: coefficient `i` is the `i`-th group of M bits of `x`. -/
def monic (p : Params) (d x : Nat) : List Word :=
  ((List.range d).map fun i => BitVec.ofNat 32 (x >>> (p.m * i)) &&& lowMask p.m) ++ [1#32]

/-- The monic `d` of degree `e` divides `c`. -/
def divides (p : Params) (d : List Word) (e : Nat) (c : List Word) : Bool := (pmod p c d e).all (· == 0#32)

/-- `irreducible(c)` for a monic `c` of degree T (rule R191: "not the product of two polynomials over GF(2^M) of degree
>= 1 each"). Of two such factors one has degree at most T/2, and a scalar multiple of it is monic; so the predicate
holds exactly when no monic polynomial of degree 1 to T/2 divides `c`. -/
def irreducible (p : Params) (c : List Word) : Bool :=
  (List.range (p.t / 2)).all fun e =>
    (List.range (2 ^ (p.m * (e + 1)))).all fun x => !divides p (monic p (e + 1) x) (e + 1) c

end Sys2Proof.Machine
end

