-- ==== Sys2Proof/WellFormed.lean ====
section
/-! DEFINITION. What must hold before the machine has a meaning: a legal parameter record, clause by clause (rule R7),
and a command word in the one format of rule R110. A command has no operand, so `Instr` itself needs no check
(rule R111). -/

namespace Sys2Proof

/-- The remainder of `f` (degree at most `m`) by `d` (degree exactly `e`), both polynomials over GF(2) written as
numbers whose bit `i` is the coefficient of `z^i`. -/
def gf2Mod (m e f d : Nat) : Nat :=
  (List.range (m + 1 - e)).foldr (fun i f => if f.testBit (i + e) then f ^^^ (d <<< i) else f) f

/-- `f`, of degree `m`, is irreducible over GF(2): no polynomial of degree 1 to m/2 divides it. -/
def gf2Irreducible (m f : Nat) : Bool :=
  (List.range (m / 2)).all fun e => (List.range (2 ^ (e + 1))).all fun x => gf2Mod m (e + 1) f (2 ^ (e + 1) + x) != 0

namespace Params

/-- 2 <= M <= 16. -/
def degreeOk (p : Params) : Bool := 2 ≤ p.m && p.m ≤ 16

/-- FIELD_POLY is an (M+1)-bit integer (rule R5) with bit M set, irreducible over GF(2). -/
def polyOk (p : Params) : Bool :=
  p.fieldPoly.toNat < 2 ^ (p.m + 1) && p.fieldPoly.getLsbD p.m && gf2Irreducible p.m p.fieldPoly.toNat

/-- 2 <= T <= 511. -/
def goppaDegreeOk (p : Params) : Bool := 2 ≤ p.t && p.t ≤ 511

/-- R = M*T < N <= 2^M. -/
def lengthOk (p : Params) : Bool := p.r < p.n && p.n ≤ 2 ^ p.m

/-- R * ceil(N/32) <= 2^22. -/
def matrixFits (p : Params) : Bool := p.r * p.rowWords ≤ 2 ^ 22

/-- MU = NU = 0 without the variant; with it 1 <= MU <= R, MU <= NU <= 64 and R - MU + NU <= N. -/
def windowOk (p : Params) : Bool :=
  if p.variantF then 1 ≤ p.mu && p.mu ≤ p.r && p.mu ≤ p.nu && p.nu ≤ 64 && p.r - p.mu + p.nu ≤ p.n
  else p.mu == 0 && p.nu == 0

/-- 1 <= GOPPA_MAX_TRIES < 2^32 and 1 <= FW_MAX_TRIES < 2^32. -/
def triesOk (p : Params) : Bool :=
  1 ≤ p.goppaMaxTries && p.goppaMaxTries < 2 ^ 32 && 1 ≤ p.fwMaxTries && p.fwMaxTries < 2 ^ 32

/-- N <= SUPPORT_DRAWS < 2^32. -/
def drawsOk (p : Params) : Bool := p.n ≤ p.supportDraws && p.supportDraws < 2 ^ 32

/-- Rule R7: the record is legal. No instance is built from another. -/
def legal (p : Params) : Bool :=
  p.degreeOk && p.polyOk && p.goppaDegreeOk && p.lengthOk && p.matrixFits && p.windowOk && p.triesOk && p.drawsOk

end Params

/-- Rule R110: RSVD, bits 31:8 of a command word, must be zero. -/
def rsvdZero (w : Word) : Bool := w.extractLsb' 8 24 == 0#24

end Sys2Proof
end

