-- ==== Sys2Proof/Decode.lean ====
section
/-! DEFINITION. Decoding a CMD word (rules R110, R112, R113, R115), total on all 2^32 words and rejecting by name, and
after it the encoder, written from the same table. -/

namespace Sys2Proof

/-- Why a command word is ILLEGAL (rules R112, R115). Both reasons have the one effect of rule R142. -/
inductive Illegal where
  /-- RSVD, bits 31:8, is not zero. -/
  | reservedBits
  /-- OPCODE, bits 7:0, is not in the table of rule R113. -/
  | reservedOpcode
  deriving DecidableEq, Repr

/-- "every 32-bit word decodes to a command or to ILLEGAL" (rule R112). -/
inductive Decoded where
  | command (i : Instr)
  | illegal (why : Illegal)
  deriving DecidableEq, Repr

/-- OPCODE: bits 7:0 of a command word (rule R110). -/
def opcodeOf (w : Word) : BitVec 8 := w.extractLsb' 0 8

/-- The opcode map of rule R113, read from opcode to command. -/
def ofOpcode (o : BitVec 8) : Option Instr :=
  match o.toNat with
  | 0x00 => some .nop
  | 0x01 => some .gfAdd
  | 0x02 => some .gfMul
  | 0x03 => some .gfInv
  | 0x04 => some .polyMul
  | 0x05 => some .polyMulmod
  | 0x10 => some .irredTest
  | 0x11 => some .goppaSample
  | 0x12 => some .supportGen
  | 0x20 => some .buildH
  | 0x21 => some .systematize
  | 0x30 => some .fwSample
  | 0x31 => some .encode
  | 0x40 => some .decSyndrome
  | 0x41 => some .bmSolve
  | 0x42 => some .rootFind
  | 0x43 => some .decode
  | _ => none

/-- Rule R112, in its order: RSVD first, then the opcode. -/
def decode (w : Word) : Decoded :=
  if rsvdZero w then
    match ofOpcode (opcodeOf w) with
    | some i => .command i
    | none => .illegal .reservedOpcode
  else .illegal .reservedBits

/-- The opcode of a command (rule R113). -/
def opcode : Instr → BitVec 8
  | .nop => 0x00
  | .gfAdd => 0x01
  | .gfMul => 0x02
  | .gfInv => 0x03
  | .polyMul => 0x04
  | .polyMulmod => 0x05
  | .irredTest => 0x10
  | .goppaSample => 0x11
  | .supportGen => 0x12
  | .buildH => 0x20
  | .systematize => 0x21
  | .fwSample => 0x30
  | .encode => 0x31
  | .decSyndrome => 0x40
  | .bmSolve => 0x41
  | .rootFind => 0x42
  | .decode => 0x43

/-- The command word of a command: RSVD zero, then OPCODE (rule R110). -/
def encode (i : Instr) : Word := 0#24 ++ opcode i

/-- The instruction the decoder reads from an instruction of `nbits` bits that are `w`, bits above them zero. A command
is the one 32-bit word written to CMD (rule R110), so nothing is laid out in memory. -/
def decodeTableWord (nbits w : Nat) : Option Instr :=
  match decode (BitVec.ofNat 32 (w % 2 ^ nbits)) with
  | .command i => some i
  | .illegal _ => none

end Sys2Proof
end

