-- ==== Sys2Proof/Machine/Flags.lean ====
section
/-! DEFINITION. STATUS and the interrupt line: the word the host reads, and what issue, completion, an error, a dropped
write and the write-one-to-clear bits do to the flags (rules R37, R38, R140-R143, R330). -/

namespace Sys2Proof.Machine

namespace Status

/-- STATUS as the host reads it (rule R37). -/
def toWord (f : Status) : Word :=
  0#8 ++ f.lastOp ++ 0#4 ++ f.errcode ++ 0#3 ++ BitVec.ofBool f.werr ++ BitVec.ofBool f.err ++ BitVec.ofBool f.ok ++
    BitVec.ofBool f.done ++ BitVec.ofBool f.busy

/-- The STATUS writes of an issue: WERR is kept (rule R140). -/
def issue (f : Status) (opcode : BitVec 8) : Status :=
  { f with busy := true, done := false, ok := false, err := false, errcode := 0#4, lastOp := opcode }

/-- The STATUS writes of a completion with error code `code`, 0 for none (rule R143): OK is `ok`, or 0 on an error, and
ERR is (code != 0). -/
def complete (f : Status) (ok : Bool) (code : BitVec 4) : Status :=
  { f with busy := false, done := true, ok := ok && code == 0#4, err := code != 0#4, errcode := code }

/-- A host write of `w` to STATUS acts on DONE and WERR alone, where it writes 1 (rule R37). -/
def writeOneToClear (f : Status) (w : Word) : Status :=
  { f with done := f.done && !w.getLsbD 1, werr := f.werr && !w.getLsbD 4 }

end Status

/-- The interrupt output: `irq = CTRL.IRQ_EN and STATUS.DONE` (rule R330). -/
def State.irq (s : State) : Bool := s.irqEn && s.status.done

end Sys2Proof.Machine
end

