-- ==== Sys2Proof/Machine/Ops.lean ====
section
/-! DEFINITION. The operations every command shares: loading and storing whole memories, taking randomness (rules R95,
R96), issue (R140), completion (R143), raising an error (R321, the CORE's only exception), and both resets (R350, R351).
There is no return from an error: it transfers no control and saves nothing (rules R323, R325). -/

namespace Sys2Proof.Machine

/-- What a step answers. -/
abbrev Result := Host.Outcome State Fault Refusal

namespace RandomPort

/-- `RndByte()`: take the next byte and count it, RCNT modulo 2^64; nothing while no byte is offered (rule R95). -/
def takeByte (q : RandomPort) : Option (Byte × RandomPort) :=
  match q.offered with
  | [] => none
  | b :: rest => some (b, ⟨rest, q.rcnt + 1⟩)

/-- `DrawElem()`: two bytes, the low one first, truncated to M bits (rule R96). -/
def drawElem (p : Params) (q : RandomPort) : Option (Word × RandomPort) := do
  let (b0, q0) ← q.takeByte
  let (b1, q1) ← q0.takeByte
  return ((0#16 ++ b1 ++ b0) &&& lowMask p.m, q1)

/-- `n` draws in stream order. -/
def draw (p : Params) : Nat → RandomPort → Option (List Word × RandomPort)
  | 0, q => some ([], q)
  | n + 1, q => do
    let (x, q0) ← q.drawElem p
    let (xs, q1) ← RandomPort.draw p n q0
    return (x :: xs, q1)

end RandomPort

namespace State

/-- The words of a memory from its first word on, or nothing where one is unwritten. -/
def load (s : State) (r : Region) : Option (List Word) := Memory.readWords s.mem r.base (r.words s.params)

/-- The words of one span of a command's inputs. -/
def loadSpan (s : State) (x : Span) : Option (List Word) := Memory.readWords s.mem (x.region.addr x.first) x.count

/-- A bit memory as one bit vector (rule R88). -/
def loadBits (s : State) (r : Region) : Option Bits := (s.load r).map Bits.ofWords

/-- The rows of MAT, each one bit vector (rule R89): `ROW_WORDS` words at a time. -/
def loadRows (s : State) : Option (List Bits) :=
  (List.range s.params.r).mapM fun r =>
    (s.loadSpan ⟨.mat, r * s.params.rowWords, s.params.rowWords⟩).map Bits.ofWords

/-- Write words from the first word of a memory on. -/
def store (s : State) (r : Region) (ws : List Word) : State := { s with mem := Memory.writeWords s.mem r.base ws }

/-- Write a bit memory (rule R88). -/
def storeBits (s : State) (r : Region) (v : Bits) : State := s.store r (Bits.toWords (r.words s.params) v)

/-- Write all rows of MAT (rule R89). -/
def storeRows (s : State) (rows : List Bits) : State :=
  s.store .mat (rows.flatMap fun row => Bits.toWords s.params.rowWords row)

/-- `havoc(X)`: every word of a memory becomes unwritten (rule R14). -/
def havoc (s : State) (r : Region) : State := { s with mem := Memory.havoc s.mem r.base (r.words s.params) }

/-- Every memory word the command reads is written (rules R60, R114). -/
def inputsWritten (s : State) (i : Instr) : Bool := (inputSpans s.params i).all fun x => (s.loadSpan x).isSome

/-- The state an issue leaves: CMD has the word, STATUS the flags of a command in flight, ENG is BUSY (rule R140). -/
def issue (s : State) (w : Word) (i : Instr) : State :=
  { s with cmd := w, status := s.status.issue (opcodeOf w), eng := .busy i }

/-- `complete(ok)` (rule R143). -/
def complete (s : State) (ok : Bool) : State := { s with status := s.status.complete ok 0#4, eng := .idle }

/-- `raise Error(code)`: the command in flight ends with OK = 0, ERR = 1 and ERRCODE = code; the writes its rule lists
have been made in `s` (rules R143, R321). -/
def raiseError (s : State) (code : BitVec 4) : State :=
  { s with status := s.status.complete false code, eng := .idle }

/-- ILLEGAL, ERRCODE 1 (rule R320). -/
abbrev errIllegal : BitVec 4 := 1#4
/-- OPERAND, ERRCODE 2 (rule R320). -/
abbrev errOperand : BitVec 4 := 2#4
/-- EXHAUSTED, ERRCODE 3 (rule R320). -/
abbrev errExhausted : BitVec 4 := 3#4

/-- An ILLEGAL word issues and completes at once: CMD and STATUS change and nothing else (rules R140, R142). -/
def illegalCommand (s : State) (w : Word) : State :=
  State.raiseError { s with cmd := w, status := s.status.issue (opcodeOf w) } errIllegal

/-- Every register at its reset value and ENG idle (rule R61). The parameter registers keep theirs (rule R33). The
memory, the stream and the inputs still to come are no registers. -/
def resetRegisters (s : State) : State :=
  { State.resetOf s.params with
    port := ⟨s.port.offered, 0#64⟩
    mem := s.mem
    inputs := s.inputs
    rdata := s.rdata
    draws := s.draws }

/-- Drop from the stream the bytes an aborted command had taken: a draw between 0 and its full consumption `full`
(rule R146, U14). The draw is counted, so that the next free value is another one. -/
def loseBytes (s : State) (full : Nat) : State :=
  { s with
    port := { s.port with offered := s.port.offered.drop (Config.freeTaken s.draws % (full + 1)) }
    draws := s.draws + 1 }

/-- Abandon the command in flight, which would have taken `full` bytes: those it had taken are lost, and its write set
becomes unwritten (rule R146). -/
def abort (s : State) (i : Instr) (full : Nat) : State :=
  (writeSet s.params i).foldl State.havoc (s.loseBytes full)

/-- The soft reset of CTRL.SRST (rule R351). -/
def softReset (s : State) (full : Nat) : State :=
  match s.eng with
  | .idle => s.resetRegisters
  | .busy i => (s.abort i full).resetRegisters

/-- The power-on reset (rule R350): as the soft reset, and every memory word is unwritten. -/
def powerOn (s : State) (full : Nat) : State := { s.softReset full with mem := [] }

/-- A host write while BUSY is dropped and sets WERR (rules R141, R356). -/
def dropWrite (s : State) : State := { s with status := { s.status with werr := true } }

end State

/-- The value a host read of a register returns (10_state.md section 3; rules R33, R35-R42). Bits that are not listed
read 0 (rule R34). -/
def readReg (s : State) : Reg → Word
  | .id => s.params.coreId
  | .paramM => BitVec.ofNat 32 s.params.m
  | .paramT => BitVec.ofNat 32 s.params.t
  | .paramN => BitVec.ofNat 32 s.params.n
  | .paramK => BitVec.ofNat 32 s.params.k
  | .paramFlags => 0#30 ++ BitVec.ofBool s.params.nEqQ ++ BitVec.ofBool s.params.variantF
  | .fieldPoly => s.params.fieldPoly
  | .paramMunu => 0#9 ++ BitVec.ofNat 7 s.params.nu ++ 0#2 ++ BitVec.ofNat 14 s.params.mu
  | .goppaMaxTries => BitVec.ofNat 32 s.params.goppaMaxTries
  | .fwMaxTries => BitVec.ofNat 32 s.params.fwMaxTries
  | .supportDraws => BitVec.ofNat 32 s.params.supportDraws
  | .paramR => BitVec.ofNat 32 s.params.r
  | .ctrl => 0#30 ++ BitVec.ofBool s.irqEn ++ 0#1
  | .cmd => s.cmd
  | .status => s.status.toWord
  | .opa => s.opa
  | .opb => s.opb
  | .res => s.res
  | .weight => s.weight.setWidth 32
  | .tries => s.tries
  | .accept => s.accept.setWidth 32
  | .bmL => s.bmL.setWidth 32
  | .pivmaskLo => s.pivmask.extractLsb' 0 32
  | .pivmaskHi => s.pivmask.extractLsb' 32 32
  | .rcntLo => s.port.rcnt.extractLsb' 0 32
  | .rcntHi => s.port.rcnt.extractLsb' 32 32

end Sys2Proof.Machine
end

