-- ==== Sys2Proof/Machine/Matrix.lean ====
section
/-! DEFINITION. The parity-check matrix builder and the row-reducer: BUILD_H, SYSTEMATIZE (43_matrix.md). The matrix is
the list of its rows; MAT[r][c] is bit `c` of row `r` (rule R13). -/

namespace Sys2Proof.Machine

/-- The elements of one column, one per power: `L[i]^j / g(L[i])` for j = 0..T-1 (rules R220, R221). -/
def columnElems (p : Params) (g : List Word) (a : Word) : List Word := geometric p (ginv p (peval p g a)) a p.t

/-- The rows of the parity-check matrix: row j*M + b holds bit b of power j (rule R221). -/
def parityRows (p : Params) (g l : List Word) : List Bits :=
  let cols := l.map (columnElems p g)
  (List.range p.r).map fun r => Bits.ofList (cols.map fun col => (coeff col (r / p.m)).getLsbD (r % p.m))

/-- `g(L[i]) != 0` for every i. -/
def noRoots (p : Params) (g l : List Word) : Bool := l.all fun a => peval p g a != 0#32

/-- BUILD_H: MAT from G and L; OK = 0 where some g(L[i]) = 0, with MAT still written (rules R220, R222). -/
def execBuildH (s : State) : Result :=
  match s.load .g, s.load .l with
  | some g, some l => .next ((s.storeRows (parityRows s.params g l)).complete (noRoots s.params g l))
  | _, _ => .fault .uninit

/-- The smallest row index >= `from` with a 1 in column `c`. -/
def pivotRow (rows : List Bits) (c start : Nat) : Option Nat :=
  (List.range' start (rows.length - start)).find? fun j => (rows.getD j 0).testBit c

/-- Entries `i` and `j` of a list swapped. -/
def swapAt {α : Type} (d : α) (xs : List α) (i j : Nat) : List α := (xs.set i (xs.getD j d)).set j (xs.getD i d)

/-- Add row `r` to every other row with a 1 in column `c`. -/
def clearColumn (rows : List Bits) (c r : Nat) : List Bits :=
  rows.mapIdx fun j row => if j ≠ r ∧ row.testBit c then row ^^^ rows.getD r 0 else row

/-- Swap a row with a 1 in column `c` into row `r`, from the rows at `r` or below, and clear the column elsewhere. -/
def pivotAt (rows : List Bits) (c r : Nat) : Option (List Bits) :=
  (pivotRow rows c r).map fun j => clearColumn (swapAt 0 rows r j) c r

/-- `eliminate(c, c + n)`: Gauss-Jordan elimination on `n` columns from `c` on, the pivot of a column in the row of its
number; nothing where a column has no pivot (rule R223). -/
def eliminate (rows : List Bits) (c : Nat) : Nat → Option (List Bits)
  | 0 => some rows
  | n + 1 =>
    match pivotAt rows c c with
    | some rows' => eliminate rows' (c + 1) n
    | none => none

/-- The pivot columns of the reduced row echelon form, among the `n` columns from `c` on, `rk` pivots found so far
(rule R225). -/
def echelonPivots (rows : List Bits) (c rk : Nat) : Nat → List Nat
  | 0 => []
  | n + 1 =>
    match pivotAt rows c rk with
    | some rows' => c :: echelonPivots rows' (c + 1) (rk + 1) n
    | none => echelonPivots rows (c + 1) rk n

/-- Columns `i` and `j` of one row swapped. -/
def swapBits (i j : Nat) (row : Bits) : Bits :=
  if row.testBit i = row.testBit j then row else row ^^^ (1 <<< i) ^^^ (1 <<< j)

/-- The window W of rule R225: rows s..R-1, columns s..s+NU-1. -/
def window (p : Params) (rows : List Bits) : List Bits :=
  (rows.drop (p.r - p.mu)).map fun row => (row >>> (p.r - p.mu)) % 2 ^ p.nu

/-- The swaps of rule R225, `j` ascending from `at`: columns s+j and s+p_j of MAT, and L[s+j] and L[s+p_j]. -/
def swapPivots (s : Nat) (rows : List Bits) (l : List Word) (j : Nat) : List Nat → List Bits × List Word
  | [] => (rows, l)
  | pj :: rest =>
    if pj = j then swapPivots s rows l (j + 1) rest
    else swapPivots s (rows.map (swapBits (s + j) (s + pj))) (swapAt 0#32 l (s + j) (s + pj)) (j + 1) rest

/-- What a successful semi-systematic reduction leaves: MAT, L and PIVMASK. -/
structure Systematic where
  rows : List Bits
  l : List Word
  pivmask : Nat
  deriving DecidableEq, Repr

/-- `semi_systematic()` (rule R225); nothing where it fails. The last elimination "always succeeds here"; were it to
fail, this too would be a failure. -/
def semiSystematic (p : Params) (rows : List Bits) (l : List Word) : Option Systematic := do
  let s := p.r - p.mu
  let rows1 ← eliminate rows 0 s
  let piv := echelonPivots (window p rows1) 0 0 p.nu
  if piv.length < p.mu then none
  else
    let (rows2, l2) := swapPivots s rows1 l 0 piv
    let rows3 ← eliminate rows2 s p.mu
    return ⟨rows3, l2, (piv.map (2 ^ ·)).sum⟩

/-- A failed reduction: MAT is havoc'd, PIVMASK is 0, L is left, OK = 0 (rules R223, R227). -/
def State.systematizeFails (s : State) : State := State.complete { s.havoc .mat with pivmask := 0#64 } false

/-- SYSTEMATIZE: plain (rules R223, R224), or semi-systematic when VARIANT_F = 1, with L permuted and PIVMASK written
(rules R225, R226). -/
def execSystematize (s : State) : Result :=
  match s.loadRows with
  | none => .fault .uninit
  | some rows =>
    if s.params.variantF then
      match s.load .l with
      | none => .fault .uninit
      | some l =>
        match semiSystematic s.params rows l with
        | none => .next s.systematizeFails
        | some out =>
          .next (State.complete
            { (s.storeRows out.rows).store .l out.l with pivmask := BitVec.ofNat 64 out.pivmask } true)
    else
      match eliminate rows 0 s.params.r with
      | none => .next s.systematizeFails
      | some rows' => .next (State.complete { s.storeRows rows' with pivmask := 0#64 } true)

end Sys2Proof.Machine
end

