-- ==== Sys2Proof/Machine/Decoder.lean ====
section
/-! DEFINITION. The decoder: DEC_SYNDROME, BM_SOLVE, ROOT_FIND, DECODE (45_decoder.md). -/

namespace Sys2Proof.Machine

/-- The doubled syndrome s_0..s_{2T-1} of an N-bit vector under (G, L) (rule R281), accumulated as rule R280's loop
does: every point adds `v_i * L[i]^j * ginv(g(L[i])^2)` to s_j. -/
def doubledSyndrome (p : Params) (g l : List Word) (v : Bits) : List Word :=
  l.zipIdx.foldl
    (fun acc (a, i) =>
      let e := peval p g a
      let vi : Word := if v.testBit i then 1#32 else 0#32
      List.zipWith (fun x w => gadd x (gmul p w vi)) acc (geometric p (ginv p (gmul p e e)) a (2 * p.t)))
    (List.replicate (2 * p.t) 0#32)

/-- DEC_SYNDROME: S from SYN padded with zeros; OK = 0 where some g(L[i]) = 0, with S still written (rule R280). -/
def execDecSyndrome (s : State) : Result :=
  match s.loadBits .syn, s.load .g, s.load .l with
  | some v, some g, some l =>
    .next ((s.store .s (doubledSyndrome s.params g l v)).complete (noRoots s.params g l))
  | _, _, _ => .fault .uninit

/-- The working storage of the Berlekamp-Massey recurrence (rule R283): C, B, b and Lc. -/
structure Bm where
  c : List Word
  b : List Word
  beta : Word
  len : Nat
  deriving DecidableEq, Repr

/-- The discrepancy `d` of iteration `n` (rule R283). -/
def discrepancy (p : Params) (c syn : List Word) (n : Nat) : Word :=
  (List.range (min n p.t + 1)).foldl (fun d i => gadd d (gmul p (coeff c i) (coeff syn (n - i)))) 0#32

/-- Iteration `n` of the recurrence (rule R283). -/
def bmStep (p : Params) (syn : List Word) (x : Bm) (n : Nat) : Bm :=
  let d := discrepancy p x.c syn n
  let f := gmul p d (ginv p x.beta)
  let mne := d != 0#32
  let mle := mne && decide (2 * x.len ≤ n)
  { c := if mne then List.zipWith (fun ci bi => gadd ci (gmul p f bi)) x.c x.b else x.c
    b := 0#32 :: (if mle then x.c else x.b).take p.t
    beta := if mle then d else x.beta
    len := if mle then n + 1 - x.len else x.len }

/-- C = [1, 0, ..., 0], B = [0, 1, 0, ..., 0], b = 1, Lc = 0 (rule R283). -/
def bmInit (p : Params) : Bm where
  c := 1#32 :: List.replicate p.t 0#32
  b := 0#32 :: 1#32 :: List.replicate (p.t - 1) 0#32
  beta := 1#32
  len := 0

/-- The recurrence over all 2T syndromes. -/
def bmRun (p : Params) (syn : List Word) : Bm := (List.range (2 * p.t)).foldl (bmStep p syn) (bmInit p)

/-- SIG[i] = C[T - i] (rules R283, R284). -/
def locator (x : Bm) : List Word := x.c.reverse

/-- BM_SOLVE: SIG, BM_L; OK = (Lc <= T) (rule R283). -/
def execBmSolve (s : State) : Result :=
  match s.load .s with
  | some syn =>
    let x := bmRun s.params syn
    .next (State.complete { s.store .sig (locator x) with bmL := BitVec.ofNat 16 x.len } (decide (x.len ≤ s.params.t)))
  | none => .fault .uninit

/-- EVEC[i] = (peval(SIG, L[i]) = 0), for all N points (rule R287). -/
def rootFlags (p : Params) (sig l : List Word) : List Bool := l.map fun a => peval p sig a == 0#32

/-- ROOT_FIND's OK: W = T, W = deg SIG, and the doubled syndrome of EVEC equals S (rules R287, R289). -/
def rootsOk (p : Params) (sig l g syn : List Word) : Bool :=
  let flags := rootFlags p sig l
  let w := flags.count true
  w == p.t && degree sig == some w && doubledSyndrome p g l (Bits.ofList flags) == syn

/-- The writes of ROOT_FIND: EVEC and WEIGHT (rule R287). -/
def State.storeRoots (s : State) (flags : List Bool) : State :=
  State.storeBits { s with weight := BitVec.ofNat 17 (flags.count true) } .evec (Bits.ofList flags)

/-- ROOT_FIND (rule R287). -/
def execRootFind (s : State) : Result :=
  match s.load .sig, s.load .l, s.load .g, s.load .s with
  | some sig, some l, some g, some syn =>
    .next ((s.storeRoots (rootFlags s.params sig l)).complete (rootsOk s.params sig l g syn))
  | _, _, _, _ => .fault .uninit

/-- DECODE: the three stages as one atomic command, each reading the outputs of the one before; OK = ok1 and ok2
(rule R291). -/
def execDecode (s : State) : Result :=
  match s.loadBits .syn, s.load .g, s.load .l with
  | some v, some g, some l =>
    let syn := doubledSyndrome s.params g l v
    let x := bmRun s.params syn
    let sig := locator x
    .next (((State.storeRoots { (s.store .s syn).store .sig sig with bmL := BitVec.ofNat 16 x.len }
      (rootFlags s.params sig l))).complete (noRoots s.params g l && rootsOk s.params sig l g syn))
  | _, _, _ => .fault .uninit

end Sys2Proof.Machine
end

