-- ==== Sys2Proof/Machine/GoppaSupport.lean ====
section
/-! DEFINITION. IRRED_TEST, GOPPA_SAMPLE, SUPPORT_GEN (42_goppa_support.md), and the bounded attempt loop the two
samplers share. A command that asks for a byte the source has not offered waits: it stays BUSY, and its meaning answers
the state unchanged (rule R95; the bytes it has taken so far become visible at completion, rule R93). -/

namespace Sys2Proof.Machine

/-- How a bounded run of attempts ends. -/
inductive Sampled (α : Type) where
  /-- A byte was asked for that has not been offered (rule R95). -/
  | waits
  /-- Attempt number `tries` succeeded. -/
  | found (tries : Nat) (value : α) (port : RandomPort)
  /-- Every attempt was rejected. -/
  | exhausted (port : RandomPort)
  deriving Repr

/-- At most `left` more attempts, `made` of them done: the loop of rules R192 and R250. An attempt that can be made
answers the port it leaves, with a value where it succeeds. -/
def attempts {α : Type} (attempt : RandomPort → Option (Option α × RandomPort)) (made : Nat) (q : RandomPort) :
    Nat → Sampled α
  | 0 => .exhausted q
  | left + 1 =>
    match attempt q with
    | none => .waits
    | some (some x, q') => .found (made + 1) x q'
    | some (none, q') => attempts attempt (made + 1) q' left

/-- IRRED_TEST: OPERAND when G[T] != 1; otherwise OK is the predicate (rule R190). -/
def execIrredTest (s : State) : Result :=
  match s.load .g with
  | some g =>
    if coeff g s.params.t ≠ 1#32 then .next (s.raiseError State.errOperand)
    else .next (s.complete (irreducible s.params g))
  | none => .fault .uninit

/-- One attempt of GOPPA_SAMPLE: T draws, draw `i` the coefficient of x^i, the leading coefficient 1 (rule R193). -/
def goppaAttempt (p : Params) (q : RandomPort) : Option (Option (List Word) × RandomPort) :=
  (q.draw p p.t).map fun (r, q') => (if irreducible p (r ++ [1#32]) then some (r ++ [1#32]) else none, q')

/-- GOPPA_SAMPLE: G and TRIES from the first irreducible candidate; on exhaustion TRIES is the ceiling, G is havoc'd
and EXHAUSTED is raised (rules R192, R195). -/
def execGoppaSample (s : State) : Result :=
  match attempts (goppaAttempt s.params) 0 s.port s.params.goppaMaxTries with
  | .waits => .next s
  | .found a g q => .next ((State.store { s with port := q, tries := BitVec.ofNat 32 a } .g g).complete true)
  | .exhausted q =>
    .next ((State.havoc { s with port := q, tries := BitVec.ofNat 32 s.params.goppaMaxTries } .g).raiseError
      State.errExhausted)

/-- The candidates SUPPORT_GEN accepts, in order of first acceptance: not a duplicate, and fewer than N so far
(rule R197). -/
def acceptSupport (p : Params) (draws : List Word) : List Word :=
  draws.foldl (fun w c => if w.length < p.n ∧ c ∉ w then w ++ [c] else w) []

/-- SUPPORT_GEN: all SUPPORT_DRAWS draws are taken; ACCEPT counts the accepted ones; N of them are L, fewer are a
shortfall, OK = 0 with L havoc'd (rule R197). -/
def execSupportGen (s : State) : Result :=
  match s.port.draw s.params s.params.supportDraws with
  | none => .next s
  | some (ds, q) =>
    let w := acceptSupport s.params ds
    let t := { s with port := q, accept := BitVec.ofNat 17 w.length }
    if w.length = s.params.n then .next ((t.store .l w).complete true) else .next ((t.havoc .l).complete false)

end Sys2Proof.Machine
end

