-- ==== Sys2Proof/Machine/EncoderSampler.lean ====
section
/-! DEFINITION. The fixed-weight error sampler and the syndrome encoder: FW_SAMPLE, ENCODE (44_encoder_sampler.md). -/

namespace Sys2Proof.Machine

/-- The candidate positions of one attempt, or nothing where it fails: all draws when N = 2^M, else the first T draws
below N; they must be pairwise distinct (rule R251). -/
def positions (p : Params) (draws : List Word) : Option (List Nat) :=
  let pos := if p.nEqQ then draws.map BitVec.toNat else ((draws.map BitVec.toNat).filter (· < p.n)).take p.t
  if pos.length = p.t ∧ pos.Nodup then some pos else none

/-- One attempt of FW_SAMPLE: it takes all its tau draws (rules R250, R251). -/
def fwAttempt (p : Params) (q : RandomPort) : Option (Option (List Nat) × RandomPort) :=
  (q.draw p p.tau).map fun (d, q') => (positions p d, q')

/-- The bit vector with exactly the bits `pos` set. -/
def Bits.ofPositions (pos : List Nat) : Bits := pos.foldl (fun v i => v ||| (1 <<< i)) 0

/-- FW_SAMPLE: EVEC, WEIGHT and TRIES from the first attempt that succeeds; on exhaustion TRIES is the ceiling,
WEIGHT is 0, EVEC is havoc'd and EXHAUSTED is raised (rule R250). -/
def execFwSample (s : State) : Result :=
  match attempts (fwAttempt s.params) 0 s.port s.params.fwMaxTries with
  | .waits => .next s
  | .found a pos q =>
    .next ((State.storeBits
      { s with port := q, weight := BitVec.ofNat 17 s.params.t, tries := BitVec.ofNat 32 a }
      .evec (Bits.ofPositions pos)).complete true)
  | .exhausted q =>
    .next ((State.havoc { s with port := q, weight := 0#17, tries := BitVec.ofNat 32 s.params.fwMaxTries }
      .evec).raiseError State.errExhausted)

/-- SYN[r]: EVEC[r] for the implicit identity column, and row `r` of the right block times EVEC[R..N-1] (rule R255). -/
def syndromeBit (p : Params) (e : Bits) (r : Nat) (row : Bits) : Bool :=
  (List.range p.k).foldl (fun b c => b ^^ (row.testBit (p.r + c) && e.testBit (p.r + c))) (e.testBit r)

/-- The rows of MAT as ENCODE reads them: only the words that hold a bit of columns R..N-1 (rule R114). -/
def State.loadRightBlock (s : State) : Option (List Bits) :=
  (List.range s.params.r).mapM fun r =>
    (s.loadSpan ⟨.mat, r * s.params.rowWords + s.params.r / 32, s.params.rowWords - s.params.r / 32⟩).map
      fun ws => Bits.ofWords ws <<< (32 * (s.params.r / 32))

/-- ENCODE: SYN = [I_R | T] * EVEC, whatever EVEC's weight (rules R255-R257). -/
def execEncode (s : State) : Result :=
  match s.loadBits .evec, s.loadRightBlock with
  | some e, some rows =>
    .next ((s.storeBits .syn (Bits.ofList (rows.mapIdx fun r row => syndromeBit s.params e r row))).complete true)
  | _, _ => .fault .uninit

end Sys2Proof.Machine
end

