-- ==== Sys2Proof/Machine/FieldArithmetic.lean ====
section
/-! DEFINITION. The GF(2^m) arithmetic unit: GF_ADD, GF_MUL, GF_INV, POLY_MUL, POLY_MULMOD (41_field_arithmetic.md
sections 2 and 3). -/

namespace Sys2Proof.Machine

/-- GF_ADD: RES <- gadd(OPA, OPB) (rule R163). -/
def execGfAdd (s : State) : Result := .next (State.complete { s with res := gadd s.opa s.opb } true)

/-- GF_MUL: RES <- gmul(OPA, OPB) (rule R164). -/
def execGfMul (s : State) : Result := .next (State.complete { s with res := gmul s.params s.opa s.opb } true)

/-- GF_INV: RES <- ginv(OPA); inverting 0 is no error (rule R165). -/
def execGfInv (s : State) : Result := .next (State.complete { s with res := ginv s.params s.opa } true)

/-- POLY_MUL: PR[0..2T] <- PA * PB (rule R171). -/
def execPolyMul (s : State) : Result :=
  match s.load .pa, s.load .pb with
  | some a, some b => .next ((s.store .pr (polyMul s.params a b)).complete true)
  | _, _ => .fault .uninit

/-- PR after POLY_MULMOD: the remainder of the product by G, then zeros up to PR[2T] (rules R172, R173). -/
def mulmod (p : Params) (a b g : List Word) : List Word :=
  pmod p (polyMul p a b) g p.t ++ List.replicate (p.t + 1) 0#32

/-- POLY_MULMOD: OPERAND when G[T] != 1, before any write; otherwise PR[0..T-1] <- PA * PB mod G, PR[T..2T] <- 0
(rule R172). -/
def execPolyMulmod (s : State) : Result :=
  match s.load .pa, s.load .pb, s.load .g with
  | some a, some b, some g =>
    if coeff g s.params.t ≠ 1#32 then .next (s.raiseError State.errOperand)
    else .next ((s.store .pr (mulmod s.params a b g)).complete true)
  | _, _, _ => .fault .uninit

end Sys2Proof.Machine
end

