-- ==== Sys2Proof/Machine/Protocol.lean ====
section
/-! DEFINITION. The family 0x0_ of rule R113 that has no unit of its own: NOP (40_command_protocol.md section 3). A
meaning is the command's step from the state its issue left to the state its completion leaves (rules R93, R143). -/

namespace Sys2Proof.Machine

/-- NOP: `complete(1)` (rule R149). -/
def execNop (s : State) : Result := .next (s.complete true)

end Sys2Proof.Machine
end

