-- ==== Sys2Proof/Machine/Dispatch.lean ====
section
/-! DEFINITION. One arm per command: its run from the state its issue left to the state its completion leaves. -/

namespace Sys2Proof.Machine

def exec (i : Instr) (s : State) : Host.Outcome State Fault Refusal :=
  match i with
  | .nop => Sys2Proof.Machine.execNop s
  | .gfAdd => Sys2Proof.Machine.execGfAdd s
  | .gfMul => Sys2Proof.Machine.execGfMul s
  | .gfInv => Sys2Proof.Machine.execGfInv s
  | .polyMul => Sys2Proof.Machine.execPolyMul s
  | .polyMulmod => Sys2Proof.Machine.execPolyMulmod s
  | .irredTest => Sys2Proof.Machine.execIrredTest s
  | .goppaSample => Sys2Proof.Machine.execGoppaSample s
  | .supportGen => Sys2Proof.Machine.execSupportGen s
  | .buildH => Sys2Proof.Machine.execBuildH s
  | .systematize => Sys2Proof.Machine.execSystematize s
  | .fwSample => Sys2Proof.Machine.execFwSample s
  | .encode => Sys2Proof.Machine.execEncode s
  | .decSyndrome => Sys2Proof.Machine.execDecSyndrome s
  | .bmSolve => Sys2Proof.Machine.execBmSolve s
  | .rootFind => Sys2Proof.Machine.execRootFind s
  | .decode => Sys2Proof.Machine.execDecode s

end Sys2Proof.Machine
end

