-- ==== Sys2Proof/Machine/Bus.lean ====
section
/-! DEFINITION. The ports (rule R32): host reads and writes, the issue of a command by a CMD write, the randomness
source and the reset input, while the engine is IDLE and while it is BUSY (rules R36, R80-R92, R140-R142, R350-R357). -/

namespace Sys2Proof.Machine

/-- What the host gets from a read while the engine is IDLE: a register's value, 0 for a reserved offset, a memory
word, or nothing where the word is unwritten (rules R34, R60). -/
def readTarget (s : State) : Target → Option Word
  | .reg r => some (readReg s r)
  | .reserved => some 0#32
  | .word r i => Memory.readWord s.mem (r.addr i)

/-- A read of this target is exact while BUSY; any other is a draw (rule R357). -/
def Target.exactWhileBusy : Target → Bool
  | .reg r => r.exactWhileBusy
  | .reserved => true
  | .word _ _ => false

namespace State

/-- An UNSPECIFIED read while BUSY: the free value of this draw (rules R42, R357). -/
def drawRead (s : State) : State := { s with rdata := Config.freeRead s.draws, draws := s.draws + 1 }

/-- The bytes the command in flight would take if nothing disturbed it: its whole consumption where the bytes offered
let it complete; where it waits, all bytes offered are within its consumption (rules R95, R146). -/
def consumption (s : State) : Nat :=
  match s.eng with
  | .idle => 0
  | .busy i =>
    match exec i s with
    | .next t => if t.eng = .idle then s.port.offered.length - t.port.offered.length else s.port.offered.length
    | _ => 0

end State

/-- The command raises OPERAND from this state: it needs a monic G, and G[T] != 1 (rules R172, R190). -/
def State.operandError (s : State) (i : Instr) : Bool :=
  match i with
  | .polyMulmod | .irredTest => (s.load .g).any fun g => coeff g s.params.t != 1#32
  | .nop | .gfAdd | .gfMul | .gfInv | .polyMul | .goppaSample | .supportGen | .buildH | .systematize | .fwSample | .encode
  | .decSyndrome | .bmSolve | .rootFind | .decode => false

/-- A host write of `w` to CMD while IDLE (rules R36, R140). An ILLEGAL word completes at once (R142). A command
whose inputs are not all written faults at issue (R147), and OPERAND is raised at issue and ends the command at once (R14,
R321, R324); that neither can be seen BUSY is notes/assumptions/23.md. Otherwise the command runs to its completion within
this step (R93), or stays in flight where the schedule says that the next input overlaps it (notes/assumptions/4.md). -/
def issueCommand (w : Word) (overlap : Bool) (s : State) : Result :=
  match decode w with
  | .illegal _ => .next (s.illegalCommand w)
  | .command i =>
    if overlap && !s.operandError i then if s.inputsWritten i then .next (s.issue w i) else .fault .uninit
    else exec i (s.issue w i)

/-- A host write to CTRL, in any engine state: SRST = 1 is the soft reset and the other bits are ignored; otherwise
IRQ_EN is written (rules R35, R351). -/
def writeCtrl (w : Word) (s : State) : State :=
  if w.getLsbD 0 then s.softReset s.consumption else { s with irqEn := w.getLsbD 1 }

/-- A host write while IDLE to a register other than CMD, CTRL and STATUS: OPA and OPB keep the low M bits (rule R39);
every other one is read-only and ignores it (10_state.md section 3). -/
def writeReg (r : Reg) (w : Word) (s : State) : State :=
  match r with
  | .opa => { s with opa := w &&& lowMask s.params.m }
  | .opb => { s with opb := w &&& lowMask s.params.m }
  | .ctrl | .cmd | .status | .id | .paramM | .paramT | .paramN | .paramK | .paramFlags | .fieldPoly | .paramMunu
  | .goppaMaxTries | .fwMaxTries | .supportDraws | .paramR | .res | .weight | .tries | .accept | .bmL | .pivmaskLo
  | .pivmaskHi | .rcntLo | .rcntHi => s

/-- A host write while IDLE to word `i` of a memory: the bits the word holds are stored, the others dropped (rules R86,
R88), and the word is written from then on (rule R60). -/
def writeMem (r : Region) (i : Nat) (w : Word) (s : State) : State :=
  { s with mem := Memory.writeWord s.mem (r.addr i) (w &&& wordMask s.params r i) }

/-- An accepted host read (rules R83, R92, R357). An erroring read answers the read data 0 with the error response (R83).
A memory word read while BUSY is a draw whether it is written or not: rule R60 would fault an unwritten one, rule R357 makes
any one a draw, and the model takes rule R357 (DESIGN CHOICE, notes/assumptions/25.md). -/
def hostRead (addr width : Nat) (s : State) : Result :=
  match locate s.params addr width with
  | none => .fault (.busError (some 0#32))
  | some x =>
    if s.eng ≠ .idle ∧ x.exactWhileBusy = false then .next s.drawRead
    else
      match readTarget s x with
      | some v => .next { s with rdata := v }
      | none => .fault .uninit

/-- An accepted host write. CTRL and STATUS take it in any engine state (rules R35, R37). Any other write while BUSY is
dropped and sets WERR (rules R141, R356). While IDLE, CMD issues a command, a memory word and OPA, OPB are stored, and a
reserved or read-only offset ignores it (rules R34, R36, R39). -/
def hostWrite (addr width : Nat) (w : Word) (overlap : Bool) (s : State) : Result :=
  match locate s.params addr width with
  | none => .fault (.busError none)
  | some (.reg .ctrl) => .next (writeCtrl w s)
  | some (.reg .status) => .next { s with status := s.status.writeOneToClear w }
  | some x =>
    if s.eng ≠ .idle then .next s.dropWrite
    else
      match x with
      | .reg .cmd => issueCommand w overlap s
      | .reg r => .next (writeReg r w s)
      | .reserved => .next s
      | .word r i => .next (writeMem r i w s)

/-- One input taken by its port. -/
def accept (x : Input) (s : State) : Result :=
  match x.act with
  | .read addr width => hostRead addr width s
  | .write addr width w => hostWrite addr width w x.overlap s
  | .offer b => .next { s with port := { s.port with offered := s.port.offered ++ [b] } }
  | .powerOn => .next (s.powerOn s.consumption)

/-- The ports take the oldest input; with none, the CORE waits (rule R352). -/
def acceptNext (s : State) : Result :=
  match s.inputs with
  | [] => .next s
  | x :: rest => accept x { s with inputs := rest }

/-- The oldest input is one the port accepts before the command in flight completes. -/
def State.inputOverlaps (s : State) : Bool :=
  match s.inputs with
  | [] => false
  | x :: _ => x.overlap

/-- The engine's turn while `i` is in flight: the command completes; where it waits for a byte instead, the ports go on
(rules R93, R95). -/
def engineTurn (i : Instr) (s : State) : Result :=
  match exec i s with
  | .next t => if t.eng = .idle then .next t else acceptNext s
  | .fault f => .fault f
  | .refused r => .refused r

/-- One step of an instance: IDLE, the next input; BUSY, the next input where it overlaps the command, and otherwise the
engine. -/
def advance (s : State) : Result :=
  match s.eng with
  | .idle => acceptNext s
  | .busy i => if s.inputOverlaps then acceptNext s else engineTurn i s

/-- The host writes the command word `w` to CMD, alone (rule R110). -/
def cmdWrite (w : Word) (overlap : Bool) : Input := ⟨.write (Reg.offset .cmd) 4 w, overlap⟩

/-- Put a CMD write of `w` before everything else that waits at the ports, on an idle engine, with nothing that
overlaps it. -/
def placeCommand (s : State) (w : Word) : State :=
  { s with
    eng := .idle
    status := { s.status with busy := false }
    inputs := cmdWrite w false :: s.inputs }

end Sys2Proof.Machine
end

