-- ==== Sys2Proof/Machine/Step.lean ====
section
/-! DEFINITION. One step of the machine, and how the host places an instruction to be run next. -/

namespace Sys2Proof.Machine

/-- One step. An illegal parameter record has no instance (rule R7, U22); a reserved ERRCODE is a fault (U20); otherwise
the ports or the engine move (`advance`). -/
def step (s : State) : Host.Outcome State Fault Refusal :=
  if s.params.legal then
    if s.status.errcode.toNat ≤ 3 then advance s else .fault .reservedErrcode
  else .refused .illegalParams

/-- The state in which the very next step runs the instruction of `nbits` bits that are `w`: the CORE fetches nothing
(rule R31); the host's next bus access is the write of that word to CMD (rule R36). -/
def State.withFetchWord (s : State) (nbits w : Nat) : State := placeCommand s (BitVec.ofNat 32 (w % 2 ^ nbits))

end Sys2Proof.Machine
end

