-- ==== Sys2Proof/Machine/HostProgram.lean ====
section
/-! DEFINITION. The host as an agent beside the CORE: the program notation of rule R116, one action at a time, and the end
of a run (rule R363). The CORE sees only the bus transactions (rule R148): everything here is the host's own state. -/

namespace Sys2Proof.Machine

/-- One line of a host program (rule R116). A label is the number of the line it stands before. -/
inductive HostLine where
  /-- `wr REG, imm`. -/
  | wr (r : Reg) (imm : Word)
  /-- `wrm MEM[i], imm`. -/
  | wrm (m : Region) (i : Nat) (imm : Word)
  /-- `wrmat r, w, imm`. -/
  | wrmat (r w : Nat) (imm : Word)
  /-- `rd REG`. -/
  | rd (r : Reg)
  /-- `rdm MEM[i]`. -/
  | rdm (m : Region) (i : Nat)
  /-- `cmd OP`, or `cmd imm` with a raw word. -/
  | cmd (w : Word)
  /-- `wait`: read STATUS until BUSY = 0. -/
  | wait
  /-- `b.ok label`. -/
  | bOk (label : Nat)
  /-- `b.nok label`. -/
  | bNok (label : Nat)
  /-- `b.err label`. -/
  | bErr (label : Nat)
  /-- `dec REG_h`, a host variable. -/
  | dec (v : Nat)
  /-- `bz REG_h, label`. -/
  | bz (v label : Nat)
  /-- `jmp label`. -/
  | jmp (label : Nat)
  /-- `halt`. -/
  | halt
  deriving DecidableEq, Repr

/-- The pseudo-instruction `run OP` (rule R116). -/
def HostLine.run (i : Instr) : List HostLine := [.cmd (encode i), .wait]
/-- The pseudo-instruction `clr` (rule R116). -/
def HostLine.clr : List HostLine := [.wr .status 0x12#32]
/-- The pseudo-instruction `rst` (rule R116). -/
def HostLine.rst : List HostLine := [.wr .ctrl 1#32]

/-- The bus transaction of a line, where it has one (rule R116). -/
def HostLine.act (p : Params) : HostLine → Option Act
  | .wr r imm => some (.write r.offset 4 imm)
  | .wrm m i imm => some (.write (m.addr i) 4 imm)
  | .wrmat r w imm => some (.write (Region.mat.addr (r * p.rowWords + w)) 4 imm)
  | .rd r => some (.read r.offset 4)
  | .rdm m i => some (.read (m.addr i) 4)
  | .cmd w => some (.write (Reg.offset .cmd) 4 w)
  | .wait => some (.read (Reg.offset .status) 4)
  | .bOk _ | .bNok _ | .bErr _ | .dec _ | .bz _ _ | .jmp _ | .halt => none

/-- The host's own state. -/
structure HostAgent where
  prog : List HostLine
  /-- The line to execute next. -/
  line : Nat
  /-- The host variables. -/
  vars : List Nat
  /-- The last STATUS word read. -/
  status : Word
  /-- What `rd` and `rdm` returned, oldest first. -/
  got : List Word
  /-- The transaction of this line has been given to the port. -/
  sent : Bool
  halted : Bool
  deriving DecidableEq, Repr

namespace HostAgent

/-- A program about to start. No STATUS word has been read yet: the last one read counts as 0, so `b.ok` and `b.err` fall
through and `b.nok` branches (DESIGN CHOICE, notes/assumptions/18.md). -/
def start (prog : List HostLine) (vars : List Nat) : HostAgent := ⟨prog, 0, vars, 0#32, [], false, false⟩

/-- Branch to `label` where `b` holds, else go on. -/
def branch (h : HostAgent) (b : Bool) (label : Nat) : HostAgent := { h with line := if b then label else h.line + 1 }

/-- The transaction of a line has completed, `data` being the port's read data: keep what it returned; `wait` repeats
until bit 0 of STATUS is 0. -/
def finish (h : HostAgent) (x : HostLine) (data : Word) : HostAgent :=
  match x with
  | .rd .status => { h with sent := false, line := h.line + 1, status := data, got := h.got ++ [data] }
  | .rd _ | .rdm _ _ => { h with sent := false, line := h.line + 1, got := h.got ++ [data] }
  | .wait => { h with sent := false, line := if data.getLsbD 0 then h.line else h.line + 1, status := data }
  | .wr _ _ | .wrm _ _ _ | .wrmat _ _ _ | .cmd _ => { h with sent := false, line := h.line + 1 }
  | .bOk _ | .bNok _ | .bErr _ | .dec _ | .bz _ _ | .jmp _ | .halt => h

/-- A line without a transaction: host control flow on the last STATUS read, or on a host variable (rule R116). A variable
the start does not give counts as 0: `dec` leaves it and `bz` branches on it (DESIGN CHOICE, notes/assumptions/18.md). -/
def control (h : HostAgent) (x : HostLine) : HostAgent :=
  match x with
  | .bOk l => h.branch (h.status.getLsbD 2) l
  | .bNok l => h.branch (!h.status.getLsbD 2) l
  | .bErr l => h.branch (h.status.getLsbD 3) l
  | .dec v => { h with vars := h.vars.modify v (· - 1), line := h.line + 1 }
  | .bz v l => h.branch (h.vars.getD v 0 == 0) l
  | .jmp l => h.branch true l
  | .halt => { h with halted := true }
  | .wr _ _ | .wrm _ _ _ | .wrmat _ _ _ | .rd _ | .rdm _ _ | .cmd _ | .wait => h

end HostAgent

/-- A step of the CORE while the host does nothing. -/
def coreStep (h : HostAgent) (s : State) : Host.Outcome (HostAgent × State) Fault Refusal :=
  match step s with
  | .next t => .next (h, t)
  | .fault f => .fault f
  | .refused r => .refused r

/-- A run has ended: the host has executed `halt` while ENG = IDLE, or a command that was still in flight then has
completed since (rule R363). A run with a fault never gets here. -/
def runFinal (h : HostAgent) (s : State) : Bool := h.halted && s.eng == .idle

/-- One action of the host and the CORE together, `overlap` being the schedule of a transaction given to the port now:
the host gives its line's transaction to the port, the CORE steps until the port has taken it, and the host goes on. After
`halt` the CORE goes on alone until no command is in flight (rule R363: such a run is "not final until the command
completes"). -/
def hostStep (overlap : Bool) (h : HostAgent) (s : State) : Host.Outcome (HostAgent × State) Fault Refusal :=
  if h.halted then if s.eng = .idle then .next (h, s) else coreStep h s
  else
    match h.prog[h.line]? with
    | none => .next ({ h with halted := true }, s)
    | some x =>
      match x.act s.params with
      | none => .next (h.control x, s)
      | some a =>
        if h.sent then if s.inputs = [] then .next (h.finish x s.rdata, s) else coreStep h s
        else .next ({ h with sent := true }, { s with inputs := s.inputs ++ [⟨a, overlap⟩] })

/-- Up to `n` actions with nothing overlapping, stopping at the end of the run. -/
def hostRun : Nat → HostAgent → State → Host.Outcome (HostAgent × State) Fault Refusal
  | 0, h, s => .next (h, s)
  | n + 1, h, s =>
    if runFinal h s then .next (h, s)
    else
      match hostStep false h s with
      | .next (h', s') => hostRun n h' s'
      | .fault f => .fault f
      | .refused r => .refused r

end Sys2Proof.Machine
end

