-- ==== Sys2Proof/Safety.lean ====
section
/-! DEFINITION. The terms claims are stated in: what a host sees of a memory, sums and products of the spec's formulas
written without the machine's loops, and the invariants of a safe run. -/

namespace Sys2Proof.Machine

/-! ## What the memories hold -/

/-- A value of M bits (rule R8). -/
abbrev Reduced (p : Params) (a : Word) : Prop := a.toNat < 2 ^ p.m

/-- Word `i` of a memory, 0 where it is unwritten. -/
def State.wordAt (s : State) (r : Region) (i : Nat) : Word := (Memory.readWord s.mem (r.addr i)).getD 0#32

/-- Element `i` of a bit memory (rule R88). -/
def State.bitAt (s : State) (r : Region) (i : Nat) : Bool := (s.wordAt r (i / 32)).getLsbD (i % 32)

/-- MAT[r][c] (rule R89). -/
def State.matAt (s : State) (r c : Nat) : Bool :=
  (s.wordAt .mat (r * s.params.rowWords + c / 32)).getLsbD (c % 32)

/-- Every word of the memory is written. -/
def State.written (s : State) (r : Region) : Prop :=
  ∀ i, i < r.words s.params → (Memory.readWord s.mem (r.addr i)).isSome

/-- No byte of the memory is written: UNSPECIFIED (rule R14 `havoc`). -/
def State.unspecified (s : State) (r : Region) : Prop :=
  ∀ a, r.has s.params a = true → Memory.read s.mem a = none

/-- Every byte outside the used words of the memories `rs` reads as before. -/
def sameOutside (s t : State) (rs : List Region) : Prop :=
  ∀ a, (∀ r ∈ rs, r.has s.params a = false) → Memory.read t.mem a = Memory.read s.mem a

/-! ## Sums and products of the spec's formulas -/

/-- The sum of `f i` over i < n in GF(2^M), or in GF(2) bit by bit (rules R160, R281). -/
def xorSum (n : Nat) (f : Nat → Word) : Word := (List.range n).foldl (fun acc i => acc ^^^ f i) 0#32

/-- The sum of bits over i < n in GF(2). -/
def parity (n : Nat) (f : Nat → Bool) : Bool := (List.range n).foldl (fun acc i => acc ^^ f i) false

/-- The coefficient of x^k in the product of two polynomials: the sum of a_i * b_j over i + j = k. -/
def prodCoeff (p : Params) (a b : List Word) (k : Nat) : Word :=
  xorSum (k + 1) fun i => gmul p (coeff a i) (coeff b (k - i))

/-- A polynomial of degree `d`: d + 1 coefficients of M bits, the last not 0. -/
def HasDegree (p : Params) (c : List Word) (d : Nat) : Prop :=
  c.length = d + 1 ∧ (∀ x ∈ c, Reduced p x) ∧ coeff c d ≠ 0#32

/-- `c` is "the product of two polynomials over GF(2^M) of degree >= 1 each" (rule R191). -/
def Factors (p : Params) (c : List Word) : Prop :=
  ∃ a b da db, 1 ≤ da ∧ 1 ≤ db ∧ HasDegree p a da ∧ HasDegree p b db ∧ ∀ k, coeff c k = prodCoeff p a b k

/-- A monic polynomial of degree T (rule R9). -/
def MonicT (p : Params) (c : List Word) : Prop :=
  c.length = p.t + 1 ∧ (∀ x ∈ c, Reduced p x) ∧ coeff c p.t = 1#32

/-- The product of a row and a vector of N bits, over GF(2). -/
def dot (n : Nat) (row : Nat → Bool) (e : Nat → Bool) : Bool := parity n fun c => row c && e c

/-- MAT * e = 0: every row is orthogonal to `e`. -/
def State.inKernel (s : State) (e : Nat → Bool) : Prop := ∀ r, r < s.params.r → dot s.params.n (s.matAt r) e = false

/-- A nonempty set of MAT's rows sums to 0 on columns 0..n-1: those columns have row rank below R. -/
def State.rowsDependentOn (s : State) (n : Nat) : Prop :=
  ∃ pick : Nat → Bool, (∃ r, r < s.params.r ∧ pick r = true) ∧
    ∀ c, c < n → (parity s.params.r fun r => pick r && s.matAt r c) = false

/-- MAT's left block is singular over GF(2) (rule R224). -/
def State.leftSingular (s : State) : Prop := s.rowsDependentOn s.params.r

/-- Column `c` of MAT is a sum of columns before it. -/
def State.colInSpan (s : State) (c : Nat) : Prop :=
  ∃ pick : Nat → Bool, ∀ r, r < s.params.r → s.matAt r c = parity c fun k => pick k && s.matAt r k

/-- The offsets of the window columns PIVMASK names, ascending: p_0 < p_1 < ... (rules R225, R226). -/
def pivotList (p : Params) (mask : BitVec 64) : List Nat := (List.range p.nu).filter mask.getLsbD

/-- The column permutation of rule R225: the swaps of s+j and s+p_j, `j` ascending, with s = R - MU. Position `c` ends up
with what stood at `pivotSwaps p ps c`. -/
def pivotSwaps (p : Params) (ps : List Nat) : Equiv.Perm Nat :=
  (ps.zipIdx.map fun (pj, j) => Equiv.swap (p.r - p.mu + j) (p.r - p.mu + pj)).prod

/-- The number of set bits among the first `n` (rule R13 `weight`). -/
def weightOf (n : Nat) (f : Nat → Bool) : Nat := ((List.range n).filter f).length

/-! ## The randomness stream -/

/-- Draw number `k` from the bytes offered: the 16-bit little-endian value of bytes 2k and 2k+1, its low M bits (R96). -/
def drawAt (p : Params) (bytes : List Byte) (k : Nat) : Word :=
  BitVec.ofNat 32 (((bytes.getD (2 * k) 0#8).toNat + 256 * (bytes.getD (2 * k + 1) 0#8).toNat) % 2 ^ p.m)

/-- `n` draws from draw number `k` on. -/
def drawsAt (p : Params) (bytes : List Byte) (k n : Nat) : List Word :=
  (List.range n).map fun i => drawAt p bytes (k + i)

/-- Candidate number `a`, from 0 on, of GOPPA_SAMPLE: the T draws of that attempt and the leading coefficient 1 (R193). -/
def goppaCandidate (p : Params) (bytes : List Byte) (a : Nat) : List Word := drawsAt p bytes (p.t * a) p.t ++ [1#32]

/-- The candidate positions of attempt number `a`, from 0 on, of FW_SAMPLE: the first T draws below N (rule R251). -/
def fwCandidate (p : Params) (bytes : List Byte) (a : Nat) : List Nat :=
  (((drawsAt p bytes (p.tau * a) p.tau).map BitVec.toNat).filter (· < p.n)).take p.t

/-- A sampler of `tries` attempts of `k` bytes runs out of the bytes offered: some attempt, all before it being rejected,
lacks a byte. -/
def starvesAfter (k tries offered : Nat) (rejected : Nat → Prop) : Prop :=
  ∃ made, made < tries ∧ k * made ≤ offered ∧ offered < k * (made + 1) ∧ ∀ a, a < made → rejected a

/-- The command asks for a byte that has not been offered (rule R95). GOPPA_SAMPLE takes 2*T bytes an attempt
(notes/assumptions/5.md). -/
def State.starves (s : State) (i : Instr) : Prop :=
  (i = .goppaSample ∧ starvesAfter (2 * s.params.t) s.params.goppaMaxTries s.port.offered.length fun a =>
    irreducible s.params (goppaCandidate s.params s.port.offered a) = false) ∨
  (i = .supportGen ∧ s.port.offered.length < 2 * s.params.supportDraws) ∨
  (i = .fwSample ∧ starvesAfter (2 * s.params.tau) s.params.fwMaxTries s.port.offered.length fun a =>
    ¬((fwCandidate s.params s.port.offered a).length = s.params.t ∧ (fwCandidate s.params s.port.offered a).Nodup))

/-- The port takes the oldest input in this step, `overlap` being its schedule: the engine is IDLE, or BUSY with a command
the input overlaps (notes/assumptions/4.md), or BUSY with a command that asks for a byte not offered, which leaves the ports
going (rule R95). -/
def State.takesInput (s : State) (overlap : Bool) : Prop :=
  s.eng = .idle ∨ overlap = true ∨ ∃ i, s.eng = .busy i ∧ s.starves i

/-- The randomness bytes a command takes at most: its attempts are bounded, its draws fixed (rules R192, R197, R250, R145).
For GOPPA_SAMPLE rule R97 says twice as many; 2*T an attempt is the model's reading (DEDUCED, notes/assumptions/5.md). -/
def maxBytes (p : Params) : Instr → Nat
  | .goppaSample => 2 * p.t * p.goppaMaxTries
  | .supportGen => 2 * p.supportDraws
  | .fwSample => 2 * p.tau * p.fwMaxTries
  | .nop | .gfAdd | .gfMul | .gfInv | .polyMul | .polyMulmod | .irredTest | .buildH | .systematize | .encode
  | .decSyndrome | .bmSolve | .rootFind | .decode => 0

/-! ## Safe runs -/

/-- A state a step has a meaning for: the record is legal (rule R7) and ERRCODE is one rule R320 produces. -/
def State.live (s : State) : Prop := s.params.legal = true ∧ s.status.errcode.toNat ≤ 3

/-- A live state whose oldest input is `x`, with `rest` behind it. -/
def State.faces (s : State) (x : Input) (rest : List Input) : Prop := s.live ∧ s.inputs = x :: rest

/-- The flags, the engine and CMD agree (rules R37, R46, R140-R143), and a command in flight has passed its checks at issue
(rules R147, R321). -/
structure State.StatusCoherent (s : State) : Prop where
  busy_iff : s.status.busy = true ↔ s.eng ≠ .idle
  err_iff : s.status.err = true ↔ s.status.errcode ≠ 0#4
  code_produced : s.status.errcode.toNat ≤ 3
  ok_quiet : s.status.ok = true → s.status.busy = false ∧ s.status.err = false
  done_quiet : s.status.done = true → s.status.busy = false
  last_op : s.status.lastOp = opcodeOf s.cmd
  in_flight : ∀ i, s.eng = .busy i → decode s.cmd = .command i
  inputs_written : ∀ i, s.eng = .busy i → s.inputsWritten i = true
  operand_checked : ∀ i, s.eng = .busy i → s.operandError i = false

/-- Registers and memory words hold no bit they have not got: elements are M-bit (rules R8, R87), padding is 0 (R88,
R89), words are written whole (R60, R92), and nothing is stored outside the used words (R84, R85). -/
structure State.ElementsReduced (s : State) : Prop where
  opa : Reduced s.params s.opa
  opb : Reduced s.params s.opb
  res : Reduced s.params s.res
  words : ∀ (r : Region) (i : Nat) (w : Word), i < r.words s.params → Memory.readWord s.mem (r.addr i) = some w →
    w &&& wordMask s.params r i = w
  whole : ∀ (r : Region) (i k : Nat), i < r.words s.params → k < 4 →
    ((Memory.read s.mem (r.addr i + k)).isSome ↔ (Memory.readWord s.mem (r.addr i)).isSome)
  inside : ∀ a, (Memory.read s.mem a).isSome → ∃ r : Region, r.has s.params a = true

/-- The bounds of rule R167, and PIVMASK 0 without the f variant (rule R226). -/
structure State.CountersBounded (s : State) : Prop where
  weight : s.weight.toNat ≤ s.params.n
  accept : s.accept.toNat ≤ s.params.n
  tries : s.tries.toNat ≤ max s.params.goppaMaxTries s.params.fwMaxTries
  bmL : s.bmL.toNat ≤ 2 * s.params.t
  pivmask : s.params.variantF = false → s.pivmask = 0#64

end Sys2Proof.Machine
end

