-- ==== Sys2Proof/Certificates/Slice0/Obligations.lean ====
section
/-! DEFINITION. The statements about the model, one definition each; each docstring says which rule of spec/ it
formalises. A statement about a command speaks of `exec` from the state its issue left; StepRunsIssuedCommand ties it to
a step. -/

open Sys2Proof Sys2Proof.Machine

/-! ## Encoding -/

/-- Rule R112: a word decodes to a command exactly when it is that command's word (RSVD zero, OPCODE of rule R113);
otherwise it is ILLEGAL, for a nonzero RSVD or for an opcode outside the table. -/
def Obligations.DecodeExactlyTheTable : Prop :=
  ∀ w : Word,
    (∀ i, decode w = .command i ↔ w = encode i) ∧
    (decode w = .illegal .reservedBits ↔ w.toNat / 256 ≠ 0) ∧
    (decode w = .illegal .reservedOpcode ↔ w.toNat / 256 = 0 ∧ ∀ i, w ≠ encode i)

/-- Rule R113: the 17 words of the opcode table, written out, decode to their commands; a word with RSVD set and a reserved
opcode are ILLEGAL. -/
def Obligations.OpcodeTableWords : Prop :=
  decode 0x00000000#32 = .command .nop ∧ decode 0x00000001#32 = .command .gfAdd ∧
  decode 0x00000002#32 = .command .gfMul ∧ decode 0x00000003#32 = .command .gfInv ∧
  decode 0x00000004#32 = .command .polyMul ∧ decode 0x00000005#32 = .command .polyMulmod ∧
  decode 0x00000010#32 = .command .irredTest ∧ decode 0x00000011#32 = .command .goppaSample ∧
  decode 0x00000012#32 = .command .supportGen ∧ decode 0x00000020#32 = .command .buildH ∧
  decode 0x00000021#32 = .command .systematize ∧ decode 0x00000030#32 = .command .fwSample ∧
  decode 0x00000031#32 = .command .encode ∧ decode 0x00000040#32 = .command .decSyndrome ∧
  decode 0x00000041#32 = .command .bmSolve ∧ decode 0x00000042#32 = .command .rootFind ∧
  decode 0x00000043#32 = .command .decode ∧
  decode 0x00000100#32 = .illegal .reservedBits ∧ decode 0x00000006#32 = .illegal .reservedOpcode

/-! ## Issue, completion, and the engine's turn -/

/-- Rules R140, R93: on an idle engine, a CMD write of a command's word that nothing overlaps (the schedule of
notes/assumptions/4.md, the model's own) is one step: CMD takes the word, STATUS says BUSY with DONE, OK, ERR and ERRCODE cleared, LAST_OP latched and WERR kept, and the command runs. -/
def Obligations.StepRunsIssuedCommand : Prop :=
  ∀ (s : State) (w : Word) (i : Instr) (rest : List Input),
    s.faces ⟨.write 0x044 4 w, false⟩ rest → s.eng = .idle → decode w = .command i →
    step s = exec i { s with
      inputs := rest
      cmd := w
      eng := .busy i
      status := ⟨true, false, false, false, s.status.werr, 0#4, opcodeOf w⟩ }

/-- Rules R140, R147, R321: where an input overlaps the command (the schedule of notes/assumptions/4.md, the model's own),
the CMD write faults at issue when one of the command's inputs is unwritten; it ends the command at once with OPERAND when
the command needs a monic G and G[T] != 1 (that no access can come between is notes/assumptions/23.md); and otherwise it
leaves the command in flight. -/
def Obligations.OverlappedIssueStaysInFlight : Prop :=
  ∀ (s : State) (w : Word) (i : Instr) (rest : List Input),
    s.faces ⟨.write 0x044 4 w, true⟩ rest → s.eng = .idle → decode w = .command i →
    ((∃ x ∈ inputSpans s.params i, ∃ j, j < x.count ∧
        Memory.readWord s.mem (x.region.base + 4 * (x.first + j)) = none) →
      step s = .fault .uninit) ∧
    ((∀ x ∈ inputSpans s.params i, ∀ j, j < x.count →
        (Memory.readWord s.mem (x.region.base + 4 * (x.first + j))).isSome) →
      ((i = .polyMulmod ∨ i = .irredTest) ∧ s.wordAt .g s.params.t ≠ 1#32 →
        step s = .next { s with
          inputs := rest
          cmd := w
          status := ⟨false, true, false, true, s.status.werr, 2#4, opcodeOf w⟩ }) ∧
      (¬((i = .polyMulmod ∨ i = .irredTest) ∧ s.wordAt .g s.params.t ≠ 1#32) →
        step s = .next { s with
          inputs := rest
          cmd := w
          eng := .busy i
          status := ⟨true, false, false, false, s.status.werr, 0#4, opcodeOf w⟩ }))

/-- Rule R142: an ILLEGAL word completes at once with ERR = 1 and ERRCODE = 1; CMD and STATUS change and nothing else. -/
def Obligations.IllegalWordChangesOnlyCmdAndStatus : Prop :=
  ∀ (s : State) (w : Word) (ov : Bool) (rest : List Input),
    s.faces ⟨.write 0x044 4 w, ov⟩ rest → s.eng = .idle → (∀ i, w ≠ encode i) →
    step s = .next { s with
      inputs := rest
      cmd := w
      status := ⟨false, true, false, true, s.status.werr, 1#4, opcodeOf w⟩ }

/-- Rule R143: a completion sets OK, or 0 on an error, ERRCODE, ERR = (code != 0), BUSY = 0 and DONE = 1, and leaves WERR
and LAST_OP. -/
def Obligations.CompletionSetsStatus : Prop :=
  ∀ (s : State) (ok : Bool) (code : BitVec 4),
    (s.complete ok) = { s with
      eng := .idle
      status := ⟨false, true, ok, false, s.status.werr, 0#4, s.status.lastOp⟩ } ∧
    (code ≠ 0#4 → s.raiseError code = { s with
      eng := .idle
      status := ⟨false, true, false, true, s.status.werr, code, s.status.lastOp⟩ })

/-- Rule R93: a command in flight that no input overlaps (notes/assumptions/4.md, the model's own) completes in one step,
with the result `exec` gives. -/
def Obligations.BusyEngineCompletes : Prop :=
  ∀ (s t : State) (i : Instr),
    s.live → s.eng = .busy i → (∀ x ∈ s.inputs.head?, x.overlap = false) →
    exec i s = .next t → t.eng = .idle → step s = .next t

/-- Rule R95: a byte the source offers joins the end of the stream and changes nothing else, on an idle engine, while a
command is in flight that the offer overlaps (the schedule of notes/assumptions/4.md, the model's own), and while a sampler
waits for it. A sampler in flight that asks for a byte no one has offered, in its
first attempt or after any number of rejected ones, stays BUSY: nothing changes, and there is no timeout. That the bytes it has
taken stay in the stream until it completes is notes/assumptions/8.md, the model's reading; 2*T bytes an attempt of GOPPA_SAMPLE
is notes/assumptions/5.md. -/
def Obligations.OfferedByteJoinsStreamAndStarvedSamplerWaits : Prop :=
  (∀ (s : State) (b : Byte) (ov : Bool) (rest : List Input),
    s.faces ⟨.offer b, ov⟩ rest → s.takesInput ov →
    step s = .next { s with inputs := rest, port := ⟨s.port.offered ++ [b], s.port.rcnt⟩ }) ∧
  ∀ (s : State) (i : Instr), s.live → s.eng = .busy i → s.inputs = [] → s.starves i → step s = .next s

/-- Rule R145: from a coherent state with a command in flight, nothing overlapping it (notes/assumptions/4.md, the model's
own) and every byte it asks for offered, the next step completes it. An attempt of GOPPA_SAMPLE asks for 2*T bytes
(notes/assumptions/5.md, the model's reading). -/
def Obligations.CommandInFlightTerminates : Prop :=
  ∀ (s : State) (i : Instr),
    s.params.legal = true → s.StatusCoherent → s.eng = .busy i → (∀ x ∈ s.inputs.head?, x.overlap = false) →
    ¬s.starves i →
    ∃ t, step s = .next t ∧ t.eng = .idle ∧ t.status.busy = false ∧ t.status.done = true

/-- Rule R147: a command faults UNINIT exactly when a word it reads is unwritten, and in no other way; it refuses
nothing. -/
def Obligations.UninitExactlyOnUnwrittenInput : Prop :=
  ∀ (s : State) (i : Instr),
    (exec i s = .fault .uninit ↔ ∃ x ∈ inputSpans s.params i, ∃ j, j < x.count ∧
      Memory.readWord s.mem (x.region.base + 4 * (x.first + j)) = none) ∧
    (∀ f, exec i s = .fault f → f = .uninit) ∧ ∀ r, exec i s ≠ .refused r

/-- Rules R143, R145: every command answers a completed state, from every state whose inputs are written and whose port
offers every byte it asks for. An attempt of GOPPA_SAMPLE asks for 2*T bytes (notes/assumptions/5.md, the model's reading).
OK = 1 and an error exclude each other, and the errors are OPERAND and EXHAUSTED. -/
def Obligations.EveryCommandCompletes : Prop :=
  ∀ (s : State) (i : Instr),
    (∀ x ∈ inputSpans s.params i, ∀ j, j < x.count →
      (Memory.readWord s.mem (x.region.base + 4 * (x.first + j))).isSome) →
    ¬s.starves i →
    ∃ t, exec i s = .next t ∧ t.eng = .idle ∧ t.status.busy = false ∧ t.status.done = true ∧
      t.status.err = (t.status.errcode != 0#4) ∧ (t.status.err = true → t.status.ok = false) ∧
      (t.status.errcode = 2#4 → i = .polyMulmod ∨ i = .irredTest) ∧
      (t.status.errcode = 3#4 → i = .goppaSample ∨ i = .fwSample) ∧
      (t.status.errcode = 0#4 ∨ t.status.errcode = 2#4 ∨ t.status.errcode = 3#4)

/-! ## What a command leaves unchanged, and what it depends on -/

/-- Rules R150, R41, R97: the frame of every command. Outside the "writes" column of rule R114, every register, the flags
WERR and LAST_OP, the randomness port and every byte of memory are as before. -/
def Obligations.CommandWritesOnlyItsWriteSet : Prop :=
  ∀ (i : Instr) (s t : State), exec i s = .next t →
    t.params = s.params ∧ t.irqEn = s.irqEn ∧ t.cmd = s.cmd ∧ t.opa = s.opa ∧ t.opb = s.opb ∧
    t.inputs = s.inputs ∧ t.rdata = s.rdata ∧ t.draws = s.draws ∧
    t.status.werr = s.status.werr ∧ t.status.lastOp = s.status.lastOp ∧
    (i ≠ .gfAdd → i ≠ .gfMul → i ≠ .gfInv → t.res = s.res) ∧
    (i ≠ .fwSample → i ≠ .rootFind → i ≠ .decode → t.weight = s.weight) ∧
    (i ≠ .goppaSample → i ≠ .fwSample → t.tries = s.tries) ∧
    (i ≠ .supportGen → t.accept = s.accept) ∧
    (i ≠ .bmSolve → i ≠ .decode → t.bmL = s.bmL) ∧
    (i ≠ .systematize → t.pivmask = s.pivmask) ∧
    (i ≠ .goppaSample → i ≠ .supportGen → i ≠ .fwSample → t.port = s.port) ∧
    sameOutside s t (writeSet s.params i)

/-- Rules R10, R46, R114: a command's outcome is a function of its listed inputs alone and of the bytes it takes. Two states
that agree on the parameters, on what the command reads and on the `n` bytes it takes answer alike: the same flags, the same
register results, `n` bytes taken and counted, and each byte of a written memory the same, or left by both. The rest of the
stream may differ. -/
def Obligations.OutcomeDependsOnListedInputs : Prop :=
  ∀ (i : Instr) (s s' t : State) (n : Nat),
    s'.params = s.params →
    (i = .gfAdd ∨ i = .gfMul ∨ i = .gfInv → s'.opa = s.opa) → (i = .gfAdd ∨ i = .gfMul → s'.opb = s.opb) →
    (∀ x ∈ inputSpans s.params i, ∀ j, j < x.count →
      Memory.readWord s'.mem (x.region.base + 4 * (x.first + j)) =
        Memory.readWord s.mem (x.region.base + 4 * (x.first + j))) →
    s.eng = .busy i → s'.eng = .busy i → exec i s = .next t → t.eng = .idle →
    s.port.offered.length = t.port.offered.length + n → s'.port.offered.take n = s.port.offered.take n →
    ∃ t', exec i s' = .next t' ∧ t'.eng = .idle ∧
      t'.status.ok = t.status.ok ∧ t'.status.err = t.status.err ∧ t'.status.errcode = t.status.errcode ∧
      (i = .gfAdd ∨ i = .gfMul ∨ i = .gfInv → t'.res = t.res) ∧
      (i = .fwSample ∨ i = .rootFind ∨ i = .decode → t'.weight = t.weight) ∧
      (i = .goppaSample ∨ i = .fwSample → t'.tries = t.tries) ∧ (i = .supportGen → t'.accept = t.accept) ∧
      (i = .bmSolve ∨ i = .decode → t'.bmL = t.bmL) ∧ (i = .systematize → t'.pivmask = t.pivmask) ∧
      s'.port.offered.length = t'.port.offered.length + n ∧ t'.port.offered = s'.port.offered.drop n ∧
      t'.port.rcnt - s'.port.rcnt = t.port.rcnt - s.port.rcnt ∧
      ∀ r ∈ writeSet s.params i, ∀ a, r.has s.params a = true →
        Memory.read t'.mem a = Memory.read t.mem a ∨
          (Memory.read t.mem a = Memory.read s.mem a ∧ Memory.read t'.mem a = Memory.read s'.mem a)

/-! ## Invariants -/

/-- The memory keeps its canonical form, offsets strictly rising, at every step. -/
def Obligations.StepKeepsMemoryCanonical : Prop :=
  ∀ s t : State, Memory.wf s.mem → step s = .next t → Memory.wf t.mem

/-- Rules R37, R46: BUSY = 1 exactly when ENG = BUSY, ERR = 1 exactly when ERRCODE != 0, OK is 0 while BUSY and after an
error, DONE is 0 while BUSY (so irq is low, rule R140), LAST_OP is CMD[7:0], the command in flight is the one CMD holds,
its inputs are written and it raises no OPERAND (that such a command is not seen in flight is notes/assumptions/23.md, the
model's reading), at every step. -/
def Obligations.StepKeepsStatusCoherent : Prop :=
  ∀ s t : State, s.StatusCoherent → step s = .next t → t.StatusCoherent

/-- Rules R8, R87-R89: every element register and word keeps to M bits, every padding bit is 0, words are written whole
and only inside the used windows, at every step. -/
def Obligations.StepKeepsElementsReduced : Prop :=
  ∀ s t : State, s.ElementsReduced → step s = .next t → t.ElementsReduced

/-- Rule R167: WEIGHT <= N, ACCEPT <= N, TRIES <= the larger ceiling, BM_L <= 2T at every step; PIVMASK stays 0 in an
instance without the f variant (rule R226). -/
def Obligations.StepKeepsCountersBounded : Prop :=
  ∀ s t : State, s.CountersBounded → step s = .next t → t.CountersBounded

/-- The state after reset, of every legal instance, meets the four invariants. -/
def Obligations.ResetMeetsInvariants : Prop :=
  ∀ p : Params, p.legal = true →
    Memory.wf (State.resetOf p).mem ∧ (State.resetOf p).StatusCoherent ∧ (State.resetOf p).ElementsReduced ∧
      (State.resetOf p).CountersBounded

/-- Rule R33: the parameter registers "never change, including across reset": whatever a step does, it keeps them. -/
def Obligations.ParametersNeverChange : Prop :=
  ∀ s t : State, step s = .next t → t.params = s.params

/-! ## Host accesses -/

/-- Rule R33: the fields of the parameter registers of a legal instance; PARAM_MUNU reads 0 when VARIANT_F = 0. -/
def Obligations.ParameterRegistersReadBuildValues : Prop :=
  ∀ s : State, s.params.legal = true →
    readReg s .id = s.params.coreId ∧ readReg s .fieldPoly = s.params.fieldPoly ∧
    (readReg s .paramM).toNat = s.params.m ∧ (readReg s .paramT).toNat = s.params.t ∧
    (readReg s .paramN).toNat = s.params.n ∧
    (readReg s .paramK).toNat = s.params.n - s.params.m * s.params.t ∧
    (readReg s .paramR).toNat = s.params.m * s.params.t ∧
    (readReg s .paramFlags).toNat =
      (if s.params.variantF then 1 else 0) + (if s.params.n = 2 ^ s.params.m then 2 else 0) ∧
    (readReg s .paramMunu).toNat = s.params.mu + 2 ^ 16 * s.params.nu ∧
    (s.params.variantF = false → readReg s .paramMunu = 0#32) ∧
    (readReg s .goppaMaxTries).toNat = s.params.goppaMaxTries ∧
    (readReg s .fwMaxTries).toNat = s.params.fwMaxTries ∧
    (readReg s .supportDraws).toNat = s.params.supportDraws

/-- Rules R35, R36, R39-R42: what the other registers read: CTRL only IRQ_EN, SRST reading 0; CMD as written; OPA, OPB
and the results zero-extended; PIVMASK and RCNT as their two halves. -/
def Obligations.RegistersReadBack : Prop :=
  ∀ s : State,
    (readReg s .ctrl).toNat = (if s.irqEn then 2 else 0) ∧ readReg s .cmd = s.cmd ∧
    readReg s .opa = s.opa ∧ readReg s .opb = s.opb ∧ readReg s .res = s.res ∧ readReg s .tries = s.tries ∧
    (readReg s .weight).toNat = s.weight.toNat ∧ (readReg s .accept).toNat = s.accept.toNat ∧
    (readReg s .bmL).toNat = s.bmL.toNat ∧
    readReg s .pivmaskHi ++ readReg s .pivmaskLo = s.pivmask ∧
    readReg s .rcntHi ++ readReg s .rcntLo = s.port.rcnt

/-- Rules R81-R85: an access gets a bus error exactly when it is not 4 bytes wide, not aligned, or names neither the
register window nor a used word of a memory. It is checked before BUSY is (rule R356). The read data of an
erroring read is 0. As a fault of the step: notes/assumptions/3.md. While BUSY the port takes an access that overlaps the
command, and every access while a sampler waits for a byte (`State.takesInput`; notes/assumptions/4.md, 5.md). -/
def Obligations.BusErrorExactly : Prop :=
  ∀ (s : State) (a width : Nat) (w : Word) (ov : Bool) (rest : List Input) (read : Bool),
    s.live → s.takesInput ov →
    s.inputs = ⟨if read then .read a width else .write a width w, ov⟩ :: rest →
    (step s = .fault (.busError (if read then some 0#32 else none)) ↔
      ¬(width = 4 ∧ a % 4 = 0 ∧ (a < 0x1000 ∨ ∃ r i, i < Region.words s.params r ∧ a = r.base + 4 * i))) ∧
    ((∃ d, step s = .fault (.busError d)) → step s = .fault (.busError (if read then some 0#32 else none)))

/-- Rules R83, R34, R60, R92: an admissible read while IDLE gives the host the register's value, 0 at a reserved offset,
the word of a memory, or the model's UNINIT fault where that word is unwritten; it changes nothing else. -/
def Obligations.IdleReadAnswers : Prop :=
  ∀ (s : State) (a : Nat) (ov : Bool) (rest : List Input),
    s.faces ⟨.read a 4, ov⟩ rest → s.eng = .idle →
    (∀ r : Reg, a = r.offset → step s = .next { s with inputs := rest, rdata := readReg s r }) ∧
    (a % 4 = 0 → a < 0x1000 → (∀ r : Reg, a ≠ r.offset) →
      step s = .next { s with inputs := rest, rdata := 0#32 }) ∧
    (∀ (r : Region) (i : Nat) (v : Word), i < r.words s.params → a = r.base + 4 * i →
      Memory.readWord s.mem a = some v → step s = .next { s with inputs := rest, rdata := v }) ∧
    (∀ (r : Region) (i : Nat), i < r.words s.params → a = r.base + 4 * i → Memory.readWord s.mem a = none →
      step s = .fault .uninit)

/-- Rules R86, R88, R89, R60: a word written to a memory while IDLE reads back with the bits it has: bits M-1..0 of an
element, the bits short of the length of a bit vector; every byte outside the word is as before. -/
def Obligations.MemoryWordReadsBack : Prop :=
  ∀ (s : State) (r : Region) (i : Nat) (w : Word) (ov : Bool) (rest : List Input),
    s.faces ⟨.write (r.base + 4 * i) 4 w, ov⟩ rest → s.eng = .idle → i < r.words s.params →
    ∃ t v, step s = .next t ∧ t = { s with inputs := rest, mem := t.mem } ∧
      Memory.readWord t.mem (r.base + 4 * i) = some v ∧
      (∀ j, j < 32 → v.getLsbD j = (w.getLsbD j && decide (
        if r = .evec then 32 * i + j < s.params.n
        else if r = .syn then 32 * i + j < s.params.r
        else if r = .mat then 32 * (i % s.params.rowWords) + j < s.params.n
        else j < s.params.m))) ∧
      ∀ a, a < r.base + 4 * i ∨ r.base + 4 * i + 4 ≤ a → Memory.read t.mem a = Memory.read s.mem a

/-- Rules R34, R35, R39 and 10_state.md section 3: what a host write does to the registers other than CMD and STATUS. A CTRL
write without SRST puts bit 1 in IRQ_EN, in any engine state. While IDLE, OPA and OPB keep bits M-1..0, and a read-only
register and a reserved offset ignore the write. (While BUSY: `State.takesInput`; notes/assumptions/4.md, 5.md.) -/
def Obligations.IdleRegisterWrites : Prop :=
  ∀ (s : State) (a : Nat) (w : Word) (ov : Bool) (rest : List Input),
    s.faces ⟨.write a 4 w, ov⟩ rest → s.takesInput ov →
    (a = 0x040 → w.getLsbD 0 = false → step s = .next { s with inputs := rest, irqEn := w.getLsbD 1 }) ∧
    (s.eng = .idle →
      (a = 0x050 → ∃ v, step s = .next { s with inputs := rest, opa := v } ∧
        v.toNat = w.toNat % 2 ^ s.params.m) ∧
      (a = 0x054 → ∃ v, step s = .next { s with inputs := rest, opb := v } ∧
        v.toNat = w.toNat % 2 ^ s.params.m) ∧
      (a % 4 = 0 → a < 0x1000 → a ≠ 0x040 → a ≠ 0x044 → a ≠ 0x048 → a ≠ 0x050 → a ≠ 0x054 →
        step s = .next { s with inputs := rest }))

/-- Rule R37: a STATUS write acts in any engine state, clears DONE and WERR where it writes 1 to bit 1 and bit 4, and
changes nothing else. (While BUSY: `State.takesInput`; notes/assumptions/4.md, 5.md.) -/
def Obligations.StatusWriteOneToClear : Prop :=
  ∀ (s : State) (w : Word) (ov : Bool) (rest : List Input),
    s.faces ⟨.write 0x048 4 w, ov⟩ rest → s.takesInput ov →
    step s = .next { s with
      inputs := rest
      status := ⟨s.status.busy, s.status.done && !w.getLsbD 1, s.status.ok, s.status.err,
        s.status.werr && !w.getLsbD 4, s.status.errcode, s.status.lastOp⟩ }

/-- Rule R37: the bits of the STATUS word; every other bit reads 0 (rule R34). -/
def Obligations.StatusWordLayout : Prop :=
  ∀ (s : State) (j : Nat), (readReg s .status).getLsbD j =
    if j = 0 then s.status.busy else if j = 1 then s.status.done else if j = 2 then s.status.ok
    else if j = 3 then s.status.err else if j = 4 then s.status.werr
    else if 8 ≤ j ∧ j < 12 then s.status.errcode.getLsbD (j - 8)
    else if 16 ≤ j ∧ j < 24 then s.status.lastOp.getLsbD (j - 16) else false

/-- Rules R141, R356: while BUSY every admissible host write other than one to CTRL or STATUS is dropped: WERR is set and
nothing else changes, CMD and the command in flight included. The port takes a write that overlaps the command, and every
write while a sampler waits for a byte (notes/assumptions/4.md, 5.md). -/
def Obligations.BusyWriteIsDropped : Prop :=
  ∀ (s : State) (i : Instr) (a : Nat) (w : Word) (ov : Bool) (rest : List Input),
    s.faces ⟨.write a 4 w, ov⟩ rest → s.eng = .busy i → ov = true ∨ s.starves i → a ≠ 0x040 → a ≠ 0x048 → a % 4 = 0 →
    (a < 0x1000 ∨ ∃ r j, j < Region.words s.params r ∧ a = r.base + 4 * j) →
    step s = .next { s with
      inputs := rest
      status := ⟨s.status.busy, s.status.done, s.status.ok, s.status.err, true, s.status.errcode,
        s.status.lastOp⟩ }

/-- Rules R357, R42: while BUSY a read of STATUS, CTRL, CMD or a parameter register is exact and a reserved offset reads 0;
a read of any other register or of a memory word is a fresh draw (notes/assumptions/6.md, the model's form of it), that of an
unwritten memory word too (notes/assumptions/25.md, the model's choice: rule R60 would fault it). No read disturbs the
command. The port takes a read that overlaps the command, and every read while a sampler waits for a byte
(notes/assumptions/4.md, 5.md). -/
def Obligations.BusyReadsAreExactOrDraws : Prop :=
  ∀ (s : State) (i : Instr) (a : Nat) (ov : Bool) (rest : List Input),
    s.faces ⟨.read a 4, ov⟩ rest → s.eng = .busy i → ov = true ∨ s.starves i →
    (∀ r : Reg, a = r.offset → a < 0x050 → step s = .next { s with inputs := rest, rdata := readReg s r }) ∧
    (a % 4 = 0 → a < 0x1000 → (∀ r : Reg, a ≠ r.offset) →
      step s = .next { s with inputs := rest, rdata := 0#32 }) ∧
    ((∃ r : Reg, a = r.offset ∧ 0x050 ≤ a) ∨ (∃ r j, j < Region.words s.params r ∧ a = r.base + 4 * j) →
      step s = .next { s with inputs := rest, rdata := Config.freeRead s.draws, draws := s.draws + 1 })

/-- Rule R330: `irq = CTRL.IRQ_EN and STATUS.DONE`. It is high after every completion with IRQ_EN = 1, errors included,
and low after the issue of a command that stays in flight, and after both resets. -/
def Obligations.IrqFollowsDone : Prop :=
  (∀ s : State, s.irq = true ↔ s.irqEn = true ∧ s.status.done = true) ∧
  (∀ (i : Instr) (s t : State), exec i s = .next t → s.eng = .busy i → t.eng = .idle → t.irq = s.irqEn) ∧
  (∀ (s : State) (w : Word) (i : Instr), (s.issue w i).irq = false) ∧
  (∀ (s : State) (n : Nat), (s.softReset n).irq = false ∧ (s.powerOn n).irq = false)

/-! ## Reset -/

/-- Rules R61, R350: the state after power-on of the instance with parameters `p`: every register 0, ENG idle, irq low,
every memory word unwritten, the parameter registers at their build values. -/
def Obligations.PowerOnState : Prop :=
  ∀ p : Params,
    (∀ r : Reg, 0x040 ≤ r.offset → readReg (State.resetOf p) r = 0#32) ∧
    (State.resetOf p).eng = .idle ∧ (State.resetOf p).irq = false ∧
    (∀ a, Memory.read (State.resetOf p).mem a = none) ∧ (State.resetOf p).params = p

/-- Rules R351, R61: a soft reset of an idle engine sets every register to its reset value and changes nothing else;
memories keep their contents and written marks. The write's other bits are ignored. -/
def Obligations.SoftResetWhileIdle : Prop :=
  ∀ (s : State) (w : Word) (ov : Bool) (rest : List Input),
    s.faces ⟨.write 0x040 4 w, ov⟩ rest → s.eng = .idle → w.getLsbD 0 = true →
    step s = .next { State.resetOf s.params with
      port := ⟨s.port.offered, 0#64⟩, mem := s.mem, inputs := rest, rdata := s.rdata, draws := s.draws }

/-- Rules R351, R146: a soft reset while BUSY abandons the command: its write set is unwritten, every other byte of
memory is kept, every register takes its reset value, and a number of bytes between 0 and what the command can take is
gone from the stream (notes/assumptions/7.md, the model's form of the draw; at most 2*T an attempt of GOPPA_SAMPLE,
notes/assumptions/5.md, the model's reading). The port takes a
reset that overlaps the command, and every reset while a sampler waits for a byte (notes/assumptions/4.md, 5.md). -/
def Obligations.SoftResetAbortsCommand : Prop :=
  ∀ (s : State) (i : Instr) (w : Word) (ov : Bool) (rest : List Input),
    s.faces ⟨.write 0x040 4 w, ov⟩ rest → s.eng = .busy i → ov = true ∨ s.starves i → w.getLsbD 0 = true →
    ∃ t n, step s = .next t ∧ n ≤ maxBytes s.params i ∧
      t = { State.resetOf s.params with
        port := ⟨s.port.offered.drop n, 0#64⟩, mem := t.mem, inputs := rest, rdata := s.rdata, draws := s.draws + 1 } ∧
      (∀ r ∈ writeSet s.params i, t.unspecified r) ∧ sameOutside s t (writeSet s.params i)

/-- Rule R350: the reset input makes every memory word unwritten and every register its reset value, in any engine
state; the randomness source is not reset. That an aborted command's bytes are lost here too, between 0 and what it can take,
is notes/assumptions/11.md, the model's reading (and notes/assumptions/5.md for GOPPA_SAMPLE); on an idle engine none is. (While BUSY:
`State.takesInput`; notes/assumptions/4.md, 5.md.) -/
def Obligations.PowerOnResetClearsAll : Prop :=
  ∀ (s : State) (ov : Bool) (rest : List Input),
    s.faces ⟨.powerOn, ov⟩ rest → s.takesInput ov →
    ∃ t n, step s = .next t ∧ (s.eng = .idle → n = 0) ∧ (∀ i, s.eng = .busy i → n ≤ maxBytes s.params i) ∧
      t = { State.resetOf s.params with
        port := ⟨s.port.offered.drop n, 0#64⟩, inputs := rest, rdata := s.rdata, draws := t.draws }

/-! ## GF(2^M) -/

/-- A word as the polynomial over GF(2) rule R8 reads it as: bit `i` is the coefficient of z^i. -/
noncomputable def wordPoly (w : Word) : Polynomial (ZMod 2) :=
  ((List.range 32).map fun i => if w.getLsbD i then Polynomial.X ^ i else 0).sum

/-- Rule R161: `gmul(a, b)` is the product of `a` and `b` as polynomials over GF(2), reduced modulo FIELD_POLY. -/
def Obligations.GmulIsTheReducedProduct : Prop :=
  ∀ (p : Params) (a b : Word), p.legal = true → Reduced p a → Reduced p b →
    Reduced p (gmul p a b) ∧ wordPoly (gmul p a b) = (wordPoly a * wordPoly b) %ₘ wordPoly p.fieldPoly

/-- Rule R162: `ginv(a) = a^(2^M - 2)`, the power computed with gmul; it inverts every nonzero element, and
`ginv(0) = 0`. -/
def Obligations.GinvIsThePowerAndInverts : Prop :=
  ∀ (p : Params) (a : Word), p.legal = true → Reduced p a →
    ginv p a = gpow p a (2 ^ p.m - 2) ∧ (a ≠ 0#32 → gmul p a (ginv p a) = 1#32) ∧ ginv p 0#32 = 0#32

/-- Rule R166: the field laws, and every result is an M-bit value. -/
def Obligations.FieldLaws : Prop :=
  ∀ (p : Params) (a b c : Word), p.legal = true → Reduced p a → Reduced p b → Reduced p c →
    Reduced p (gadd a b) ∧ Reduced p (gmul p a b) ∧ Reduced p (ginv p a) ∧
    gadd a b = gadd b a ∧ gadd (gadd a b) c = gadd a (gadd b c) ∧
    gmul p a b = gmul p b a ∧ gmul p (gmul p a b) c = gmul p a (gmul p b c) ∧
    gmul p a (gadd b c) = gadd (gmul p a b) (gmul p a c) ∧
    gadd a 0#32 = a ∧ gmul p a 1#32 = a ∧ gadd a a = 0#32 ∧ gmul p a 0#32 = 0#32 ∧
    (a ≠ 0#32 → gmul p a (ginv p a) = 1#32) ∧
    gmul p (gadd a b) (gadd a b) = gadd (gmul p a a) (gmul p b b) ∧ gpow p a (2 ^ p.m) = a

/-- Rules R149, R163, R164, R165: NOP and the three field commands from every state. NOP completes with OK = 1 and no
other effect; RES is the XOR, the product, the inverse of the operands, which are unchanged; OK = 1. -/
def Obligations.FieldCommandResults : Prop :=
  ∀ s : State, ∃ st : Status,
    st = ⟨false, true, true, false, s.status.werr, 0#4, s.status.lastOp⟩ ∧
    exec .nop s = .next { s with eng := .idle, status := st } ∧
    exec .gfAdd s = .next { s with eng := .idle, status := st, res := s.opa ^^^ s.opb } ∧
    exec .gfMul s = .next { s with eng := .idle, status := st, res := gmul s.params s.opa s.opb } ∧
    exec .gfInv s = .next { s with eng := .idle, status := st, res := ginv s.params s.opa }

/-! ## Polynomials -/

/-- Rule R171: POLY_MUL writes all of PR with the coefficients of the product, PR[k] the sum of PA[i]*PB[j] over
i + j = k, and OK = 1. -/
def Obligations.PolyMulProduct : Prop :=
  ∀ (s : State) (a b : List Word), s.params.legal = true →
    s.load .pa = some a → s.load .pb = some b →
    ∃ t, exec .polyMul s = .next t ∧ t.status.ok = true ∧ t.status.errcode = 0#4 ∧ t.written .pr ∧
      ∀ k, k ≤ 2 * s.params.t → t.wordAt .pr k = prodCoeff s.params a b k

/-- Rules R172, R173: with G monic, PR[0..T-1] is the remainder of PA*PB by G, the only polynomial of degree below T that
differs from the product by a multiple of G, and PR[T..2T] is 0; OK = 1. -/
def Obligations.PolyMulmodRemainder : Prop :=
  ∀ (s : State) (a b g : List Word), s.params.legal = true →
    s.load .pa = some a → s.load .pb = some b → s.load .g = some g → coeff g s.params.t = 1#32 →
    (∀ x ∈ a, Reduced s.params x) → (∀ x ∈ b, Reduced s.params x) → (∀ x ∈ g, Reduced s.params x) →
    ∃ t pr, exec .polyMulmod s = .next t ∧ t.status.ok = true ∧ t.status.errcode = 0#4 ∧ t.load .pr = some pr ∧
      (∀ k, s.params.t ≤ k → coeff pr k = 0#32) ∧
      (∃ q : List Word, ∀ k, prodCoeff s.params a b k = prodCoeff s.params q g k ^^^ coeff pr k) ∧
      ∀ q r : List Word, (∀ x ∈ q, Reduced s.params x) → (∀ x ∈ r, Reduced s.params x) → r.length ≤ s.params.t →
        (∀ k, prodCoeff s.params a b k = prodCoeff s.params q g k ^^^ coeff r k) → ∀ k, coeff r k = coeff pr k

/-- Rules R172, R190, R321: a G that is not monic of degree T is OPERAND, ERRCODE 2: STATUS changes and nothing else. -/
def Obligations.NonMonicGoppaIsOperandError : Prop :=
  ∀ (s : State) (i : Instr) (g : List Word),
    (i = .polyMulmod ∧ (s.load .pa).isSome ∧ (s.load .pb).isSome ∨ i = .irredTest) →
    s.load .g = some g → coeff g s.params.t ≠ 1#32 →
    exec i s = .next { s with
      eng := .idle
      status := ⟨false, true, false, true, s.status.werr, 2#4, s.status.lastOp⟩ }

/-- Rule R191: `irreducible(c)`, for a monic `c` of degree T, is true exactly when `c` is not the product of two
polynomials over GF(2^M) of degree >= 1 each. -/
def Obligations.IrreducibleMeansNoFactors : Prop :=
  ∀ (p : Params) (c : List Word), p.legal = true → MonicT p c → (irreducible p c = true ↔ ¬Factors p c)

/-- Rule R190: IRRED_TEST of a monic G completes with OK = 1 exactly when G is irreducible, and writes nothing but
STATUS. -/
def Obligations.IrredTestReports : Prop :=
  ∀ (s : State) (g : List Word), s.params.legal = true → s.load .g = some g → MonicT s.params g →
    ∃ ok : Bool, (ok = true ↔ ¬Factors s.params g) ∧
      exec .irredTest s = .next { s with
        eng := .idle
        status := ⟨false, true, ok, false, s.status.werr, 0#4, s.status.lastOp⟩ }

/-- Rule R194, the reason it gives: an irreducible g of degree T >= 2 has no root. -/
def Obligations.IrreducibleHasNoRoot : Prop :=
  ∀ (p : Params) (c : List Word) (a : Word), p.legal = true → MonicT p c → irreducible p c = true → Reduced p a →
    peval p c a ≠ 0#32

/-- Rule R194: after GOPPA_SAMPLE completes with OK = 1, G holds a monic, degree-T, irreducible polynomial, with no root
among the field elements, so that `ginv(peval(G, a))` is a true inverse for every element a. -/
def Obligations.GoppaSampleGivesRootFreeG : Prop :=
  ∀ s t : State, s.params.legal = true → s.eng = .busy .goppaSample → exec .goppaSample s = .next t → t.eng = .idle →
    t.status.ok = true →
    ∃ g, t.load .g = some g ∧ MonicT s.params g ∧ ¬Factors s.params g ∧ ∀ a, Reduced s.params a →
      peval s.params g a ≠ 0#32 ∧ gmul s.params (peval s.params g a) (ginv s.params (peval s.params g a)) = 1#32

/-! ## The generators -/

/-- Rules R192, R193, R195: with the bytes of the attempts it makes offered, GOPPA_SAMPLE completes: G is the first candidate that is
irreducible, coefficient `i` of candidate `a` being draw T*(a-1) + i and the leading one 1, TRIES = a; or all
GOPPA_MAX_TRIES candidates are rejected, TRIES is the ceiling, G is unwritten and ERRCODE is 3. The bytes of the attempts
made, 2*T each (notes/assumptions/5.md), are taken and counted in RCNT. -/
def Obligations.GoppaSampleFirstIrreducible : Prop :=
  ∀ s : State, s.params.legal = true → ¬s.starves .goppaSample →
    ∃ (t : State) (cand : Nat → List Word),
      (∀ a, cand a = drawsAt s.params s.port.offered (s.params.t * (a - 1)) s.params.t ++ [1#32]) ∧
      exec .goppaSample s = .next t ∧ t.eng = .idle ∧ t.status.done = true ∧
      2 * s.params.t * t.tries.toNat ≤ s.port.offered.length ∧
      t.port.offered = s.port.offered.drop (2 * s.params.t * t.tries.toNat) ∧
      t.port.rcnt = s.port.rcnt + BitVec.ofNat 64 (2 * s.params.t * t.tries.toNat) ∧
      1 ≤ t.tries.toNat ∧ t.tries.toNat ≤ s.params.goppaMaxTries ∧
      (∀ a, 1 ≤ a → a < t.tries.toNat → irreducible s.params (cand a) = false) ∧
      (irreducible s.params (cand t.tries.toNat) = true →
        t.load .g = some (cand t.tries.toNat) ∧ t.status.ok = true ∧ t.status.errcode = 0#4) ∧
      (irreducible s.params (cand t.tries.toNat) = false →
        t.tries.toNat = s.params.goppaMaxTries ∧ t.unspecified .g ∧ t.status.ok = false ∧ t.status.errcode = 3#4)

/-- Rules R197, R201: with its bytes offered, SUPPORT_GEN completes and takes all SUPPORT_DRAWS draws. The distinct draws
in order of first appearance, N of them, are L, pairwise distinct M-bit elements, and OK = 1; where there are fewer, L is
unwritten and OK = 0, without an error. ACCEPT counts the accepted ones. -/
def Obligations.SupportGenFirstDistinctDraws : Prop :=
  ∀ s : State, s.params.legal = true → 2 * s.params.supportDraws ≤ s.port.offered.length →
    ∃ (t : State) (l : List Word),
      l = ((drawsAt s.params s.port.offered 0 s.params.supportDraws).eraseDups).take s.params.n ∧
      exec .supportGen s = .next t ∧
      t.port.offered = s.port.offered.drop (2 * s.params.supportDraws) ∧
      t.port.rcnt = s.port.rcnt + BitVec.ofNat 64 (2 * s.params.supportDraws) ∧
      t.accept.toNat = l.length ∧ l.Nodup ∧ (∀ x ∈ l, Reduced s.params x) ∧
      t.status.errcode = 0#4 ∧ (t.status.ok = true ↔ l.length = s.params.n) ∧
      (l.length = s.params.n → t.load .l = some l) ∧ (l.length < s.params.n → t.unspecified .l)

/-- Rules R250-R252: with the bytes of the attempts it makes offered, FW_SAMPLE completes: either every one of FW_MAX_TRIES attempts
failed, with TRIES the ceiling, WEIGHT 0, EVEC unwritten and ERRCODE 3; or the attempt TRIES is the first that gives T
pairwise distinct positions, and EVEC has exactly those bits: weight T, WEIGHT = T, OK = 1. The bytes of the attempts
made, 2*tau each, are taken and counted. -/
def Obligations.FwSampleWeightT : Prop :=
  ∀ s : State, s.params.legal = true → ¬s.starves .fwSample →
    ∃ (t : State) (pos : Nat → List Nat),
      (∀ a, pos a = ((drawsAt s.params s.port.offered (s.params.tau * (a - 1)) s.params.tau).map
        BitVec.toNat |>.filter (· < s.params.n)).take s.params.t) ∧
      exec .fwSample s = .next t ∧ t.eng = .idle ∧ t.status.done = true ∧
      2 * s.params.tau * t.tries.toNat ≤ s.port.offered.length ∧
      t.port.offered = s.port.offered.drop (2 * s.params.tau * t.tries.toNat) ∧
      t.port.rcnt = s.port.rcnt + BitVec.ofNat 64 (2 * s.params.tau * t.tries.toNat) ∧
      1 ≤ t.tries.toNat ∧ t.tries.toNat ≤ s.params.fwMaxTries ∧
      (∀ a, 1 ≤ a → a < t.tries.toNat → ¬((pos a).length = s.params.t ∧ (pos a).Nodup)) ∧
      ((pos t.tries.toNat).length = s.params.t ∧ (pos t.tries.toNat).Nodup →
        t.written .evec ∧ (∀ j, j < 32 * s.params.rowWords → (t.bitAt .evec j = true ↔ j ∈ pos t.tries.toNat)) ∧
        weightOf s.params.n (t.bitAt .evec) = s.params.t ∧ t.weight.toNat = s.params.t ∧ t.status.ok = true ∧
        t.status.errcode = 0#4) ∧
      (¬((pos t.tries.toNat).length = s.params.t ∧ (pos t.tries.toNat).Nodup) →
        t.tries.toNat = s.params.fwMaxTries ∧ t.weight = 0#17 ∧ t.unspecified .evec ∧ t.status.ok = false ∧
        t.status.errcode = 3#4)

/-! ## The matrix and the encoder -/

/-- Rules R220-R222: BUILD_H writes MAT[j*M + b][i] = bit b of L[i]^j / g(L[i]) for every power j, bit b and column i; OK
= 1 exactly when no L[i] is a root of G, and no error is raised; the column of a root is all zero. -/
def Obligations.BuildHEntries : Prop :=
  ∀ (s : State) (g l : List Word), s.params.legal = true → s.load .g = some g → s.load .l = some l →
    (∀ x ∈ g, Reduced s.params x) → (∀ x ∈ l, Reduced s.params x) →
    ∃ t, exec .buildH s = .next t ∧ t.written .mat ∧ t.status.errcode = 0#4 ∧
      (t.status.ok = true ↔ ∀ i, i < s.params.n → peval s.params g (coeff l i) ≠ 0#32) ∧
      (∀ i j b, i < s.params.n → j < s.params.t → b < s.params.m →
        t.matAt (j * s.params.m + b) i =
          (gmul s.params (gpow s.params (coeff l i) j) (ginv s.params (peval s.params g (coeff l i)))).getLsbD b) ∧
      ∀ i r, i < s.params.n → r < s.params.r → peval s.params g (coeff l i) = 0#32 → t.matAt r i = false

/-- Rules R224, R227, R230: with VARIANT_F = 0 SYSTEMATIZE succeeds exactly when MAT's left block is invertible. Then MAT
is [I_R | T] with the kernel MAT had, and L is not touched; otherwise MAT is unwritten and OK = 0, without an error.
PIVMASK is 0. -/
def Obligations.SystematizePlain : Prop :=
  ∀ s : State, s.params.legal = true → s.params.variantF = false → s.ElementsReduced → s.written .mat →
    ∃ t, exec .systematize s = .next t ∧ t.status.errcode = 0#4 ∧ t.pivmask = 0#64 ∧ t.load .l = s.load .l ∧
      (t.status.ok = true ↔ ¬s.leftSingular) ∧
      (s.leftSingular → t.unspecified .mat) ∧
      (¬s.leftSingular → t.written .mat ∧
        (∀ r c, r < s.params.r → c < s.params.r → t.matAt r c = decide (r = c)) ∧
        ∀ e, t.inKernel e ↔ s.inKernel e)

/-- Rules R225-R227, R230: with VARIANT_F = 1 and s = R - MU, SYSTEMATIZE succeeds exactly when MAT's columns 0..s-1 are
independent and its rows are independent on columns 0..s+NU-1. Then bit j of PIVMASK is 1 exactly when window column j, column
s+j of MAT before the swaps, is no sum of the columns before it: MU bits, all below NU. MAT is [I_R | T] with the kernel MAT had
but for the permutation that swaps columns s+j and s+p_j, j ascending, and L is permuted the same way. Otherwise MAT is
unwritten, PIVMASK is 0, L is unchanged and OK = 0. No error is raised. -/
def Obligations.SystematizeSemi : Prop :=
  ∀ (s : State) (l : List Word), s.params.legal = true → s.params.variantF = true → s.ElementsReduced →
    s.written .mat → s.load .l = some l →
    ∃ (t : State) (σ : Equiv.Perm Nat), exec .systematize s = .next t ∧ t.status.errcode = 0#4 ∧
      σ = pivotSwaps s.params (pivotList s.params t.pivmask) ∧
      (t.status.ok = true ↔ (∀ c, c < s.params.r - s.params.mu → ¬s.colInSpan c) ∧
        ¬s.rowsDependentOn (s.params.r - s.params.mu + s.params.nu)) ∧
      (t.status.ok = false → t.unspecified .mat ∧ t.pivmask = 0#64 ∧ t.load .l = some l) ∧
      (t.status.ok = true → t.written .mat ∧
        (∀ j, t.pivmask.getLsbD j = true ↔ j < s.params.nu ∧ ¬s.colInSpan (s.params.r - s.params.mu + j)) ∧
        weightOf 64 t.pivmask.getLsbD = s.params.mu ∧ (∀ j, s.params.nu ≤ j → t.pivmask.getLsbD j = false) ∧
        (∀ r c, r < s.params.r → c < s.params.r → t.matAt r c = decide (r = c)) ∧
        (∀ c, s.params.n ≤ c → σ c = c) ∧
        (∀ c, c < s.params.n → t.wordAt .l c = coeff l (σ c)) ∧
        ∀ e, t.inKernel e ↔ s.inKernel fun c => e (σ.symm c))

/-- Rules R255, R256: ENCODE writes SYN = [I_R | T] * EVEC, with T the right block of MAT, whatever EVEC's weight; OK = 1.
Only words of MAT that hold a bit of columns R..N-1 need be written. -/
def Obligations.EncodeProduct : Prop :=
  ∀ s : State, s.params.legal = true → s.written .evec →
    (∀ r k, r < s.params.r → s.params.r / 32 ≤ k → k < s.params.rowWords →
      (Memory.readWord s.mem (Region.base .mat + 4 * (r * s.params.rowWords + k))).isSome) →
    ∃ t, exec .encode s = .next t ∧ t.status.ok = true ∧ t.status.errcode = 0#4 ∧ t.written .syn ∧
      (∀ r, r < s.params.r → t.bitAt .syn r =
        (s.bitAt .evec r ^^ parity s.params.k fun c => s.matAt r (s.params.r + c) && s.bitAt .evec (s.params.r + c))) ∧
      ∀ j, s.params.r ≤ j → j < 32 * s.params.synWords → t.bitAt .syn j = false

/-- Rule R257: ENCODE is linear, for error vectors of any weight: run on three states with the same right block, the third
EVEC the XOR of the first two, its third syndrome is the XOR of the first two. -/
def Obligations.EncodeLinear : Prop :=
  ∀ s1 s2 s3 : State, s1.params.legal = true → s2.params = s1.params → s3.params = s1.params →
    s1.inputsWritten .encode = true → s2.inputsWritten .encode = true → s3.inputsWritten .encode = true →
    (∀ r c, r < s1.params.r → s1.params.r ≤ c → c < s1.params.n →
      s2.matAt r c = s1.matAt r c ∧ s3.matAt r c = s1.matAt r c) →
    (∀ j, j < s1.params.n → s3.bitAt .evec j = (s1.bitAt .evec j ^^ s2.bitAt .evec j)) →
    ∃ t1 t2 t3, exec .encode s1 = .next t1 ∧ exec .encode s2 = .next t2 ∧ exec .encode s3 = .next t3 ∧
      ∀ r, r < s1.params.r → t3.bitAt .syn r = (t1.bitAt .syn r ^^ t2.bitAt .syn r)

/-! ## The decoder -/

/-- Rules R280, R281: DEC_SYNDROME writes s_j = the sum over the set bits i of SYN of L[i]^j * ginv(g(L[i])^2); OK = 1
exactly when no L[i] is a root of G, and S is written either way, without an error. -/
def Obligations.DecSyndromeFormula : Prop :=
  ∀ (s : State) (g l : List Word), s.params.legal = true → s.ElementsReduced → s.written .syn →
    s.load .g = some g → s.load .l = some l →
    ∃ t, exec .decSyndrome s = .next t ∧ t.status.errcode = 0#4 ∧ t.written .s ∧
      (t.status.ok = true ↔ ∀ i, i < s.params.n → peval s.params g (coeff l i) ≠ 0#32) ∧
      ∀ j, j < 2 * s.params.t → t.wordAt .s j = xorSum s.params.r fun i =>
        if s.bitAt .syn i then
          gmul s.params (gpow s.params (coeff l i) j)
            (ginv s.params (gmul s.params (peval s.params g (coeff l i)) (peval s.params g (coeff l i))))
        else 0#32

/-- Rules R283, R284: BM_SOLVE completes from every written S: SIG has T+1 coefficients with SIG[T] = 1, so its degree is
T, 0 <= BM_L <= 2T, OK = (BM_L <= T), no error. -/
def Obligations.BmSolveMonicLocator : Prop :=
  ∀ (s : State) (syn : List Word), s.params.legal = true → s.load .s = some syn →
    ∃ t sig, exec .bmSolve s = .next t ∧ t.status.errcode = 0#4 ∧ t.load .sig = some sig ∧
      coeff sig s.params.t = 1#32 ∧ degree sig = some s.params.t ∧ t.bmL.toNat ≤ 2 * s.params.t ∧
      (t.status.ok = true ↔ t.bmL.toNat ≤ s.params.t)

/-- Rules R283, R284: where BM_L <= T, the connection polynomial C with C[i] = SIG[T-i] generates the syndromes: the sum
of C[i]*S[n-i] over i = 0..T is 0 for every n from T to 2T-1. -/
def Obligations.BmSolveGeneratesSyndromes : Prop :=
  ∀ (s t : State) (syn : List Word), s.params.legal = true → s.load .s = some syn →
    (∀ x ∈ syn, Reduced s.params x) → exec .bmSolve s = .next t → t.bmL.toNat ≤ s.params.t →
    ∀ n, s.params.t ≤ n → n < 2 * s.params.t →
      (xorSum (s.params.t + 1) fun i =>
        gmul s.params (t.wordAt .sig (s.params.t - i)) (coeff syn (n - i))) = 0#32

/-- Rules R287, R289, R290: ROOT_FIND sets EVEC[i] exactly where sigma vanishes at L[i], WEIGHT counts those points, and
OK = 1 exactly when the weight is T, sigma has degree T and the doubled syndrome of EVEC is S; so OK = 1 implies weight
T. EVEC and WEIGHT are written in both cases, without an error. -/
def Obligations.RootFindScansSupport : Prop :=
  ∀ (s : State) (sig l g syn : List Word), s.params.legal = true →
    s.load .sig = some sig → s.load .l = some l → s.load .g = some g → s.load .s = some syn →
    ∃ t, exec .rootFind s = .next t ∧ t.status.errcode = 0#4 ∧ t.written .evec ∧
      (∀ i, i < s.params.n → (t.bitAt .evec i = true ↔ peval s.params sig (coeff l i) = 0#32)) ∧
      (∀ j, s.params.n ≤ j → j < 32 * s.params.rowWords → t.bitAt .evec j = false) ∧
      t.weight.toNat = weightOf s.params.n (t.bitAt .evec) ∧
      (t.status.ok = true ↔ t.weight.toNat = s.params.t ∧ coeff sig s.params.t ≠ 0#32 ∧
        ∀ j, j < 2 * s.params.t → coeff syn j = xorSum s.params.n fun i =>
          if t.bitAt .evec i then
            (geometric s.params (ginv s.params (gmul s.params (peval s.params g (coeff l i))
              (peval s.params g (coeff l i)))) (coeff l i) (j + 1)).getD j 0#32
          else 0#32)

/-- Rule R291: DECODE leaves the state that DEC_SYNDROME, BM_SOLVE and ROOT_FIND leave one after another, but for
STATUS.OK (and LAST_OP, which the issue of each sets): its OK is that of DEC_SYNDROME and that of ROOT_FIND together. -/
def Obligations.DecodeIsTheThreeStages : Prop :=
  ∀ s : State, s.params.legal = true → s.written .syn → s.written .g → s.written .l →
    ∃ t t1 t2 t3, exec .decode s = .next t ∧ exec .decSyndrome s = .next t1 ∧ exec .bmSolve t1 = .next t2 ∧
      exec .rootFind t2 = .next t3 ∧
      t = { t3 with status := ⟨false, true, t1.status.ok && t3.status.ok, false, s.status.werr, 0#4,
        s.status.lastOp⟩ }

/-- Rules R252, R290: after FW_SAMPLE, ROOT_FIND or DECODE completes with OK = 1, EVEC has Hamming weight exactly T and
WEIGHT = T. -/
def Obligations.CompletedErrorVectorHasWeightT : Prop :=
  ∀ (i : Instr) (s t : State), s.params.legal = true → i = .fwSample ∨ i = .rootFind ∨ i = .decode →
    s.eng = .busy i → exec i s = .next t → t.eng = .idle → t.status.ok = true →
    t.written .evec ∧ weightOf s.params.n (t.bitAt .evec) = s.params.t ∧ t.weight.toNat = s.params.t

/-- Rule R292: with G irreducible of degree T, L distinct and MAT the SYSTEMATIZE output for (G, L) (with L as SYSTEMATIZE
left it), ENCODE and then DECODE restore every EVEC of weight T, with OK = 1. Distinct points are no roots of an
irreducible G (rule R194). -/
def Obligations.EncodeThenDecodeRestores : Prop :=
  ∀ (s0 s1 s2 s3 : State) (g l : List Word), s0.params.legal = true → s0.ElementsReduced →
    s0.load .g = some g → s0.load .l = some l → MonicT s0.params g → irreducible s0.params g = true → l.Nodup →
    exec .buildH s0 = .next s1 → exec .systematize s1 = .next s2 → s2.status.ok = true →
    s3.params = s2.params → s3.load .g = s2.load .g → s3.load .l = s2.load .l → s3.load .mat = s2.load .mat →
    s3.written .evec → weightOf s3.params.n (s3.bitAt .evec) = s3.params.t →
    ∃ s4 s5, exec .encode s3 = .next s4 ∧ exec .decode s4 = .next s5 ∧ s5.status.ok = true ∧
      ∀ i, i < s3.params.n → s5.bitAt .evec i = s3.bitAt .evec i
end

