-- ==== Sys2Proof/Laws/Field.lean ====
section
/-! SUPPORT. Products with 0 in GF(2^M), sums of zeros, and the coefficients past the end of a product (rules R161,
R171). -/

namespace Sys2Proof.Machine

/-- Folding a function that keeps `a` keeps `a`. -/
theorem foldl_fixed {α β : Type} {f : α → β → α} {a : α} (h : ∀ b, f a b = a) (l : List β) : l.foldl f a = a := by
  induction l with
  | nil => rfl
  | cons b l ih => rw [List.foldl_cons, h, ih]

theorem foldr_fixed {α β : Type} {f : β → α → α} {a : α} (h : ∀ b, f b a = a) (l : List β) : l.foldr f a = a := by
  induction l with
  | nil => rfl
  | cons b l ih => rw [List.foldr_cons, ih, h]

@[simp] theorem greduce_zero (p : Params) : greduce p 0#32 = 0#32 := by
  simp [greduce, foldr_fixed]

@[simp] theorem gmul_zero_left (p : Params) (b : Word) : gmul p 0#32 b = 0#32 := by
  simp [gmul, gmulRaw, foldl_fixed]

@[simp] theorem gmul_zero_right (p : Params) (a : Word) : gmul p a 0#32 = 0#32 := by
  simp [gmul, gmulRaw, foldl_fixed]

theorem coeff_of_le {c : List Word} {i : Nat} (h : c.length ≤ i) : coeff c i = 0#32 := by
  simp [coeff, List.getD_eq_getElem?_getD, List.getElem?_eq_none h]

theorem xorSum_eq_zero {n : Nat} {f : Nat → Word} (h : ∀ i, i < n → f i = 0#32) : xorSum n f = 0#32 := by
  unfold xorSum
  induction n with
  | zero => rfl
  | succ n ih =>
    rw [List.range_succ, List.foldl_append, ih fun i hi => h i (by omega)]
    simp [h n (by omega)]

/-- A product has no coefficient past the sum of the lengths. -/
theorem prodCoeff_of_le (p : Params) {a b : List Word} {k : Nat} (h : a.length + b.length ≤ k) :
    prodCoeff p a b k = 0#32 := by
  refine xorSum_eq_zero fun i _ => ?_
  by_cases hi : a.length ≤ i
  · rw [coeff_of_le hi, gmul_zero_left]
  · rw [coeff_of_le (by omega : b.length ≤ k - i), gmul_zero_right]

end Sys2Proof.Machine
end

