-- ==== Sys2Proof/Laws/Memory.lean ====
section
/-! SUPPORT. The laws of the memory list: a read after a write, the canonical form, words over bytes, runs of words,
`havoc`. -/

namespace Sys2Proof.Machine.Memory

variable {m : Memory} {a b n : Nat} {w : Word}

@[simp] theorem read_nil (a : Nat) : read [] a = none := rfl

theorem read_write (m : Memory) (a : Nat) (v : Byte) (b : Nat) :
    read (write m a v) b = if b = a then some v else read m b := by
  induction m with
  | nil => simp only [write, read, eq_comm]
  | cons c rest ih =>
    obtain ⟨k, x⟩ := c
    unfold write
    split
    · simp only [read, eq_comm (a := a)]
    · split
      · subst_vars
        simp only [read, eq_comm (a := b)]
        split <;> rfl
      · simp only [read, ih]
        split
        · split
          · omega
          · rfl
        · rfl

@[simp] theorem read_write_same (m : Memory) (a : Nat) (v : Byte) : read (write m a v) a = some v := by
  simp [read_write]

theorem read_write_other (v : Byte) (h : b ≠ a) : read (write m a v) b = read m b := by
  simp [read_write, h]

/-- The keys of a list after a write are the old ones and the written one. -/
theorem mem_keys_write (m : Memory) (a : Nat) (v : Byte) (k : Nat) :
    k ∈ (write m a v).map Prod.fst ↔ k = a ∨ k ∈ m.map Prod.fst := by
  induction m with
  | nil => simp [write]
  | cons c rest ih =>
    obtain ⟨k', x⟩ := c
    unfold write
    split
    · simp
    · split
      · subst_vars; simp
      · simp only [List.map_cons, List.mem_cons, ih]; tauto

/-- A write keeps the canonical form. -/
theorem wf_write (h : wf m) (a : Nat) (v : Byte) : wf (write m a v) := by
  induction m with
  | nil => simp [write, wf]
  | cons c rest ih =>
    obtain ⟨k, x⟩ := c
    obtain ⟨hk, hr⟩ := List.pairwise_cons.1 h
    unfold write
    split
    · refine List.pairwise_cons.2 ⟨?_, h⟩
      intro y hy
      rcases List.mem_cons.1 hy with rfl | hy
      · assumption
      · exact lt_trans ‹_› (hk y hy)
    · split
      · subst_vars; exact List.pairwise_cons.2 ⟨hk, hr⟩
      · refine List.pairwise_cons.2 ⟨fun y hy => ?_, ih hr⟩
        rcases (mem_keys_write rest a v y).1 hy with rfl | hy
        · show k < y
          omega
        · exact hk y hy

theorem wf_writeWord (h : wf m) (a : Nat) (w : Word) : wf (writeWord m a w) :=
  wf_write (wf_write (wf_write (wf_write h _ _) _ _) _ _) _ _

theorem wf_writeWords (h : wf m) (a : Nat) (ws : List Word) : wf (writeWords m a ws) := by
  induction ws generalizing m a with
  | nil => exact h
  | cons w ws ih => exact ih (wf_writeWord h a w) (a + 4)

/-- `havoc` keeps the canonical form. -/
theorem wf_havoc (h : wf m) (a n : Nat) : wf (havoc m a n) :=
  List.Pairwise.sublist (List.Sublist.map _ List.filter_sublist) h

theorem read_none_of_keys (h : ∀ k ∈ m.map Prod.fst, a ≠ k) : read m a = none := by
  induction m with
  | nil => rfl
  | cons c rest ih =>
    obtain ⟨k, x⟩ := c
    simp only [List.map_cons, List.mem_cons, forall_eq_or_imp] at h
    simp [read, ih h.2, Ne.symm h.1]

/-- Inside the run `havoc` leaves nothing; outside it changes nothing. -/
theorem read_havoc (m : Memory) (a n b : Nat) :
    read (havoc m a n) b = if a ≤ b ∧ b < a + 4 * n then none else read m b := by
  induction m with
  | nil => simp [havoc]
  | cons c rest ih =>
    obtain ⟨k, x⟩ := c
    unfold havoc at ih ⊢
    by_cases hk : a ≤ k ∧ k < a + 4 * n
    · have : (!(decide (a ≤ k) && decide (k < a + 4 * n))) = false := by simp [hk]
      rw [List.filter_cons_of_neg (by simp [hk]), ih]
      split
      · rfl
      · have : k ≠ b := by rintro rfl; exact ‹¬_› hk
        simp [read, this]
    · rw [List.filter_cons_of_pos (by simp; omega)]
      simp only [read, ih]
      by_cases hkb : k = b
      · subst hkb; simp [hk]
      · simp [hkb]

/-- The bytes of a word are where the word is. -/
theorem read_writeWord (m : Memory) (a : Nat) (w : Word) (b : Nat) :
    read (writeWord m a w) b = if a ≤ b ∧ b < a + 4 then some (byteOf w (b - a)) else read m b := by
  simp only [writeWord, read_write]
  by_cases h0 : b = a
  · subst h0; simp
  · by_cases h1 : b = a + 1
    · subst h1; simp
    · by_cases h2 : b = a + 2
      · subst h2; simp
      · by_cases h3 : b = a + 3
        · subst h3; simp
        · have : ¬(a ≤ b ∧ b < a + 4) := by omega
          simp [*]

/-- The four bytes of a word are the word. -/
theorem word_of_bytes (w : Word) : byteOf w 3 ++ byteOf w 2 ++ byteOf w 1 ++ byteOf w 0 = w := by
  apply BitVec.eq_of_getLsbD_eq
  intro i hi
  simp only [byteOf, BitVec.getLsbD_append, BitVec.getLsbD_extractLsb']
  by_cases h0 : i < 8
  · simp [h0]
  · by_cases h1 : i - 8 < 8
    · simp [h0, h1]; congr 1; omega
    · by_cases h2 : i - 8 - 8 < 8
      · simp [h0, h1, h2]; congr 1; omega
      · have h3 : i - 8 - 8 - 8 < 8 := by omega
        simp [h0, h1, h2, h3]; congr 1; omega

/-- A word read after it was written is the word. -/
@[simp] theorem readWord_writeWord_same (m : Memory) (a : Nat) (w : Word) : readWord (writeWord m a w) a = some w := by
  have h : ∀ k, k < 4 → read (writeWord m a w) (a + k) = some (byteOf w k) := by
    intro k hk
    rw [read_writeWord, if_pos (by omega)]
    simp
  have h0 := h 0 (by omega)
  simp only [Nat.add_zero] at h0
  simp only [readWord, h0, h 1 (by omega), h 2 (by omega), h 3 (by omega)]
  simpa using word_of_bytes w

/-- A word is unchanged where its four bytes are. -/
theorem readWord_congr {m m' : Memory} (h : ∀ k, k < 4 → read m' (a + k) = read m (a + k)) :
    readWord m' a = readWord m a := by
  have h0 := h 0 (by omega)
  simp only [Nat.add_zero] at h0
  simp only [readWord, h0, h 1 (by omega), h 2 (by omega), h 3 (by omega)]

/-- A word that does not touch the written one is unchanged. -/
theorem readWord_writeWord_other (w : Word) (h : b + 4 ≤ a ∨ a + 4 ≤ b) :
    readWord (writeWord m a w) b = readWord m b := by
  apply readWord_congr
  intro k hk
  rw [read_writeWord, if_neg (by omega)]

/-- A word is there exactly where its four bytes are. -/
theorem readWord_isSome_iff : (readWord m a).isSome ↔ ∀ k, k < 4 → (read m (a + k)).isSome := by
  constructor
  · intro h k hk
    simp only [readWord, Option.bind_eq_bind, Option.isSome_iff_exists, Option.bind_eq_some_iff] at h
    obtain ⟨_, b0, h0, b1, h1, b2, h2, b3, h3, _⟩ := h
    rcases (by omega : k = 0 ∨ k = 1 ∨ k = 2 ∨ k = 3) with rfl | rfl | rfl | rfl <;> simp [*]
  · intro h
    obtain ⟨b0, h0⟩ := Option.isSome_iff_exists.1 (h 0 (by omega))
    obtain ⟨b1, h1⟩ := Option.isSome_iff_exists.1 (h 1 (by omega))
    obtain ⟨b2, h2⟩ := Option.isSome_iff_exists.1 (h 2 (by omega))
    obtain ⟨b3, h3⟩ := Option.isSome_iff_exists.1 (h 3 (by omega))
    simp only [Nat.add_zero] at h0
    simp [readWord, h0, h1, h2, h3]

/-- A run of words is there exactly where each of its words is, and then has them in order. -/
theorem readWords_eq_some_iff {ws : List Word} :
    readWords m a n = some ws ↔ ws.length = n ∧ ∀ i, (h : i < ws.length) → readWord m (a + 4 * i) = some ws[i] := by
  induction n generalizing a ws with
  | zero =>
    simp only [readWords, Option.some.injEq]
    constructor
    · rintro rfl; simp
    · rintro ⟨h, -⟩; simpa using (List.length_eq_zero_iff.1 h).symm
  | succ n ih =>
    simp only [readWords, Option.bind_eq_bind, Option.bind_eq_some_iff]
    constructor
    · rintro ⟨w, hw, ws', hws, heq⟩
      obtain rfl : w :: ws' = ws := by simpa using heq
      obtain ⟨hl, hi⟩ := ih.1 hws
      refine ⟨by simp [hl], ?_⟩
      intro i h
      cases i with
      | zero => simpa using hw
      | succ i =>
        have := hi i (by simpa using h)
        simpa [Nat.mul_add, Nat.add_assoc, Nat.add_comm 4] using this
    · rintro ⟨hl, hi⟩
      cases ws with
      | nil => simp at hl
      | cons w ws' =>
        refine ⟨w, hi 0 (by simp), ws', ih.2 ⟨by simpa using hl, ?_⟩, rfl⟩
        intro i h
        have := hi (i + 1) (by simpa using h)
        simpa [Nat.mul_add, Nat.add_assoc, Nat.add_comm 4] using this

theorem length_readWords {ws : List Word} (h : readWords m a n = some ws) : ws.length = n :=
  (readWords_eq_some_iff.1 h).1

theorem readWord_of_readWords {ws : List Word} (h : readWords m a n = some ws) {i : Nat} (hi : i < ws.length) :
    readWord m (a + 4 * i) = some ws[i] := (readWords_eq_some_iff.1 h).2 i hi

/-- A run of words is there exactly where each word is. -/
theorem readWords_isSome_iff : (readWords m a n).isSome ↔ ∀ i, i < n → (readWord m (a + 4 * i)).isSome := by
  induction n generalizing a with
  | zero => simp [readWords]
  | succ n ih =>
    constructor
    · intro h i hi
      obtain ⟨ws, hws⟩ := Option.isSome_iff_exists.1 h
      have hl := length_readWords hws
      simp [readWord_of_readWords hws (i := i) (by omega)]
    · intro h
      have h0 := h 0 (by omega)
      obtain ⟨w, hw⟩ := Option.isSome_iff_exists.1 h0
      have hr := (ih (a := a + 4)).2 (by
        intro i hi
        have := h (i + 1) (by omega)
        simpa [Nat.mul_add, Nat.add_assoc, Nat.add_comm 4] using this)
      obtain ⟨ws, hws⟩ := Option.isSome_iff_exists.1 hr
      simp only [Nat.mul_zero, Nat.add_zero] at hw
      simp [readWords, hw, hws]

/-- Bytes outside the words written are unchanged. -/
theorem read_writeWords_other {ws : List Word} (h : b < a ∨ a + 4 * ws.length ≤ b) :
    read (writeWords m a ws) b = read m b := by
  induction ws generalizing m a with
  | nil => rfl
  | cons w ws ih =>
    simp only [List.length_cons] at h
    rw [writeWords, ih (by omega), read_writeWord, if_neg (by omega)]

/-- The words written are there. -/
theorem readWord_writeWords {ws : List Word} {i : Nat} (h : i < ws.length) :
    readWord (writeWords m a ws) (a + 4 * i) = some ws[i] := by
  induction ws generalizing m a i with
  | nil => simp at h
  | cons w ws ih =>
    rw [writeWords]
    cases i with
    | zero =>
      rw [readWord_congr (m := writeWord m a w)]
      · simp
      · intro k hk; exact read_writeWords_other (by omega)
    | succ i =>
      have := ih (m := writeWord m a w) (a := a + 4) (i := i) (by simpa using h)
      simpa [Nat.mul_add, Nat.add_assoc, Nat.add_comm 4] using this

/-- A run of words read where it was written is what was written. -/
@[simp] theorem readWords_writeWords (m : Memory) (a : Nat) (ws : List Word) :
    readWords (writeWords m a ws) a ws.length = some ws :=
  readWords_eq_some_iff.2 ⟨rfl, fun _ h => readWord_writeWords h⟩

/-- Two memories that agree on the bytes of a run agree on its words. -/
theorem readWords_congr {m m' : Memory} (h : ∀ b, a ≤ b → b < a + 4 * n → read m' b = read m b) :
    readWords m' a n = readWords m a n := by
  induction n generalizing a with
  | zero => rfl
  | succ n ih =>
    have hw : readWord m' a = readWord m a := readWord_congr fun k hk => h _ (by omega) (by omega)
    have hr : readWords m' (a + 4) n = readWords m (a + 4) n := ih fun b h1 h2 => h b (by omega) (by omega)
    simp [readWords, hw, hr]

end Sys2Proof.Machine.Memory
end

