-- ==== Sys2Proof/Laws/Operands.lean ====
section
/-! SUPPORT. The address map (rules R80-R85): for a legal instance every used size fits its window, so the windows do
not meet; what `locate` answers, in full. -/

namespace Sys2Proof.Machine

/-- The facts of rule R7 the address map rests on. -/
theorem legal_bounds {p : Params} (h : p.legal = true) :
    2 ≤ p.m ∧ p.m ≤ 16 ∧ 2 ≤ p.t ∧ p.t ≤ 511 ∧ p.m * p.t < p.n ∧ p.n ≤ 2 ^ p.m ∧
      p.m * p.t * ((p.n + 31) / 32) ≤ 2 ^ 22 := by
  simp only [Params.legal, Params.degreeOk, Params.goppaDegreeOk, Params.lengthOk, Params.matrixFits, Params.r,
    Params.rowWords, Bool.and_eq_true, decide_eq_true_eq] at h
  obtain ⟨⟨⟨⟨⟨⟨⟨⟨h1, h2⟩, _⟩, h3, h4⟩, h5, h6⟩, h7⟩, _⟩, _⟩, _⟩ := h
  exact ⟨h1, h2, h3, h4, h5, h6, h7⟩

/-- The first offset past a window (rule R84). -/
def Region.windowEnd : Region → Nat
  | .g => 0x0011000
  | .pa => 0x0012000
  | .pb => 0x0013000
  | .pr => 0x0014000
  | .sig => 0x0015000
  | .s => 0x0016000
  | .l => 0x0080000
  | .evec => 0x0082000
  | .syn => 0x0084000
  | .mat => 0x2000000

/-- "The legality bounds keep every used size inside its window" (rule R84). -/
theorem used_in_window {p : Params} (h : p.legal = true) (r : Region) : r.base + 4 * r.words p ≤ r.windowEnd := by
  obtain ⟨_, hm, _, ht, hr, hn, hmat⟩ := legal_bounds h
  have hq : 2 ^ p.m ≤ 2 ^ 16 := Nat.pow_le_pow_right (by omega) hm
  cases r <;> simp only [Region.base, Region.words, Region.windowEnd, Params.rowWords, Params.synWords, Params.r] <;>
    omega

/-- Two windows do not meet. -/
theorem windows_disjoint (r r' : Region) (h : r ≠ r') : r.windowEnd ≤ r'.base ∨ r'.windowEnd ≤ r.base := by
  cases r <;> cases r' <;> first | exact absurd rfl h | decide

/-- A used offset of one memory is no used offset of another. -/
theorem regions_disjoint {p : Params} (h : p.legal = true) {r r' : Region} (hne : r ≠ r') {a : Nat}
    (ha : r.base ≤ a ∧ a < r.base + 4 * r.words p) : ¬(r'.base ≤ a ∧ a < r'.base + 4 * r'.words p) := by
  have h1 := used_in_window h r
  have h2 := used_in_window h r'
  rcases windows_disjoint r r' hne with h3 | h3 <;> omega

/-- No memory window meets the register window. -/
theorem region_above_registers (r : Region) : 0x1000 ≤ r.base := by cases r <;> decide

/-- Every register has an aligned offset of its own in the register window. -/
theorem reg_offset_inj {r r' : Reg} (h : r.offset = r'.offset) : r = r' := by
  revert h
  cases r <;> cases r' <;> simp [Reg.offset]

theorem reg_mem_all (r : Reg) : r ∈ Reg.all := by cases r <;> decide

theorem region_mem_all (r : Region) : r ∈ Region.all := by cases r <;> decide

/-- A register is found at its offset. -/
@[simp] theorem locate_reg (p : Params) (r : Reg) : locate p r.offset 4 = some (.reg r) := by
  cases r <;> rfl

/-- A used word of a memory is found at its offset. -/
theorem locate_word {p : Params} (h : p.legal = true) {r : Region} {i : Nat} (hi : i < r.words p) :
    locate p (r.addr i) 4 = some (.word r i) := by
  have hlow : ¬(r.addr i < 0x1000) := by
    have := region_above_registers r
    simp only [Region.addr]; omega
  have hal : r.addr i % 4 = 0 := by
    cases r <;> simp only [Region.addr, Region.base] <;> omega
  have hfind : (Region.all.find? fun r' => r'.has p (r.addr i)) = some r := by
    have hin : r.has p (r.addr i) = true := by simp [Region.has, Region.addr]; omega
    have hout : ∀ r', r' ≠ r → r'.has p (r.addr i) = false := by
      intro r' hne
      have := regions_disjoint h (Ne.symm hne) (a := r.addr i) (by simp only [Region.addr]; omega)
      simpa [Region.has] using this
    have hsome : (Region.all.find? fun r' => r'.has p (r.addr i)).isSome := by
      rw [List.find?_isSome]; exact ⟨r, region_mem_all r, hin⟩
    obtain ⟨r', hr'⟩ := Option.isSome_iff_exists.1 hsome
    have htrue := List.find?_some hr'
    by_cases hrr : r' = r
    · rw [hr', hrr]
    · simp [hout r' hrr] at htrue
  simp only [locate, hal, ne_eq, not_true_eq_false, or_self, if_false, hlow, hfind]
  simp [Region.addr]

/-- An answer of `locate` is a register at its offset, a reserved offset, or a used word at its offset, and the access is
aligned and 4 bytes wide. -/
theorem locate_cases {p : Params} {a width : Nat} {x : Target} (h : locate p a width = some x) :
    width = 4 ∧ a % 4 = 0 ∧
      ((∃ r, x = .reg r ∧ a = r.offset) ∨ (x = .reserved ∧ a < 0x1000 ∧ ∀ r, a ≠ Reg.offset r) ∨
        ∃ r i, x = .word r i ∧ i < r.words p ∧ a = r.addr i) := by
  unfold locate at h
  split at h
  · cases h
  · rename_i hc
    push Not at hc
    refine ⟨hc.1, hc.2, ?_⟩
    split at h
    · rename_i hlt
      split at h
      · rename_i r hr
        cases h
        exact .inl ⟨r, rfl, (by simpa using List.find?_some hr : r.offset = a).symm⟩
      · rename_i hn
        cases h
        refine .inr (.inl ⟨rfl, hlt, fun r hr => ?_⟩)
        have := List.find?_eq_none.1 hn r (reg_mem_all r)
        simp [hr] at this
    · split at h
      · rename_i r hr
        cases h
        have hhas : r.base ≤ a ∧ a < r.base + 4 * r.words p := by simpa [Region.has] using List.find?_some hr
        have hb : r.base % 4 = 0 := by cases r <;> rfl
        exact .inr (.inr ⟨r, (a - r.base) / 4, rfl, by omega, by simp only [Region.addr]; omega⟩)
      · cases h

end Sys2Proof.Machine
end

