-- ==== Sys2Proof/Laws/Pack.lean ====
section
/-! SUPPORT. Packing of bit vectors (rule R88): the bits of a vector made from words, of the words of a vector, of a
vector made from a list of bits or from positions. -/

namespace Sys2Proof.Machine.Bits

theorem testBit_ofWords_cons (w : Word) (ws : List Word) (i : Nat) :
    (ofWords (w :: ws)).testBit i = if i < 32 then w.getLsbD i else (ofWords ws).testBit (i - 32) := by
  have h : ofWords (w :: ws) = 2 ^ 32 * ofWords ws + w.toNat := by
    show w.toNat + ofWords ws <<< 32 = _
    rw [Nat.shiftLeft_eq, Nat.mul_comm, Nat.add_comm]
  rw [h, Nat.testBit_two_pow_mul_add _ w.isLt, BitVec.testBit_toNat]

/-- Bit `i` of the vector is bit `i mod 32` of word `i / 32`. -/
theorem testBit_ofWords (ws : List Word) (i : Nat) :
    (ofWords ws).testBit i = (ws.getD (i / 32) 0#32).getLsbD (i % 32) := by
  induction ws generalizing i with
  | nil => simp [ofWords]
  | cons w ws ih =>
    rw [testBit_ofWords_cons]
    split
    · have : i / 32 = 0 := by omega
      simp [this, Nat.mod_eq_of_lt ‹_›]
    · have h1 : i / 32 = (i - 32) / 32 + 1 := by omega
      have h2 : i % 32 = (i - 32) % 32 := by omega
      rw [ih, h1, h2]
      simp

@[simp] theorem length_toWords (n : Nat) (v : Bits) : (toWords n v).length = n := by simp [toWords]

/-- Bit `j` of word `k` is element `32*k + j`. -/
theorem getLsbD_toWords {n k j : Nat} (v : Bits) (hk : k < n) (hj : j < 32) :
    ((toWords n v).getD k 0#32).getLsbD j = v.testBit (32 * k + j) := by
  have h : (toWords n v).getD k 0#32 = BitVec.ofNat 32 (v >>> (32 * k)) := by simp [toWords, hk]
  rw [h, BitVec.getLsbD_ofNat, Nat.testBit_shiftRight]
  simp [hj]

/-- The words of a vector give its first `32*n` elements back. -/
theorem ofWords_toWords {n : Nat} {v : Bits} (h : v < 2 ^ (32 * n)) : ofWords (toWords n v) = v := by
  apply Nat.eq_of_testBit_eq
  intro i
  rw [testBit_ofWords]
  by_cases hi : i / 32 < n
  · rw [getLsbD_toWords v hi (Nat.mod_lt _ (by omega))]
    congr 1; omega
  · have : 32 * n ≤ i := by omega
    rw [Nat.testBit_eq_false_of_lt (lt_of_lt_of_le h (Nat.pow_le_pow_right (by omega) this))]
    simp [toWords, hi]

theorem testBit_ofList (l : List Bool) (i : Nat) : (ofList l).testBit i = l.getD i false := by
  induction l generalizing i with
  | nil => simp [ofList]
  | cons b l ih =>
    have h : ofList (b :: l) = 2 ^ 1 * ofList l + b.toNat := by simp [ofList, Nat.add_comm]
    rw [h, Nat.testBit_two_pow_mul_add _ (by cases b <;> decide)]
    cases i with
    | zero => cases b <;> simp
    | succ i => simp [ih]

/-- A vector made from a list of bits has no bit above the list. -/
theorem ofList_lt (l : List Bool) : ofList l < 2 ^ l.length := by
  apply Nat.lt_pow_two_of_testBit
  intro i hi
  rw [testBit_ofList, List.getD_eq_default _ _ hi]

/-- A vector made from positions has exactly those bits. -/
theorem testBit_ofPositions (pos : List Nat) (i : Nat) : (ofPositions pos).testBit i = decide (i ∈ pos) := by
  have h : ∀ (v : Nat), (pos.foldl (fun v i => v ||| (1 <<< i)) v).testBit i = (v.testBit i || decide (i ∈ pos)) := by
    induction pos with
    | nil => simp
    | cons p pos ih =>
      intro v
      rw [List.foldl_cons, ih]
      simp only [Nat.testBit_or, Nat.one_shiftLeft, Nat.testBit_two_pow, List.mem_cons, Bool.or_assoc]
      congr 1
      simp [Bool.decide_or, eq_comm]
  simpa [ofPositions] using h 0

end Sys2Proof.Machine.Bits
end

