-- ==== Sys2Proof/Laws/State.lean ====
section
/-! SUPPORT. What each shared operation does to each field of the state, true by unfolding its definition once, so that
no later proof unfolds a record update. -/

namespace Sys2Proof.Machine.State

variable (s : State)


@[simp] theorem store_params (r : Region) (ws : List Word) : (s.store r ws).params = s.params := rfl
@[simp] theorem store_irqEn (r : Region) (ws : List Word) : (s.store r ws).irqEn = s.irqEn := rfl
@[simp] theorem store_cmd (r : Region) (ws : List Word) : (s.store r ws).cmd = s.cmd := rfl
@[simp] theorem store_status (r : Region) (ws : List Word) : (s.store r ws).status = s.status := rfl
@[simp] theorem store_opa (r : Region) (ws : List Word) : (s.store r ws).opa = s.opa := rfl
@[simp] theorem store_opb (r : Region) (ws : List Word) : (s.store r ws).opb = s.opb := rfl
@[simp] theorem store_res (r : Region) (ws : List Word) : (s.store r ws).res = s.res := rfl
@[simp] theorem store_weight (r : Region) (ws : List Word) : (s.store r ws).weight = s.weight := rfl
@[simp] theorem store_tries (r : Region) (ws : List Word) : (s.store r ws).tries = s.tries := rfl
@[simp] theorem store_accept (r : Region) (ws : List Word) : (s.store r ws).accept = s.accept := rfl
@[simp] theorem store_bmL (r : Region) (ws : List Word) : (s.store r ws).bmL = s.bmL := rfl
@[simp] theorem store_pivmask (r : Region) (ws : List Word) : (s.store r ws).pivmask = s.pivmask := rfl
@[simp] theorem store_port (r : Region) (ws : List Word) : (s.store r ws).port = s.port := rfl
@[simp] theorem store_mem (r : Region) (ws : List Word) :
    (s.store r ws).mem = Memory.writeWords s.mem r.base ws := rfl
@[simp] theorem store_eng (r : Region) (ws : List Word) : (s.store r ws).eng = s.eng := rfl
@[simp] theorem store_inputs (r : Region) (ws : List Word) : (s.store r ws).inputs = s.inputs := rfl
@[simp] theorem store_rdata (r : Region) (ws : List Word) : (s.store r ws).rdata = s.rdata := rfl
@[simp] theorem store_draws (r : Region) (ws : List Word) : (s.store r ws).draws = s.draws := rfl

@[simp] theorem storeBits_params (r : Region) (v : Bits) : (s.storeBits r v).params = s.params := rfl
@[simp] theorem storeBits_irqEn (r : Region) (v : Bits) : (s.storeBits r v).irqEn = s.irqEn := rfl
@[simp] theorem storeBits_cmd (r : Region) (v : Bits) : (s.storeBits r v).cmd = s.cmd := rfl
@[simp] theorem storeBits_status (r : Region) (v : Bits) : (s.storeBits r v).status = s.status := rfl
@[simp] theorem storeBits_opa (r : Region) (v : Bits) : (s.storeBits r v).opa = s.opa := rfl
@[simp] theorem storeBits_opb (r : Region) (v : Bits) : (s.storeBits r v).opb = s.opb := rfl
@[simp] theorem storeBits_res (r : Region) (v : Bits) : (s.storeBits r v).res = s.res := rfl
@[simp] theorem storeBits_weight (r : Region) (v : Bits) : (s.storeBits r v).weight = s.weight := rfl
@[simp] theorem storeBits_tries (r : Region) (v : Bits) : (s.storeBits r v).tries = s.tries := rfl
@[simp] theorem storeBits_accept (r : Region) (v : Bits) : (s.storeBits r v).accept = s.accept := rfl
@[simp] theorem storeBits_bmL (r : Region) (v : Bits) : (s.storeBits r v).bmL = s.bmL := rfl
@[simp] theorem storeBits_pivmask (r : Region) (v : Bits) : (s.storeBits r v).pivmask = s.pivmask := rfl
@[simp] theorem storeBits_port (r : Region) (v : Bits) : (s.storeBits r v).port = s.port := rfl
@[simp] theorem storeBits_mem (r : Region) (v : Bits) :
    (s.storeBits r v).mem = Memory.writeWords s.mem r.base (Bits.toWords (r.words s.params) v) := rfl
@[simp] theorem storeBits_eng (r : Region) (v : Bits) : (s.storeBits r v).eng = s.eng := rfl
@[simp] theorem storeBits_inputs (r : Region) (v : Bits) : (s.storeBits r v).inputs = s.inputs := rfl
@[simp] theorem storeBits_rdata (r : Region) (v : Bits) : (s.storeBits r v).rdata = s.rdata := rfl
@[simp] theorem storeBits_draws (r : Region) (v : Bits) : (s.storeBits r v).draws = s.draws := rfl

@[simp] theorem storeRows_params (rows : List Bits) : (s.storeRows rows).params = s.params := rfl
@[simp] theorem storeRows_irqEn (rows : List Bits) : (s.storeRows rows).irqEn = s.irqEn := rfl
@[simp] theorem storeRows_cmd (rows : List Bits) : (s.storeRows rows).cmd = s.cmd := rfl
@[simp] theorem storeRows_status (rows : List Bits) : (s.storeRows rows).status = s.status := rfl
@[simp] theorem storeRows_opa (rows : List Bits) : (s.storeRows rows).opa = s.opa := rfl
@[simp] theorem storeRows_opb (rows : List Bits) : (s.storeRows rows).opb = s.opb := rfl
@[simp] theorem storeRows_res (rows : List Bits) : (s.storeRows rows).res = s.res := rfl
@[simp] theorem storeRows_weight (rows : List Bits) : (s.storeRows rows).weight = s.weight := rfl
@[simp] theorem storeRows_tries (rows : List Bits) : (s.storeRows rows).tries = s.tries := rfl
@[simp] theorem storeRows_accept (rows : List Bits) : (s.storeRows rows).accept = s.accept := rfl
@[simp] theorem storeRows_bmL (rows : List Bits) : (s.storeRows rows).bmL = s.bmL := rfl
@[simp] theorem storeRows_pivmask (rows : List Bits) : (s.storeRows rows).pivmask = s.pivmask := rfl
@[simp] theorem storeRows_port (rows : List Bits) : (s.storeRows rows).port = s.port := rfl
@[simp] theorem storeRows_mem (rows : List Bits) :
    (s.storeRows rows).mem = Memory.writeWords s.mem (Region.base .mat) (rows.flatMap (Bits.toWords s.params.rowWords)) := rfl
@[simp] theorem storeRows_eng (rows : List Bits) : (s.storeRows rows).eng = s.eng := rfl
@[simp] theorem storeRows_inputs (rows : List Bits) : (s.storeRows rows).inputs = s.inputs := rfl
@[simp] theorem storeRows_rdata (rows : List Bits) : (s.storeRows rows).rdata = s.rdata := rfl
@[simp] theorem storeRows_draws (rows : List Bits) : (s.storeRows rows).draws = s.draws := rfl

@[simp] theorem havoc_params (r : Region) : (s.havoc r).params = s.params := rfl
@[simp] theorem havoc_irqEn (r : Region) : (s.havoc r).irqEn = s.irqEn := rfl
@[simp] theorem havoc_cmd (r : Region) : (s.havoc r).cmd = s.cmd := rfl
@[simp] theorem havoc_status (r : Region) : (s.havoc r).status = s.status := rfl
@[simp] theorem havoc_opa (r : Region) : (s.havoc r).opa = s.opa := rfl
@[simp] theorem havoc_opb (r : Region) : (s.havoc r).opb = s.opb := rfl
@[simp] theorem havoc_res (r : Region) : (s.havoc r).res = s.res := rfl
@[simp] theorem havoc_weight (r : Region) : (s.havoc r).weight = s.weight := rfl
@[simp] theorem havoc_tries (r : Region) : (s.havoc r).tries = s.tries := rfl
@[simp] theorem havoc_accept (r : Region) : (s.havoc r).accept = s.accept := rfl
@[simp] theorem havoc_bmL (r : Region) : (s.havoc r).bmL = s.bmL := rfl
@[simp] theorem havoc_pivmask (r : Region) : (s.havoc r).pivmask = s.pivmask := rfl
@[simp] theorem havoc_port (r : Region) : (s.havoc r).port = s.port := rfl
@[simp] theorem havoc_mem (r : Region) : (s.havoc r).mem = Memory.havoc s.mem r.base (r.words s.params) := rfl
@[simp] theorem havoc_eng (r : Region) : (s.havoc r).eng = s.eng := rfl
@[simp] theorem havoc_inputs (r : Region) : (s.havoc r).inputs = s.inputs := rfl
@[simp] theorem havoc_rdata (r : Region) : (s.havoc r).rdata = s.rdata := rfl
@[simp] theorem havoc_draws (r : Region) : (s.havoc r).draws = s.draws := rfl

@[simp] theorem issue_params (w : Word) (i : Instr) : (s.issue w i).params = s.params := rfl
@[simp] theorem issue_irqEn (w : Word) (i : Instr) : (s.issue w i).irqEn = s.irqEn := rfl
@[simp] theorem issue_cmd (w : Word) (i : Instr) : (s.issue w i).cmd = w := rfl
@[simp] theorem issue_status (w : Word) (i : Instr) : (s.issue w i).status = s.status.issue (opcodeOf w) := rfl
@[simp] theorem issue_opa (w : Word) (i : Instr) : (s.issue w i).opa = s.opa := rfl
@[simp] theorem issue_opb (w : Word) (i : Instr) : (s.issue w i).opb = s.opb := rfl
@[simp] theorem issue_res (w : Word) (i : Instr) : (s.issue w i).res = s.res := rfl
@[simp] theorem issue_weight (w : Word) (i : Instr) : (s.issue w i).weight = s.weight := rfl
@[simp] theorem issue_tries (w : Word) (i : Instr) : (s.issue w i).tries = s.tries := rfl
@[simp] theorem issue_accept (w : Word) (i : Instr) : (s.issue w i).accept = s.accept := rfl
@[simp] theorem issue_bmL (w : Word) (i : Instr) : (s.issue w i).bmL = s.bmL := rfl
@[simp] theorem issue_pivmask (w : Word) (i : Instr) : (s.issue w i).pivmask = s.pivmask := rfl
@[simp] theorem issue_port (w : Word) (i : Instr) : (s.issue w i).port = s.port := rfl
@[simp] theorem issue_mem (w : Word) (i : Instr) : (s.issue w i).mem = s.mem := rfl
@[simp] theorem issue_eng (w : Word) (i : Instr) : (s.issue w i).eng = .busy i := rfl
@[simp] theorem issue_inputs (w : Word) (i : Instr) : (s.issue w i).inputs = s.inputs := rfl
@[simp] theorem issue_rdata (w : Word) (i : Instr) : (s.issue w i).rdata = s.rdata := rfl
@[simp] theorem issue_draws (w : Word) (i : Instr) : (s.issue w i).draws = s.draws := rfl

@[simp] theorem complete_params (ok : Bool) : (s.complete ok).params = s.params := rfl
@[simp] theorem complete_irqEn (ok : Bool) : (s.complete ok).irqEn = s.irqEn := rfl
@[simp] theorem complete_cmd (ok : Bool) : (s.complete ok).cmd = s.cmd := rfl
@[simp] theorem complete_status (ok : Bool) : (s.complete ok).status = s.status.complete ok 0#4 := rfl
@[simp] theorem complete_opa (ok : Bool) : (s.complete ok).opa = s.opa := rfl
@[simp] theorem complete_opb (ok : Bool) : (s.complete ok).opb = s.opb := rfl
@[simp] theorem complete_res (ok : Bool) : (s.complete ok).res = s.res := rfl
@[simp] theorem complete_weight (ok : Bool) : (s.complete ok).weight = s.weight := rfl
@[simp] theorem complete_tries (ok : Bool) : (s.complete ok).tries = s.tries := rfl
@[simp] theorem complete_accept (ok : Bool) : (s.complete ok).accept = s.accept := rfl
@[simp] theorem complete_bmL (ok : Bool) : (s.complete ok).bmL = s.bmL := rfl
@[simp] theorem complete_pivmask (ok : Bool) : (s.complete ok).pivmask = s.pivmask := rfl
@[simp] theorem complete_port (ok : Bool) : (s.complete ok).port = s.port := rfl
@[simp] theorem complete_mem (ok : Bool) : (s.complete ok).mem = s.mem := rfl
@[simp] theorem complete_eng (ok : Bool) : (s.complete ok).eng = .idle := rfl
@[simp] theorem complete_inputs (ok : Bool) : (s.complete ok).inputs = s.inputs := rfl
@[simp] theorem complete_rdata (ok : Bool) : (s.complete ok).rdata = s.rdata := rfl
@[simp] theorem complete_draws (ok : Bool) : (s.complete ok).draws = s.draws := rfl

@[simp] theorem raiseError_params (code : BitVec 4) : (s.raiseError code).params = s.params := rfl
@[simp] theorem raiseError_irqEn (code : BitVec 4) : (s.raiseError code).irqEn = s.irqEn := rfl
@[simp] theorem raiseError_cmd (code : BitVec 4) : (s.raiseError code).cmd = s.cmd := rfl
@[simp] theorem raiseError_status (code : BitVec 4) : (s.raiseError code).status = s.status.complete false code := rfl
@[simp] theorem raiseError_opa (code : BitVec 4) : (s.raiseError code).opa = s.opa := rfl
@[simp] theorem raiseError_opb (code : BitVec 4) : (s.raiseError code).opb = s.opb := rfl
@[simp] theorem raiseError_res (code : BitVec 4) : (s.raiseError code).res = s.res := rfl
@[simp] theorem raiseError_weight (code : BitVec 4) : (s.raiseError code).weight = s.weight := rfl
@[simp] theorem raiseError_tries (code : BitVec 4) : (s.raiseError code).tries = s.tries := rfl
@[simp] theorem raiseError_accept (code : BitVec 4) : (s.raiseError code).accept = s.accept := rfl
@[simp] theorem raiseError_bmL (code : BitVec 4) : (s.raiseError code).bmL = s.bmL := rfl
@[simp] theorem raiseError_pivmask (code : BitVec 4) : (s.raiseError code).pivmask = s.pivmask := rfl
@[simp] theorem raiseError_port (code : BitVec 4) : (s.raiseError code).port = s.port := rfl
@[simp] theorem raiseError_mem (code : BitVec 4) : (s.raiseError code).mem = s.mem := rfl
@[simp] theorem raiseError_eng (code : BitVec 4) : (s.raiseError code).eng = .idle := rfl
@[simp] theorem raiseError_inputs (code : BitVec 4) : (s.raiseError code).inputs = s.inputs := rfl
@[simp] theorem raiseError_rdata (code : BitVec 4) : (s.raiseError code).rdata = s.rdata := rfl
@[simp] theorem raiseError_draws (code : BitVec 4) : (s.raiseError code).draws = s.draws := rfl

@[simp] theorem illegalCommand_params (w : Word) : (s.illegalCommand w).params = s.params := rfl
@[simp] theorem illegalCommand_irqEn (w : Word) : (s.illegalCommand w).irqEn = s.irqEn := rfl
@[simp] theorem illegalCommand_cmd (w : Word) : (s.illegalCommand w).cmd = w := rfl
@[simp] theorem illegalCommand_status (w : Word) :
    (s.illegalCommand w).status = (s.status.issue (opcodeOf w)).complete false errIllegal := rfl
@[simp] theorem illegalCommand_opa (w : Word) : (s.illegalCommand w).opa = s.opa := rfl
@[simp] theorem illegalCommand_opb (w : Word) : (s.illegalCommand w).opb = s.opb := rfl
@[simp] theorem illegalCommand_res (w : Word) : (s.illegalCommand w).res = s.res := rfl
@[simp] theorem illegalCommand_weight (w : Word) : (s.illegalCommand w).weight = s.weight := rfl
@[simp] theorem illegalCommand_tries (w : Word) : (s.illegalCommand w).tries = s.tries := rfl
@[simp] theorem illegalCommand_accept (w : Word) : (s.illegalCommand w).accept = s.accept := rfl
@[simp] theorem illegalCommand_bmL (w : Word) : (s.illegalCommand w).bmL = s.bmL := rfl
@[simp] theorem illegalCommand_pivmask (w : Word) : (s.illegalCommand w).pivmask = s.pivmask := rfl
@[simp] theorem illegalCommand_port (w : Word) : (s.illegalCommand w).port = s.port := rfl
@[simp] theorem illegalCommand_mem (w : Word) : (s.illegalCommand w).mem = s.mem := rfl
@[simp] theorem illegalCommand_eng (w : Word) : (s.illegalCommand w).eng = .idle := rfl
@[simp] theorem illegalCommand_inputs (w : Word) : (s.illegalCommand w).inputs = s.inputs := rfl
@[simp] theorem illegalCommand_rdata (w : Word) : (s.illegalCommand w).rdata = s.rdata := rfl
@[simp] theorem illegalCommand_draws (w : Word) : (s.illegalCommand w).draws = s.draws := rfl

@[simp] theorem dropWrite_params : (s.dropWrite).params = s.params := rfl
@[simp] theorem dropWrite_irqEn : (s.dropWrite).irqEn = s.irqEn := rfl
@[simp] theorem dropWrite_cmd : (s.dropWrite).cmd = s.cmd := rfl
@[simp] theorem dropWrite_status :
    (s.dropWrite).status = ⟨s.status.busy, s.status.done, s.status.ok, s.status.err, true, s.status.errcode, s.status.lastOp⟩ := rfl
@[simp] theorem dropWrite_opa : (s.dropWrite).opa = s.opa := rfl
@[simp] theorem dropWrite_opb : (s.dropWrite).opb = s.opb := rfl
@[simp] theorem dropWrite_res : (s.dropWrite).res = s.res := rfl
@[simp] theorem dropWrite_weight : (s.dropWrite).weight = s.weight := rfl
@[simp] theorem dropWrite_tries : (s.dropWrite).tries = s.tries := rfl
@[simp] theorem dropWrite_accept : (s.dropWrite).accept = s.accept := rfl
@[simp] theorem dropWrite_bmL : (s.dropWrite).bmL = s.bmL := rfl
@[simp] theorem dropWrite_pivmask : (s.dropWrite).pivmask = s.pivmask := rfl
@[simp] theorem dropWrite_port : (s.dropWrite).port = s.port := rfl
@[simp] theorem dropWrite_mem : (s.dropWrite).mem = s.mem := rfl
@[simp] theorem dropWrite_eng : (s.dropWrite).eng = s.eng := rfl
@[simp] theorem dropWrite_inputs : (s.dropWrite).inputs = s.inputs := rfl
@[simp] theorem dropWrite_rdata : (s.dropWrite).rdata = s.rdata := rfl
@[simp] theorem dropWrite_draws : (s.dropWrite).draws = s.draws := rfl

@[simp] theorem drawRead_params : (s.drawRead).params = s.params := rfl
@[simp] theorem drawRead_irqEn : (s.drawRead).irqEn = s.irqEn := rfl
@[simp] theorem drawRead_cmd : (s.drawRead).cmd = s.cmd := rfl
@[simp] theorem drawRead_status : (s.drawRead).status = s.status := rfl
@[simp] theorem drawRead_opa : (s.drawRead).opa = s.opa := rfl
@[simp] theorem drawRead_opb : (s.drawRead).opb = s.opb := rfl
@[simp] theorem drawRead_res : (s.drawRead).res = s.res := rfl
@[simp] theorem drawRead_weight : (s.drawRead).weight = s.weight := rfl
@[simp] theorem drawRead_tries : (s.drawRead).tries = s.tries := rfl
@[simp] theorem drawRead_accept : (s.drawRead).accept = s.accept := rfl
@[simp] theorem drawRead_bmL : (s.drawRead).bmL = s.bmL := rfl
@[simp] theorem drawRead_pivmask : (s.drawRead).pivmask = s.pivmask := rfl
@[simp] theorem drawRead_port : (s.drawRead).port = s.port := rfl
@[simp] theorem drawRead_mem : (s.drawRead).mem = s.mem := rfl
@[simp] theorem drawRead_eng : (s.drawRead).eng = s.eng := rfl
@[simp] theorem drawRead_inputs : (s.drawRead).inputs = s.inputs := rfl
@[simp] theorem drawRead_rdata : (s.drawRead).rdata = Config.freeRead s.draws := rfl
@[simp] theorem drawRead_draws : (s.drawRead).draws = s.draws + 1 := rfl

@[simp] theorem loseBytes_params (full : Nat) : (s.loseBytes full).params = s.params := rfl
@[simp] theorem loseBytes_irqEn (full : Nat) : (s.loseBytes full).irqEn = s.irqEn := rfl
@[simp] theorem loseBytes_cmd (full : Nat) : (s.loseBytes full).cmd = s.cmd := rfl
@[simp] theorem loseBytes_status (full : Nat) : (s.loseBytes full).status = s.status := rfl
@[simp] theorem loseBytes_opa (full : Nat) : (s.loseBytes full).opa = s.opa := rfl
@[simp] theorem loseBytes_opb (full : Nat) : (s.loseBytes full).opb = s.opb := rfl
@[simp] theorem loseBytes_res (full : Nat) : (s.loseBytes full).res = s.res := rfl
@[simp] theorem loseBytes_weight (full : Nat) : (s.loseBytes full).weight = s.weight := rfl
@[simp] theorem loseBytes_tries (full : Nat) : (s.loseBytes full).tries = s.tries := rfl
@[simp] theorem loseBytes_accept (full : Nat) : (s.loseBytes full).accept = s.accept := rfl
@[simp] theorem loseBytes_bmL (full : Nat) : (s.loseBytes full).bmL = s.bmL := rfl
@[simp] theorem loseBytes_pivmask (full : Nat) : (s.loseBytes full).pivmask = s.pivmask := rfl
@[simp] theorem loseBytes_port (full : Nat) :
    (s.loseBytes full).port = ⟨s.port.offered.drop (Config.freeTaken s.draws % (full + 1)), s.port.rcnt⟩ := rfl
@[simp] theorem loseBytes_mem (full : Nat) : (s.loseBytes full).mem = s.mem := rfl
@[simp] theorem loseBytes_eng (full : Nat) : (s.loseBytes full).eng = s.eng := rfl
@[simp] theorem loseBytes_inputs (full : Nat) : (s.loseBytes full).inputs = s.inputs := rfl
@[simp] theorem loseBytes_rdata (full : Nat) : (s.loseBytes full).rdata = s.rdata := rfl
@[simp] theorem loseBytes_draws (full : Nat) : (s.loseBytes full).draws = s.draws + 1 := rfl

@[simp] theorem resetRegisters_params : (s.resetRegisters).params = s.params := rfl
@[simp] theorem resetRegisters_irqEn : (s.resetRegisters).irqEn = false := rfl
@[simp] theorem resetRegisters_cmd : (s.resetRegisters).cmd = 0#32 := rfl
@[simp] theorem resetRegisters_status : (s.resetRegisters).status = Status.reset := rfl
@[simp] theorem resetRegisters_opa : (s.resetRegisters).opa = 0#32 := rfl
@[simp] theorem resetRegisters_opb : (s.resetRegisters).opb = 0#32 := rfl
@[simp] theorem resetRegisters_res : (s.resetRegisters).res = 0#32 := rfl
@[simp] theorem resetRegisters_weight : (s.resetRegisters).weight = 0#17 := rfl
@[simp] theorem resetRegisters_tries : (s.resetRegisters).tries = 0#32 := rfl
@[simp] theorem resetRegisters_accept : (s.resetRegisters).accept = 0#17 := rfl
@[simp] theorem resetRegisters_bmL : (s.resetRegisters).bmL = 0#16 := rfl
@[simp] theorem resetRegisters_pivmask : (s.resetRegisters).pivmask = 0#64 := rfl
@[simp] theorem resetRegisters_port : (s.resetRegisters).port = ⟨s.port.offered, 0#64⟩ := rfl
@[simp] theorem resetRegisters_mem : (s.resetRegisters).mem = s.mem := rfl
@[simp] theorem resetRegisters_eng : (s.resetRegisters).eng = .idle := rfl
@[simp] theorem resetRegisters_inputs : (s.resetRegisters).inputs = s.inputs := rfl
@[simp] theorem resetRegisters_rdata : (s.resetRegisters).rdata = s.rdata := rfl
@[simp] theorem resetRegisters_draws : (s.resetRegisters).draws = s.draws := rfl

@[simp] theorem storeRoots_params (flags : List Bool) : (s.storeRoots flags).params = s.params := rfl
@[simp] theorem storeRoots_irqEn (flags : List Bool) : (s.storeRoots flags).irqEn = s.irqEn := rfl
@[simp] theorem storeRoots_cmd (flags : List Bool) : (s.storeRoots flags).cmd = s.cmd := rfl
@[simp] theorem storeRoots_status (flags : List Bool) : (s.storeRoots flags).status = s.status := rfl
@[simp] theorem storeRoots_opa (flags : List Bool) : (s.storeRoots flags).opa = s.opa := rfl
@[simp] theorem storeRoots_opb (flags : List Bool) : (s.storeRoots flags).opb = s.opb := rfl
@[simp] theorem storeRoots_res (flags : List Bool) : (s.storeRoots flags).res = s.res := rfl
@[simp] theorem storeRoots_weight (flags : List Bool) :
    (s.storeRoots flags).weight = BitVec.ofNat 17 (flags.count true) := rfl
@[simp] theorem storeRoots_tries (flags : List Bool) : (s.storeRoots flags).tries = s.tries := rfl
@[simp] theorem storeRoots_accept (flags : List Bool) : (s.storeRoots flags).accept = s.accept := rfl
@[simp] theorem storeRoots_bmL (flags : List Bool) : (s.storeRoots flags).bmL = s.bmL := rfl
@[simp] theorem storeRoots_pivmask (flags : List Bool) : (s.storeRoots flags).pivmask = s.pivmask := rfl
@[simp] theorem storeRoots_port (flags : List Bool) : (s.storeRoots flags).port = s.port := rfl
@[simp] theorem storeRoots_mem (flags : List Bool) :
    (s.storeRoots flags).mem = Memory.writeWords s.mem (Region.base .evec) (Bits.toWords (Region.words s.params .evec) (Bits.ofList flags)) := rfl
@[simp] theorem storeRoots_eng (flags : List Bool) : (s.storeRoots flags).eng = s.eng := rfl
@[simp] theorem storeRoots_inputs (flags : List Bool) : (s.storeRoots flags).inputs = s.inputs := rfl
@[simp] theorem storeRoots_rdata (flags : List Bool) : (s.storeRoots flags).rdata = s.rdata := rfl
@[simp] theorem storeRoots_draws (flags : List Bool) : (s.storeRoots flags).draws = s.draws := rfl

@[simp] theorem systematizeFails_params : (s.systematizeFails).params = s.params := rfl
@[simp] theorem systematizeFails_irqEn : (s.systematizeFails).irqEn = s.irqEn := rfl
@[simp] theorem systematizeFails_cmd : (s.systematizeFails).cmd = s.cmd := rfl
@[simp] theorem systematizeFails_status : (s.systematizeFails).status = s.status.complete false 0#4 := rfl
@[simp] theorem systematizeFails_opa : (s.systematizeFails).opa = s.opa := rfl
@[simp] theorem systematizeFails_opb : (s.systematizeFails).opb = s.opb := rfl
@[simp] theorem systematizeFails_res : (s.systematizeFails).res = s.res := rfl
@[simp] theorem systematizeFails_weight : (s.systematizeFails).weight = s.weight := rfl
@[simp] theorem systematizeFails_tries : (s.systematizeFails).tries = s.tries := rfl
@[simp] theorem systematizeFails_accept : (s.systematizeFails).accept = s.accept := rfl
@[simp] theorem systematizeFails_bmL : (s.systematizeFails).bmL = s.bmL := rfl
@[simp] theorem systematizeFails_pivmask : (s.systematizeFails).pivmask = 0#64 := rfl
@[simp] theorem systematizeFails_port : (s.systematizeFails).port = s.port := rfl
@[simp] theorem systematizeFails_mem :
    (s.systematizeFails).mem = Memory.havoc s.mem (Region.base .mat) (Region.words s.params .mat) := rfl
@[simp] theorem systematizeFails_eng : (s.systematizeFails).eng = .idle := rfl
@[simp] theorem systematizeFails_inputs : (s.systematizeFails).inputs = s.inputs := rfl
@[simp] theorem systematizeFails_rdata : (s.systematizeFails).rdata = s.rdata := rfl
@[simp] theorem systematizeFails_draws : (s.systematizeFails).draws = s.draws := rfl

end Sys2Proof.Machine.State

namespace Sys2Proof.Machine

variable (f : Status) (o : BitVec 8) (ok : Bool) (c : BitVec 4) (w : Word)


@[simp] theorem Status.issue_busy : (f.issue o).busy = true := rfl
@[simp] theorem Status.issue_done : (f.issue o).done = false := rfl
@[simp] theorem Status.issue_ok : (f.issue o).ok = false := rfl
@[simp] theorem Status.issue_err : (f.issue o).err = false := rfl
@[simp] theorem Status.issue_werr : (f.issue o).werr = f.werr := rfl
@[simp] theorem Status.issue_errcode : (f.issue o).errcode = 0#4 := rfl
@[simp] theorem Status.issue_lastOp : (f.issue o).lastOp = o := rfl

@[simp] theorem Status.complete_busy : (f.complete ok c).busy = false := rfl
@[simp] theorem Status.complete_done : (f.complete ok c).done = true := rfl
@[simp] theorem Status.complete_ok : (f.complete ok c).ok = (ok && c == 0#4) := rfl
@[simp] theorem Status.complete_err : (f.complete ok c).err = (c != 0#4) := rfl
@[simp] theorem Status.complete_werr : (f.complete ok c).werr = f.werr := rfl
@[simp] theorem Status.complete_errcode : (f.complete ok c).errcode = c := rfl
@[simp] theorem Status.complete_lastOp : (f.complete ok c).lastOp = f.lastOp := rfl

@[simp] theorem Status.writeOneToClear_busy : (f.writeOneToClear w).busy = f.busy := rfl
@[simp] theorem Status.writeOneToClear_done : (f.writeOneToClear w).done = (f.done && !w.getLsbD 1) := rfl
@[simp] theorem Status.writeOneToClear_ok : (f.writeOneToClear w).ok = f.ok := rfl
@[simp] theorem Status.writeOneToClear_err : (f.writeOneToClear w).err = f.err := rfl
@[simp] theorem Status.writeOneToClear_werr : (f.writeOneToClear w).werr = (f.werr && !w.getLsbD 4) := rfl
@[simp] theorem Status.writeOneToClear_errcode : (f.writeOneToClear w).errcode = f.errcode := rfl
@[simp] theorem Status.writeOneToClear_lastOp : (f.writeOneToClear w).lastOp = f.lastOp := rfl

end Sys2Proof.Machine
end

