-- ==== Sys2Proof/Laws/Ops.lean ====
section
/-! SUPPORT. What the shared operations do, said once: loading and storing whole memories, `havoc`, taking randomness
(rules R95-R97), and the attempt loop of the two samplers. -/

namespace Sys2Proof.Machine

section memories

variable {s : State} {r r' : Region} {ws : List Word}

/-- A whole memory reads as what was stored in it. -/
theorem load_store_same (h : ws.length = r.words s.params) : (s.store r ws).load r = some ws := by
  simp [State.load, ← h]

/-- Storing within a memory leaves every byte outside its used words. -/
theorem read_store_outside {a : Nat} (hl : ws.length ≤ r.words s.params)
    (h : ¬(r.base ≤ a ∧ a < r.base + 4 * r.words s.params)) :
    Memory.read (s.store r ws).mem a = Memory.read s.mem a :=
  Memory.read_writeWords_other (by omega)

/-- Storing in one memory leaves the others. -/
theorem load_store_other (hp : s.params.legal = true) (hne : r ≠ r') (hl : ws.length ≤ r.words s.params) :
    (s.store r ws).load r' = s.load r' := by
  refine Memory.readWords_congr fun b h1 h2 => ?_
  exact read_store_outside hl fun h => regions_disjoint hp hne h ⟨h1, h2⟩

/-- A bit memory reads as the vector stored in it. -/
theorem loadBits_storeBits {v : Bits} (h : v < 2 ^ (32 * r.words s.params)) :
    (s.storeBits r v).loadBits r = some v := by
  simp only [State.loadBits, State.storeBits]
  rw [load_store_same (by simp)]
  simp [Bits.ofWords_toWords h]

/-- After `havoc` no byte of the memory is written. -/
theorem read_havoc_inside {a : Nat} (h : r.base ≤ a ∧ a < r.base + 4 * r.words s.params) :
    Memory.read (s.havoc r).mem a = none := by
  simp [Memory.read_havoc, h]

/-- `havoc` leaves every byte outside the memory. -/
theorem read_havoc_outside {a : Nat} (h : ¬(r.base ≤ a ∧ a < r.base + 4 * r.words s.params)) :
    Memory.read (s.havoc r).mem a = Memory.read s.mem a := by
  simp only [State.havoc_mem, Memory.read_havoc, if_neg h]

/-- `havoc` of one memory leaves the others. -/
theorem load_havoc_other (hp : s.params.legal = true) (hne : r ≠ r') : (s.havoc r).load r' = s.load r' :=
  Memory.readWords_congr fun _ h1 h2 => read_havoc_outside fun h => regions_disjoint hp hne h ⟨h1, h2⟩

theorem wf_store (h : Memory.wf s.mem) (r : Region) (ws : List Word) : Memory.wf (s.store r ws).mem :=
  Memory.wf_writeWords h _ _

theorem wf_stateHavoc (h : Memory.wf s.mem) (r : Region) : Memory.wf (s.havoc r).mem := Memory.wf_havoc h _ _

/-- Every word of a memory is written exactly where the memory loads. -/
theorem load_isSome_iff : (s.load r).isSome ↔ ∀ i, i < r.words s.params → (Memory.readWord s.mem (r.addr i)).isSome :=
  Memory.readWords_isSome_iff

theorem length_load {ws : List Word} (h : s.load r = some ws) : ws.length = r.words s.params :=
  Memory.length_readWords h

end memories

section randomness

variable {p : Params} {q q' : RandomPort}

/-- `k` bytes taken: they are the first ones offered, and RCNT has counted them (rule R95). -/
def RandomPort.Took (q : RandomPort) (k : Nat) (q' : RandomPort) : Prop :=
  k ≤ q.offered.length ∧ q'.offered = q.offered.drop k ∧ q'.rcnt = q.rcnt + BitVec.ofNat 64 k

theorem took_trans {q0 q1 q2 : RandomPort} {j k : Nat} (h1 : q0.Took j q1) (h2 : q1.Took k q2) : q0.Took (j + k) q2 := by
  obtain ⟨a1, b1, c1⟩ := h1
  obtain ⟨a2, b2, c2⟩ := h2
  rw [b1, List.length_drop] at a2
  refine ⟨by omega, by rw [b2, b1, List.drop_drop], ?_⟩
  rw [c2, c1, BitVec.ofNat_add, BitVec.add_assoc]

theorem took_takeByte {b : Byte} (h : q.takeByte = some (b, q')) : q.Took 1 q' := by
  obtain ⟨l, c⟩ := q
  cases l with
  | nil => simp [RandomPort.takeByte] at h
  | cons x l =>
    simp only [RandomPort.takeByte, Option.some.injEq, Prod.mk.injEq] at h
    obtain ⟨_, rfl⟩ := h
    exact ⟨by simp, by simp, rfl⟩

theorem takeByte_eq_none (h : q.takeByte = none) : q.offered = [] := by
  obtain ⟨l, c⟩ := q
  cases l with
  | nil => rfl
  | cons x l => simp [RandomPort.takeByte] at h

/-- "every draw consumes exactly 2 bytes" (rule R96). -/
theorem took_drawElem {x : Word} (h : q.drawElem p = some (x, q')) : q.Took 2 q' := by
  simp only [RandomPort.drawElem, Option.bind_eq_bind, Option.bind_eq_some_iff] at h
  obtain ⟨⟨b0, q0⟩, h0, ⟨b1, q1⟩, h1, he⟩ := h
  obtain ⟨rfl, rfl⟩ : (0#16 ++ b1 ++ b0) &&& lowMask p.m = x ∧ q1 = q' := by simpa using he
  exact took_trans (took_takeByte h0) (took_takeByte h1)

/-- A draw is made exactly where two bytes are offered. -/
theorem drawElem_isSome (h : 2 ≤ q.offered.length) : (q.drawElem p).isSome := by
  obtain ⟨l, c⟩ := q
  match l, h with
  | b0 :: b1 :: l, _ => rfl

/-- A draw holds no bit above M-1 (rule R87). -/
theorem drawElem_fits {x : Word} (h : q.drawElem p = some (x, q')) : x &&& lowMask p.m = x := by
  simp only [RandomPort.drawElem, Option.bind_eq_bind, Option.bind_eq_some_iff] at h
  obtain ⟨⟨b0, q0⟩, _, ⟨b1, q1⟩, _, he⟩ := h
  obtain ⟨rfl, _⟩ : (0#16 ++ b1 ++ b0) &&& lowMask p.m = x ∧ q1 = q' := by simpa using he
  rw [BitVec.and_assoc, BitVec.and_self]

/-- `n` draws take `2 * n` bytes and hold no bit above M-1. -/
theorem draw_spec {n : Nat} {xs : List Word} (h : q.draw p n = some (xs, q')) :
    xs.length = n ∧ q.Took (2 * n) q' ∧ ∀ x ∈ xs, x &&& lowMask p.m = x := by
  induction n generalizing q xs with
  | zero =>
    simp only [RandomPort.draw, Option.some.injEq, Prod.mk.injEq] at h
    obtain ⟨rfl, rfl⟩ := h
    exact ⟨rfl, ⟨by simp, by simp, by simp⟩, by simp⟩
  | succ n ih =>
    simp only [RandomPort.draw, Option.bind_eq_bind, Option.bind_eq_some_iff] at h
    obtain ⟨⟨x, q0⟩, h0, ⟨ys, q1⟩, h1, he⟩ := h
    obtain ⟨rfl, rfl⟩ : x :: ys = xs ∧ q1 = q' := by simpa using he
    obtain ⟨hl, ht, hf⟩ := ih h1
    refine ⟨by simp [hl], ?_, ?_⟩
    · have := took_trans (took_drawElem h0) ht
      rwa [show 2 + 2 * n = 2 * (n + 1) by omega] at this
    · intro y hy
      rcases List.mem_cons.1 hy with rfl | hy
      · exact drawElem_fits h0
      · exact hf y hy

/-- `n` draws are made where `2 * n` bytes are offered. -/
theorem draw_isSome {n : Nat} (h : 2 * n ≤ q.offered.length) : (q.draw p n).isSome := by
  induction n generalizing q with
  | zero => rfl
  | succ n ih =>
    obtain ⟨⟨x, q0⟩, h0⟩ := Option.isSome_iff_exists.1 (drawElem_isSome (p := p) (q := q) (by omega))
    have ht := took_drawElem h0
    obtain ⟨⟨xs, q1⟩, h1⟩ := Option.isSome_iff_exists.1 (ih (q := q0) (by rw [ht.2.1, List.length_drop]; omega))
    simp [RandomPort.draw, h0, h1]

end randomness

section sampling

variable {α : Type} {attempt : RandomPort → Option (Option α × RandomPort)} {k : Nat}

/-- Every attempt takes `k` bytes, whatever its verdict (rule R97), and waits for nothing else. -/
structure AttemptTakes (attempt : RandomPort → Option (Option α × RandomPort)) (k : Nat) : Prop where
  took : ∀ q o q', attempt q = some (o, q') → q.Took k q'
  ready : ∀ q, k ≤ q.offered.length → (attempt q).isSome

/-- What a successful run of attempts says: the attempt that succeeded, and the bytes all of them took. -/
theorem attempts_found (h : AttemptTakes attempt k) {made left a : Nat} {q q' : RandomPort} {x : α}
    (hf : attempts attempt made q left = .found a x q') :
    made < a ∧ a ≤ made + left ∧ q.Took (k * (a - made)) q' ∧ ∃ q0, attempt q0 = some (some x, q') := by
  induction left generalizing made q with
  | zero => simp [attempts] at hf
  | succ left ih =>
    unfold attempts at hf
    split at hf
    · cases hf
    · rename_i y q1 h1
      cases hf
      refine ⟨by omega, by omega, ?_, q, h1⟩
      have := h.took _ _ _ h1
      rwa [show k * (made + 1 - made) = k by rw [Nat.add_sub_cancel_left, Nat.mul_one]]
    · rename_i q1 h1
      obtain ⟨h2, h3, h4, h5⟩ := ih hf
      refine ⟨by omega, by omega, ?_, h5⟩
      have := took_trans (h.took _ _ _ h1) h4
      rwa [show k + k * (a - (made + 1)) = k * (a - made) by
        rw [show a - made = a - (made + 1) + 1 by omega, Nat.mul_add, Nat.mul_one, Nat.add_comm]] at this

/-- What an exhausted run of attempts says: all of them were made, and the bytes they took. -/
theorem attempts_exhausted (h : AttemptTakes attempt k) {made left : Nat} {q q' : RandomPort}
    (hf : attempts attempt made q left = .exhausted q') : q.Took (k * left) q' := by
  induction left generalizing made q with
  | zero =>
    simp only [attempts, Sampled.exhausted.injEq] at hf
    subst hf
    exact ⟨by simp, by simp, by simp⟩
  | succ left ih =>
    unfold attempts at hf
    split at hf
    · cases hf
    · cases hf
    · rename_i q1 h1
      have := took_trans (h.took _ _ _ h1) (ih hf)
      rwa [show k + k * left = k * (left + 1) by rw [Nat.mul_add, Nat.mul_one, Nat.add_comm]] at this

/-- With bytes for all attempts the run does not wait (rule R145). -/
theorem attempts_not_waits (h : AttemptTakes attempt k) {made left : Nat} {q : RandomPort}
    (hq : k * left ≤ q.offered.length) : attempts attempt made q left ≠ .waits := by
  induction left generalizing made q with
  | zero => simp [attempts]
  | succ left ih =>
    obtain ⟨⟨o, q'⟩, ho⟩ := Option.isSome_iff_exists.1 (h.ready q (by
      rw [Nat.mul_add, Nat.mul_one] at hq; omega))
    have ht := h.took _ _ _ ho
    unfold attempts
    rw [ho]
    cases o with
    | some x => simp
    | none =>
      refine ih ?_
      rw [ht.2.1, List.length_drop]
      rw [Nat.mul_add, Nat.mul_one] at hq
      omega

/-- An attempt of GOPPA_SAMPLE takes T draws of 2 bytes (rules R96, R193; notes/assumptions/5.md). -/
theorem goppaAttempt_takes (p : Params) : AttemptTakes (goppaAttempt p) (2 * p.t) where
  took q o q' h := by
    simp only [goppaAttempt, Option.map_eq_some_iff] at h
    obtain ⟨⟨r, q1⟩, h1, h2⟩ := h
    cases h2
    exact (draw_spec h1).2.1
  ready q h := by simpa [goppaAttempt] using draw_isSome h

/-- An attempt of FW_SAMPLE takes `2 * tau` bytes (rule R97). -/
theorem fwAttempt_takes (p : Params) : AttemptTakes (fwAttempt p) (2 * p.tau) where
  took q o q' h := by
    simp only [fwAttempt, Option.map_eq_some_iff] at h
    obtain ⟨⟨r, q1⟩, h1, h2⟩ := h
    cases h2
    exact (draw_spec h1).2.1
  ready q h := by simpa [fwAttempt] using draw_isSome h

end sampling

end Sys2Proof.Machine
end

