-- ==== Sys2Proof/Laws/PerInstr.lean ====
section
/-! SUPPORT. What is said of every command by itself: its word has RSVD zero and decodes to it, and its opcode is a row
of the map (rules R110, R112, R113). -/

namespace Sys2Proof.Laws

/-- The word of a command is well formed, and decoding it gives the command back. -/
def Encoding.Statement (i : Instr) : Prop :=
  rsvdZero (encode i) = true ∧ ofOpcode (opcode i) = some i ∧ decode (encode i) = .command i

theorem Encoding.nop : Encoding.Statement .nop := ⟨by decide, by decide, by decide⟩
theorem Encoding.gfAdd : Encoding.Statement .gfAdd := ⟨by decide, by decide, by decide⟩
theorem Encoding.gfMul : Encoding.Statement .gfMul := ⟨by decide, by decide, by decide⟩
theorem Encoding.gfInv : Encoding.Statement .gfInv := ⟨by decide, by decide, by decide⟩
theorem Encoding.polyMul : Encoding.Statement .polyMul := ⟨by decide, by decide, by decide⟩
theorem Encoding.polyMulmod : Encoding.Statement .polyMulmod := ⟨by decide, by decide, by decide⟩
theorem Encoding.irredTest : Encoding.Statement .irredTest := ⟨by decide, by decide, by decide⟩
theorem Encoding.goppaSample : Encoding.Statement .goppaSample := ⟨by decide, by decide, by decide⟩
theorem Encoding.supportGen : Encoding.Statement .supportGen := ⟨by decide, by decide, by decide⟩
theorem Encoding.buildH : Encoding.Statement .buildH := ⟨by decide, by decide, by decide⟩
theorem Encoding.systematize : Encoding.Statement .systematize := ⟨by decide, by decide, by decide⟩
theorem Encoding.fwSample : Encoding.Statement .fwSample := ⟨by decide, by decide, by decide⟩
theorem Encoding.encode : Encoding.Statement .encode := ⟨by decide, by decide, by decide⟩
theorem Encoding.decSyndrome : Encoding.Statement .decSyndrome := ⟨by decide, by decide, by decide⟩
theorem Encoding.bmSolve : Encoding.Statement .bmSolve := ⟨by decide, by decide, by decide⟩
theorem Encoding.rootFind : Encoding.Statement .rootFind := ⟨by decide, by decide, by decide⟩
theorem Encoding.decode : Encoding.Statement .decode := ⟨by decide, by decide, by decide⟩

end Sys2Proof.Laws
end

