-- ==== Sys2Proof/Laws/Step.lean ====
section
/-! SUPPORT. Everything the step, the ports and each meaning can do, one lemma per function, so that later proofs split
on these and unfold none of them. -/

namespace Sys2Proof.Machine

variable {s t : State}

/-! ## The step -/

theorem step_of_live (h : s.live) : step s = advance s := by simp [step, h.1, h.2]

/-- A step that answers a next state started from a live state. -/
theorem live_of_step (h : step s = .next t) : s.live ∧ advance s = .next t := by
  unfold step at h
  split at h
  · split at h
    · exact ⟨⟨‹_›, ‹_›⟩, h⟩
    · cases h
  · cases h

theorem advance_idle (h : s.eng = .idle) : advance s = acceptNext s := by simp [advance, h]

theorem advance_overlap {i : Instr} (h : s.eng = .busy i) (ho : s.inputOverlaps = true) : advance s = acceptNext s := by
  simp [advance, h, ho]

theorem advance_engine {i : Instr} (h : s.eng = .busy i) (ho : s.inputOverlaps = false) :
    advance s = engineTurn i s := by simp [advance, h, ho]

/-- The port moves, or the engine does. -/
theorem advance_cases (h : advance s = .next t) :
    acceptNext s = .next t ∨ ∃ i, s.eng = .busy i ∧ exec i s = .next t ∧ t.eng = .idle := by
  unfold advance at h
  split at h
  · exact .inl h
  · split at h
    · exact .inl h
    · unfold engineTurn at h
      split at h
      · split at h
        · cases h; exact .inr ⟨_, ‹_›, ‹_›, ‹_›⟩
        · exact .inl h
      · cases h
      · cases h

theorem acceptNext_nil (h : s.inputs = []) : acceptNext s = .next s := by simp [acceptNext, h]

theorem acceptNext_cons {x : Input} {rest : List Input} (h : s.inputs = x :: rest) :
    acceptNext s = accept x { s with inputs := rest } := by simp [acceptNext, h]

/-! ## The ports -/

theorem hostRead_busError {a width : Nat} (h : locate s.params a width = none) :
    hostRead a width s = .fault (.busError (some 0#32)) := by simp [hostRead, h]

/-- A read that answers changes the read data, and while BUSY the count of draws. -/
theorem hostRead_cases {a width : Nat} (h : hostRead a width s = .next t) :
    (∃ v, t = { s with rdata := v }) ∨ (s.eng ≠ .idle ∧ t = s.drawRead) := by
  unfold hostRead at h
  split at h
  · cases h
  · split at h
    · cases h; exact .inr ⟨(‹_ ∧ _›).1, rfl⟩
    · split at h
      · cases h; exact .inl ⟨_, rfl⟩
      · cases h

theorem hostWrite_busError {a width : Nat} {w : Word} {ov : Bool} (h : locate s.params a width = none) :
    hostWrite a width w ov s = .fault (.busError none) := by simp [hostWrite, h]

/-- The six things a write can do. -/
theorem hostWrite_cases {a width : Nat} {w : Word} {ov : Bool} (h : hostWrite a width w ov s = .next t) :
    t = writeCtrl w s ∨ t = { s with status := s.status.writeOneToClear w } ∨ (s.eng ≠ .idle ∧ t = s.dropWrite) ∨
    (s.eng = .idle ∧ issueCommand w ov s = .next t) ∨ (s.eng = .idle ∧ ∃ r, t = writeReg r w s) ∨
    (s.eng = .idle ∧ (t = s ∨ ∃ r i, i < Region.words s.params r ∧ t = writeMem r i w s)) := by
  unfold hostWrite at h
  split at h
  · cases h
  · cases h; exact .inl rfl
  · cases h; exact .inr (.inl rfl)
  · split at h
    · cases h; exact .inr (.inr (.inl ⟨‹_›, rfl⟩))
    · rename_i hi
      have hi : s.eng = .idle := by simpa using hi
      split at h
      · exact .inr (.inr (.inr (.inl ⟨hi, h⟩)))
      · cases h; exact .inr (.inr (.inr (.inr (.inl ⟨hi, _, rfl⟩))))
      · cases h; exact .inr (.inr (.inr (.inr (.inr ⟨hi, .inl rfl⟩))))
      · cases h
        obtain ⟨-, -, ⟨_, hx, -⟩ | ⟨hx, -⟩ | ⟨_, _, hx, hw, -⟩⟩ := locate_cases ‹locate s.params a width = _› <;> cases hx
        exact .inr (.inr (.inr (.inr (.inr ⟨hi, .inr ⟨_, _, hw, rfl⟩⟩))))

/-- An issue answers the ILLEGAL completion, the command in flight, or the command's own result. -/
theorem issueCommand_cases {w : Word} {ov : Bool} (h : issueCommand w ov s = .next t) :
    (∃ why, decode w = .illegal why ∧ t = s.illegalCommand w) ∨
    ∃ i, decode w = .command i ∧
      (s.inputsWritten i = true ∧ s.operandError i = false ∧ t = s.issue w i ∨ exec i (s.issue w i) = .next t) := by
  unfold issueCommand at h
  split at h
  · cases h; exact .inl ⟨_, ‹_›, rfl⟩
  · rename_i i hd
    split at h
    · rename_i ho
      split at h
      · cases h; exact .inr ⟨i, hd, .inl ⟨‹_›, by simpa using (Bool.and_eq_true_iff.1 ho).2, rfl⟩⟩
      · cases h
    · exact .inr ⟨i, hd, .inr h⟩

/-- A command that raises OPERAND does so whatever overlaps it. -/
theorem issueCommand_operand {w : Word} {i : Instr} (hd : decode w = .command i) (ho : s.operandError i = true)
    (ov : Bool) : issueCommand w ov s = exec i (s.issue w i) := by simp [issueCommand, hd, ho]

@[simp] theorem operandError_issue (w : Word) (i j : Instr) : (s.issue w j).operandError i = s.operandError i := by
  cases i <;> rfl

/-! ## The meanings -/

theorem execPolyMul_next (h : execPolyMul s = .next t) : ∃ a b, s.load .pa = some a ∧ s.load .pb = some b ∧
    t = (s.store .pr (polyMul s.params a b)).complete true := by
  unfold execPolyMul at h
  split at h
  · cases h; exact ⟨_, _, ‹_›, ‹_›, rfl⟩
  · cases h

theorem execPolyMulmod_next (h : execPolyMulmod s = .next t) :
    ∃ a b g, s.load .pa = some a ∧ s.load .pb = some b ∧ s.load .g = some g ∧
      (coeff g s.params.t ≠ 1#32 ∧ t = s.raiseError State.errOperand ∨
        coeff g s.params.t = 1#32 ∧ t = (s.store .pr (mulmod s.params a b g)).complete true) := by
  unfold execPolyMulmod at h
  split at h
  · refine ⟨_, _, _, ‹_›, ‹_›, ‹_›, ?_⟩
    split at h
    · cases h; exact .inl ⟨‹_›, rfl⟩
    · cases h; exact .inr ⟨Decidable.not_not.1 ‹_›, rfl⟩
  · cases h

theorem execIrredTest_next (h : execIrredTest s = .next t) : ∃ g, s.load .g = some g ∧
    (coeff g s.params.t ≠ 1#32 ∧ t = s.raiseError State.errOperand ∨
      coeff g s.params.t = 1#32 ∧ t = s.complete (irreducible s.params g)) := by
  unfold execIrredTest at h
  split at h
  · refine ⟨_, ‹_›, ?_⟩
    split at h
    · cases h; exact .inl ⟨‹_›, rfl⟩
    · cases h; exact .inr ⟨Decidable.not_not.1 ‹_›, rfl⟩
  · cases h

theorem execGoppaSample_next (h : execGoppaSample s = .next t) :
    t = s ∨
    (∃ a g q, attempts (goppaAttempt s.params) 0 s.port s.params.goppaMaxTries = .found a g q ∧
      t = (State.store { s with port := q, tries := BitVec.ofNat 32 a } .g g).complete true) ∨
    ∃ q, attempts (goppaAttempt s.params) 0 s.port s.params.goppaMaxTries = .exhausted q ∧
      t = (State.havoc { s with port := q, tries := BitVec.ofNat 32 s.params.goppaMaxTries } .g).raiseError
        State.errExhausted := by
  unfold execGoppaSample at h
  split at h <;> cases h
  · exact .inl rfl
  · exact .inr (.inl ⟨_, _, _, ‹_›, rfl⟩)
  · exact .inr (.inr ⟨_, ‹_›, rfl⟩)

theorem execSupportGen_next (h : execSupportGen s = .next t) :
    t = s ∨ ∃ ds q u, s.port.draw s.params s.params.supportDraws = some (ds, q) ∧
      u = { s with port := q, accept := BitVec.ofNat 17 (acceptSupport s.params ds).length } ∧
      ((acceptSupport s.params ds).length = s.params.n ∧ t = (u.store .l (acceptSupport s.params ds)).complete true ∨
        (acceptSupport s.params ds).length ≠ s.params.n ∧ t = (u.havoc .l).complete false) := by
  unfold execSupportGen at h
  split at h
  · cases h; exact .inl rfl
  · refine .inr ⟨_, _, _, ‹_›, rfl, ?_⟩
    simp only at h
    split at h <;> cases h
    · exact .inl ⟨‹_›, rfl⟩
    · exact .inr ⟨‹_›, rfl⟩

theorem execBuildH_next (h : execBuildH s = .next t) : ∃ g l, s.load .g = some g ∧ s.load .l = some l ∧
    t = (s.storeRows (parityRows s.params g l)).complete (noRoots s.params g l) := by
  unfold execBuildH at h
  split at h
  · cases h; exact ⟨_, _, ‹_›, ‹_›, rfl⟩
  · cases h

/-- SYSTEMATIZE fails, or stores a plain, or a semi-systematic, reduction. -/
theorem execSystematize_next (h : execSystematize s = .next t) : ∃ rows, s.loadRows = some rows ∧
    (t = s.systematizeFails ∨
      (s.params.variantF = false ∧ ∃ rows', eliminate rows 0 s.params.r = some rows' ∧
        t = State.complete { s.storeRows rows' with pivmask := 0#64 } true) ∨
      (s.params.variantF = true ∧ ∃ l out, s.load .l = some l ∧ semiSystematic s.params rows l = some out ∧
        t = State.complete
          { (s.storeRows out.rows).store .l out.l with pivmask := BitVec.ofNat 64 out.pivmask } true)) := by
  unfold execSystematize at h
  split at h
  · cases h
  · refine ⟨_, ‹_›, ?_⟩
    split at h
    · split at h
      · cases h
      · split at h <;> cases h
        · exact .inl rfl
        · exact .inr (.inr ⟨‹_›, _, _, ‹_›, ‹_›, rfl⟩)
    · split at h <;> cases h
      · exact .inl rfl
      · exact .inr (.inl ⟨Bool.eq_false_of_not_eq_true ‹_›, _, ‹_›, rfl⟩)

theorem execFwSample_next (h : execFwSample s = .next t) :
    t = s ∨
    (∃ a pos q, attempts (fwAttempt s.params) 0 s.port s.params.fwMaxTries = .found a pos q ∧
      t = (State.storeBits { s with port := q, weight := BitVec.ofNat 17 s.params.t, tries := BitVec.ofNat 32 a }
        .evec (Bits.ofPositions pos)).complete true) ∨
    ∃ q, attempts (fwAttempt s.params) 0 s.port s.params.fwMaxTries = .exhausted q ∧
      t = (State.havoc { s with port := q, weight := 0#17, tries := BitVec.ofNat 32 s.params.fwMaxTries }
        .evec).raiseError State.errExhausted := by
  unfold execFwSample at h
  split at h <;> cases h
  · exact .inl rfl
  · exact .inr (.inl ⟨_, _, _, ‹_›, rfl⟩)
  · exact .inr (.inr ⟨_, ‹_›, rfl⟩)

theorem execEncode_next (h : execEncode s = .next t) : ∃ e rows, s.loadBits .evec = some e ∧
    s.loadRightBlock = some rows ∧
    t = (s.storeBits .syn (Bits.ofList (rows.mapIdx fun r row => syndromeBit s.params e r row))).complete true := by
  unfold execEncode at h
  split at h
  · cases h; exact ⟨_, _, ‹_›, ‹_›, rfl⟩
  · cases h

theorem execDecSyndrome_next (h : execDecSyndrome s = .next t) : ∃ v g l, s.loadBits .syn = some v ∧
    s.load .g = some g ∧ s.load .l = some l ∧
    t = (s.store .s (doubledSyndrome s.params g l v)).complete (noRoots s.params g l) := by
  unfold execDecSyndrome at h
  split at h
  · cases h; exact ⟨_, _, _, ‹_›, ‹_›, ‹_›, rfl⟩
  · cases h

theorem execBmSolve_next (h : execBmSolve s = .next t) : ∃ syn, s.load .s = some syn ∧
    t = State.complete
      { s.store .sig (locator (bmRun s.params syn)) with bmL := BitVec.ofNat 16 (bmRun s.params syn).len }
      (decide ((bmRun s.params syn).len ≤ s.params.t)) := by
  unfold execBmSolve at h
  split at h
  · cases h; exact ⟨_, ‹_›, rfl⟩
  · cases h

theorem execRootFind_next (h : execRootFind s = .next t) : ∃ sig l g syn, s.load .sig = some sig ∧
    s.load .l = some l ∧ s.load .g = some g ∧ s.load .s = some syn ∧
    t = (s.storeRoots (rootFlags s.params sig l)).complete (rootsOk s.params sig l g syn) := by
  unfold execRootFind at h
  split at h
  · cases h; exact ⟨_, _, _, _, ‹_›, ‹_›, ‹_›, ‹_›, rfl⟩
  · cases h

theorem execDecode_next (h : execDecode s = .next t) : ∃ v g l syn x, s.loadBits .syn = some v ∧
    s.load .g = some g ∧ s.load .l = some l ∧ syn = doubledSyndrome s.params g l v ∧ x = bmRun s.params syn ∧
    t = (State.storeRoots { (s.store .s syn).store .sig (locator x) with bmL := BitVec.ofNat 16 x.len }
      (rootFlags s.params (locator x) l)).complete
        (noRoots s.params g l && rootsOk s.params (locator x) l g syn) := by
  unfold execDecode at h
  split at h
  · cases h; exact ⟨_, _, _, _, _, ‹_›, ‹_›, ‹_›, rfl, rfl, rfl⟩
  · cases h

end Sys2Proof.Machine
end

