-- ==== Sys2Proof/Laws/Stream.lean ====
section
/-! SUPPORT. The randomness stream as the claims see it: what `n` draws answer, where a run of attempts waits and what it
answers where it does not, that a sampler waits exactly where `State.starves` says, and that the port then goes on. -/

namespace Sys2Proof.Machine

/-! ## Draws -/

/-- The port with its first `k` bytes taken and counted (rule R95). -/
def RandomPort.skip (q : RandomPort) (k : Nat) : RandomPort := ⟨q.offered.drop k, q.rcnt + BitVec.ofNat 64 k⟩

@[simp] theorem RandomPort.skip_offered (q : RandomPort) (k : Nat) : (q.skip k).offered = q.offered.drop k := rfl
@[simp] theorem RandomPort.skip_rcnt (q : RandomPort) (k : Nat) : (q.skip k).rcnt = q.rcnt + BitVec.ofNat 64 k := rfl
@[simp] theorem RandomPort.skip_zero (q : RandomPort) : q.skip 0 = q := by
  show RandomPort.mk _ _ = q
  rw [List.drop_zero, show q.rcnt + BitVec.ofNat 64 0 = q.rcnt from BitVec.add_zero _]

@[simp] theorem RandomPort.skip_skip (q : RandomPort) (j k : Nat) : (q.skip j).skip k = q.skip (j + k) := by
  simp only [RandomPort.skip, List.drop_drop, BitVec.ofNat_add, BitVec.add_assoc]

/-- The port after `k` bytes were taken is determined. -/
theorem RandomPort.Took.eq_skip {q q' : RandomPort} {k : Nat} (h : q.Took k q') : q' = q.skip k := by
  obtain ⟨o, r⟩ := q'
  obtain ⟨-, rfl, rfl⟩ := h
  rfl

/-- Draw `k` is two bytes of the stream, the low one first (rule R96). -/
theorem drawAt_drop (p : Params) (l : List Byte) (j k : Nat) : drawAt p (l.drop (2 * j)) k = drawAt p l (j + k) := by
  simp only [drawAt, List.getD_eq_getElem?_getD, List.getElem?_drop]
  rw [show 2 * j + 2 * k = 2 * (j + k) by omega, show 2 * j + (2 * k + 1) = 2 * (j + k) + 1 by omega]

theorem drawsAt_drop (p : Params) (l : List Byte) (j k n : Nat) :
    drawsAt p (l.drop (2 * j)) k n = drawsAt p l (j + k) n := by
  simp only [drawsAt, drawAt_drop, Nat.add_assoc]

theorem drawsAt_succ (p : Params) (l : List Byte) (k n : Nat) :
    drawsAt p l k (n + 1) = drawAt p l k :: drawsAt p l (k + 1) n := by
  simp only [drawsAt, List.range_succ_eq_map, List.map_cons, List.map_map, Nat.add_zero, List.cons.injEq, true_and]
  exact List.map_congr_left fun i _ => by simp only [Function.comp, Nat.succ_eq_add_one]; congr 1; omega

theorem drawElem_eq {p : Params} {q : RandomPort} (h : 2 ≤ q.offered.length) :
    q.drawElem p = some (drawAt p q.offered 0, q.skip 2) := by
  obtain ⟨l, c⟩ := q
  match l, h with
  | b0 :: b1 :: l, _ =>
    have hd : (0#16 ++ b1 ++ b0) &&& lowMask p.m = drawAt p (b0 :: b1 :: l) 0 := by
      apply BitVec.eq_of_toNat_eq
      have h0 := b0.isLt
      have h1 := b1.isLt
      have hv : (0#16 ++ b1 ++ b0).toNat = b0.toNat + 256 * b1.toNat := by
        rw [BitVec.toNat_append, BitVec.toNat_append, Nat.shiftLeft_eq, Nat.mul_comm _ (2 ^ 8),
          ← Nat.two_pow_add_eq_or_of_lt h0]
        simp
        omega
      have hm : (lowMask p.m).toNat = 2 ^ min p.m 32 - 1 := by
        rw [lowMask, BitVec.toNat_ofNat, Nat.mod_eq_of_lt]
        have := Nat.pow_le_pow_right (n := 2) (by omega) (Nat.min_le_right p.m 32)
        omega
      rw [BitVec.toNat_and, hv, hm, Nat.and_two_pow_sub_one_eq_mod]
      simp only [drawAt, Nat.mul_zero, List.getD_cons_zero, Nat.zero_add, List.getD_cons_succ, BitVec.toNat_ofNat]
      rcases Nat.le_total p.m 32 with hp | hp
      · rw [Nat.min_eq_left hp, Nat.mod_eq_of_lt (b := 2 ^ 32)]
        exact lt_of_lt_of_le (Nat.mod_lt _ (by positivity)) (Nat.pow_le_pow_right (by omega) hp)
      · have := Nat.pow_le_pow_right (n := 2) (by omega) hp
        rw [Nat.min_eq_right hp, Nat.mod_eq_of_lt (b := 2 ^ p.m)]
        omega
    show some ((0#16 ++ b1 ++ b0) &&& lowMask p.m, (⟨l, c + 1 + 1⟩ : RandomPort)) = _
    rw [hd, show RandomPort.skip ⟨b0 :: b1 :: l, c⟩ 2 = ⟨l, c + 1 + 1⟩ by
      simp only [RandomPort.skip, List.drop_succ_cons, List.drop_zero, RandomPort.mk.injEq, true_and]
      rw [BitVec.add_assoc]; rfl]

theorem drawElem_none {p : Params} {q : RandomPort} (h : q.offered.length < 2) : q.drawElem p = none := by
  obtain ⟨l, c⟩ := q
  match l, h with
  | [], _ => rfl
  | [_], _ => rfl

/-- `n` draws answer exactly where `2 * n` bytes are offered: the draws of the stream, and the port without those bytes. -/
theorem draw_eq (p : Params) (q : RandomPort) (n : Nat) :
    q.draw p n = if 2 * n ≤ q.offered.length then some (drawsAt p q.offered 0 n, q.skip (2 * n)) else none := by
  induction n generalizing q with
  | zero => simp [RandomPort.draw, drawsAt]
  | succ n ih =>
    rw [RandomPort.draw]
    rcases Nat.lt_or_ge q.offered.length 2 with h | h
    · rw [drawElem_none h, if_neg (by omega)]; rfl
    · rw [drawElem_eq h]
      show (RandomPort.draw p n (q.skip 2)).bind _ = _
      rw [ih, RandomPort.skip_offered, List.length_drop]
      by_cases hn : 2 * (n + 1) ≤ q.offered.length
      · rw [if_pos (by omega), if_pos hn, drawsAt_succ]
        show some (_ :: drawsAt p (q.offered.drop (2 * 1)) 0 n, _) = _
        rw [drawsAt_drop, RandomPort.skip_skip, show 2 + 2 * n = 2 * (n + 1) by omega]
      · rw [if_neg (by omega), if_neg hn]; rfl

/-! ## Attempts -/

section attempts

variable {α : Type} {attempt : RandomPort → Option (Option α × RandomPort)} {k : Nat} {f : List Byte → Option α}

/-- An attempt that takes `k` bytes and answers `f` of the stream, where `k` bytes are offered; it waits elsewhere. -/
def AttemptIs (attempt : RandomPort → Option (Option α × RandomPort)) (k : Nat) (f : List Byte → Option α) : Prop :=
  ∀ q, attempt q = if k ≤ q.offered.length then some (f q.offered, q.skip k) else none

theorem starvesAfter_zero {k n : Nat} {r : Nat → Prop} : ¬starvesAfter k 0 n r := fun ⟨_, h, _⟩ => by omega

/-- A run starves in its first attempt, or that one is rejected and the rest starves. -/
theorem starvesAfter_succ {k tries n : Nat} {r : Nat → Prop} :
    starvesAfter k (tries + 1) n r ↔
      n < k ∨ (k ≤ n ∧ r 0 ∧ starvesAfter k tries (n - k) fun a => r (a + 1)) := by
  constructor
  · rintro ⟨made, h1, h2, h3, h4⟩
    cases made with
    | zero => left; simpa using h3
    | succ made =>
      right
      simp only [Nat.mul_add, Nat.mul_one] at h2 h3
      exact ⟨by omega, h4 0 (by omega), made, by omega, by omega, by simp only [Nat.mul_add, Nat.mul_one]; omega,
        fun a ha => h4 (a + 1) (by omega)⟩
  · rintro (h | ⟨h0, hr, made, h1, h2, h3, h4⟩)
    · exact ⟨0, by omega, by omega, by simpa using h, fun a ha => by omega⟩
    · simp only [Nat.mul_add, Nat.mul_one] at h3
      refine ⟨made + 1, by omega, by simp only [Nat.mul_add, Nat.mul_one]; omega,
        by simp only [Nat.mul_add, Nat.mul_one]; omega, fun a ha => ?_⟩
      cases a with
      | zero => exact hr
      | succ a => exact h4 a (by omega)

/-- A run of attempts waits exactly where some attempt lacks a byte and all before it are rejected. -/
theorem attempts_waits_iff (h : AttemptIs attempt k f) {made left : Nat} {q : RandomPort} :
    attempts attempt made q left = .waits ↔
      starvesAfter k left q.offered.length fun a => f (q.offered.drop (k * a)) = none := by
  induction left generalizing made q with
  | zero => simp [attempts, starvesAfter_zero]
  | succ left ih =>
    rw [attempts, h q, starvesAfter_succ]
    by_cases hk : k ≤ q.offered.length
    · rw [if_pos hk]
      cases hf : f q.offered with
      | some x => simp [hf, Nat.not_lt.2 hk]
      | none =>
        simp only [ih, RandomPort.skip_offered, List.length_drop, List.drop_drop, Nat.mul_zero, List.drop_zero, hf,
          Nat.not_lt.2 hk, false_or, hk, true_and, Nat.mul_add, Nat.mul_one, Nat.add_comm k]
    · rw [if_neg hk]; simp [Nat.lt_of_not_le hk]

/-- A run of attempts that succeeds does so at the first attempt that answers, and has taken the bytes of those made. -/
theorem attempts_found_first (h : AttemptIs attempt k f) {made left a : Nat} {q q' : RandomPort} {x : α}
    (hf : attempts attempt made q left = .found a x q') :
    ∃ b, a = made + b + 1 ∧ b < left ∧ k * (b + 1) ≤ q.offered.length ∧ q' = q.skip (k * (b + 1)) ∧
      f (q.offered.drop (k * b)) = some x ∧ ∀ c, c < b → f (q.offered.drop (k * c)) = none := by
  induction left generalizing made q with
  | zero => simp [attempts] at hf
  | succ left ih =>
    rw [attempts, h q] at hf
    by_cases hk : k ≤ q.offered.length
    · rw [if_pos hk] at hf
      cases h0 : f q.offered with
      | some y =>
        simp only [h0, Sampled.found.injEq] at hf
        obtain ⟨rfl, rfl, rfl⟩ := hf
        exact ⟨0, rfl, by omega, by simpa using hk, by simp, by simpa using h0, fun c hc => by omega⟩
      | none =>
        simp only [h0] at hf
        obtain ⟨b, rfl, hb, hl, rfl, hx, hr⟩ := ih hf
        simp only [RandomPort.skip_offered, List.length_drop, List.drop_drop] at hl hx hr
        refine ⟨b + 1, by omega, by omega, ?_, ?_, ?_, fun c hc => ?_⟩
        · rw [Nat.mul_add k (b + 1), Nat.mul_one]; omega
        · rw [RandomPort.skip_skip, Nat.mul_add k (b + 1), Nat.mul_one, Nat.add_comm k]
        · rwa [Nat.mul_add, Nat.mul_one, Nat.add_comm]
        · cases c with
          | zero => simpa using h0
          | succ c =>
            have := hr c (by omega)
            rwa [Nat.mul_add, Nat.mul_one, Nat.add_comm]
    · rw [if_neg hk] at hf; cases hf

/-- An exhausted run has made all its attempts, all rejected, and has taken their bytes. -/
theorem attempts_exhausted_all (h : AttemptIs attempt k f) {made left : Nat} {q q' : RandomPort}
    (hf : attempts attempt made q left = .exhausted q') :
    k * left ≤ q.offered.length ∧ q' = q.skip (k * left) ∧ ∀ c, c < left → f (q.offered.drop (k * c)) = none := by
  induction left generalizing made q with
  | zero =>
    simp only [attempts, Sampled.exhausted.injEq] at hf
    subst hf
    exact ⟨by simp, by simp, fun c hc => by omega⟩
  | succ left ih =>
    rw [attempts, h q] at hf
    by_cases hk : k ≤ q.offered.length
    · rw [if_pos hk] at hf
      cases h0 : f q.offered with
      | some y => simp [h0] at hf
      | none =>
        simp only [h0] at hf
        obtain ⟨hl, rfl, hr⟩ := ih hf
        simp only [RandomPort.skip_offered, List.length_drop, List.drop_drop] at hl hr
        refine ⟨by rw [Nat.mul_add, Nat.mul_one]; omega, by rw [RandomPort.skip_skip, Nat.mul_add, Nat.mul_one,
          Nat.add_comm k], fun c hc => ?_⟩
        cases c with
        | zero => simpa using h0
        | succ c =>
          have := hr c (by omega)
          rwa [Nat.mul_add, Nat.mul_one, Nat.add_comm]
    · rw [if_neg hk] at hf; cases hf

end attempts

/-- An attempt of GOPPA_SAMPLE (rules R192, R193): T draws, and the candidate where it is irreducible. -/
theorem goppaAttempt_is (p : Params) : AttemptIs (goppaAttempt p) (2 * p.t) fun l =>
    if irreducible p (goppaCandidate p l 0) then some (goppaCandidate p l 0) else none := by
  intro q
  rw [goppaAttempt, draw_eq]
  split <;> simp [goppaCandidate]

/-- Candidate `a` is the first one of the stream without the bytes of `a` attempts. -/
theorem goppaCandidate_drop (p : Params) (l : List Byte) (a : Nat) :
    goppaCandidate p (l.drop (2 * p.t * a)) 0 = goppaCandidate p l a := by
  simp only [goppaCandidate, Nat.mul_assoc, drawsAt_drop, Nat.mul_zero, Nat.add_zero]

theorem drawAt_lt (p : Params) (l : List Byte) (k : Nat) : (drawAt p l k).toNat < 2 ^ p.m := by
  rw [drawAt, BitVec.toNat_ofNat]
  exact lt_of_le_of_lt (Nat.mod_le _ _) (Nat.mod_lt _ (by positivity))

/-- The positions of an attempt: with N = 2^M every draw is one, and none is cut off (rule R251). -/
theorem positions_eq (p : Params) (l : List Byte) : positions p (drawsAt p l 0 p.tau) =
    if (fwCandidate p l 0).length = p.t ∧ (fwCandidate p l 0).Nodup then some (fwCandidate p l 0) else none := by
  have h : (if p.nEqQ then (drawsAt p l 0 p.tau).map BitVec.toNat else
      (((drawsAt p l 0 p.tau).map BitVec.toNat).filter (· < p.n)).take p.t) = fwCandidate p l 0 := by
    rw [fwCandidate, Nat.mul_zero]
    by_cases hq : p.nEqQ = true
    · have hn : p.n = 2 ^ p.m := by simpa [Params.nEqQ] using hq
      have hl : (drawsAt p l 0 p.tau).length = p.t := by simp [drawsAt, Params.tau, hq]
      have hf : ((drawsAt p l 0 p.tau).map BitVec.toNat).filter (· < p.n) = (drawsAt p l 0 p.tau).map BitVec.toNat := by
        refine List.filter_eq_self.2 fun x hx => ?_
        obtain ⟨w, hw, rfl⟩ := List.mem_map.1 hx
        obtain ⟨i, -, rfl⟩ := List.mem_map.1 hw
        simpa only [hn, decide_eq_true_eq] using drawAt_lt p l (0 + i)
      rw [if_pos hq, hf, List.take_of_length_le (by rw [List.length_map, hl])]
    · rw [if_neg hq]
  rw [positions]
  simp only [h]

/-- An attempt of FW_SAMPLE (rule R251). -/
theorem fwAttempt_is (p : Params) : AttemptIs (fwAttempt p) (2 * p.tau) fun l =>
    if (fwCandidate p l 0).length = p.t ∧ (fwCandidate p l 0).Nodup then some (fwCandidate p l 0) else none := by
  intro q
  rw [fwAttempt, draw_eq]
  split
  · simp only [Option.map_some, positions_eq]
  · rfl

theorem fwCandidate_drop (p : Params) (l : List Byte) (a : Nat) :
    fwCandidate p (l.drop (2 * p.tau * a)) 0 = fwCandidate p l a := by
  simp only [fwCandidate, Nat.mul_assoc, drawsAt_drop, Nat.mul_zero, Nat.add_zero]

/-! ## Where a command waits (rule R95) -/

variable {s t : State} {i : Instr}

theorem starves_goppaSample : s.starves .goppaSample ↔
    attempts (goppaAttempt s.params) 0 s.port s.params.goppaMaxTries = .waits := by
  rw [attempts_waits_iff (goppaAttempt_is _)]
  simp [State.starves, goppaCandidate_drop]

theorem starves_fwSample : s.starves .fwSample ↔
    attempts (fwAttempt s.params) 0 s.port s.params.fwMaxTries = .waits := by
  rw [attempts_waits_iff (fwAttempt_is _)]
  simp only [State.starves, fwCandidate_drop, reduceCtorEq, false_and, false_or, true_and, ite_eq_right_iff,
    imp_false]

theorem starves_supportGen : s.starves .supportGen ↔ s.port.draw s.params s.params.supportDraws = none := by
  rw [draw_eq]
  simp [State.starves]

/-- Only the three samplers take bytes (rule R97). -/
theorem starves_sampler (h : s.starves i) : i = .goppaSample ∨ i = .supportGen ∨ i = .fwSample := by
  rcases h with ⟨h, _⟩ | ⟨h, _⟩ | ⟨h, _⟩ <;> simp [h]

/-- A command that asks for a byte not offered changes nothing (rule R95; notes/assumptions/8.md). -/
theorem exec_of_starves (h : s.starves i) : exec i s = .next s := by
  rcases starves_sampler h with rfl | rfl | rfl
  · simp [exec, execGoppaSample, starves_goppaSample.1 h]
  · simp [exec, execSupportGen, starves_supportGen.1 h]
  · simp [exec, execFwSample, starves_fwSample.1 h]

/-- Where the port takes the oldest input, the step is what that port does (rules R92, R95). -/
theorem step_of_takesInput {x : Input} {rest : List Input} (hl : s.live) (hi : s.inputs = x :: rest)
    (h : s.takesInput x.overlap) : step s = accept x { s with inputs := rest } := by
  rw [step_of_live hl, ← acceptNext_cons hi]
  cases he : s.eng with
  | idle => exact advance_idle he
  | busy i =>
    by_cases ho : x.overlap = true
    · exact advance_overlap he (by simp [State.inputOverlaps, hi, ho])
    · obtain h | h | ⟨j, hj, hs⟩ := h
      · cases h.symm.trans he
      · exact absurd h ho
      · cases he.symm.trans hj
        rw [advance_engine he (by simp [State.inputOverlaps, hi, ho]), engineTurn, exec_of_starves hs]
        simp [he]

end Sys2Proof.Machine
end

