-- ==== Sys2Proof/Tests/Slice0.lean ====
section
/-! SUPPORT. Tests: the check of the parameter record refuses an ill-formed one clause by clause, the words of the
opcode table decode, the vectors of 95_test_vectors.md come out, and a witness for the hypotheses of every statement.
Expected values are the spec's; where a value is computed by hand from a rule the comment says so. -/

-- One check at a time: each evaluates a command in the kernel.
set_option Elab.async false

namespace Sys2Proof.Tests

open Sys2Proof.Machine

/-! ## States to run on -/

/-- A result is a next state that `f` holds of. -/
def after (r : Result) (f : State → Bool) : Bool :=
  match r with
  | .next t => f t
  | .fault _ => false
  | .refused _ => false

theorem exists_next_of_after {r : Result} {f : State → Bool} (h : after r f = true) :
    ∃ t, r = .next t ∧ f t = true := by
  cases r with
  | next t => exact ⟨t, rfl, h⟩
  | fault _ => cases h
  | refused _ => cases h

/-- The fault a result stops on. -/
def faultOf (r : Result) : Option Fault :=
  match r with
  | .next _ => none
  | .fault f => some f
  | .refused _ => none

/-- The refusal a result stops on. -/
def refusalOf (r : Result) : Option Refusal :=
  match r with
  | .next _ => none
  | .fault _ => none
  | .refused f => some f

/-- The key of 95_test_vectors.md: g = x^2 + 2x + 1. -/
def keyG : List Word := [1, 2, 1]
/-- The key's support. -/
def keyL : List Word := [7, 0, 15, 5, 8, 9, 4, 13, 11, 10, 1, 14]
/-- The key's matrix as BUILD_H leaves it (L2.8). -/
def builtMat : List Word := [0xE96, 0xA9D, 0x1E4, 0xC40, 0x6D4, 0x13D, 0x2C1, 0xF1D]
/-- The key's systematic matrix (L2.8). -/
def keyMat : List Word := [0xB01, 0x402, 0x604, 0xB08, 0x910, 0xE20, 0xC40, 0x580]
/-- BUILD_H's output for the second support of L2.8, whose left block is singular. -/
def singularMat : List Word := [0xBCD, 0xA9A, 0xC20, 0x4C9, 0xA48, 0xD32, 0x60A, 0xEDB]
/-- The second support of L2.8. -/
def otherL : List Word := [3, 7, 0, 12, 5, 9, 1, 14, 2, 10, 6, 15]

/-- The instance `p` with `offered` at its randomness port. -/
def offering (p : Params) (offered : List Byte) : State := { State.resetOf p with port := ⟨offered, 0#64⟩ }

/-- The instance `p` with these memories written, the lowest first. -/
def holding (p : Params) (l : List (Region × List Word)) : State :=
  l.foldr (fun x s => s.store x.1 x.2) (State.resetOf p)

/-- A state of TOY with every memory but PR written: the key, its matrix, and the first row of L2.11. -/
def loaded : State :=
  holding Params.toy [(.g, keyG), (.pa, [3, 0, 1]), (.pb, [5, 7, 1]), (.sig, [0, 10, 1]), (.s, [4, 4, 14, 6]),
    (.l, keyL), (.evec, [0x202]), (.syn, [0x2F]), (.mat, keyMat)]

/-- `loaded` with the bytes the samplers can ask for. -/
def supplied : State := { loaded with port := ⟨List.replicate 32 0#8, 0#64⟩ }

/-- The state right after `i` was issued with nothing completed yet. -/
def inFlight (i : Instr) (s : State) : State := s.issue (Sys2Proof.encode i) i

/-- `s` with one input waiting. -/
def facing (s : State) (a : Act) (ov : Bool) : State := { s with inputs := [⟨a, ov⟩] }

/-! ## The parameter record -/

/-- The spec's toy sets are legal (rules R5, R7). -/
theorem test_legal_toy : Params.toy.legal = true := by decide +kernel
theorem test_legal_toyF : Params.toyF.legal = true := by decide +kernel
theorem test_legal_toyQ : Params.toyQ.legal = true := by decide +kernel
/-- A named set is legal, plain and f (rule R5's table). -/
theorem test_legal_348864f : (Params.mceliece348864 true 1 1 3488 0#32).legal = true := by decide +kernel
theorem test_legal_6960119 : (Params.mceliece6960119 false 1 1 6960 0#32).legal = true := by decide +kernel

theorem test_refuses_degree : { Params.toy with m := 1, fieldPoly := 3#32 }.degreeOk = false := by decide
theorem test_refuses_degree_17 : { Params.toy with m := 17, fieldPoly := 0x20009#32 }.legal = false := by
  decide +kernel
/-- z^4 + z^2 + 1 = (z^2 + z + 1)^2. -/
theorem test_refuses_reducible_poly : { Params.toy with fieldPoly := 0x15#32 }.polyOk = false := by decide +kernel
/-- Bit M is not set. -/
theorem test_refuses_low_poly : { Params.toy with fieldPoly := 0xB#32 }.polyOk = false := by decide +kernel
theorem test_refuses_t_1 : { Params.toy with t := 1 }.goppaDegreeOk = false := by decide
theorem test_refuses_t_512 : { Params.toy with t := 512 }.goppaDegreeOk = false := by decide
/-- R = N. -/
theorem test_refuses_no_dimension : { Params.toy with n := 8 }.lengthOk = false := by decide
theorem test_refuses_long_code : { Params.toy with n := 17 }.lengthOk = false := by decide
/-- 16 * 511 rows of 2048 words. -/
theorem test_refuses_large_matrix : { Params.toy with m := 16, t := 511, n := 65536 }.matrixFits = false := by decide
theorem test_refuses_window_without_f : { Params.toy with mu := 2, nu := 4 }.windowOk = false := by decide
theorem test_refuses_narrow_window : { Params.toyF with nu := 1 }.windowOk = false := by decide
theorem test_refuses_wide_window : { Params.toyF with nu := 7 }.windowOk = false := by decide
theorem test_refuses_no_tries : { Params.toy with fwMaxTries := 0 }.triesOk = false := by decide
theorem test_refuses_large_tries : { Params.toy with goppaMaxTries := 2 ^ 32 }.triesOk = false := by decide
theorem test_refuses_few_draws : { Params.toy with supportDraws := 11 }.drawsOk = false := by decide
/-- A command word with a bit of RSVD set (rule R110). -/
theorem test_refuses_rsvd : rsvdZero 0x00000100#32 = false ∧ rsvdZero 0x80000043#32 = false := by decide
/-- No step of a state with an illegal record (U22), nor with a reserved ERRCODE (U20). -/
theorem test_step_refuses_illegal_record :
    refusalOf (step (State.resetOf { Params.toy with t := 1 })) = some .illegalParams := by decide +kernel
theorem test_step_faults_reserved_errcode :
    faultOf (step { State.reset with status := { Status.reset with errcode := 4#4 } }) = some .reservedErrcode := by
  decide +kernel

/-! ## Decoding: RSVD, 24 zero bits, then the opcode of rule R113 -/

theorem test_decode_nop : decode (0#24 ++ 0b00000000#8) = .command .nop := by decide
theorem test_decode_gfAdd : decode (0#24 ++ 0b00000001#8) = .command .gfAdd := by decide
theorem test_decode_gfMul : decode (0#24 ++ 0b00000010#8) = .command .gfMul := by decide
theorem test_decode_gfInv : decode (0#24 ++ 0b00000011#8) = .command .gfInv := by decide
theorem test_decode_polyMul : decode (0#24 ++ 0b00000100#8) = .command .polyMul := by decide
theorem test_decode_polyMulmod : decode (0#24 ++ 0b00000101#8) = .command .polyMulmod := by decide
theorem test_decode_irredTest : decode (0#24 ++ 0b00010000#8) = .command .irredTest := by decide
theorem test_decode_goppaSample : decode (0#24 ++ 0b00010001#8) = .command .goppaSample := by decide
theorem test_decode_supportGen : decode (0#24 ++ 0b00010010#8) = .command .supportGen := by decide
theorem test_decode_buildH : decode (0#24 ++ 0b00100000#8) = .command .buildH := by decide
theorem test_decode_systematize : decode (0#24 ++ 0b00100001#8) = .command .systematize := by decide
theorem test_decode_fwSample : decode (0#24 ++ 0b00110000#8) = .command .fwSample := by decide
theorem test_decode_encode : decode (0#24 ++ 0b00110001#8) = .command .encode := by decide
theorem test_decode_decSyndrome : decode (0#24 ++ 0b01000000#8) = .command .decSyndrome := by decide
theorem test_decode_bmSolve : decode (0#24 ++ 0b01000001#8) = .command .bmSolve := by decide
theorem test_decode_rootFind : decode (0#24 ++ 0b01000010#8) = .command .rootFind := by decide
theorem test_decode_decode : decode (0#24 ++ 0b01000011#8) = .command .decode := by decide
/-- L2.1: RSVD set, and reserved opcodes. -/
theorem test_decode_illegal :
    decode 0x00000100#32 = .illegal .reservedBits ∧ decode 0x80000043#32 = .illegal .reservedBits ∧
    decode 0x00000006#32 = .illegal .reservedOpcode ∧ decode 0x000000FF#32 = .illegal .reservedOpcode := by decide

/-! ## One command, one step (95_test_vectors.md L2) -/

/-- L2.1: NOP from reset, through the step. -/
theorem test_nop_step : after (step (State.reset.withFetchWord 32 0x00)) (fun t => readReg t .status == 0x00000006) := by
  decide +kernel
/-- L2.1: an ILLEGAL word, and CMD afterwards. -/
theorem test_illegal_step : after (step (State.reset.withFetchWord 32 0x80000043)) (fun t =>
    readReg t .status == 0x0043010A && readReg t .cmd == 0x80000043) := by decide +kernel
/-- L2.1, L2.3: 2 + 8. -/
theorem test_gfAdd_step : after (step ({ State.reset with opa := 2, opb := 8 }.withFetchWord 32 0x01)) (fun t =>
    readReg t .status == 0x00010006 && readReg t .res == 0xA) := by decide +kernel
/-- L2.3, M = 4: 9 * 14. -/
theorem test_gfMul_m4 : after (exec .gfMul { State.reset with opa := 0x9, opb := 0xE }) (fun t => t.res == 0x7) := by
  decide +kernel
/-- L2.3, M = 12. -/
theorem test_gfMul_m12 : gmul (Params.mceliece348864 false 1 1 3488 0#32) 0x123 0x456 = 0x21F := by decide +kernel
/-- L2.3, M = 4: the inverse of 0 is 0, that of 3 is 14. -/
theorem test_gfInv_m4 : after (exec .gfInv { State.reset with opa := 0x3 }) (fun t => t.res == 0xE) ∧
    after (exec .gfInv State.reset) (fun t => t.res == 0x0 && t.status.ok) := by decide +kernel
/-- L2.3, M = 13. -/
theorem test_gfInv_m13 : ginv (Params.mceliece460896 false 1 1 4608 0#32) 0x1234 = 0x0704 := by decide +kernel
/-- L2.4, row 2. -/
theorem test_polyMul : after (exec .polyMul (holding Params.toy [(.pa, [3, 0, 1]), (.pb, [5, 7, 1])])) (fun t =>
    t.load .pr == some [0xF, 0x9, 0x6, 0x7, 0x1] && t.status.ok) := by decide +kernel
theorem test_polyMulmod : after (exec .polyMulmod (holding Params.toy [(.g, keyG), (.pa, [3, 0, 1]), (.pb, [5, 7, 1])])) (fun t => t.load .pr == some [2, 5, 0, 0, 0] && t.status.ok) := by
  decide +kernel
/-- L2.4: G = [1,2,5] is OPERAND, and PR is unchanged. -/
theorem test_polyMulmod_operand : after (step ((holding Params.toy [(.g, [1, 2, 5]), (.pa, [3, 0, 1]), (.pb, [5, 7, 1])]).withFetchWord 32 0x05)) (fun t =>
    readReg t .status == 0x0005020A && t.load .pr == none) := by decide +kernel
/-- L2.5. -/
theorem test_irredTest : after (exec .irredTest (holding Params.toy [(.g, keyG)])) (fun t => t.status.ok && !t.status.err) ∧
    after (exec .irredTest (holding Params.toy [(.g, [1, 1, 1])])) (fun t => !t.status.ok && !t.status.err) := by decide +kernel
theorem test_irredTest_operand : after (step ((holding Params.toy [(.g, [1, 2, 3])]).withFetchWord 32 0x10)) (fun t =>
    readReg t .status == 0x0010020A) := by decide +kernel
/-- L2.6, row 1. -/
theorem test_goppaSample : after
    (step ((offering Params.toy [0x01, 0x00, 0x00, 0x00, 0x31, 0xA5, 0x42, 0x00]).withFetchWord 32 0x11))
    (fun t => t.load .g == some [1, 2, 1] && t.tries == 2 && readReg t .rcntLo == 8 && t.port.offered == [] &&
      readReg t .status == 0x00110006) := by decide +kernel
/-- L2.6, row 2. -/
theorem test_goppaSample_exhausted : after
    (step ((offering Params.toy
      [0x00, 0x00, 0x00, 0x00, 0x01, 0x00, 0x00, 0x00, 0x00, 0x00, 0x01, 0x00, 0x01, 0x00, 0x01, 0x00]).withFetchWord 32
        0x11))
    (fun t => t.load .g == none && t.tries == 4 && readReg t .rcntLo == 16 && readReg t .status == 0x0011030A) := by
  decide +kernel

/-- The stream of some draws: each two bytes, the low one first (rule R96). -/
def draws (l : List Byte) : List Byte := l.flatMap fun b => [b, 0#8]

/-- L2.7, rows 2 and 3. -/
theorem test_supportGen : after
    (exec .supportGen (inFlight .supportGen
      (offering Params.toy (draws [7, 0, 15, 5, 8, 9, 0, 4, 13, 11, 10, 4, 1, 14, 12, 12]))))
    (fun t => t.load .l == some keyL && t.accept == 12 && readReg t .rcntLo == 32 && t.status.ok) := by decide +kernel
theorem test_supportGen_short : after
    (exec .supportGen (inFlight .supportGen
      (offering Params.toy (draws [0, 1, 2, 3, 4, 5, 6, 7, 8, 9, 10, 0, 1, 2, 3, 4]))))
    (fun t => t.load .l == none && t.accept == 11 && readReg t .rcntLo == 32 && !t.status.ok && !t.status.err) := by
  decide +kernel
/-- L2.8: the key's matrix, and G = x^2, which has the root L[1] = 0. -/
theorem test_buildH : after (exec .buildH (holding Params.toy [(.g, keyG), (.l, keyL)])) (fun t => t.load .mat == some builtMat && t.status.ok) := by
  decide +kernel
theorem test_buildH_root : after (exec .buildH (holding Params.toy [(.g, [0, 0, 1]), (.l, keyL)])) (fun t =>
    t.load .mat == some [0xE89, 0x3D1, 0xA65, 0x25C, 0xD58, 0x839, 0x3D1, 0x25C] && !t.status.ok && !t.status.err) := by
  decide +kernel
/-- A TOYF instance with the second support and matrix of L2.8. -/
def loadedF : State := holding Params.toyF [(.l, otherL), (.mat, singularMat)]
/-- L2.8: the key's matrix reduced; the semi-systematic form of the other one swaps columns 7 and 8. -/
theorem test_systematize :
    after (exec .systematize (holding Params.toy [(.mat, builtMat)])) (fun t => t.load .mat == some keyMat && t.status.ok) ∧
    after (exec .systematize loadedF) (fun t =>
      t.load .mat == some [0xF01, 0x702, 0x404, 0x108, 0xD10, 0xC20, 0xB40, 0xA80] &&
      t.load .l == some [3, 7, 0, 12, 5, 9, 1, 2, 14, 10, 6, 15] && readReg t .pivmaskLo == 0x5 && t.status.ok) := by
  decide +kernel
/-- L2.8: a singular left block; and by rule R225 a zero matrix has no pivot for column 0, so the semi-systematic form fails
and L stays. -/
theorem test_systematize_fails :
    after (step ((holding Params.toy [(.mat, singularMat)]).withFetchWord 32 0x21)) (fun t =>
      t.load .mat == none && t.pivmask == 0 && readReg t .status == 0x00210002) ∧
    after (exec .systematize (holding Params.toyF [(.l, otherL), (.mat, List.replicate 8 0)])) (fun t =>
      t.load .mat == none && t.load .l == some otherL && !t.status.ok && !t.status.err) := by decide +kernel
/-- L2.9, rows 1, 4 and 3. -/
theorem test_fwSample :
    after (exec .fwSample (inFlight .fwSample (offering Params.toy (draws [13, 5, 5, 2, 14, 9, 15, 1]))))
      (fun t => t.load .evec == some [0x202] && t.weight == 2 && t.tries == 2 && readReg t .rcntLo == 16) ∧
    after (exec .fwSample (inFlight .fwSample (offering Params.toyQ (draws [5, 5, 21, 12]))))
      (fun t => t.load .evec == some [0x1020] && t.tries == 2 && readReg t .rcntLo == 8) := by
  decide +kernel
theorem test_fwSample_exhausted : after
    (step ((offering Params.toy (draws ((List.replicate 4 [12, 13, 14, 15]).flatten))).withFetchWord 32 0x30))
    (fun t => t.load .evec == none && t.weight == 0 && t.tries == 4 && readReg t .rcntLo == 32 &&
      readReg t .status == 0x0030030A) := by decide +kernel
/-- L2.10. -/
theorem test_encode : after (exec .encode (holding Params.toy [(.evec, [0x202]), (.mat, keyMat)])) (fun t => t.load .syn == some [0x2F] && t.status.ok) ∧
    after (exec .encode (holding Params.toy [(.evec, [0xFFF]), (.mat, keyMat)])) (fun t => t.load .syn == some [0xD4]) := by decide +kernel
/-- L2.11 and its stage-only corner cases. -/
theorem test_decSyndrome : after (exec .decSyndrome (holding Params.toy [(.g, keyG), (.l, keyL), (.syn, [0x2F])])) (fun t => t.load .s == some [4, 4, 14, 6] && t.status.ok) ∧
    after (exec .decSyndrome (holding Params.toy [(.g, [0, 0, 1]), (.l, keyL), (.syn, [0x2F])])) (fun t =>
      t.load .s == some [7, 15, 6, 7] && !t.status.ok && !t.status.err) := by decide +kernel
theorem test_bmSolve : after (exec .bmSolve (holding Params.toy [(.s, [4, 4, 14, 6])])) (fun t =>
    t.load .sig == some [0, 10, 1] && t.bmL == 2 && t.status.ok) ∧
    after (exec .bmSolve (holding Params.toy [(.s, [0, 0, 0, 1])])) (fun t =>
      t.load .sig == some [0, 0, 1] && t.bmL == 4 && !t.status.ok) := by decide +kernel
theorem test_rootFind : after (exec .rootFind (holding Params.toy [(.g, keyG), (.sig, [0, 10, 1]), (.s, [4, 4, 14, 6]), (.l, keyL)])) (fun t =>
    t.load .evec == some [0x202] && t.weight == 2 && t.status.ok) := by decide +kernel
/-- SYN = 0xE6 comes from a weight-1 vector; the re-check refuses the two roots. -/
theorem test_rootFind_recheck : after (exec .rootFind (holding Params.toy [(.g, keyG), (.sig, [0, 1, 1]), (.s, [13, 13, 13, 13]), (.l, keyL)]))
    (fun t => t.load .evec == some [0x402] && t.weight == 2 && !t.status.ok && !t.status.err) := by decide +kernel
theorem test_decode : after (exec .decode (holding Params.toy [(.g, keyG), (.l, keyL), (.syn, [0x2F])])) (fun t =>
    t.load .s == some [4, 4, 14, 6] && t.load .sig == some [0, 10, 1] && t.load .evec == some [0x202] && t.weight == 2 &&
      t.bmL == 2 && t.status.ok) := by decide +kernel
theorem test_decode_miss : after (exec .decode (holding Params.toy [(.g, keyG), (.l, keyL), (.syn, [0x3F])])) (fun t =>
    t.load .sig == some [8, 8, 1] && t.load .evec == some [0] && t.weight == 0 && !t.status.ok && !t.status.err) := by
  decide +kernel

/-! ## Host accesses (L2.2), resets, and a command in flight -/

/-- The last read data after the inputs have been taken one step each. -/
def runSteps (s : State) : Nat → Result
  | 0 => .next s
  | n + 1 =>
    match step s with
    | .next t => runSteps t n
    | r => r

theorem test_opa_drops_high_bits : after
    (runSteps { State.reset with inputs := [⟨.write 0x050 4 0x13, false⟩, ⟨.read 0x050 4, false⟩] } 2)
    (fun t => t.rdata == 0x3) := by decide +kernel
theorem test_evec_padding_reads_zero : after
    (runSteps { State.reset with inputs := [⟨.write 0x0080000 4 0xFFFFFFFF, false⟩, ⟨.read 0x0080000 4, false⟩] } 2)
    (fun t => t.rdata == 0xFFF) := by decide +kernel
theorem test_reserved_offset_reads_zero : after (step (facing { State.reset with rdata := 5 } (.read 0x030 4) false))
    (fun t => t.rdata == 0) := by decide +kernel
theorem test_bus_errors :
    faultOf (step (facing loaded (.read 0x002 4) false)) = some (.busError (some 0#32)) ∧
    faultOf (step (facing loaded (.read 0x001000C 4) false)) = some (.busError (some 0#32)) ∧
    faultOf (step (facing loaded (.read 0x0200000 4) false)) = some (.busError (some 0#32)) ∧
    faultOf (step (facing loaded (.write 0x0001000 4 0) false)) = some (.busError none) ∧
    faultOf (step (facing loaded (.write 0x050 2 0) false)) = some (.busError none) ∧
    faultOf (step (facing loaded (.read 0x1000020 4) false)) = some (.busError (some 0#32)) := by decide +kernel
/-- Rules R321, R14: OPERAND ends the command at issue, whatever overlaps it; the next write is not dropped. -/
theorem test_operand_at_issue : after
    (runSteps { holding Params.toy [(.g, [1, 2, 5]), (.pa, [3, 0, 1]), (.pb, [5, 7, 1])] with
      inputs := [cmdWrite 0x05 true, cmdWrite 0x00 false] } 1)
    (fun t => readReg t .status == 0x0005020A && t.eng == .idle) := by decide +kernel
theorem test_unwritten_read : faultOf (step (facing State.reset (.read 0x0040000 4) false)) = some .uninit := by decide +kernel
theorem test_unwritten_input : faultOf (step (State.reset.withFetchWord 32 0x43)) = some .uninit := by decide +kernel
/-- Rule R141: a CMD write while BUSY is dropped and sets WERR; the command then completes (BUSY at 0x1, LAST_OP 2). -/
theorem test_busy_write : after
    (runSteps { State.reset with
      opa := 2, opb := 8, inputs := [cmdWrite 0x02 true, cmdWrite 0x01 true] } 3)
    (fun t => readReg t .status == 0x00020016 && t.res == 3 && t.cmd == 0x02) := by decide +kernel
/-- Rule R351: CTRL = 3 resets and leaves IRQ_EN = 0; the aborted command's write set is unwritten, the rest is kept. -/
theorem test_abort : after
    (runSteps { loaded with irqEn := true, inputs := [cmdWrite 0x41 true, ⟨.write 0x040 4 3, true⟩] } 2)
    (fun t => t.load .sig == none && t.load .s == some [4, 4, 14, 6] && !t.irqEn && t.status == Status.reset &&
      t.eng == .idle) := by decide +kernel
/-- Rule R330: irq after a completion with IRQ_EN = 1, and after DONE is cleared. -/
theorem test_irq :
    after (step ({ State.reset with irqEn := true }.withFetchWord 32 0)) (fun t => t.irq) ∧
    after (runSteps { State.reset with
      irqEn := true, inputs := [cmdWrite 0 false, ⟨.write 0x048 4 2, false⟩] } 2) (fun t => !t.irq) := by decide +kernel
/-- The notation of rule R116: `wr`, `run`, `b.ok`, `rd`, `halt`. -/
theorem test_host_program :
    (match hostRun 40 (HostAgent.start
        ([.wr .opa 2, .wr .opb 8] ++ HostLine.run .gfMul ++ [.bOk 6, .halt, .rd .res, .halt]) []) State.reset with
      | .next (h, s) => runFinal h s && h.got == [3]
      | _ => false) = true := by decide +kernel

/-- Rule R363: a program that has executed `halt` while BUSY is not final; the CORE goes on, and then it is. -/
theorem test_halt_while_busy :
    (match hostStep false { HostAgent.start [.cmd 0x02, .halt] [] with line := 1, halted := true }
        (inFlight .gfMul { State.reset with opa := 2, opb := 8 }) with
      | .next (h, s) => runFinal h s && s.res == 3
      | _ => false) = true := by decide +kernel

/-! ## Witnesses: for each statement with hypotheses, states and operands that meet all of them -/

/-- The test of `State.ElementsReduced` on a concrete state. -/
def reducedCheck (s : State) : Bool :=
  decide (s.opa.toNat < 2 ^ s.params.m ∧ s.opb.toNat < 2 ^ s.params.m ∧ s.res.toNat < 2 ^ s.params.m) &&
  (Region.all.all fun r => (List.range (r.words s.params)).all fun i =>
    match Memory.readWord s.mem (r.addr i) with
    | some w => w &&& wordMask s.params r i == w
    | none => (List.range 4).all fun k => (Memory.read s.mem (r.addr i + k)).isNone) &&
  s.mem.all fun c => Region.all.any fun r => r.has s.params c.1

theorem elementsReduced_of_check {s : State} (h : reducedCheck s = true) : s.ElementsReduced := by
  simp only [reducedCheck, Bool.and_eq_true, decide_eq_true_eq, List.all_eq_true, List.mem_range] at h
  obtain ⟨⟨⟨h1, h2, h3⟩, hw⟩, hm⟩ := h
  refine ⟨h1, h2, h3, fun r i w hi hr => ?_, fun r i k hi hk => ?_, fun a ha => ?_⟩
  · have := hw r (region_mem_all r) i hi
    rw [hr] at this
    simpa using this
  · have := hw r (region_mem_all r) i hi
    cases hr : Memory.readWord s.mem (r.addr i) with
    | some w => simpa using Memory.readWord_isSome_iff.1 (by rw [hr]; rfl) k hk
    | none =>
      rw [hr] at this
      simp only [List.all_eq_true, List.mem_range] at this
      have := this k hk
      cases hb : Memory.read s.mem (r.addr i + k) with
      | none => simp
      | some b => rw [hb] at this; cases this
  · by_cases hk : ∀ k ∈ s.mem.map Prod.fst, a ≠ k
    · rw [Memory.read_none_of_keys hk] at ha; cases ha
    · push Not at hk
      obtain ⟨k, hk, rfl⟩ := hk
      obtain ⟨c, hc, rfl⟩ := List.mem_map.1 hk
      have := hm c hc
      rw [List.any_eq_true] at this
      obtain ⟨r, -, hr⟩ := this
      exact ⟨r, hr⟩

theorem reduced_of_all {p : Params} {l : List Word} (h : (l.all fun x => decide (x.toNat < 2 ^ p.m)) = true) :
    ∀ x ∈ l, Reduced p x := by simpa using h

theorem keyG_monic : MonicT Params.toy keyG := ⟨by decide, reduced_of_all (by decide +kernel), by decide⟩

theorem loaded_live : loaded.live := ⟨test_legal_toy, by decide +kernel⟩
theorem supplied_live : supplied.live := ⟨test_legal_toy, by decide +kernel⟩
theorem reset_live : State.reset.live := ⟨test_legal_toy, by decide +kernel⟩

theorem loaded_reduced : loaded.ElementsReduced := elementsReduced_of_check (by decide +kernel)

/-- A state with one input waiting is as live as the state without. -/
theorem faces_facing {s : State} (h : s.live) (a : Act) (ov : Bool) : (facing s a ov).faces ⟨a, ov⟩ [] := ⟨h, rfl⟩

/-- The state after an issue is as live as the one before. -/
theorem inFlight_live {s : State} (h : s.live) (i : Instr) : (inFlight i s).live := ⟨h.1, Nat.zero_le 3⟩

theorem witness_StepRunsIssuedCommand : ∃ s w i rest,
    State.faces s ⟨.write 0x044 4 w, false⟩ rest ∧ s.eng = .idle ∧ decode w = .command i :=
  ⟨facing loaded (.write 0x044 4 0x43) false, 0x43, .decode, [], faces_facing loaded_live _ _, rfl, by decide⟩

/-- L2.4's G = [1,2,5]. -/
def nonMonic : State := holding Params.toy [(.g, [1, 2, 5]), (.pa, [3, 0, 1]), (.pb, [5, 7, 1])]

theorem nonMonic_live : nonMonic.live := ⟨test_legal_toy, by decide +kernel⟩

theorem nonMonic_leading : nonMonic.wordAt .g nonMonic.params.t ≠ 1#32 := by decide +kernel

theorem nonMonic_written : ∀ i ∈ [Instr.polyMulmod, .irredTest], ∀ x ∈ inputSpans nonMonic.params i, ∀ j, j < x.count →
    (Memory.readWord nonMonic.mem (x.region.base + 4 * (x.first + j))).isSome := by decide +kernel

theorem loaded_written : ∀ i ∈ [Instr.polyMulmod, .rootFind],
    (∀ x ∈ inputSpans (facing loaded (.write 0x044 4 (Sys2Proof.encode i)) true).params i, ∀ j, j < x.count →
      (Memory.readWord (facing loaded (.write 0x044 4 (Sys2Proof.encode i)) true).mem
        (x.region.base + 4 * (x.first + j))).isSome) ∧
    ¬((i = .polyMulmod ∨ i = .irredTest) ∧
      (facing loaded (.write 0x044 4 (Sys2Proof.encode i)) true).wordAt .g
        (facing loaded (.write 0x044 4 (Sys2Proof.encode i)) true).params.t ≠ 1#32) := by decide +kernel

/-- Each clause: an input unwritten, G = [1,2,5] for POLY_MULMOD and IRRED_TEST, and a command that stays in flight. -/
theorem witness_OverlappedIssueStaysInFlight :
    (∃ s w i rest, State.faces s ⟨.write 0x044 4 w, true⟩ rest ∧ s.eng = .idle ∧ decode w = .command i ∧
      ∃ x ∈ inputSpans s.params i, ∃ j, j < x.count ∧
        Memory.readWord s.mem (x.region.base + 4 * (x.first + j)) = none) ∧
    (∀ i ∈ [Instr.polyMulmod, .irredTest], ∃ s w rest,
      State.faces s ⟨.write 0x044 4 w, true⟩ rest ∧ s.eng = .idle ∧ decode w = .command i ∧
      (∀ x ∈ inputSpans s.params i, ∀ j, j < x.count →
        (Memory.readWord s.mem (x.region.base + 4 * (x.first + j))).isSome) ∧
      s.wordAt .g s.params.t ≠ 1#32) ∧
    ∀ i ∈ [Instr.polyMulmod, .rootFind], ∃ s w rest,
      State.faces s ⟨.write 0x044 4 w, true⟩ rest ∧ s.eng = .idle ∧ decode w = .command i ∧
      (∀ x ∈ inputSpans s.params i, ∀ j, j < x.count →
        (Memory.readWord s.mem (x.region.base + 4 * (x.first + j))).isSome) ∧
      ¬((i = .polyMulmod ∨ i = .irredTest) ∧ s.wordAt .g s.params.t ≠ 1#32) := by
  refine ⟨⟨facing State.reset (.write 0x044 4 0x41) true, 0x41, .bmSolve, [], faces_facing reset_live _ _, rfl, by decide,
      by decide +kernel⟩, fun i hi => ⟨facing nonMonic (.write 0x044 4 (Sys2Proof.encode i)) true, Sys2Proof.encode i, [],
      faces_facing nonMonic_live _ _, rfl, by cases i <;> decide, nonMonic_written i hi, nonMonic_leading⟩,
    fun i hi => ⟨facing loaded (.write 0x044 4 (Sys2Proof.encode i)) true, Sys2Proof.encode i, [],
      faces_facing loaded_live _ _, rfl, by cases i <;> decide, loaded_written i hi⟩⟩

theorem witness_IllegalWordChangesOnlyCmdAndStatus :
    (∃ s w ov rest, State.faces s ⟨.write 0x044 4 w, ov⟩ rest ∧ s.eng = .idle ∧ ∀ i, w ≠ Sys2Proof.encode i) ∧
    ∀ i, 0x00000006#32 ≠ Sys2Proof.encode i :=
  ⟨⟨facing loaded (.write 0x044 4 0x80000043) false, 0x80000043, false, [], faces_facing loaded_live _ _, rfl,
    fun i => by cases i <;> decide⟩, fun i => by cases i <;> decide⟩

theorem witness_CompletionSetsStatus : ∃ code : BitVec 4, code ≠ 0#4 := ⟨2#4, by decide⟩

theorem witness_UninitExactlyOnUnwrittenInput : ∃ s i f, exec i s = .fault f := ⟨State.reset, .bmSolve, .uninit, rfl⟩

theorem witness_BusyEngineCompletes : ∃ s t i, State.live s ∧ s.eng = .busy i ∧
    (∀ x ∈ s.inputs.head?, x.overlap = false) ∧ exec i s = .next t ∧ t.eng = .idle :=
  ⟨inFlight .gfMul loaded, _, .gfMul, inFlight_live loaded_live _, rfl, by decide +kernel, rfl, rfl⟩

/-- The offer: on an idle engine, under a command in flight, and to a starved sampler. The samplers: GOPPA_SAMPLE in its
first attempt and in its second, one byte short, the first candidate being x^2; SUPPORT_GEN one byte short; FW_SAMPLE in its
first attempt and in its third, after two attempts with equal positions. -/
theorem witness_OfferedByteJoinsStreamAndStarvedSamplerWaits :
    (∃ s rest, State.faces s ⟨.offer 7#8, false⟩ rest ∧ s.eng = .idle) ∧
    (∃ s rest, State.faces s ⟨.offer 7#8, true⟩ rest ∧ s.eng = .busy .decode) ∧
    (∃ s rest, State.faces s ⟨.offer 7#8, false⟩ rest ∧ s.eng = .busy .supportGen ∧ s.starves .supportGen) ∧
    (∀ n ∈ [3, 7], ∃ s, State.live s ∧ s.eng = .busy .goppaSample ∧ s.inputs = [] ∧ s.port.offered.length = n ∧
      s.starves .goppaSample) ∧
    (∃ s, State.live s ∧ s.eng = .busy .supportGen ∧ s.inputs = [] ∧ s.starves .supportGen) ∧
    ∀ n ∈ [7, 17], ∃ s, State.live s ∧ s.eng = .busy .fwSample ∧ s.inputs = [] ∧ s.port.offered.length = n ∧
      s.starves .fwSample := by
  have sup : (offering Params.toy (List.replicate 31 0)).starves .supportGen := .inr (.inl ⟨rfl, by decide⟩)
  refine ⟨⟨facing loaded (.offer 7#8) false, [], faces_facing loaded_live _ _, rfl⟩,
    ⟨facing (inFlight .decode loaded) (.offer 7#8) true, [], faces_facing (inFlight_live loaded_live _) _ _, rfl⟩,
    ⟨facing (inFlight .supportGen (offering Params.toy (List.replicate 31 0))) (.offer 7#8) false, [],
      faces_facing (inFlight_live reset_live _) _ _, rfl, sup⟩,
    fun n hn => ⟨inFlight .goppaSample (offering Params.toy (List.replicate n 0)), inFlight_live reset_live _, rfl, rfl,
      List.length_replicate, .inl ⟨rfl, n / 4, ?_⟩⟩,
    ⟨inFlight .supportGen (offering Params.toy (List.replicate 31 0)), inFlight_live reset_live _, rfl, rfl, sup⟩,
    fun n hn => ⟨inFlight .fwSample (offering Params.toy (List.replicate n 0)), inFlight_live reset_live _, rfl, rfl,
      List.length_replicate, .inr (.inr ⟨rfl, n / 8, ?_⟩)⟩⟩
  · exact (by decide +kernel : ∀ n ∈ [3, 7], n / 4 < Params.toy.goppaMaxTries ∧
      2 * Params.toy.t * (n / 4) ≤ (List.replicate n 0#8).length ∧
      (List.replicate n 0#8).length < 2 * Params.toy.t * (n / 4 + 1) ∧
      ∀ a, a < n / 4 → irreducible Params.toy (goppaCandidate Params.toy (List.replicate n 0#8) a) = false) n hn
  · exact (by decide +kernel : ∀ n ∈ [7, 17], n / 8 < Params.toy.fwMaxTries ∧
      2 * Params.toy.tau * (n / 8) ≤ (List.replicate n 0#8).length ∧
      (List.replicate n 0#8).length < 2 * Params.toy.tau * (n / 8 + 1) ∧
      ∀ a, a < n / 8 → ¬((fwCandidate Params.toy (List.replicate n 0#8) a).length = Params.toy.t ∧
        (fwCandidate Params.toy (List.replicate n 0#8) a).Nodup)) n hn

/-- L2.6, row 1: the second candidate is irreducible. -/
def twoGoppaAttempts : State := offering Params.toy [0x01, 0x00, 0x00, 0x00, 0x31, 0xA5, 0x42, 0x00]
/-- L2.9, row 1: the second attempt gives two positions. -/
def twoFwAttempts : State := offering Params.toy (draws [13, 5, 5, 2, 14, 9, 15, 1])
/-- L2.9, row 4: N = 2^M. -/
def twoFwAttemptsQ : State := offering Params.toyQ (draws [5, 5, 21, 12])

theorem supplied_written : ∀ i ∈ Instr.all, ∀ x ∈ inputSpans supplied.params i, ∀ j, j < x.count →
    (Memory.readWord supplied.mem (x.region.base + 4 * (x.first + j))).isSome := by decide +kernel

theorem supplied_feeds (i : Instr) : ¬supplied.starves i := by
  have h : ∀ i ∈ Instr.all, ¬supplied.starves i := by unfold State.starves starvesAfter; decide +kernel
  exact h i (by cases i <;> decide)
theorem twoGoppaAttempts_feeds : ¬twoGoppaAttempts.starves .goppaSample := by
  unfold State.starves starvesAfter; decide +kernel
theorem twoFwAttempts_feeds : ¬twoFwAttempts.starves .fwSample := by unfold State.starves starvesAfter; decide +kernel
theorem twoFwAttemptsQ_feeds : ¬twoFwAttemptsQ.starves .fwSample := by unfold State.starves starvesAfter; decide +kernel

theorem starves_inFlight {s : State} {i j : Instr} : (inFlight j s).starves i ↔ s.starves i := Iff.rfl

/-- SUPPORT_GEN in flight, a byte short of its draws. -/
def waiting : State := inFlight .supportGen (offering Params.toy (List.replicate 31 0))

theorem waiting_live : waiting.live := inFlight_live reset_live _
theorem waiting_starves : waiting.starves .supportGen := .inr (.inl ⟨rfl, by decide⟩)

/-- It meets each hypothesis on where the port takes an input while BUSY, with an input that does not overlap it. -/
theorem facing_waiting (a : Act) : (facing waiting a false).faces ⟨a, false⟩ [] ∧
    (facing waiting a false).eng = .busy .supportGen ∧ (facing waiting a false).starves .supportGen ∧
    (facing waiting a false).takesInput false :=
  ⟨faces_facing waiting_live _ _, rfl, waiting_starves, .inr (.inr ⟨.supportGen, rfl, waiting_starves⟩)⟩

/-- A command in flight from a coherent state, having passed its checks at issue, is coherent. -/
theorem inFlight_coherent (i : Instr) (hi : (inFlight i supplied).inputsWritten i = true)
    (ho : (inFlight i supplied).operandError i = false) :
    (inFlight i supplied).StatusCoherent where
  busy_iff := by simp [inFlight, State.issue, Status.issue]
  err_iff := by simp [inFlight, State.issue, Status.issue]
  code_produced := by simp [inFlight, State.issue, Status.issue]
  ok_quiet := by simp [inFlight, State.issue, Status.issue]
  done_quiet := by simp [inFlight, State.issue, Status.issue]
  last_op := rfl
  in_flight := by rintro j hj; cases hj; cases i <;> decide
  inputs_written := by rintro j hj; cases hj; exact hi
  operand_checked := by rintro j hj; cases hj; exact ho

theorem witness_CommandInFlightTerminates : ∃ s i,
    s.params.legal = true ∧ State.StatusCoherent s ∧ s.eng = .busy i ∧ (∀ x ∈ s.inputs.head?, x.overlap = false) ∧
    ¬s.starves i :=
  ⟨inFlight .fwSample supplied, .fwSample, test_legal_toy, inFlight_coherent _ (by decide +kernel) rfl, rfl,
    by decide +kernel, fun h => supplied_feeds _ (starves_inFlight.1 h)⟩

/-- For every command; and GOPPA_SAMPLE and FW_SAMPLE with the bytes of two attempts offered, fewer than they can take. -/
theorem witness_EveryCommandCompletes :
    (∃ s : State, ∀ i ∈ Instr.all,
      (∀ x ∈ inputSpans s.params i, ∀ j, j < x.count →
        (Memory.readWord s.mem (x.region.base + 4 * (x.first + j))).isSome) ∧ ¬s.starves i) ∧
    (∃ s : State, ¬s.starves .goppaSample ∧ s.port.offered.length < maxBytes s.params .goppaSample) ∧
    ∃ s : State, ¬s.starves .fwSample ∧ s.port.offered.length < maxBytes s.params .fwSample :=
  ⟨⟨supplied, fun i hi => ⟨supplied_written i hi, supplied_feeds i⟩⟩,
    ⟨twoGoppaAttempts, twoGoppaAttempts_feeds, by decide⟩, ⟨twoFwAttempts, twoFwAttempts_feeds, by decide⟩⟩

/-- A command that writes a register, one that writes a memory, and one that takes bytes. -/
theorem witness_CommandWritesOnlyItsWriteSet :
    (∃ s t, exec .gfMul s = .next t) ∧ (∃ s t, exec .bmSolve s = .next t) ∧ (∃ s t, exec .fwSample s = .next t) :=
  ⟨⟨loaded, _, rfl⟩, ⟨_, (exists_next_of_after test_bmSolve.1).imp fun _ h => h.1⟩,
    ⟨_, (exists_next_of_after test_fwSample.1).imp fun _ h => h.1⟩⟩

/-- Two states that differ in OPA, EVEC and the stream, on a command that reads none of them; and GOPPA_SAMPLE on two streams
that agree on the 8 bytes it takes. -/
theorem witness_OutcomeDependsOnListedInputs :
    (∃ s s' t, s ≠ s' ∧ s'.params = s.params ∧
      (∀ x ∈ inputSpans s.params .bmSolve, ∀ j, j < x.count →
        Memory.readWord s'.mem (x.region.base + 4 * (x.first + j)) =
          Memory.readWord s.mem (x.region.base + 4 * (x.first + j))) ∧
      s.eng = .busy .bmSolve ∧ s'.eng = .busy .bmSolve ∧ exec .bmSolve s = .next t ∧ t.eng = .idle ∧
      s.port.offered.length = t.port.offered.length + 0 ∧ s'.port.offered.take 0 = s.port.offered.take 0) ∧
    ∃ s s' t : State, s.port.offered ≠ s'.port.offered ∧ s'.params = s.params ∧ s.eng = .busy .goppaSample ∧
      s'.eng = .busy .goppaSample ∧ exec .goppaSample s = .next t ∧ t.eng = .idle ∧
      s.port.offered.length = t.port.offered.length + 8 ∧ s'.port.offered.take 8 = s.port.offered.take 8 := by
  obtain ⟨t, ht, he⟩ := exists_next_of_after (by decide +kernel :
    after (exec .bmSolve (inFlight .bmSolve (holding Params.toy [(.s, [4, 4, 14, 6])])))
      (fun t => t.eng == .idle && t.port.offered == []) = true)
  obtain ⟨u, hu, he'⟩ := exists_next_of_after (by decide +kernel :
    after (exec .goppaSample (inFlight .goppaSample twoGoppaAttempts))
      (fun t => t.eng == .idle && t.port.offered == []) = true)
  simp only [Bool.and_eq_true, beq_iff_eq] at he he'
  exact ⟨⟨_, inFlight .bmSolve { holding Params.toy [(.s, [4, 4, 14, 6]), (.evec, [0xFFF])] with
        opa := 5, port := ⟨[7], 0⟩ }, t,
      fun h => (by decide : (0 : Word) ≠ 5) (congrArg State.opa h), by decide +kernel, by decide +kernel, rfl, rfl, ht,
      he.1, by rw [he.2]; decide, rfl⟩,
    ⟨inFlight .goppaSample twoGoppaAttempts,
      inFlight .goppaSample (offering Params.toy [0x01, 0x00, 0x00, 0x00, 0x31, 0xA5, 0x42, 0x00, 0x77]), u,
      by decide, rfl, rfl, rfl, hu, he'.1, by rw [he'.2]; decide, by decide⟩⟩

/-- A state on which a step answers and that meets all four invariants: the host writes OPA. -/
def writesOpa : State := facing (holding Params.toy [(.g, keyG), (.evec, [0x202])]) (.write 0x050 4 0x13) false

theorem writesOpa_steps : ∃ t, step writesOpa = .next t :=
  (exists_next_of_after (by decide +kernel : after (step writesOpa) (fun t => t.opa == 3) = true)).imp fun _ h => h.1

theorem witness_StepKeepsMemoryCanonical : ∃ s t, Memory.wf (State.mem s) ∧ step s = .next t :=
  ⟨writesOpa, writesOpa_steps.imp fun _ h => ⟨by decide +kernel, h⟩⟩

theorem witness_StepKeepsStatusCoherent : ∃ s t, State.StatusCoherent s ∧ step s = .next t := by
  refine ⟨writesOpa, writesOpa_steps.imp fun _ h => ⟨?_, h⟩⟩
  exact ⟨by decide +kernel, by decide +kernel, by decide +kernel, by decide +kernel, by decide +kernel, by decide +kernel,
    fun i hi => Engine.noConfusion hi, fun i hi => Engine.noConfusion hi, fun i hi => Engine.noConfusion hi⟩

theorem witness_StepKeepsElementsReduced : ∃ s t, State.ElementsReduced s ∧ step s = .next t :=
  ⟨writesOpa, writesOpa_steps.imp fun _ h => ⟨elementsReduced_of_check (by decide +kernel), h⟩⟩

theorem witness_StepKeepsCountersBounded : ∃ s t, State.CountersBounded s ∧ step s = .next t :=
  ⟨writesOpa, writesOpa_steps.imp fun _ h =>
    ⟨⟨by decide +kernel, by decide +kernel, by decide +kernel, by decide +kernel, fun _ => by decide +kernel⟩, h⟩⟩

theorem witness_ParametersNeverChange : ∃ s t, step s = .next t := ⟨_, writesOpa_steps⟩

/-- Also for ResetMeetsInvariants, and every statement whose one hypothesis is a legal record: one without and one with the
f variant. -/
theorem witness_ParameterRegistersReadBuildValues :
    (∃ s, State.params s = Params.toy ∧ s.params.legal = true ∧ s.params.variantF = false) ∧
    ∃ s, State.params s = Params.toyF ∧ s.params.legal = true :=
  ⟨⟨State.reset, rfl, test_legal_toy, rfl⟩, ⟨State.resetOf Params.toyF, rfl, test_legal_toyF⟩⟩

theorem witness_ResetMeetsInvariants : ∃ p : Params, p.legal = true := ⟨_, test_legal_toy⟩

/-- A read on an idle engine and a write under a busy one; accesses on both sides of the window's edge (the last used word
of G and the one after it, the last register offset and the first offset above). -/
theorem witness_BusErrorExactly :
    (∃ s rest, State.live s ∧ s.eng = .idle ∧
      s.inputs = ⟨if true then .read 0x0010008 4 else .write 0x0010008 4 0, false⟩ :: rest ∧
      ∃ r i, i < Region.words s.params r ∧ 0x0010008 = r.base + 4 * i) ∧
    (∃ s rest, State.live s ∧ s.eng = .busy .nop ∧
      s.inputs = ⟨if false then .read 0x001000C 4 else .write 0x001000C 4 0, true⟩ :: rest ∧
      ¬∃ r i, i < Region.words s.params r ∧ 0x001000C = r.base + 4 * i) ∧
    (∃ s rest, State.live s ∧ s.takesInput false ∧ s.eng = .busy .supportGen ∧
      s.inputs = ⟨if true then .read 0x001000C 4 else .write 0x001000C 4 0, false⟩ :: rest) ∧
    after (step (facing loaded (.write 0xFFC 4 0) false)) (fun _ => true) = true ∧
    faultOf (step (facing loaded (.write 0x1000 4 0) false)) = some (.busError none) ∧
    faultOf (step (facing loaded (.read 0x1000 4) false)) = some (.busError (some 0#32)) := by
  refine ⟨⟨facing loaded (.read 0x0010008 4) false, [], (faces_facing loaded_live _ _).1, rfl, rfl, .g, 2, by decide, rfl⟩,
    ⟨facing (inFlight .nop loaded) (.write 0x001000C 4 0) true, [],
      (faces_facing (inFlight_live loaded_live _) _ _).1, rfl, rfl, ?_⟩,
    ⟨facing waiting (.read 0x001000C 4) false, [], waiting_live, (facing_waiting _).2.2.2, rfl, rfl⟩,
    by decide +kernel, by decide +kernel, by decide +kernel⟩
  rintro ⟨r, i, hi, h⟩
  have hi : i < r.words Params.toy := hi
  cases r <;> simp [Region.base] at h <;> simp [Region.words, Params.toy] at hi <;> omega

/-- Each clause, at the last register, the last reserved offset, the last word of G, an unwritten word. -/
theorem witness_IdleReadAnswers :
    (∃ s rest, State.faces s ⟨.read 0x078 4, false⟩ rest ∧ s.eng = .idle ∧ 0x078 = Reg.offset .rcntHi) ∧
    (∃ s rest, State.faces s ⟨.read 0xFFC 4, false⟩ rest ∧ s.eng = .idle ∧ ∀ r : Reg, 0xFFC ≠ r.offset) ∧
    (∃ s rest v, State.faces s ⟨.read 0x0010008 4, false⟩ rest ∧ s.eng = .idle ∧ 2 < Region.words s.params .g ∧
      0x0010008 = Region.base .g + 4 * 2 ∧ Memory.readWord s.mem 0x0010008 = some v) ∧
    (∃ s rest, State.faces s ⟨.read 0x0040000 4, false⟩ rest ∧ s.eng = .idle ∧ 0 < Region.words s.params .l ∧
      0x0040000 = Region.base .l + 4 * 0 ∧ Memory.readWord s.mem 0x0040000 = none) :=
  ⟨⟨facing loaded (.read 0x078 4) false, [], faces_facing loaded_live _ _, rfl, rfl⟩,
    ⟨facing loaded (.read 0xFFC 4) false, [], faces_facing loaded_live _ _, rfl, fun r => by cases r <;> decide⟩,
    ⟨facing loaded (.read 0x0010008 4) false, [], 1, faces_facing loaded_live _ _, rfl, by decide, rfl,
      by decide +kernel⟩,
    ⟨facing State.reset (.read 0x0040000 4) false, [], faces_facing reset_live _ _, rfl, by decide, rfl, rfl⟩⟩

/-- An element word, and the last word of each kind of bit memory. -/
theorem witness_MemoryWordReadsBack :
    ∀ x ∈ [(Region.g, 2), (Region.evec, 0), (Region.syn, 0), (Region.mat, 7)],
      ∃ s w ov rest, State.faces s ⟨.write (x.1.base + 4 * x.2) 4 w, ov⟩ rest ∧ s.eng = .idle ∧
        x.2 < x.1.words s.params := by
  intro x hx
  refine ⟨facing loaded (.write (x.1.base + 4 * x.2) 4 0xFFFFFFFF) false, 0xFFFFFFFF, false, [],
    faces_facing loaded_live _ _, rfl, ?_⟩
  have : ∀ x ∈ [(Region.g, 2), (Region.evec, 0), (Region.syn, 0), (Region.mat, 7)], x.2 < x.1.words Params.toy := by decide
  exact this x hx

/-- Each clause: OPA, OPB, CTRL without SRST, a read-only register and the last reserved offset; CTRL under a command in
flight, and while a sampler waits. -/
theorem witness_IdleRegisterWrites :
    (∀ a ∈ [0x050, 0x054, 0x040, 0x07C, 0x058, 0xFFC], ∃ s w ov rest,
      State.faces s ⟨.write a 4 w, ov⟩ rest ∧ s.takesInput ov ∧ s.eng = .idle ∧ w.getLsbD 0 = false) ∧
    (∀ a ∈ [0x07C, 0x058, 0xFFC], a % 4 = 0 ∧ a < 0x1000 ∧ a ≠ 0x040 ∧ a ≠ 0x044 ∧ a ≠ 0x048 ∧ a ≠ 0x050 ∧ a ≠ 0x054) ∧
    ∀ ov, ∃ s w i rest, State.faces s ⟨.write 0x040 4 w, ov⟩ rest ∧ s.takesInput ov ∧ s.eng = .busy i ∧
      w.getLsbD 0 = false :=
  ⟨fun a _ => ⟨facing loaded (.write a 4 2) false, 2, false, [], faces_facing loaded_live _ _, .inl rfl, rfl, by decide⟩,
    by decide, fun ov => match ov with
      | false => ⟨_, 2, _, [], (facing_waiting _).1, (facing_waiting _).2.2.2, rfl, by decide⟩
      | true => ⟨facing (inFlight .decode loaded) (.write 0x040 4 2) true, 2, .decode, [],
          faces_facing (inFlight_live loaded_live _) _ _, .inr (.inl rfl), rfl, by decide⟩⟩

/-- Idle, under a command in flight, and while a sampler waits. -/
theorem witness_StatusWriteOneToClear :
    (∃ s w rest, State.faces s ⟨.write 0x048 4 w, false⟩ rest ∧ s.takesInput false ∧ s.eng = .idle) ∧
    (∃ s w rest, State.faces s ⟨.write 0x048 4 w, true⟩ rest ∧ s.takesInput true ∧ s.eng = .busy .decode) ∧
    ∃ s w rest, State.faces s ⟨.write 0x048 4 w, false⟩ rest ∧ s.takesInput false ∧ s.eng = .busy .supportGen :=
  ⟨⟨facing loaded (.write 0x048 4 0x12) false, 0x12, [], faces_facing loaded_live _ _, .inl rfl, rfl⟩,
    ⟨facing (inFlight .decode loaded) (.write 0x048 4 0x12) true, 0x12, [], faces_facing (inFlight_live loaded_live _) _ _,
      .inr (.inl rfl), rfl⟩,
    ⟨_, 0x12, [], (facing_waiting _).1, (facing_waiting _).2.2.2, rfl⟩⟩

/-- CMD, a reserved offset, and a memory word; a write that overlaps, and one while a sampler waits. -/
theorem witness_BusyWriteIsDropped :
    (∀ a ∈ [0x044, 0xFFC, 0x0010008], ∃ s w rest,
      State.faces s ⟨.write a 4 w, true⟩ rest ∧ s.eng = .busy .decode ∧ a ≠ 0x040 ∧ a ≠ 0x048 ∧ a % 4 = 0) ∧
    (∀ a ∈ [0x044, 0xFFC, 0x0010008], ∃ s w rest,
      State.faces s ⟨.write a 4 w, false⟩ rest ∧ s.eng = .busy .supportGen ∧ s.starves .supportGen) ∧
    0x0010008 = Region.base .g + 4 * 2 ∧ 2 < Region.words Params.toy .g :=
  ⟨fun a ha => ⟨facing (inFlight .decode loaded) (.write a 4 1) true, 1, [], faces_facing (inFlight_live loaded_live _) _ _,
    rfl, (by decide : ∀ a ∈ [0x044, 0xFFC, 0x0010008], a ≠ 0x040 ∧ a ≠ 0x048 ∧ a % 4 = 0) a ha⟩,
    fun a _ => ⟨_, 1, [], (facing_waiting _).1, rfl, waiting_starves⟩, rfl, by decide⟩

/-- Each clause, at its boundary: STATUS, a reserved offset, OPA and RCNT_HI, and a memory word; a read that overlaps, and one
while a sampler waits. -/
theorem witness_BusyReadsAreExactOrDraws :
    (∀ a ∈ [0x048, 0x04C, 0x050, 0x078, 0x100001C], ∃ s rest,
      State.faces s ⟨.read a 4, true⟩ rest ∧ s.eng = .busy .decode) ∧
    (∀ a ∈ [0x048, 0x04C, 0x050, 0x078, 0x100001C], ∃ s rest,
      State.faces s ⟨.read a 4, false⟩ rest ∧ s.eng = .busy .supportGen ∧ s.starves .supportGen) ∧
    Reg.offset .status = 0x048 ∧ (∀ r : Reg, 0x04C ≠ r.offset) ∧ Reg.offset .opa = 0x050 ∧ Reg.offset .rcntHi = 0x078 ∧
    0x100001C = Region.base .mat + 4 * 7 ∧ 7 < Region.words Params.toy .mat :=
  ⟨fun a _ => ⟨facing (inFlight .decode loaded) (.read a 4) true, [], faces_facing (inFlight_live loaded_live _) _ _, rfl⟩,
    fun a _ => ⟨_, [], (facing_waiting _).1, rfl, waiting_starves⟩, rfl, fun r => by cases r <;> decide, rfl, rfl, rfl, by decide⟩

theorem witness_IrqFollowsDone : ∃ i s t, exec i s = .next t ∧ s.eng = .busy i ∧ t.eng = .idle :=
  ⟨.gfInv, inFlight .gfInv loaded, _, rfl, rfl, rfl⟩

theorem witness_SoftResetWhileIdle : ∃ s w ov rest,
    State.faces s ⟨.write 0x040 4 w, ov⟩ rest ∧ s.eng = .idle ∧ w.getLsbD 0 = true :=
  ⟨facing loaded (.write 0x040 4 3) false, 3, false, [], faces_facing loaded_live _ _, rfl, by decide⟩

/-- A sampler in flight with bytes offered, DECODE, and a sampler that waits. -/
theorem witness_SoftResetAbortsCommand :
    (∀ i ∈ [Instr.fwSample, .decode], ∃ s w rest,
      State.faces s ⟨.write 0x040 4 w, true⟩ rest ∧ s.eng = .busy i ∧ w.getLsbD 0 = true) ∧
    ∃ s w rest, State.faces s ⟨.write 0x040 4 w, false⟩ rest ∧ s.eng = .busy .supportGen ∧ s.starves .supportGen ∧
      w.getLsbD 0 = true :=
  ⟨fun i _ => ⟨facing (inFlight i supplied) (.write 0x040 4 1) true, 1, [],
    faces_facing (inFlight_live supplied_live _) _ _, rfl, by decide⟩,
    ⟨_, 1, [], (facing_waiting _).1, rfl, waiting_starves, by decide⟩⟩

theorem witness_PowerOnResetClearsAll :
    (∃ s rest, State.faces s ⟨.powerOn, false⟩ rest ∧ s.takesInput false ∧ s.eng = .idle) ∧
    (∃ s rest, State.faces s ⟨.powerOn, true⟩ rest ∧ s.takesInput true ∧ s.eng = .busy .fwSample) ∧
    ∃ s rest, State.faces s ⟨.powerOn, false⟩ rest ∧ s.takesInput false ∧ s.eng = .busy .supportGen :=
  ⟨⟨facing loaded .powerOn false, [], faces_facing loaded_live _ _, .inl rfl, rfl⟩,
    ⟨facing (inFlight .fwSample supplied) .powerOn true, [],
      faces_facing (inFlight_live supplied_live _) _ _, .inr (.inl rfl), rfl⟩,
    ⟨_, [], (facing_waiting _).1, (facing_waiting _).2.2.2, rfl⟩⟩

/-- Also for GinvIsThePowerAndInverts. -/
theorem witness_FieldLaws : ∃ (p : Params) (a b c : Word), p.legal = true ∧ Reduced p a ∧ Reduced p b ∧ Reduced p c ∧
    a ≠ 0#32 :=
  ⟨Params.toy, 9, 14, 15, test_legal_toy, by decide, by decide, by decide, by decide⟩

theorem witness_GmulIsTheReducedProduct : ∃ (p : Params) (a b : Word), p.legal = true ∧ Reduced p a ∧ Reduced p b :=
  ⟨Params.toy, 9, 14, test_legal_toy, by decide, by decide⟩

theorem witness_GinvIsThePowerAndInverts : ∃ (p : Params) (a : Word), p.legal = true ∧ Reduced p a ∧ a ≠ 0#32 :=
  ⟨Params.toy, 9, test_legal_toy, by decide, by decide⟩

theorem witness_PolyMulProduct : ∃ s a b, (State.params s).legal = true ∧ s.load .pa = some a ∧ s.load .pb = some b :=
  ⟨loaded, [3, 0, 1], [5, 7, 1], test_legal_toy, by decide +kernel, by decide +kernel⟩

/-- The quotient and the remainder of L2.4, row 2, by hand: [F,9,6,7,1] = [D,5,1] * [1,2,1] + [2,5]. -/
theorem quotient_row2 (k : Nat) : prodCoeff Params.toy [3, 0, 1] [5, 7, 1] k =
    prodCoeff Params.toy [13, 5, 1] keyG k ^^^ coeff [2, 5] k := by
  match k with
  | 0 | 1 | 2 | 3 | 4 | 5 => decide +kernel
  | k + 6 =>
    rw [prodCoeff_of_le _ (by simp), prodCoeff_of_le _ (by simp [keyG]),
      coeff_of_le (by simp only [List.length_cons, List.length_nil]; omega)]
    rfl

/-- Its hypotheses, and those of its last clause (the quotient and the remainder above). -/
theorem witness_PolyMulmodRemainder :
    (∃ s a b g, (State.params s).legal = true ∧ s.load .pa = some a ∧ s.load .pb = some b ∧ s.load .g = some g ∧
      coeff g s.params.t = 1#32 ∧ (∀ x ∈ a, Reduced s.params x) ∧ (∀ x ∈ b, Reduced s.params x) ∧
      ∀ x ∈ g, Reduced s.params x) ∧
    ∃ a b q r : List Word, (∀ x ∈ q, Reduced Params.toy x) ∧ (∀ x ∈ r, Reduced Params.toy x) ∧ r.length ≤ Params.toy.t ∧
      ∀ k, prodCoeff Params.toy a b k = prodCoeff Params.toy q keyG k ^^^ coeff r k := by
  exact ⟨⟨loaded, [3, 0, 1], [5, 7, 1], keyG, test_legal_toy, by decide +kernel, by decide +kernel, by decide +kernel,
    by decide +kernel, reduced_of_all (by decide +kernel), reduced_of_all (by decide +kernel),
    reduced_of_all (by decide +kernel)⟩, [3, 0, 1], [5, 7, 1], [13, 5, 1], [2, 5], reduced_of_all (by decide +kernel),
    reduced_of_all (by decide +kernel), by decide, quotient_row2⟩

/-- Both commands. -/
theorem witness_NonMonicGoppaIsOperandError : ∃ s g,
    (State.load s .pa).isSome ∧ (s.load .pb).isSome ∧ s.load .g = some g ∧ coeff g s.params.t ≠ 1#32 :=
  ⟨loaded.store .g [1, 2, 5], [1, 2, 5], by decide +kernel, by decide +kernel, by decide +kernel, by decide⟩

/-- Also for IrredTestReports. -/
theorem witness_IrreducibleMeansNoFactors : ∃ p c, Params.legal p = true ∧ MonicT p c :=
  ⟨Params.toy, keyG, test_legal_toy, keyG_monic⟩

theorem witness_IrredTestReports : ∃ s g, (State.params s).legal = true ∧ s.load .g = some g ∧ MonicT s.params g :=
  ⟨loaded, keyG, test_legal_toy, by decide +kernel, keyG_monic⟩

theorem witness_IrreducibleHasNoRoot : ∃ p c a, Params.legal p = true ∧ MonicT p c ∧ irreducible p c = true ∧ Reduced p a :=
  ⟨Params.toy, keyG, 15, test_legal_toy, keyG_monic, by decide +kernel, by decide⟩

theorem witness_GoppaSampleGivesRootFreeG : ∃ s t, (State.params s).legal = true ∧ s.eng = .busy .goppaSample ∧
    exec .goppaSample s = .next t ∧ t.eng = .idle ∧ t.status.ok = true := by
  obtain ⟨t, ht, h⟩ := exists_next_of_after (by decide +kernel :
    after (exec .goppaSample (inFlight .goppaSample
      (offering Params.toy [0x01, 0x00, 0x00, 0x00, 0x31, 0xA5, 0x42, 0x00])))
      (fun t => t.eng == .idle && t.status.ok) = true)
  simp only [Bool.and_eq_true, beq_iff_eq] at h
  exact ⟨_, t, test_legal_toy, rfl, ht, h⟩

/-- L2.6, rows 1 and 2: the bytes of two attempts, and of all four; a candidate that is irreducible, and one that is not. -/
theorem witness_GoppaSampleFirstIrreducible :
    (∃ s, (State.params s).legal = true ∧ ¬s.starves .goppaSample ∧
      s.port.offered.length < 2 * s.params.t * s.params.goppaMaxTries) ∧
    (∃ s, (State.params s).legal = true ∧ ¬s.starves .goppaSample ∧
      s.port.offered.length = 2 * s.params.t * s.params.goppaMaxTries) ∧
    irreducible Params.toy [1, 2, 1] = true ∧ irreducible Params.toy [1, 0, 1] = false :=
  ⟨⟨twoGoppaAttempts, test_legal_toy, twoGoppaAttempts_feeds, by decide⟩,
    ⟨offering Params.toy [0x00, 0x00, 0x00, 0x00, 0x01, 0x00, 0x00, 0x00, 0x00, 0x00, 0x01, 0x00, 0x01, 0x00, 0x01, 0x00],
      test_legal_toy, by unfold State.starves starvesAfter; decide +kernel, by decide⟩,
    by decide +kernel, by decide +kernel⟩

theorem witness_SupportGenFirstDistinctDraws : ∃ s,
    (State.params s).legal = true ∧ 2 * s.params.supportDraws ≤ s.port.offered.length :=
  ⟨supplied, test_legal_toy, by decide +kernel⟩

/-- L2.9, rows 1 and 4: the bytes of two attempts, with N < 2^M and with N = 2^M. -/
theorem witness_FwSampleWeightT :
    (∃ s, (State.params s).legal = true ∧ s.params.nEqQ = false ∧ ¬s.starves .fwSample ∧
      s.port.offered.length < 2 * s.params.tau * s.params.fwMaxTries) ∧
    ∃ s, (State.params s).legal = true ∧ s.params.nEqQ = true ∧ ¬s.starves .fwSample ∧
      s.port.offered.length < 2 * s.params.tau * s.params.fwMaxTries :=
  ⟨⟨twoFwAttempts, test_legal_toy, by decide, twoFwAttempts_feeds, by decide⟩,
    ⟨twoFwAttemptsQ, test_legal_toyQ, by decide, twoFwAttemptsQ_feeds, by decide⟩⟩

/-- G with a root in L: the clause about a root's column too. -/
theorem witness_BuildHEntries : ∃ s g l, (State.params s).legal = true ∧ s.load .g = some g ∧ s.load .l = some l ∧
    (∀ x ∈ g, Reduced s.params x) ∧ (∀ x ∈ l, Reduced s.params x) ∧ peval s.params g (coeff l 1) = 0#32 ∧
    peval s.params g (coeff l 0) ≠ 0#32 :=
  ⟨holding Params.toy [(.g, [0, 0, 1]), (.l, keyL)], [0, 0, 1], keyL, test_legal_toy, by decide +kernel, by decide +kernel,
    reduced_of_all (by decide +kernel), reduced_of_all (by decide +kernel), by decide +kernel, by decide +kernel⟩

/-- The key's systematic matrix has the identity for its left block, which no nonempty set of rows sums to 0. -/
theorem keyMat_not_leftSingular : ¬(holding Params.toy [(.mat, keyMat)]).leftSingular := by
  rintro ⟨pick, ⟨r, hr, hp⟩, h⟩
  have hm : ∀ r, r < 8 → ∀ c, c < 8 → (holding Params.toy [(.mat, keyMat)]).matAt r c = decide (r = c) := by
    decide +kernel
  have hr : r < 8 := hr
  have hc := h r hr
  rw [show (holding Params.toy [(.mat, keyMat)]).params.r = 8 from rfl] at hc
  simp only [parity, List.range_succ, List.range_zero, List.nil_append, List.foldl_append, List.foldl_cons,
    List.foldl_nil, hm _ (by decide : 0 < 8) r hr, hm _ (by decide : 1 < 8) r hr, hm _ (by decide : 2 < 8) r hr,
    hm _ (by decide : 3 < 8) r hr, hm _ (by decide : 4 < 8) r hr, hm _ (by decide : 5 < 8) r hr,
    hm _ (by decide : 6 < 8) r hr, hm _ (by decide : 7 < 8) r hr] at hc
  interval_cases r <;> simp [hp] at hc

/-- A matrix with an invertible left block, and the singular one of L2.8: rows 2, 3, 5 and 7 of it sum to 0 on columns
0..7. -/
theorem witness_SystematizePlain :
    (∃ s, (State.params s).legal = true ∧ s.params.variantF = false ∧ s.ElementsReduced ∧ s.written .mat ∧
      ¬s.leftSingular) ∧
    ∃ s, (State.params s).legal = true ∧ s.params.variantF = false ∧ s.ElementsReduced ∧ s.written .mat ∧
      s.leftSingular :=
  ⟨⟨holding Params.toy [(.mat, keyMat)], test_legal_toy, rfl, elementsReduced_of_check (by decide +kernel),
      (by decide +kernel : ∀ i, i < 8 →
        (Memory.readWord (holding Params.toy [(.mat, keyMat)]).mem (Region.mat.addr i)).isSome),
      keyMat_not_leftSingular⟩,
    ⟨State.reset.store .mat singularMat, test_legal_toy, rfl, elementsReduced_of_check (by decide +kernel),
      (by decide +kernel : ∀ i, i < 8 →
        (Memory.readWord (State.reset.store .mat singularMat).mem (Region.mat.addr i)).isSome),
      fun r => r ∈ [2, 3, 5, 7], ⟨2, by decide, by decide⟩,
      (by decide +kernel : ∀ c, c < 8 →
        (parity 8 fun r => decide (r ∈ [2, 3, 5, 7]) && (State.reset.store .mat singularMat).matAt r c) = false)⟩⟩

/-- A state that meets the hypotheses, on which SYSTEMATIZE completes with OK = 1, and one on which it does not. -/
theorem witness_SystematizeSemi :
    ∀ m ∈ [singularMat, List.replicate 8 0], ∃ s l, (State.params s).legal = true ∧ s.params.variantF = true ∧
      s.ElementsReduced ∧ s.written .mat ∧ s.load .l = some l := by
  intro m hm
  have hw : ∀ m ∈ [singularMat, List.replicate 8 0], ∀ i, i < Region.words Params.toyF .mat →
      (Memory.readWord (holding Params.toyF [(.l, otherL), (.mat, m)]).mem (Region.mat.addr i)).isSome := by decide +kernel
  have hr : ∀ m ∈ [singularMat, List.replicate 8 0], reducedCheck (holding Params.toyF [(.l, otherL), (.mat, m)]) = true := by decide +kernel
  have hl : ∀ m ∈ [singularMat, List.replicate 8 0], (holding Params.toyF [(.l, otherL), (.mat, m)]).load .l = some otherL := by decide +kernel
  exact ⟨holding Params.toyF [(.l, otherL), (.mat, m)], otherL, test_legal_toyF, rfl, elementsReduced_of_check (hr m hm),
    fun i hi => hw m hm i hi, hl m hm⟩

theorem witness_EncodeProduct : ∃ s, (State.params s).legal = true ∧ s.written .evec ∧
    ∀ r k, r < s.params.r → s.params.r / 32 ≤ k → k < s.params.rowWords →
      (Memory.readWord s.mem (Region.base .mat + 4 * (r * s.params.rowWords + k))).isSome := by
  have h : ∀ r, r < 8 → ∀ k, k < 1 → (Memory.readWord loaded.mem (Region.base .mat + 4 * (r * 1 + k))).isSome := by
    decide +kernel
  exact ⟨loaded, test_legal_toy,
    (by decide +kernel : ∀ i, i < 1 → (Memory.readWord loaded.mem (Region.evec.addr i)).isSome),
    fun r k hr _ hk => h r hr k hk⟩

/-- A TOY state with this EVEC and the key's matrix. -/
def encodes (e : Word) : State := holding Params.toy [(.evec, [e]), (.mat, keyMat)]

/-- EVECs 0x202, 0x212 and their XOR 0x010, over the key's matrix. -/
theorem witness_EncodeLinear : ∃ s1 s2 s3 : State, s1.params.legal = true ∧ s2.params = s1.params ∧
    s3.params = s1.params ∧ s1.inputsWritten .encode = true ∧ s2.inputsWritten .encode = true ∧
    s3.inputsWritten .encode = true ∧ s1 ≠ s2 ∧
    (∀ r c, r < s1.params.r → s1.params.r ≤ c → c < s1.params.n →
      s2.matAt r c = s1.matAt r c ∧ s3.matAt r c = s1.matAt r c) ∧
    ∀ j, j < s1.params.n → s3.bitAt .evec j = (s1.bitAt .evec j ^^ s2.bitAt .evec j) := by
  have h : ∀ r, r < 8 → ∀ c, c < 12 → (encodes 0x212).matAt r c = (encodes 0x202).matAt r c ∧
      (encodes 0x010).matAt r c = (encodes 0x202).matAt r c := by decide +kernel
  exact ⟨encodes 0x202, encodes 0x212, encodes 0x010, test_legal_toy, rfl, rfl, by decide +kernel, by decide +kernel,
    by decide +kernel, by decide +kernel, fun r c hr _ hc => h r hr c hc,
    (by decide +kernel : ∀ j, j < 12 →
      (encodes 0x010).bitAt .evec j = ((encodes 0x202).bitAt .evec j ^^ (encodes 0x212).bitAt .evec j))⟩

theorem loaded_syn_written : loaded.written .syn :=
  (by decide +kernel : ∀ i, i < 1 → (Memory.readWord loaded.mem (Region.syn.addr i)).isSome)

theorem witness_DecSyndromeFormula : ∃ s g l, (State.params s).legal = true ∧ s.ElementsReduced ∧ s.written .syn ∧
    s.load .g = some g ∧ s.load .l = some l :=
  ⟨loaded, keyG, keyL, test_legal_toy, loaded_reduced, loaded_syn_written, by decide +kernel, by decide +kernel⟩

theorem witness_BmSolveMonicLocator : ∃ s syn, (State.params s).legal = true ∧ s.load .s = some syn :=
  ⟨loaded, [4, 4, 14, 6], test_legal_toy, by decide +kernel⟩

theorem witness_BmSolveGeneratesSyndromes : ∃ s t syn, (State.params s).legal = true ∧ s.load .s = some syn ∧
    (∀ x ∈ syn, Reduced s.params x) ∧ exec .bmSolve s = .next t ∧ t.bmL.toNat ≤ s.params.t := by
  obtain ⟨t, ht, hl⟩ := exists_next_of_after test_bmSolve.1
  refine ⟨_, t, [4, 4, 14, 6], test_legal_toy, by decide +kernel, reduced_of_all (by decide +kernel), ht, ?_⟩
  simp only [Bool.and_eq_true, beq_iff_eq] at hl
  rw [hl.1.2]; decide +kernel

theorem witness_RootFindScansSupport : ∃ s sig l g syn, (State.params s).legal = true ∧ s.load .sig = some sig ∧
    s.load .l = some l ∧ s.load .g = some g ∧ s.load .s = some syn :=
  ⟨loaded, [0, 10, 1], keyL, keyG, [4, 4, 14, 6], test_legal_toy, by decide +kernel, by decide +kernel,
    by decide +kernel, by decide +kernel⟩

theorem witness_DecodeIsTheThreeStages : ∃ s, (State.params s).legal = true ∧ s.written .syn ∧ s.written .g ∧
    s.written .l :=
  ⟨loaded, test_legal_toy, loaded_syn_written,
    (by decide +kernel : ∀ i, i < 3 → (Memory.readWord loaded.mem (Region.g.addr i)).isSome),
    (by decide +kernel : ∀ i, i < 12 → (Memory.readWord loaded.mem (Region.l.addr i)).isSome)⟩

/-- FW_SAMPLE, ROOT_FIND, and DECODE. -/
theorem witness_CompletedErrorVectorHasWeightT :
    (∃ s t, (State.params s).legal = true ∧ s.eng = .busy .fwSample ∧ exec .fwSample s = .next t ∧ t.eng = .idle ∧
      t.status.ok = true) ∧
    (∃ s t, (State.params s).legal = true ∧ s.eng = .busy .rootFind ∧ exec .rootFind s = .next t ∧ t.eng = .idle ∧
      t.status.ok = true) ∧
    ∃ s t, (State.params s).legal = true ∧ s.eng = .busy .decode ∧ exec .decode s = .next t ∧ t.eng = .idle ∧
      t.status.ok = true := by
  obtain ⟨t, ht, h⟩ := exists_next_of_after (by decide +kernel :
    after (exec .fwSample (inFlight .fwSample (offering Params.toy (draws [13, 5, 5, 2, 14, 9, 15, 1]))))
      (fun t => t.eng == .idle && t.status.ok) = true)
  obtain ⟨u, hu, h'⟩ := exists_next_of_after (by decide +kernel :
    after (exec .rootFind (inFlight .rootFind
      (holding Params.toy [(.g, keyG), (.sig, [0, 10, 1]), (.s, [4, 4, 14, 6]), (.l, keyL)])))
      (fun t => t.eng == .idle && t.status.ok) = true)
  obtain ⟨v, hv, h''⟩ := exists_next_of_after (by decide +kernel :
    after (exec .decode (inFlight .decode (holding Params.toy [(.g, keyG), (.l, keyL), (.syn, [0x2F])])))
      (fun t => t.eng == .idle && t.status.ok) = true)
  simp only [Bool.and_eq_true, beq_iff_eq] at h h' h''
  exact ⟨⟨_, t, test_legal_toy, rfl, ht, h⟩, ⟨_, u, test_legal_toy, rfl, hu, h'⟩, ⟨_, v, test_legal_toy, rfl, hv, h''⟩⟩

/-- The TOY key of 95_test_vectors.md, and EVEC with bits 1 and 9. -/
theorem witness_EncodeThenDecodeRestores : ∃ s0 s1 s2 s3 g l, (State.params s0).legal = true ∧ s0.ElementsReduced ∧
    s0.load .g = some g ∧ s0.load .l = some l ∧ MonicT s0.params g ∧ irreducible s0.params g = true ∧ l.Nodup ∧
    exec .buildH s0 = .next s1 ∧ exec .systematize s1 = .next s2 ∧ s2.status.ok = true ∧
    State.params s3 = s2.params ∧ s3.load .g = s2.load .g ∧ s3.load .l = s2.load .l ∧ s3.load .mat = s2.load .mat ∧
    s3.written .evec ∧ weightOf s3.params.n (s3.bitAt .evec) = s3.params.t := by
  obtain ⟨s1, h1, h⟩ := exists_next_of_after (by decide +kernel :
    after (exec .buildH (holding Params.toy [(.g, keyG), (.l, keyL)])) (fun s1 =>
      after (exec .systematize s1) (fun s2 => s2.status.ok && s2.params == Params.toy &&
        ((s2.store .evec [0x202]).load .evec).isSome &&
        weightOf 12 ((s2.store .evec [0x202]).bitAt .evec) == 2)) = true)
  obtain ⟨s2, h2, h⟩ := exists_next_of_after h
  simp only [Bool.and_eq_true, beq_iff_eq] at h
  obtain ⟨⟨⟨hok, hp⟩, hw⟩, hc⟩ := h
  have hl : s2.params.legal = true := by rw [hp]; exact test_legal_toy
  have hlen : ([0x202] : List Word).length ≤ Region.words s2.params .evec := by rw [hp]; decide
  refine ⟨_, s1, s2, s2.store .evec [0x202], keyG, keyL, test_legal_toy, elementsReduced_of_check (by decide +kernel),
    by decide +kernel, by decide +kernel, keyG_monic, by decide +kernel, by decide +kernel, h1, h2, hok, rfl,
    load_store_other hl (by decide) hlen, load_store_other hl (by decide) hlen,
    load_store_other hl (by decide) hlen, load_isSome_iff.1 hw, ?_⟩
  rw [State.store_params, hp]; exact hc

end Sys2Proof.Tests
end

section
/-! The width of what the commands compute: elements of M bits, lists of them with a known length, and rows of N bits
(rules R8, R12, R13). -/

namespace Sys2Proof.Machine

variable {p : Params}

/-! ## Masks -/

theorem toNat_and_lowMask (w : Word) (n : Nat) : (w &&& lowMask n).toNat = w.toNat % 2 ^ min n 32 := by
  have hm : (lowMask n).toNat = 2 ^ min n 32 - 1 := by
    have := Nat.pow_le_pow_right (n := 2) (by omega) (Nat.min_le_right n 32)
    rw [lowMask, BitVec.toNat_ofNat, Nat.mod_eq_of_lt (by omega)]
  rw [BitVec.toNat_and, hm, Nat.and_two_pow_sub_one_eq_mod]

theorem toNat_and_lowMask_lt (w : Word) (n : Nat) : (w &&& lowMask n).toNat < 2 ^ n := by
  rw [toNat_and_lowMask]
  exact lt_of_lt_of_le (Nat.mod_lt _ (by positivity)) (Nat.pow_le_pow_right (by omega) (Nat.min_le_left n 32))

/-- A word is unchanged by the mask of its low `n` bits exactly where it is a value of `n` bits. -/
theorem and_lowMask_eq_self_iff {w : Word} {n : Nat} : w &&& lowMask n = w ↔ w.toNat < 2 ^ n := by
  refine ⟨fun h => h ▸ toNat_and_lowMask_lt w n, fun h => BitVec.eq_of_toNat_eq ?_⟩
  rw [toNat_and_lowMask, Nat.mod_eq_of_lt]
  rcases Nat.le_total n 32 with hn | hn
  · rwa [Nat.min_eq_left hn]
  · rw [Nat.min_eq_right hn]; exact w.isLt

/-! ## Elements -/

theorem reduced_zero (p : Params) : Reduced p 0#32 := by simp [Reduced]

theorem reduced_one (h : p.legal = true) : Reduced p 1#32 := by
  obtain ⟨hm, -⟩ := legal_bounds h
  exact Nat.one_lt_two_pow (by omega)

theorem reduced_gadd {a b : Word} (ha : Reduced p a) (hb : Reduced p b) : Reduced p (gadd a b) := by
  rw [gadd, Reduced, BitVec.toNat_xor]
  exact Nat.xor_lt_two_pow ha hb

theorem reduced_gmul (p : Params) (a b : Word) : Reduced p (gmul p a b) := toNat_and_lowMask_lt _ _

theorem reduced_squareChain {acc : Word} (h : Reduced p acc) (sq : Word) (n : Nat) :
    Reduced p (squareChain p sq acc n) := by
  induction n generalizing sq acc with
  | zero => exact h
  | succ n ih => exact ih (reduced_gmul p _ _) _

theorem reduced_ginv (h : p.legal = true) (a : Word) : Reduced p (ginv p a) :=
  reduced_squareChain (reduced_one h) _ _

/-! ## Lists of elements -/

/-- `k` elements of M bits. -/
def ElementList (p : Params) (k : Nat) (l : List Word) : Prop := l.length = k ∧ ∀ x ∈ l, Reduced p x

theorem elementList_replicate (p : Params) (k : Nat) : ElementList p k (List.replicate k 0#32) :=
  ⟨by simp, fun x hx => by rw [List.eq_of_mem_replicate hx]; exact reduced_zero p⟩

theorem ElementList.append {j k : Nat} {l l' : List Word} (h : ElementList p j l) (h' : ElementList p k l') :
    ElementList p (j + k) (l ++ l') :=
  ⟨by rw [List.length_append, h.1, h'.1], fun x hx => (List.mem_append.1 hx).elim (h.2 x) (h'.2 x)⟩

theorem ElementList.set {k : Nat} {l : List Word} (h : ElementList p k l) {x : Word} (hx : Reduced p x) (i : Nat) :
    ElementList p k (l.set i x) :=
  ⟨by rw [List.length_set, h.1], fun y hy => (List.mem_or_eq_of_mem_set hy).elim (h.2 y) fun e => e ▸ hx⟩

theorem ElementList.take {k : Nat} {l : List Word} (h : ElementList p k l) {j : Nat} (hj : j ≤ k) :
    ElementList p j (l.take j) :=
  ⟨by rw [List.length_take, h.1, Nat.min_eq_left hj], fun x hx => h.2 x (List.mem_of_mem_take hx)⟩

theorem ElementList.reverse {k : Nat} {l : List Word} (h : ElementList p k l) : ElementList p k l.reverse :=
  ⟨by rw [List.length_reverse, h.1], fun x hx => h.2 x (List.mem_reverse.1 hx)⟩

theorem ElementList.coeff {k : Nat} {l : List Word} (h : ElementList p k l) (i : Nat) : Reduced p (coeff l i) := by
  rw [Machine.coeff, List.getD_eq_getElem?_getD]
  rcases Nat.lt_or_ge i l.length with hi | hi
  · rw [List.getElem?_eq_getElem hi]; exact h.2 _ (List.getElem_mem hi)
  · rw [List.getElem?_eq_none hi]; exact reduced_zero p

/-- Adding a product to every element keeps the width; the length is that of the shorter list. -/
theorem ElementList.zipWith_gadd {k : Nat} {l l' : List Word} (h : ElementList p k l) (hl : l'.length = k)
    (f : Word → Word) (hf : ∀ w, Reduced p (f w)) :
    ElementList p k (List.zipWith (fun x w => gadd x (f w)) l l') := by
  refine ⟨by rw [List.length_zipWith, h.1, hl, Nat.min_self], fun x hx => ?_⟩
  obtain ⟨i, hi, rfl⟩ := List.getElem_of_mem hx
  rw [List.getElem_zipWith]
  exact reduced_gadd (h.2 _ (List.getElem_mem _)) (hf _)

@[simp] theorem length_geometric (p : Params) (w a : Word) (n : Nat) : (geometric p w a n).length = n := by
  induction n generalizing w with
  | zero => rfl
  | succ n ih => rw [geometric, List.length_cons, ih]

theorem reduced_convAt (p : Params) (t : Nat) (a b : List Word) (k : Nat) : Reduced p (convAt p t a b k) :=
  List.foldlRecOn (motive := Reduced p) _ _ (reduced_zero p) fun _ h _ _ => reduced_gadd h (reduced_gmul p _ _)

theorem elementList_polyMul (p : Params) (a b : List Word) : ElementList p (2 * p.t + 1) (polyMul p a b) := by
  refine ⟨by simp [polyMul], fun x hx => ?_⟩
  obtain ⟨k, -, rfl⟩ := List.mem_map.1 hx
  exact reduced_convAt p _ _ _ k

theorem ElementList.pmodRound {n : Nat} {c : List Word} (h : ElementList p n c) (g : List Word) (t k : Nat) :
    ElementList p n (pmodRound p g t k c) :=
  List.foldlRecOn (motive := ElementList p n) _ _ h fun _ hc _ _ =>
    hc.set (reduced_gadd (hc.coeff _) (reduced_gmul p _ _)) _

theorem elementList_mulmod (p : Params) (a b g : List Word) : ElementList p (2 * p.t + 1) (mulmod p a b g) := by
  have hp : ElementList p p.t (pmod p (polyMul p a b) g p.t) :=
    (List.foldrRecOn (motive := ElementList p (2 * p.t + 1)) _ _ (elementList_polyMul p a b)
      fun _ hc _ _ => hc.pmodRound g p.t _).take (by omega)
  have h := hp.append (elementList_replicate p (p.t + 1))
  rwa [show p.t + (p.t + 1) = 2 * p.t + 1 by omega] at h

theorem elementList_doubledSyndrome (p : Params) (g l : List Word) (v : Bits) :
    ElementList p (2 * p.t) (doubledSyndrome p g l v) :=
  List.foldlRecOn (motive := ElementList p (2 * p.t)) _ _ (elementList_replicate p _) fun _ h _ _ =>
    h.zipWith_gadd (length_geometric p _ _ _) (fun w => gmul p w _) fun _ => reduced_gmul p _ _

/-- The polynomials of the Berlekamp-Massey recurrence keep T+1 coefficients, those of C of M bits (rule R283). -/
theorem elementList_bmRun (h : p.legal = true) (syn : List Word) :
    ElementList p (p.t + 1) (bmRun p syn).c ∧ (bmRun p syn).b.length = p.t + 1 := by
  obtain ⟨-, -, ht, -⟩ := legal_bounds h
  refine List.foldlRecOn (motive := fun x : Bm => ElementList p (p.t + 1) x.c ∧ x.b.length = p.t + 1) _ _ ?_ ?_
  · refine ⟨?_, by simp [bmInit]; omega⟩
    have h1 : ElementList p 1 [1#32] := ⟨rfl, by simpa using reduced_one h⟩
    simpa [bmInit, Nat.add_comm] using h1.append (elementList_replicate p p.t)
  · rintro x ⟨hc, hb⟩ n -
    simp only [bmStep]
    constructor
    · split
      · exact hc.zipWith_gadd hb (gmul p _) (reduced_gmul p _)
      · exact hc
    · have hl : ∀ l : List Word, l.length = p.t + 1 → (0#32 :: l.take p.t).length = p.t + 1 := by
        intro l hl; simp [hl]
      split
      · exact hl _ hc.1
      · exact hl _ hb

theorem elementList_locator (h : p.legal = true) (syn : List Word) :
    ElementList p (p.t + 1) (locator (bmRun p syn)) := (elementList_bmRun h syn).1.reverse

/-- `n` draws are `n` elements (rule R96). -/
theorem elementList_draw {q q' : RandomPort} {n : Nat} {xs : List Word} (h : q.draw p n = some (xs, q')) :
    ElementList p n xs := by
  obtain ⟨hl, -, hf⟩ := draw_spec h
  exact ⟨hl, fun x hx => and_lowMask_eq_self_iff.1 (hf x hx)⟩

/-- The candidates SUPPORT_GEN accepts are draws. -/
theorem mem_of_mem_acceptSupport {draws : List Word} {x : Word} (h : x ∈ acceptSupport p draws) : x ∈ draws := by
  refine List.foldlRecOn (motive := fun w : List Word => x ∈ w → x ∈ draws) _ _ (by simp) ?_ h
  intro w hw c hc hx
  split at hx
  · rcases List.mem_append.1 hx with hx | hx
    · exact hw hx
    · rwa [List.mem_singleton.1 hx]
  · exact hw hx

end Sys2Proof.Machine
end

section
/-! The rows of MAT stay R rows of N bits under every row and column operation of the reducer, and the bit vectors the
other commands store have no bit past their length (rules R13, R221-R225, R251). -/

namespace Sys2Proof.Machine

variable {p : Params} {n k : Nat}

/-! ## Rows of bits -/

/-- `k` rows of `n` bits. -/
def BitRows (n k : Nat) (rows : List Bits) : Prop := rows.length = k ∧ ∀ row ∈ rows, row < 2 ^ n

theorem BitRows.getD {rows : List Bits} (h : BitRows n k rows) (i : Nat) : rows.getD i 0 < 2 ^ n := by
  rw [List.getD_eq_getElem?_getD]
  rcases Nat.lt_or_ge i rows.length with hi | hi
  · rw [List.getElem?_eq_getElem hi]; exact h.2 _ (List.getElem_mem hi)
  · rw [List.getElem?_eq_none hi]; exact Nat.two_pow_pos n

@[simp] theorem length_swapAt {α : Type} (d : α) (xs : List α) (i j : Nat) : (swapAt d xs i j).length = xs.length := by
  simp [swapAt]

/-- A swap brings in no entry but the default. -/
theorem mem_of_mem_swapAt {α : Type} {d : α} {xs : List α} {i j : Nat} {x : α} (h : x ∈ swapAt d xs i j) :
    x ∈ xs ∨ x = d := by
  have hd : ∀ a, xs.getD a d ∈ xs ∨ xs.getD a d = d := by
    intro a
    rcases Nat.lt_or_ge a xs.length with ha | ha
    · left; rw [List.getD_eq_getElem _ _ ha]; exact List.getElem_mem ha
    · exact .inr (List.getD_eq_default _ _ ha)
  rcases List.mem_or_eq_of_mem_set h with h | rfl
  · rcases List.mem_or_eq_of_mem_set h with h | rfl
    · exact .inl h
    · exact hd j
  · exact hd i

theorem BitRows.swapAt {rows : List Bits} (h : BitRows n k rows) (i j : Nat) : BitRows n k (swapAt 0 rows i j) :=
  ⟨by rw [length_swapAt, h.1], fun row hr => (mem_of_mem_swapAt hr).elim (h.2 row) fun e => e ▸ Nat.two_pow_pos n⟩

theorem ElementList.swapAt {l : List Word} (h : ElementList p k l) (i j : Nat) :
    ElementList p k (swapAt 0#32 l i j) :=
  ⟨by rw [length_swapAt, h.1], fun x hx => (mem_of_mem_swapAt hx).elim (h.2 x) fun e => e ▸ reduced_zero p⟩

theorem BitRows.clearColumn {rows : List Bits} (h : BitRows n k rows) (c r : Nat) :
    BitRows n k (clearColumn rows c r) := by
  refine ⟨by rw [Machine.clearColumn, List.length_mapIdx, h.1], fun row hr => ?_⟩
  obtain ⟨i, hi, rfl⟩ := List.mem_mapIdx.1 hr
  have hrow := h.2 _ (List.getElem_mem hi)
  split
  · exact Nat.xor_lt_two_pow hrow (h.getD r)
  · exact hrow

theorem BitRows.pivotAt {rows rows' : List Bits} (h : BitRows n k rows) {c r : Nat}
    (hp : pivotAt rows c r = some rows') : BitRows n k rows' := by
  obtain ⟨j, -, rfl⟩ := Option.map_eq_some_iff.1 hp
  exact (h.swapAt r j).clearColumn c r

theorem BitRows.eliminate {rows rows' : List Bits} (h : BitRows n k rows) {c m : Nat}
    (he : eliminate rows c m = some rows') : BitRows n k rows' := by
  induction m generalizing rows c with
  | zero => cases he; exact h
  | succ m ih =>
    rw [Machine.eliminate] at he
    split at he
    · exact ih (h.pivotAt ‹_›) he
    · cases he

theorem swapBits_lt {i j row : Nat} (hi : i < n) (hj : j < n) (h : row < 2 ^ n) : swapBits i j row < 2 ^ n := by
  have hbit : ∀ a, a < n → 1 <<< a < 2 ^ n := fun a ha => by
    rw [Nat.one_shiftLeft]; exact Nat.pow_lt_pow_right (by omega) ha
  unfold swapBits
  split
  · exact h
  · exact Nat.xor_lt_two_pow (Nat.xor_lt_two_pow h (hbit i hi)) (hbit j hj)

/-- The pivots found lie among the columns searched, at most one a column. -/
theorem echelonPivots_bounds (rows : List Bits) (c rk m : Nat) :
    (echelonPivots rows c rk m).length ≤ m ∧ ∀ x ∈ echelonPivots rows c rk m, x < c + m := by
  induction m generalizing rows c rk with
  | zero => simp [echelonPivots]
  | succ m ih =>
    rw [echelonPivots]
    split
    · obtain ⟨hl, hx⟩ := ih ‹_› (c + 1) (rk + 1)
      refine ⟨by rw [List.length_cons]; omega, fun x h => ?_⟩
      rcases List.mem_cons.1 h with rfl | h
      · omega
      · have := hx x h; omega
    · obtain ⟨hl, hx⟩ := ih rows (c + 1) rk
      exact ⟨by omega, fun x h => by have := hx x h; omega⟩

/-- The swaps of rule R225 stay inside the window, so they keep the width of MAT and of L. -/
theorem swapPivots_fits {s j w : Nat} (hw : s + w ≤ n) {rows : List Bits} {l : List Word} {piv : List Nat}
    (hr : BitRows n k rows) (hl : ElementList p n l) (hj : j + piv.length ≤ w) (hp : ∀ x ∈ piv, x < w) :
    BitRows n k (swapPivots s rows l j piv).1 ∧ ElementList p n (swapPivots s rows l j piv).2 := by
  induction piv generalizing rows l j with
  | nil => exact ⟨hr, hl⟩
  | cons pj rest ih =>
    rw [List.length_cons] at hj
    have hpj := hp pj List.mem_cons_self
    have hrest : ∀ x ∈ rest, x < w := fun x hx => hp x (List.mem_cons_of_mem _ hx)
    rw [swapPivots]
    split
    · exact ih hr hl (by omega) hrest
    · refine ih ⟨by rw [List.length_map, hr.1], fun row h => ?_⟩ (hl.swapAt _ _) (by omega) hrest
      obtain ⟨row0, h0, rfl⟩ := List.mem_map.1 h
      exact swapBits_lt (by omega) (by omega) (hr.2 row0 h0)

/-- The window of rule R7 ends inside the matrix. -/
theorem window_le (h : p.legal = true) (hf : p.variantF = true) : p.r - p.mu + p.nu ≤ p.n := by
  simp only [Params.legal, Params.windowOk, hf, if_true, Bool.and_eq_true, decide_eq_true_eq] at h
  obtain ⟨⟨⟨-, ⟨-, hw⟩⟩, -⟩, -⟩ := h
  exact hw

/-- A successful semi-systematic reduction leaves R rows of N bits and N elements (rule R225). -/
theorem semiSystematic_fits (h : p.legal = true) (hf : p.variantF = true) {rows : List Bits} {l : List Word}
    {out : Systematic} (hr : BitRows p.n p.r rows) (hl : ElementList p p.n l)
    (ho : semiSystematic p rows l = some out) : BitRows p.n p.r out.rows ∧ ElementList p p.n out.l := by
  simp only [semiSystematic, Option.bind_eq_bind, Option.bind_eq_some_iff] at ho
  obtain ⟨rows1, h1, ho⟩ := ho
  split at ho
  · cases ho
  · obtain ⟨rows3, h3, ho⟩ := Option.bind_eq_some_iff.1 ho
    cases ho
    obtain ⟨hlen, hlt⟩ := echelonPivots_bounds (window p rows1) 0 0 p.nu
    obtain ⟨hr2, hl2⟩ := swapPivots_fits (window_le h hf) (hr.eliminate h1) hl (j := 0)
      (by rwa [Nat.zero_add]) fun x hx => by simpa using hlt x hx
    exact ⟨hr2.eliminate h3, hl2⟩

theorem parityRows_fits (p : Params) (g l : List Word) : BitRows l.length p.r (parityRows p g l) := by
  refine ⟨by simp [parityRows], fun row h => ?_⟩
  obtain ⟨r, -, rfl⟩ := List.mem_map.1 h
  simpa using Bits.ofList_lt ((l.map (columnElems p g)).map fun col => (coeff col (r / p.m)).getLsbD (r % p.m))

/-! ## Positions -/

/-- The positions of an attempt that succeeds are columns (rule R251). -/
theorem fwAttempt_lt {q q' : RandomPort} {pos : List Nat} (h : fwAttempt p q = some (some pos, q')) :
    ∀ i ∈ pos, i < p.n := by
  rw [fwAttempt_is p q] at h
  simp only [Option.ite_none_right_eq_some, Option.some.injEq, Prod.mk.injEq] at h
  obtain ⟨-, ⟨-, rfl⟩, -⟩ := h
  intro i hi
  simpa using (List.mem_filter.1 (List.mem_of_mem_take hi)).2

theorem ofPositions_lt {pos : List Nat} (h : ∀ i ∈ pos, i < n) : Bits.ofPositions pos < 2 ^ n := by
  apply Nat.lt_pow_two_of_testBit
  intro i hi
  rw [Bits.testBit_ofPositions, decide_eq_false]
  intro hm
  have := h i hm
  omega

/-- The candidate of an attempt that succeeds is T+1 elements (rule R193). -/
theorem goppaAttempt_fits (hp : p.legal = true) {q q' : RandomPort} {g : List Word}
    (h : goppaAttempt p q = some (some g, q')) : ElementList p (p.t + 1) g := by
  obtain ⟨⟨r, q1⟩, hd, h⟩ := Option.map_eq_some_iff.1 h
  simp only [Prod.mk.injEq, Option.ite_none_right_eq_some, Option.some.injEq] at h
  obtain ⟨⟨-, rfl⟩, -⟩ := h
  exact (elementList_draw hd).append ⟨rfl, by simpa using reduced_one hp⟩

end Sys2Proof.Machine
end

section
/-! What keeps `State.ElementsReduced`: storing words that fit their windows, `havoc`, and the registers' own writes
(rules R8, R60, R84-R89). -/

namespace Sys2Proof.Machine

variable {p : Params} {m m' : Memory} {r : Region}

/-! ## The memory's part of the invariant -/

/-- The memory's part of `State.ElementsReduced`. -/
structure MemoryReduced (p : Params) (m : Memory) : Prop where
  words : ∀ (r : Region) (i : Nat) (w : Word), i < r.words p → Memory.readWord m (r.addr i) = some w →
    w &&& wordMask p r i = w
  whole : ∀ (r : Region) (i k : Nat), i < r.words p → k < 4 →
    ((Memory.read m (r.addr i + k)).isSome ↔ (Memory.readWord m (r.addr i)).isSome)
  inside : ∀ a, (Memory.read m a).isSome → ∃ r : Region, r.has p a = true

theorem State.ElementsReduced.memory {s : State} (h : s.ElementsReduced) : MemoryReduced s.params s.mem :=
  ⟨h.words, h.whole, h.inside⟩

theorem memoryReduced_nil (p : Params) : MemoryReduced p [] :=
  ⟨fun _ _ _ _ h => by simp [Memory.readWord] at h, fun _ _ _ _ _ => by simp [Memory.readWord],
    fun _ h => by simp at h⟩

/-- A change of the memory keeps its part of the invariant if it leaves every byte outside the windows, and leaves,
replaces by a word that fits, or makes unwritten each used word. -/
theorem MemoryReduced.of_words (h : MemoryReduced p m)
    (hout : ∀ a, (∀ r : Region, r.has p a = false) → Memory.read m' a = Memory.read m a)
    (hin : ∀ (r : Region) (i : Nat), i < r.words p →
      (∀ k, k < 4 → Memory.read m' (r.addr i + k) = Memory.read m (r.addr i + k)) ∨
      (∃ w, Memory.readWord m' (r.addr i) = some w ∧ w &&& wordMask p r i = w) ∨
      ∀ k, k < 4 → Memory.read m' (r.addr i + k) = none) : MemoryReduced p m' := by
  refine ⟨fun r i w hi hw => ?_, fun r i k hi hk => ?_, fun a ha => ?_⟩
  · rcases hin r i hi with hsame | ⟨v, hv, hfit⟩ | hnone
    · rw [Memory.readWord_congr hsame] at hw; exact h.words r i w hi hw
    · cases hv.symm.trans hw; exact hfit
    · have := Memory.readWord_isSome_iff.1 (Option.isSome_of_eq_some hw) 0 (by omega)
      rw [hnone 0 (by omega)] at this; cases this
  · rcases hin r i hi with hsame | ⟨v, hv, -⟩ | hnone
    · rw [Memory.readWord_congr hsame, hsame k hk]; exact h.whole r i k hi hk
    · have hs := Option.isSome_of_eq_some hv
      exact iff_of_true (Memory.readWord_isSome_iff.1 hs k hk) hs
    · refine iff_of_false (by simp [hnone k hk]) fun hs => ?_
      have := Memory.readWord_isSome_iff.1 hs k hk
      rw [hnone k hk] at this; cases this
  · by_contra hno
    have hout' := hout a fun r => Bool.eq_false_of_not_eq_true fun hr => hno ⟨r, hr⟩
    rw [hout'] at ha
    exact hno (h.inside a ha)

theorem has_eq_false {a : Nat} (h : r.has p a = false) : ¬(r.base ≤ a ∧ a < r.base + 4 * r.words p) := by
  simpa [Region.has] using h

/-- A used word of one memory meets no used offset of another. -/
theorem word_outside (hp : p.legal = true) {r' : Region} (hne : r' ≠ r) {i k : Nat} (hi : i < r'.words p) (hk : k < 4) :
    ¬(r.base ≤ r'.addr i + k ∧ r'.addr i + k < r.base + 4 * r.words p) :=
  regions_disjoint hp hne (by simp only [Region.addr]; omega)

/-- Writing words that fit, within the used words of one memory. -/
theorem MemoryReduced.writeWords (hp : p.legal = true) (h : MemoryReduced p m) {j : Nat} {ws : List Word}
    (hj : j + ws.length ≤ r.words p) (hfit : ∀ i, (hi : i < ws.length) → ws[i] &&& wordMask p r (j + i) = ws[i]) :
    MemoryReduced p (Memory.writeWords m (r.addr j) ws) := by
  have hsame : ∀ a, ¬(r.addr j ≤ a ∧ a < r.addr j + 4 * ws.length) →
      Memory.read (Memory.writeWords m (r.addr j) ws) a = Memory.read m a :=
    fun a ha => Memory.read_writeWords_other (by omega)
  refine h.of_words (fun a ha => hsame a ?_) fun r' i hi => ?_
  · have := has_eq_false (ha r)
    simp only [Region.addr]; omega
  · by_cases hr : r' = r
    · subst hr
      by_cases hij : j ≤ i ∧ i < j + ws.length
      · right; left
        obtain ⟨e, rfl⟩ := Nat.exists_eq_add_of_le hij.1
        have he : e < ws.length := by omega
        refine ⟨ws[e], ?_, hfit e he⟩
        rw [show r'.addr (j + e) = r'.addr j + 4 * e by simp only [Region.addr]; omega]
        exact Memory.readWord_writeWords he
      · exact .inl fun k hk => hsame _ (by simp only [Region.addr]; omega)
    · refine .inl fun k hk => hsame _ ?_
      have := word_outside hp hr hi hk
      simp only [Region.addr] at this ⊢; omega

/-- `havoc` of one memory makes each of its words unwritten and leaves the others. -/
theorem MemoryReduced.havoc (hp : p.legal = true) (h : MemoryReduced p m) (r : Region) :
    MemoryReduced p (Memory.havoc m r.base (r.words p)) := by
  refine h.of_words (fun a ha => ?_) fun r' i hi => ?_
  · rw [Memory.read_havoc, if_neg (has_eq_false (ha r))]
  · by_cases hr : r' = r
    · subst hr
      refine .inr (.inr fun k hk => ?_)
      rw [Memory.read_havoc, if_pos (by simp only [Region.addr]; omega)]
    · refine .inl fun k hk => ?_
      rw [Memory.read_havoc, if_neg (word_outside hp hr hi hk)]

/-! ## Words that fit -/

/-- The memories that hold one element a word (rule R86). -/
def Region.holdsElements : Region → Bool
  | .g | .pa | .pb | .pr | .sig | .s | .l => true
  | .evec | .syn | .mat => false

theorem wordMask_elements (h : r.holdsElements = true) (i : Nat) : wordMask p r i = lowMask p.m := by
  cases r <;> simp [Region.holdsElements, wordMask] at h ⊢

theorem Bits.getElem_toWords {n i : Nat} {v : Bits} (h : i < (Bits.toWords n v).length) :
    (Bits.toWords n v)[i] = BitVec.ofNat 32 (v >>> (32 * i)) := by simp [Bits.toWords]

/-- Word `i` of a vector of `n` bits holds no bit past the vector's end (rule R88). -/
theorem ofNat_shiftRight_fits {v n : Nat} (h : v < 2 ^ n) (i : Nat) :
    BitVec.ofNat 32 (v >>> (32 * i)) &&& lowMask (n - 32 * i) = BitVec.ofNat 32 (v >>> (32 * i)) := by
  rw [and_lowMask_eq_self_iff, BitVec.toNat_ofNat]
  refine lt_of_le_of_lt (Nat.mod_le _ _) (Nat.lt_pow_two_of_testBit _ fun j hj => ?_)
  rw [Nat.testBit_shiftRight]
  exact Nat.testBit_lt_two_pow (lt_of_lt_of_le h (Nat.pow_le_pow_right (by omega) (by omega)))

/-- Word `w` of row `r` is word `r * k + w` of the rows packed one after another, `k` words a row (rule R89). -/
theorem getElem_flatMap_toWords {rows : List Bits} {k i : Nat} (h : i < (rows.flatMap (Bits.toWords k)).length) :
    (rows.flatMap (Bits.toWords k))[i] = BitVec.ofNat 32 (rows.getD (i / k) 0 >>> (32 * (i % k))) := by
  induction rows generalizing i with
  | nil => simp at h
  | cons row rows ih =>
    have hk : 0 < k := by
      rcases Nat.eq_zero_or_pos k with rfl | hk
      · simp [Bits.toWords] at h
      · exact hk
    simp only [List.flatMap_cons, List.length_append, Bits.length_toWords] at h ⊢
    rw [List.getElem_append]
    split
    · rename_i hi
      rw [Bits.length_toWords] at hi
      rw [Bits.getElem_toWords, Nat.div_eq_of_lt hi, Nat.mod_eq_of_lt hi, List.getD_cons_zero]
    · rename_i hi
      rw [Bits.length_toWords, Nat.not_lt] at hi
      simp only [Bits.length_toWords, ih, Nat.div_eq_sub_div hk hi, Nat.mod_eq_sub_mod hi, List.getD_cons_succ]

theorem length_flatMap_toWords (rows : List Bits) (k : Nat) :
    (rows.flatMap (Bits.toWords k)).length = rows.length * k := by
  simp [List.length_flatMap]

/-- A list mapped without failure: as many answers, each that of an entry. -/
theorem mapM_eq_some {α β : Type} {f : α → Option β} {l : List α} {ys : List β} (h : l.mapM f = some ys) :
    ys.length = l.length ∧ ∀ y ∈ ys, ∃ x ∈ l, f x = some y := by
  induction l generalizing ys with
  | nil =>
    obtain rfl : [] = ys := by simpa using h
    simp
  | cons x l ih =>
    simp only [List.mapM_cons, Option.bind_eq_bind, Option.bind_eq_some_iff] at h
    obtain ⟨y, hy, ys', hys, h⟩ := h
    obtain rfl : y :: ys' = ys := by simpa using h
    obtain ⟨hlen, hmem⟩ := ih hys
    refine ⟨by simp [hlen], fun z hz => ?_⟩
    rcases List.mem_cons.1 hz with rfl | hz
    · exact ⟨x, List.mem_cons_self, hy⟩
    · obtain ⟨x', hx', hf⟩ := hmem z hz
      exact ⟨x', List.mem_cons_of_mem _ hx', hf⟩

namespace State.ElementsReduced

variable {s t : State}

/-! ## The state's operations -/

/-- What keeps the parameters, the element registers and the memory keeps the invariant. -/
theorem congr (h : s.ElementsReduced) (hp : t.params = s.params := by rfl) (ha : t.opa = s.opa := by rfl)
    (hb : t.opb = s.opb := by rfl) (hr : t.res = s.res := by rfl) (hm : t.mem = s.mem := by rfl) :
    t.ElementsReduced := by
  obtain ⟨h1, h2, h3, h4, h5, h6⟩ := h
  rw [← hp] at h1 h2 h3 h4 h5 h6
  rw [← hm] at h4 h5 h6
  exact ⟨ha ▸ h1, hb ▸ h2, hr ▸ h3, h4, h5, h6⟩

theorem withMem (h : s.ElementsReduced) (hm : MemoryReduced s.params m) : ElementsReduced { s with mem := m } :=
  ⟨h.opa, h.opb, h.res, hm.words, hm.whole, hm.inside⟩

theorem complete (h : s.ElementsReduced) (ok : Bool) : (s.complete ok).ElementsReduced := h.congr

theorem raiseError (h : s.ElementsReduced) (code : BitVec 4) : (s.raiseError code).ElementsReduced :=
  h.congr

theorem withRes (h : s.ElementsReduced) {w : Word} (hw : Reduced s.params w) : ElementsReduced { s with res := w } :=
  ⟨h.opa, h.opb, hw, h.words, h.whole, h.inside⟩

theorem havoc (h : s.ElementsReduced) (hp : s.params.legal = true) (r : Region) : (s.havoc r).ElementsReduced :=
  h.withMem (h.memory.havoc hp r)

/-- Storing a whole memory of elements. -/
theorem store (h : s.ElementsReduced) (hp : s.params.legal = true) (hr : r.holdsElements = true) {ws : List Word}
    (hws : ElementList s.params (r.words s.params) ws) : (s.store r ws).ElementsReduced := by
  refine h.withMem (h.memory.writeWords (j := 0) hp (by rw [hws.1]; omega) fun i hi => ?_)
  rw [wordMask_elements hr, and_lowMask_eq_self_iff]
  exact hws.2 _ (List.getElem_mem hi)

/-- Storing a vector of `n` bits in the memory of its length (rules R84, R88). -/
theorem storeBits (h : s.ElementsReduced) (hp : s.params.legal = true) {n : Nat} {v : Bits} (hv : v < 2 ^ n)
    (hr : ∀ i, wordMask s.params r i = lowMask (n - 32 * i)) : (s.storeBits r v).ElementsReduced := by
  refine h.withMem (h.memory.writeWords (j := 0) hp (by simp) fun i hi => ?_)
  rw [Bits.getElem_toWords, Nat.zero_add, hr]
  exact ofNat_shiftRight_fits hv i

/-- Storing MAT, R rows of N bits (rule R89). -/
theorem storeRows (h : s.ElementsReduced) (hp : s.params.legal = true) {rows : List Bits}
    (hr : BitRows s.params.n s.params.r rows) : (s.storeRows rows).ElementsReduced := by
  refine h.withMem (h.memory.writeWords (r := .mat) (j := 0) hp ?_ fun i hi => ?_)
  · rw [length_flatMap_toWords, hr.1, Nat.zero_add]; rfl
  · rw [getElem_flatMap_toWords, Nat.zero_add]
    exact ofNat_shiftRight_fits (hr.getD _) _

/-! ## What a load answers -/

/-- A memory of elements loads as elements. -/
theorem load (h : s.ElementsReduced) (hr : r.holdsElements = true) {ws : List Word} (hl : s.load r = some ws) :
    ElementList s.params (r.words s.params) ws := by
  refine ⟨length_load hl, fun x hx => ?_⟩
  obtain ⟨i, hi, rfl⟩ := List.getElem_of_mem hx
  have hw := h.words r i _ (by rwa [← length_load hl]) (Memory.readWord_of_readWords hl hi)
  rwa [wordMask_elements hr, and_lowMask_eq_self_iff] at hw

/-- A row of MAT loads as N bits. -/
theorem loadRow (h : s.ElementsReduced) {j : Nat} (hj : j < s.params.r) {ws : List Word}
    (hl : s.loadSpan ⟨.mat, j * s.params.rowWords, s.params.rowWords⟩ = some ws) :
    Bits.ofWords ws < 2 ^ s.params.n := by
  apply Nat.lt_pow_two_of_testBit
  intro b hb
  rw [Bits.testBit_ofWords]
  rcases Nat.lt_or_ge (b / 32) ws.length with hi | hi
  · have hlen : ws.length = s.params.rowWords := Memory.length_readWords hl
    have hread := Memory.readWord_of_readWords hl hi
    have hlast : j * s.params.rowWords + b / 32 < Region.words s.params .mat := by
      have := Nat.mul_le_mul_right s.params.rowWords hj
      simp only [Region.words, Nat.succ_mul] at this ⊢
      omega
    have hw := h.words .mat _ _ hlast (by rw [← hread]; simp only [Region.addr]; congr 1; omega)
    rw [wordMask, Nat.mul_add_mod_self_right, Nat.mod_eq_of_lt (by omega), and_lowMask_eq_self_iff] at hw
    rw [List.getD_eq_getElem _ _ hi, BitVec.getLsbD]
    exact Nat.testBit_lt_two_pow (lt_of_lt_of_le hw (Nat.pow_le_pow_right (by omega) (by omega)))
  · rw [List.getD_eq_default _ _ hi, BitVec.getLsbD_zero]

theorem loadRows (h : s.ElementsReduced) {rows : List Bits} (hl : s.loadRows = some rows) :
    BitRows s.params.n s.params.r rows := by
  obtain ⟨hlen, hmem⟩ := mapM_eq_some hl
  refine ⟨by rw [hlen, List.length_range], fun row hrow => ?_⟩
  obtain ⟨j, hj, hload⟩ := hmem row hrow
  obtain ⟨ws, hws, rfl⟩ := Option.map_eq_some_iff.1 hload
  exact h.loadRow (List.mem_range.1 hj) hws

end State.ElementsReduced

end Sys2Proof.Machine
end

section
/-! Every step keeps `State.ElementsReduced`: each command, the ports, both resets (rules R8, R87-R89). -/

namespace Sys2Proof.Machine

namespace State.ElementsReduced

variable {s t : State}

/-! ## The commands -/

theorem of_execGoppaSample (h : s.ElementsReduced) (hp : s.params.legal = true) (he : execGoppaSample s = .next t) :
    t.ElementsReduced := by
  rcases execGoppaSample_next he with rfl | ⟨a, g, q, hg, rfl⟩ | ⟨q, -, rfl⟩
  · exact h
  · obtain ⟨-, -, -, q0, hq0⟩ := attempts_found (goppaAttempt_takes _) hg
    have hu : ElementsReduced { s with port := q, tries := BitVec.ofNat 32 a } := h.congr
    exact (hu.store (r := .g) hp rfl (goppaAttempt_fits hp hq0)).complete true
  · have hu : ElementsReduced { s with port := q, tries := BitVec.ofNat 32 s.params.goppaMaxTries } := h.congr
    exact (hu.havoc hp .g).raiseError _

theorem of_execSupportGen (h : s.ElementsReduced) (hp : s.params.legal = true) (he : execSupportGen s = .next t) :
    t.ElementsReduced := by
  rcases execSupportGen_next he with rfl | ⟨ds, q, u, hd, rfl, hcase⟩
  · exact h
  have hu : ElementsReduced
      { s with port := q, accept := BitVec.ofNat 17 (acceptSupport s.params ds).length } := h.congr
  rcases hcase with ⟨hn, rfl⟩ | ⟨-, rfl⟩
  · have hw : ElementList s.params s.params.n (acceptSupport s.params ds) :=
      ⟨hn, fun x hx => (elementList_draw hd).2 x (mem_of_mem_acceptSupport hx)⟩
    exact (hu.store (r := .l) hp rfl hw).complete true
  · exact (hu.havoc hp .l).complete false

theorem of_execFwSample (h : s.ElementsReduced) (hp : s.params.legal = true) (he : execFwSample s = .next t) :
    t.ElementsReduced := by
  rcases execFwSample_next he with rfl | ⟨a, pos, q, hpos, rfl⟩ | ⟨q, -, rfl⟩
  · exact h
  · obtain ⟨-, -, -, q0, hq0⟩ := attempts_found (fwAttempt_takes _) hpos
    have hu : ElementsReduced
        { s with port := q, weight := BitVec.ofNat 17 s.params.t, tries := BitVec.ofNat 32 a } := h.congr
    exact (hu.storeBits (r := .evec) hp (ofPositions_lt (fwAttempt_lt hq0)) fun _ => rfl).complete true
  · have hu : ElementsReduced
        { s with port := q, weight := 0#17, tries := BitVec.ofNat 32 s.params.fwMaxTries } := h.congr
    exact (hu.havoc hp .evec).raiseError _

theorem of_execBuildH (h : s.ElementsReduced) (hp : s.params.legal = true) (he : execBuildH s = .next t) :
    t.ElementsReduced := by
  obtain ⟨g, l, -, hl, rfl⟩ := execBuildH_next he
  have hrows := parityRows_fits s.params g l
  rw [length_load hl] at hrows
  exact (h.storeRows hp hrows).complete _

theorem of_execSystematize (h : s.ElementsReduced) (hp : s.params.legal = true) (he : execSystematize s = .next t) :
    t.ElementsReduced := by
  obtain ⟨rows, hrows, rfl | ⟨-, rows', hr', rfl⟩ | ⟨hf, l, out, hl, ho, rfl⟩⟩ := execSystematize_next he
  · exact (h.havoc hp .mat).congr
  · exact (h.storeRows hp ((h.loadRows hrows).eliminate hr')).congr
  · obtain ⟨hfit, hlfit⟩ := semiSystematic_fits hp hf (h.loadRows hrows) (h.load rfl hl) ho
    exact ((h.storeRows hp hfit).store (r := .l) hp rfl hlfit).congr

theorem of_execEncode (h : s.ElementsReduced) (hp : s.params.legal = true) (he : execEncode s = .next t) :
    t.ElementsReduced := by
  obtain ⟨e, rows, -, hrows, rfl⟩ := execEncode_next he
  have hlt := Bits.ofList_lt (rows.mapIdx fun r row => syndromeBit s.params e r row)
  rw [List.length_mapIdx, (mapM_eq_some hrows).1, List.length_range] at hlt
  exact (h.storeBits (r := .syn) hp hlt fun _ => rfl).complete true

/-- ROOT_FIND's writes: EVEC, one bit a point of L, and WEIGHT (rule R287). -/
theorem storeRoots (h : s.ElementsReduced) (hp : s.params.legal = true) {flags : List Bool}
    (hl : flags.length = s.params.n) : (s.storeRoots flags).ElementsReduced :=
  storeBits (s := { s with weight := BitVec.ofNat 17 (flags.count true) }) (r := .evec) h.congr hp
    (hl ▸ Bits.ofList_lt flags) fun _ => rfl

theorem length_rootFlags {p : Params} {sig l : List Word} (hl : s.load .l = some l) :
    (rootFlags p sig l).length = s.params.n := by
  rw [rootFlags, List.length_map, length_load hl]; rfl

theorem of_execDecode (h : s.ElementsReduced) (hp : s.params.legal = true) (he : execDecode s = .next t) :
    t.ElementsReduced := by
  obtain ⟨v, g, l, syn, x, -, -, hl, hsyn, hx, rfl⟩ := execDecode_next he
  have hs := h.store (r := .s) hp rfl (hsyn ▸ elementList_doubledSyndrome s.params g l v)
  have hsig := hs.store (r := .sig) hp rfl (hx ▸ elementList_locator hp syn)
  have hu : ElementsReduced { (s.store .s syn).store .sig (locator x) with bmL := BitVec.ofNat 16 x.len } := hsig.congr
  exact (hu.storeRoots hp (length_rootFlags (s := s) hl)).complete _

/-- Every command keeps the invariant. -/
theorem of_exec {i : Instr} (h : s.ElementsReduced) (hp : s.params.legal = true) (he : exec i s = .next t) :
    t.ElementsReduced := by
  cases i with
  | nop => cases he; exact h.complete true
  | gfAdd => cases he; exact (h.withRes (reduced_gadd h.opa h.opb)).complete true
  | gfMul => cases he; exact (h.withRes (reduced_gmul _ _ _)).complete true
  | gfInv => cases he; exact (h.withRes (reduced_ginv hp _)).complete true
  | polyMul =>
    obtain ⟨a, b, -, -, rfl⟩ := execPolyMul_next he
    exact (h.store (r := .pr) hp rfl (elementList_polyMul _ a b)).complete true
  | polyMulmod =>
    obtain ⟨a, b, g, -, -, -, ⟨-, rfl⟩ | ⟨-, rfl⟩⟩ := execPolyMulmod_next he
    · exact h.raiseError _
    · exact (h.store (r := .pr) hp rfl (elementList_mulmod _ a b g)).complete true
  | irredTest =>
    obtain ⟨g, -, ⟨-, rfl⟩ | ⟨-, rfl⟩⟩ := execIrredTest_next he
    · exact h.raiseError _
    · exact h.complete _
  | goppaSample => exact h.of_execGoppaSample hp he
  | supportGen => exact h.of_execSupportGen hp he
  | buildH => exact h.of_execBuildH hp he
  | systematize => exact h.of_execSystematize hp he
  | fwSample => exact h.of_execFwSample hp he
  | encode => exact h.of_execEncode hp he
  | decSyndrome =>
    obtain ⟨v, g, l, -, -, -, rfl⟩ := execDecSyndrome_next he
    exact (h.store (r := .s) hp rfl (elementList_doubledSyndrome _ g l v)).complete _
  | bmSolve =>
    obtain ⟨syn, -, rfl⟩ := execBmSolve_next he
    exact (h.store (r := .sig) hp rfl (elementList_locator hp syn)).congr
  | rootFind =>
    obtain ⟨sig, l, g, syn, -, hl, -, -, rfl⟩ := execRootFind_next he
    exact (h.storeRoots hp (length_rootFlags hl)).complete _
  | decode => exact h.of_execDecode hp he

/-! ## The ports -/

/-- A reset register is 0, and the memory is kept (rule R61). -/
theorem resetRegisters (h : MemoryReduced s.params s.mem) : (s.resetRegisters).ElementsReduced :=
  ⟨reduced_zero _, reduced_zero _, reduced_zero _, h.words, h.whole, h.inside⟩

/-- An abort makes memories unwritten, one after another (rule R146). -/
theorem foldl_havoc (rs : List Region) (h : s.ElementsReduced) (hp : s.params.legal = true) :
    (rs.foldl State.havoc s).ElementsReduced := by
  induction rs generalizing s with
  | nil => exact h
  | cons r rs ih => exact ih (h.havoc hp r) hp

theorem softReset (h : s.ElementsReduced) (hp : s.params.legal = true) (full : Nat) :
    (s.softReset full).ElementsReduced := by
  unfold State.softReset
  split
  · exact resetRegisters h.memory
  · exact resetRegisters (foldl_havoc (s := s.loseBytes full) _ h.congr hp).memory

theorem powerOn (h : s.ElementsReduced) (hp : s.params.legal = true) (full : Nat) :
    (s.powerOn full).ElementsReduced :=
  (h.softReset hp full).withMem (memoryReduced_nil _)

theorem writeCtrl (h : s.ElementsReduced) (hp : s.params.legal = true) (w : Word) :
    (writeCtrl w s).ElementsReduced := by
  unfold Machine.writeCtrl
  split
  · exact h.softReset hp _
  · exact h.congr

/-- OPA and OPB keep the low M bits of a write, and no other register takes it (rule R39). -/
theorem writeReg (h : s.ElementsReduced) (r : Reg) (w : Word) : (writeReg r w s).ElementsReduced := by
  cases r
  case opa => exact ⟨toNat_and_lowMask_lt _ _, h.opb, h.res, h.words, h.whole, h.inside⟩
  case opb => exact ⟨h.opa, toNat_and_lowMask_lt _ _, h.res, h.words, h.whole, h.inside⟩
  all_goals exact h

/-- A host write stores only the bits the word holds (rules R86, R88). -/
theorem writeMem (h : s.ElementsReduced) (hp : s.params.legal = true) {r : Region} {i : Nat}
    (hi : i < r.words s.params) (w : Word) : (writeMem r i w s).ElementsReduced := by
  refine h.withMem (h.memory.writeWords (ws := [w &&& wordMask s.params r i]) hp hi fun j hj => ?_)
  obtain rfl : j = 0 := by simpa using hj
  rw [List.getElem_cons_zero, Nat.add_zero, BitVec.and_assoc, BitVec.and_self]

theorem of_issueCommand {w : Word} {ov : Bool} (h : s.ElementsReduced) (hp : s.params.legal = true)
    (he : issueCommand w ov s = .next t) : t.ElementsReduced := by
  rcases issueCommand_cases he with ⟨-, -, rfl⟩ | ⟨i, -, ⟨-, -, rfl⟩ | hx⟩
  · exact h.congr
  · exact h.congr
  · exact of_exec (s := s.issue w i) h.congr hp hx

theorem of_hostWrite {a width : Nat} {w : Word} {ov : Bool} (h : s.ElementsReduced) (hp : s.params.legal = true)
    (he : hostWrite a width w ov s = .next t) : t.ElementsReduced := by
  rcases hostWrite_cases he with rfl | rfl | ⟨-, rfl⟩ | ⟨-, hx⟩ | ⟨-, r, rfl⟩ | ⟨-, rfl | ⟨r, i, hi, rfl⟩⟩
  · exact h.writeCtrl hp w
  · exact h.congr
  · exact h.congr
  · exact h.of_issueCommand hp hx
  · exact h.writeReg r w
  · exact h
  · exact h.writeMem hp hi w

theorem of_accept {x : Input} (h : s.ElementsReduced) (hp : s.params.legal = true) (he : Machine.accept x s = .next t) :
    t.ElementsReduced := by
  obtain ⟨act, ov⟩ := x
  cases act with
  | read a width =>
    rcases hostRead_cases he with ⟨v, rfl⟩ | ⟨-, rfl⟩
    · exact h.congr
    · exact h.congr
  | write a width w => exact h.of_hostWrite hp he
  | offer b => cases he; exact h.congr
  | powerOn => cases he; exact h.powerOn hp _

theorem of_acceptNext (h : s.ElementsReduced) (hp : s.params.legal = true) (he : acceptNext s = .next t) :
    t.ElementsReduced := by
  cases hi : s.inputs with
  | nil =>
    rw [acceptNext_nil hi] at he
    cases he; exact h
  | cons x rest =>
    rw [acceptNext_cons hi] at he
    exact of_accept (s := { s with inputs := rest }) h.congr hp he

end State.ElementsReduced

/-- Settles O16: a step from a legal record is an input taken or a command completed, and each keeps the invariant. -/
theorem stepKeepsElementsReduced : Obligations.StepKeepsElementsReduced := by
  intro s t h hs
  obtain ⟨⟨hp, -⟩, ha⟩ := live_of_step hs
  rcases advance_cases ha with hx | ⟨i, -, hx, -⟩
  · exact h.of_acceptNext hp hx
  · exact h.of_exec hp hx

end Sys2Proof.Machine
end

section
/-! What a command's outcome depends on: the words it reads (rule R114) and the bytes it takes (rules R95-R97). -/

namespace Sys2Proof.Machine

variable {s s' u u' : State} {i : Instr}

/-! ## Reads -/

theorem Memory.readWords_congr_words {m m' : Memory} {a n : Nat}
    (h : ∀ j, j < n → Memory.readWord m' (a + 4 * j) = Memory.readWord m (a + 4 * j)) :
    Memory.readWords m' a n = Memory.readWords m a n := by
  induction n generalizing a with
  | zero => rfl
  | succ n ih =>
    have hhead : Memory.readWord m' a = Memory.readWord m a := h 0 (by omega)
    have htail : Memory.readWords m' (a + 4) n = Memory.readWords m (a + 4) n := ih fun j hj => by
      rw [Nat.add_assoc, show 4 + 4 * j = 4 * (j + 1) by omega]
      exact h (j + 1) (by omega)
    rw [Memory.readWords, Memory.readWords, hhead, htail]

theorem mapM_congr {α β : Type} {f g : α → Option β} {l : List α} (h : ∀ x ∈ l, f x = g x) : l.mapM f = l.mapM g := by
  induction l with
  | nil => rfl
  | cons x l ih =>
    rw [List.mapM_cons, List.mapM_cons, h x List.mem_cons_self, ih fun y hy => h y (List.mem_cons_of_mem _ hy)]

/-- The two states have the same parameters and the same words where the command reads (rule R114). -/
structure SameInputs (i : Instr) (s s' : State) : Prop where
  params : s'.params = s.params
  words : ∀ x ∈ inputSpans s.params i, ∀ j, j < x.count →
    Memory.readWord s'.mem (x.region.base + 4 * (x.first + j)) =
      Memory.readWord s.mem (x.region.base + 4 * (x.first + j))

namespace SameInputs

/-- A run of words inside one of the command's inputs loads alike. -/
theorem loadSpan_within (h : SameInputs i s s') {x y : Span} (hx : x ∈ inputSpans s.params i)
    (hr : y.region = x.region) (hf : x.first ≤ y.first) (hc : y.first + y.count ≤ x.first + x.count) :
    s'.loadSpan y = s.loadSpan y := by
  refine Memory.readWords_congr_words fun j hj => ?_
  have haddr : x.region.base + 4 * (x.first + (y.first - x.first + j)) = y.region.addr y.first + 4 * j := by
    rw [Region.addr, hr]; omega
  exact haddr ▸ h.words x hx (y.first - x.first + j) (by omega)

theorem loadSpan (h : SameInputs i s s') {x : Span} (hx : x ∈ inputSpans s.params i) : s'.loadSpan x = s.loadSpan x :=
  h.loadSpan_within hx rfl le_rfl le_rfl

/-- A memory among the command's inputs loads alike. -/
theorem load (h : SameInputs i s s') (r : Region)
    (hr : r.span s.params ∈ inputSpans s.params i := by simp [inputSpans]) : s'.load r = s.load r := by
  have hs := h.loadSpan hr
  rw [← h.params] at hs
  simpa only [State.load, State.loadSpan, Region.span, Region.addr, Nat.mul_zero, Nat.add_zero, h.params] using hs

theorem loadBits (h : SameInputs i s s') (r : Region)
    (hr : r.span s.params ∈ inputSpans s.params i := by simp [inputSpans]) : s'.loadBits r = s.loadBits r := by
  rw [State.loadBits, State.loadBits, h.load r hr]

theorem loadRows (h : SameInputs .systematize s s') : s'.loadRows = s.loadRows := by
  rw [State.loadRows, State.loadRows, h.params]
  refine mapM_congr fun j hj => congrArg _ ?_
  refine h.loadSpan_within (x := Region.mat.span s.params) List.mem_cons_self rfl (Nat.zero_le _) ?_
  have := Nat.mul_le_mul_right s.params.rowWords (List.mem_range.1 hj)
  simp only [Region.span, Region.words, Nat.succ_mul] at this ⊢
  omega

theorem loadRightBlock (h : SameInputs .encode s s') : s'.loadRightBlock = s.loadRightBlock := by
  rw [State.loadRightBlock, State.loadRightBlock, h.params]
  refine mapM_congr fun j hj => congrArg _ (h.loadSpan ?_)
  exact List.mem_cons_of_mem _ (List.mem_map.2 ⟨j, hj, rfl⟩)

end SameInputs

/-! ## Writes -/

/-- One change made to two memories: where `m` became `k` and `m'` became `k'`, each byte ends up the same in both, or
is left by both. -/
def SameEdit (m m' k k' : Memory) : Prop := ∀ a,
  Memory.read k' a = Memory.read k a ∨ (Memory.read k a = Memory.read m a ∧ Memory.read k' a = Memory.read m' a)

namespace SameEdit

variable {m m' k k' : Memory}

theorem refl (m m' : Memory) : SameEdit m m' m m' := fun _ => .inr ⟨rfl, rfl⟩

theorem writeWord (h : SameEdit m m' k k') (a : Nat) (w : Word) :
    SameEdit m m' (Memory.writeWord k a w) (Memory.writeWord k' a w) := by
  intro b
  rw [Memory.read_writeWord, Memory.read_writeWord]
  split
  · exact .inl rfl
  · exact h b

theorem writeWords (h : SameEdit m m' k k') (a : Nat) (ws : List Word) :
    SameEdit m m' (Memory.writeWords k a ws) (Memory.writeWords k' a ws) := by
  induction ws generalizing k k' a with
  | nil => exact h
  | cons w ws ih => exact ih (h.writeWord a w) (a + 4)

theorem store (h : SameEdit m m' u.mem u'.mem) (r : Region) (ws : List Word) :
    SameEdit m m' (u.store r ws).mem (u'.store r ws).mem := h.writeWords _ _

theorem storeBits (h : SameEdit m m' u.mem u'.mem) (hp : u'.params = u.params) (r : Region) (v : Bits) :
    SameEdit m m' (u.storeBits r v).mem (u'.storeBits r v).mem := by
  rw [State.storeBits_mem, State.storeBits_mem, hp]
  exact h.writeWords _ _

theorem storeRows (h : SameEdit m m' u.mem u'.mem) (hp : u'.params = u.params) (rows : List Bits) :
    SameEdit m m' (u.storeRows rows).mem (u'.storeRows rows).mem := by
  rw [State.storeRows_mem, State.storeRows_mem, hp]
  exact h.writeWords _ _

theorem storeRoots (h : SameEdit m m' u.mem u'.mem) (hp : u'.params = u.params) (flags : List Bool) :
    SameEdit m m' (u.storeRoots flags).mem (u'.storeRoots flags).mem := by
  rw [State.storeRoots_mem, State.storeRoots_mem, hp]
  exact h.writeWords _ _

theorem havoc (h : SameEdit m m' u.mem u'.mem) (hp : u'.params = u.params) (r : Region) :
    SameEdit m m' (u.havoc r).mem (u'.havoc r).mem := by
  intro a
  rw [State.havoc_mem, State.havoc_mem, hp, Memory.read_havoc, Memory.read_havoc]
  split
  · exact .inl rfl
  · exact h a

end SameEdit

/-! ## The bytes a sampler takes -/

/-- `f` looks at the first `k` bytes only. -/
def LooksAt {α : Type} (k : Nat) (f : List Byte → α) : Prop :=
  ∀ l l' : List Byte, l'.take k = l.take k → f l' = f l

theorem looksAt_drawsAt (p : Params) (n : Nat) : LooksAt (2 * n) fun l => drawsAt p l 0 n := by
  intro l l' h
  refine List.map_congr_left fun i hi => ?_
  have hi := List.mem_range.1 hi
  have hbyte : ∀ b, b < 2 * n → l'.getD b 0#8 = l.getD b 0#8 := fun b hb => by
    rw [List.getD_eq_getElem?_getD, List.getD_eq_getElem?_getD, ← List.getElem?_take_of_lt hb, h,
      List.getElem?_take_of_lt hb]
  rw [drawAt, drawAt, hbyte _ (by omega), hbyte _ (by omega)]

theorem LooksAt.map {α β : Type} {k : Nat} {f : List Byte → α} (h : LooksAt k f) (g : α → β) :
    LooksAt k fun l => g (f l) := fun l l' ht => congrArg g (h l l' ht)

/-- An attempt of GOPPA_SAMPLE looks at the bytes of its own draws. -/
theorem looksAt_goppaAttempt (p : Params) : LooksAt (2 * p.t) fun l =>
    if irreducible p (goppaCandidate p l 0) then some (goppaCandidate p l 0) else none :=
  (looksAt_drawsAt p p.t).map fun d => if irreducible p (d ++ [1#32]) then some (d ++ [1#32]) else none

/-- An attempt of FW_SAMPLE looks at the bytes of its own draws. -/
theorem looksAt_fwAttempt (p : Params) : LooksAt (2 * p.tau) fun l =>
    if (fwCandidate p l 0).length = p.t ∧ (fwCandidate p l 0).Nodup then some (fwCandidate p l 0) else none := by
  have h : LooksAt (2 * p.tau) fun l => fwCandidate p l 0 :=
    (looksAt_drawsAt p p.tau).map fun d => ((d.map BitVec.toNat).filter (· < p.n)).take p.t
  exact h.map fun c => if c.length = p.t ∧ c.Nodup then some c else none

/-- Streams with `n` common bytes agree on `k` bytes at any offset inside them. -/
theorem LooksAt.drop_eq {α : Type} {k n c : Nat} {f : List Byte → α} (h : LooksAt k f) {l l' : List Byte}
    (ht : l'.take n = l.take n) (hc : c + k ≤ n) : f (l'.drop c) = f (l.drop c) := by
  have htake : ∀ x : List Byte, (x.drop c).take k = ((x.take n).drop c).take k := fun x => by
    rw [List.drop_take, List.take_take, Nat.min_eq_left (by omega)]
  exact h _ _ (by rw [htake l', htake l, ht])

/-- A stream that begins with the `n` bytes of another has as many. -/
theorem length_le_of_take_eq {n : Nat} {l l' : List Byte} (ht : l'.take n = l.take n) (hn : n ≤ l.length) :
    n ≤ l'.length := by
  have := congrArg List.length ht
  rw [List.length_take, List.length_take] at this
  omega

section attempts

variable {α : Type} {attempt : RandomPort → Option (Option α × RandomPort)} {k made left n : Nat}
  {f : List Byte → Option α} {q q' q1 : RandomPort}

/-- The converse of `attempts_found_first`. -/
theorem attempts_eq_found (h : AttemptIs attempt k f) {b : Nat} {x : α} (hb : b < left)
    (hl : k * (b + 1) ≤ q.offered.length) (hx : f (q.offered.drop (k * b)) = some x)
    (hr : ∀ c, c < b → f (q.offered.drop (k * c)) = none) :
    attempts attempt made q left = .found (made + b + 1) x (q.skip (k * (b + 1))) := by
  obtain ⟨left, rfl⟩ : ∃ m, left = m + 1 := ⟨left - 1, by omega⟩
  induction b generalizing made q left with
  | zero =>
    rw [Nat.mul_zero, List.drop_zero] at hx
    rw [Nat.zero_add, Nat.mul_one] at hl
    simp only [attempts, h q, if_pos hl, hx, Nat.add_zero, Nat.zero_add, Nat.mul_one]
  | succ b ih =>
    have hk : k * (b + 1 + 1) = k + k * (b + 1) := by rw [Nat.mul_succ k (b + 1), Nat.add_comm]
    have h0 : f q.offered = none := by simpa using hr 0 (by omega)
    simp only [attempts, h q, if_pos (show k ≤ q.offered.length by omega), h0]
    obtain ⟨left, rfl⟩ : ∃ m, left = m + 1 := ⟨left - 1, by omega⟩
    have hdrop : ∀ c, (q.skip k).offered.drop (k * c) = q.offered.drop (k * (c + 1)) := fun c => by
      rw [RandomPort.skip_offered, List.drop_drop, Nat.mul_succ, Nat.add_comm]
    rw [ih (q := q.skip k) (by rw [RandomPort.skip_offered, List.length_drop]; omega) (by rw [hdrop]; exact hx)
      (fun c hc => by rw [hdrop]; exact hr (c + 1) (by omega)) left (by omega), RandomPort.skip_skip, hk,
      show made + 1 + b = made + (b + 1) by omega]

/-- The converse of `attempts_exhausted_all`. -/
theorem attempts_eq_exhausted (h : AttemptIs attempt k f) (hl : k * left ≤ q.offered.length)
    (hr : ∀ c, c < left → f (q.offered.drop (k * c)) = none) :
    attempts attempt made q left = .exhausted (q.skip (k * left)) := by
  induction left generalizing made q with
  | zero => rw [attempts, Nat.mul_zero, RandomPort.skip_zero]
  | succ left ih =>
    rw [Nat.mul_succ] at hl
    have h0 : f q.offered = none := by simpa using hr 0 (by omega)
    simp only [attempts, h q, if_pos (show k ≤ q.offered.length by omega), h0]
    rw [ih (by rw [RandomPort.skip_offered, List.length_drop]; omega) fun c hc => by
        rw [RandomPort.skip_offered, List.drop_drop, Nat.add_comm, ← Nat.mul_succ]; exact hr (c + 1) (by omega),
      RandomPort.skip_skip, Nat.mul_succ, Nat.add_comm]

/-- A run that succeeds having taken `n` bytes does so on every stream that begins with them. -/
theorem attempts_found_congr (h : AttemptIs attempt k f) (hf : LooksAt k f) {a : Nat} {x : α}
    (ha : attempts attempt made q left = .found a x q1) (hn : q.offered.length = q1.offered.length + n)
    (ht : q'.offered.take n = q.offered.take n) :
    q1 = q.skip n ∧ attempts attempt made q' left = .found a x (q'.skip n) := by
  obtain ⟨b, rfl, hb, hl, rfl, hx, hr⟩ := attempts_found_first h ha
  rw [RandomPort.skip_offered, List.length_drop] at hn
  obtain rfl : n = k * (b + 1) := by omega
  have hsame : ∀ c, c ≤ b → f (q'.offered.drop (k * c)) = f (q.offered.drop (k * c)) := fun c hc =>
    hf.drop_eq ht (by rw [← Nat.mul_succ]; exact Nat.mul_le_mul_left k (by omega))
  exact ⟨rfl, attempts_eq_found h hb (length_le_of_take_eq ht hl) ((hsame b le_rfl).trans hx) fun c hc =>
    (hsame c (by omega)).trans (hr c hc)⟩

/-- A run exhausted after `n` bytes is so on every stream that begins with them. -/
theorem attempts_exhausted_congr (h : AttemptIs attempt k f) (hf : LooksAt k f)
    (ha : attempts attempt made q left = .exhausted q1) (hn : q.offered.length = q1.offered.length + n)
    (ht : q'.offered.take n = q.offered.take n) :
    q1 = q.skip n ∧ attempts attempt made q' left = .exhausted (q'.skip n) := by
  obtain ⟨hl, rfl, hr⟩ := attempts_exhausted_all h ha
  rw [RandomPort.skip_offered, List.length_drop] at hn
  obtain rfl : n = k * left := by omega
  exact ⟨rfl, attempts_eq_exhausted h (length_le_of_take_eq ht hl) fun c hc =>
    (hf.drop_eq ht (by rw [← Nat.mul_succ]; exact Nat.mul_le_mul_left k (by omega))).trans (hr c hc)⟩

/-- Draws that took `n` bytes are made from every stream that begins with them. -/
theorem draw_congr {p : Params} {d : Nat} {ds : List Word} (hd : q.draw p d = some (ds, q1))
    (hn : q.offered.length = q1.offered.length + n) (ht : q'.offered.take n = q.offered.take n) :
    q1 = q.skip n ∧ q'.draw p d = some (ds, q'.skip n) := by
  rw [draw_eq] at hd
  simp only [Option.ite_none_right_eq_some, Option.some.injEq, Prod.mk.injEq] at hd
  obtain ⟨hl, rfl, rfl⟩ := hd
  rw [RandomPort.skip_offered, List.length_drop] at hn
  obtain rfl : n = 2 * d := by omega
  have hds : drawsAt p q'.offered 0 d = drawsAt p q.offered 0 d := looksAt_drawsAt p d _ _ ht
  exact ⟨rfl, by rw [draw_eq, if_pos (length_le_of_take_eq ht hl), hds]⟩

end attempts

end Sys2Proof.Machine
end

section
/-! Two states that agree on a command's listed inputs and on the bytes it takes answer alike (rules R10, R46, R114). -/

namespace Sys2Proof.Machine

variable {s s' t u u' : State} {i : Instr} {n : Nat}

/-! ## Answering alike -/

/-- The result registers a command writes are equal; a field says which commands write the register (rule R150). -/
structure SameRegisters (i : Instr) (t t' : State) : Prop where
  res : i = .gfAdd ∨ i = .gfMul ∨ i = .gfInv → t'.res = t.res := by simp
  weight : i = .fwSample ∨ i = .rootFind ∨ i = .decode → t'.weight = t.weight := by simp
  tries : i = .goppaSample ∨ i = .fwSample → t'.tries = t.tries := by simp
  accept : i = .supportGen → t'.accept = t.accept := by simp
  bmL : i = .bmSolve ∨ i = .decode → t'.bmL = t.bmL := by simp
  pivmask : i = .systematize → t'.pivmask = t.pivmask := by simp

/-- `t` answers `s` as `t'` answers `s'`: completed with the same flags and the same result registers, by one change of
the memories, and with `n` bytes taken. -/
structure SameAnswer (i : Instr) (n : Nat) (s s' t t' : State) : Prop where
  idle : t'.eng = .idle
  ok : t'.status.ok = t.status.ok
  err : t'.status.err = t.status.err
  errcode : t'.status.errcode = t.status.errcode
  registers : SameRegisters i t t'
  edit : SameEdit s.mem s'.mem t.mem t'.mem
  port : t.port = s.port.skip n
  port' : t'.port = s'.port.skip n

theorem SameAnswer.complete (ok : Bool) (hr : SameRegisters i u u') (he : SameEdit s.mem s'.mem u.mem u'.mem)
    (hq : u.port = s.port.skip n) (hq' : u'.port = s'.port.skip n) :
    SameAnswer i n s s' (u.complete ok) (u'.complete ok) :=
  ⟨rfl, rfl, rfl, rfl, ⟨hr.res, hr.weight, hr.tries, hr.accept, hr.bmL, hr.pivmask⟩, he, hq, hq'⟩

theorem SameAnswer.raiseError (code : BitVec 4) (hr : SameRegisters i u u')
    (he : SameEdit s.mem s'.mem u.mem u'.mem) (hq : u.port = s.port.skip n) (hq' : u'.port = s'.port.skip n) :
    SameAnswer i n s s' (u.raiseError code) (u'.raiseError code) :=
  ⟨rfl, rfl, rfl, rfl, ⟨hr.res, hr.weight, hr.tries, hr.accept, hr.bmL, hr.pivmask⟩, he, hq, hq'⟩

/-- The results of one command from `s` and `s'`: both fault alike, or both answer alike, no byte taken. -/
inductive SameResult (i : Instr) (s s' : State) : Result → Result → Prop where
  | next {t t' : State} : SameAnswer i 0 s s' t t' → SameResult i s s' (.next t) (.next t')
  | fault (f : Fault) : SameResult i s s' (.fault f) (.fault f)

theorem SameResult.exists_next {x x' : Result} (h : SameResult i s s' x x') (hx : x = .next t) :
    ∃ t', x' = .next t' ∧ SameAnswer i 0 s s' t t' := by
  cases h with
  | next h => cases hx; exact ⟨_, rfl, h⟩
  | fault f => cases hx

/-- A completion that takes no byte. -/
theorem SameResult.complete (ok : Bool) (he : SameEdit s.mem s'.mem u.mem u'.mem)
    (hr : SameRegisters i u u') (hq : u.port = s.port := by rfl) (hq' : u'.port = s'.port := by rfl) :
    SameResult i s s' (.next (u.complete ok)) (.next (u'.complete ok)) :=
  .next (.complete ok hr he (by rw [hq, RandomPort.skip_zero]) (by rw [hq', RandomPort.skip_zero]))

/-- OPERAND, raised before any write (rule R321). -/
theorem SameResult.operand (hr : SameRegisters i s s') :
    SameResult i s s' (.next (s.raiseError State.errOperand)) (.next (s'.raiseError State.errOperand)) :=
  .next (.raiseError _ hr (.refl _ _) (by rw [RandomPort.skip_zero]) (by rw [RandomPort.skip_zero]))

/-! ## The commands that take no byte -/

theorem sameResult_polyMul (h : SameInputs .polyMul s s') :
    SameResult .polyMul s s' (execPolyMul s) (execPolyMul s') := by
  rw [execPolyMul, execPolyMul, h.load .pa, h.load .pb, h.params]
  obtain _ | a := s.load .pa
  · exact .fault _
  obtain _ | b := s.load .pb
  · exact .fault _
  exact .complete true ((SameEdit.refl _ _).store _ _) {}

theorem sameResult_polyMulmod (h : SameInputs .polyMulmod s s') :
    SameResult .polyMulmod s s' (execPolyMulmod s) (execPolyMulmod s') := by
  rw [execPolyMulmod, execPolyMulmod, h.load .pa, h.load .pb, h.load .g, h.params]
  obtain _ | a := s.load .pa
  · exact .fault _
  obtain _ | b := s.load .pb
  · exact .fault _
  obtain _ | g := s.load .g
  · exact .fault _
  dsimp only
  split
  · exact .operand {}
  · exact .complete true ((SameEdit.refl _ _).store _ _) {}

theorem sameResult_irredTest (h : SameInputs .irredTest s s') :
    SameResult .irredTest s s' (execIrredTest s) (execIrredTest s') := by
  rw [execIrredTest, execIrredTest, h.load .g, h.params]
  obtain _ | g := s.load .g
  · exact .fault _
  dsimp only
  split
  · exact .operand {}
  · exact .complete _ (.refl _ _) {}

theorem sameResult_buildH (h : SameInputs .buildH s s') :
    SameResult .buildH s s' (execBuildH s) (execBuildH s') := by
  rw [execBuildH, execBuildH, h.load .g, h.load .l, h.params]
  obtain _ | g := s.load .g
  · exact .fault _
  obtain _ | l := s.load .l
  · exact .fault _
  exact .complete _ ((SameEdit.refl _ _).storeRows h.params _) {}

theorem sameResult_systematizeFails (hp : s'.params = s.params) :
    SameResult .systematize s s' (.next s.systematizeFails) (.next s'.systematizeFails) :=
  .complete false ((SameEdit.refl _ _).havoc hp .mat) { pivmask := fun _ => rfl }

theorem sameResult_systematize (h : SameInputs .systematize s s') :
    SameResult .systematize s s' (execSystematize s) (execSystematize s') := by
  rw [execSystematize, execSystematize, h.loadRows, h.params]
  obtain _ | rows := s.loadRows
  · exact .fault _
  dsimp only
  by_cases hf : s.params.variantF = true
  · rw [if_pos hf, if_pos hf, h.load .l (by simp [inputSpans, hf])]
    obtain _ | l := s.load .l
    · exact .fault _
    dsimp only
    obtain _ | out := semiSystematic s.params rows l
    · exact sameResult_systematizeFails h.params
    exact .complete true (((SameEdit.refl _ _).storeRows h.params _).store _ _) { pivmask := fun _ => rfl }
  · rw [if_neg hf, if_neg hf]
    obtain _ | rows' := eliminate rows 0 s.params.r
    · exact sameResult_systematizeFails h.params
    exact .complete true ((SameEdit.refl _ _).storeRows h.params _) { pivmask := fun _ => rfl }

theorem sameResult_encode (h : SameInputs .encode s s') :
    SameResult .encode s s' (execEncode s) (execEncode s') := by
  rw [execEncode, execEncode, h.loadBits .evec, h.loadRightBlock, h.params]
  obtain _ | e := s.loadBits .evec
  · exact .fault _
  obtain _ | rows := s.loadRightBlock
  · exact .fault _
  exact .complete true ((SameEdit.refl _ _).storeBits h.params _ _) {}

theorem sameResult_decSyndrome (h : SameInputs .decSyndrome s s') :
    SameResult .decSyndrome s s' (execDecSyndrome s) (execDecSyndrome s') := by
  rw [execDecSyndrome, execDecSyndrome, h.loadBits .syn, h.load .g, h.load .l, h.params]
  obtain _ | v := s.loadBits .syn
  · exact .fault _
  obtain _ | g := s.load .g
  · exact .fault _
  obtain _ | l := s.load .l
  · exact .fault _
  exact .complete _ ((SameEdit.refl _ _).store _ _) {}

theorem sameResult_bmSolve (h : SameInputs .bmSolve s s') :
    SameResult .bmSolve s s' (execBmSolve s) (execBmSolve s') := by
  rw [execBmSolve, execBmSolve, h.load .s, h.params]
  obtain _ | syn := s.load .s
  · exact .fault _
  exact .complete _ ((SameEdit.refl _ _).store _ _) { bmL := fun _ => rfl }

theorem sameResult_rootFind (h : SameInputs .rootFind s s') :
    SameResult .rootFind s s' (execRootFind s) (execRootFind s') := by
  rw [execRootFind, execRootFind, h.load .sig, h.load .l, h.load .g, h.load .s, h.params]
  obtain _ | sig := s.load .sig
  · exact .fault _
  obtain _ | l := s.load .l
  · exact .fault _
  obtain _ | g := s.load .g
  · exact .fault _
  obtain _ | syn := s.load .s
  · exact .fault _
  exact .complete _ ((SameEdit.refl _ _).storeRoots h.params _) { weight := fun _ => rfl }

theorem sameResult_decode (h : SameInputs .decode s s') :
    SameResult .decode s s' (execDecode s) (execDecode s') := by
  rw [execDecode, execDecode, h.loadBits .syn, h.load .g, h.load .l, h.params]
  obtain _ | v := s.loadBits .syn
  · exact .fault _
  obtain _ | g := s.load .g
  · exact .fault _
  obtain _ | l := s.load .l
  · exact .fault _
  exact .complete _ (SameEdit.storeRoots (((SameEdit.refl _ _).store _ _).store _ _) h.params _)
    { weight := fun _ => rfl, bmL := fun _ => rfl }

/-- What rule R114 lists for a command beside the memories: OPA and OPB. -/
structure SameOperands (i : Instr) (s s' : State) : Prop extends SameInputs i s s' where
  opa : i = .gfAdd ∨ i = .gfMul ∨ i = .gfInv → s'.opa = s.opa
  opb : i = .gfAdd ∨ i = .gfMul → s'.opb = s.opb

/-- A command that takes no byte answers alike from two states that agree on its inputs. -/
theorem sameResult_exec (h : SameOperands i s s') (hi : i ≠ .goppaSample ∧ i ≠ .supportGen ∧ i ≠ .fwSample) :
    SameResult i s s' (exec i s) (exec i s') := by
  obtain ⟨h, hopa, hopb⟩ := h
  obtain ⟨hgoppa, hsupport, hfw⟩ := hi
  cases i with
  | nop => exact .complete true (.refl _ _) {}
  | gfAdd => exact .complete true (.refl _ _) { res := fun hi => congrArg₂ gadd (hopa hi) (hopb (by simp)) }
  | gfMul =>
    exact .complete true (.refl _ _) { res := fun hi => by simp only [h.params, hopa hi, hopb (.inr rfl)] }
  | gfInv => exact .complete true (.refl _ _) { res := fun hi => by simp only [h.params, hopa hi] }
  | polyMul => exact sameResult_polyMul h
  | polyMulmod => exact sameResult_polyMulmod h
  | irredTest => exact sameResult_irredTest h
  | goppaSample => exact absurd rfl hgoppa
  | supportGen => exact absurd rfl hsupport
  | buildH => exact sameResult_buildH h
  | systematize => exact sameResult_systematize h
  | fwSample => exact absurd rfl hfw
  | encode => exact sameResult_encode h
  | decSyndrome => exact sameResult_decSyndrome h
  | bmSolve => exact sameResult_bmSolve h
  | rootFind => exact sameResult_rootFind h
  | decode => exact sameResult_decode h

/-! ## The samplers -/

theorem execGoppaSample_of_found {a : Nat} {g : List Word} {q : RandomPort}
    (h : attempts (goppaAttempt s.params) 0 s.port s.params.goppaMaxTries = .found a g q) :
    execGoppaSample s =
      .next ((State.store { s with port := q, tries := BitVec.ofNat 32 a } .g g).complete true) := by
  rw [execGoppaSample, h]

theorem execGoppaSample_of_exhausted {q : RandomPort}
    (h : attempts (goppaAttempt s.params) 0 s.port s.params.goppaMaxTries = .exhausted q) :
    execGoppaSample s = .next ((State.havoc
      { s with port := q, tries := BitVec.ofNat 32 s.params.goppaMaxTries } .g).raiseError State.errExhausted) := by
  rw [execGoppaSample, h]

theorem execFwSample_of_found {a : Nat} {pos : List Nat} {q : RandomPort}
    (h : attempts (fwAttempt s.params) 0 s.port s.params.fwMaxTries = .found a pos q) :
    execFwSample s = .next ((State.storeBits
      { s with port := q, weight := BitVec.ofNat 17 s.params.t, tries := BitVec.ofNat 32 a }
      .evec (Bits.ofPositions pos)).complete true) := by
  rw [execFwSample, h]

theorem execFwSample_of_exhausted {q : RandomPort}
    (h : attempts (fwAttempt s.params) 0 s.port s.params.fwMaxTries = .exhausted q) :
    execFwSample s = .next ((State.havoc
      { s with port := q, weight := 0#17, tries := BitVec.ofNat 32 s.params.fwMaxTries } .evec).raiseError
        State.errExhausted) := by
  rw [execFwSample, h]

theorem execSupportGen_of_length_eq {ds w : List Word} {q : RandomPort}
    (h : s.port.draw s.params s.params.supportDraws = some (ds, q)) (hw : acceptSupport s.params ds = w)
    (hl : w.length = s.params.n) : execSupportGen s =
      .next ((State.store { s with port := q, accept := BitVec.ofNat 17 w.length } .l w).complete true) := by
  rw [execSupportGen, h]
  dsimp only
  rw [hw, if_pos hl]

theorem execSupportGen_of_length_ne {ds w : List Word} {q : RandomPort}
    (h : s.port.draw s.params s.params.supportDraws = some (ds, q)) (hw : acceptSupport s.params ds = w)
    (hl : w.length ≠ s.params.n) : execSupportGen s =
      .next ((State.havoc { s with port := q, accept := BitVec.ofNat 17 w.length } .l).complete false) := by
  rw [execSupportGen, h]
  dsimp only
  rw [hw, if_neg hl]

section samplers

variable (hp : s'.params = s.params) (hidle : t.eng ≠ s.eng) (hn : s.port.offered.length = t.port.offered.length + n)
  (ht : s'.port.offered.take n = s.port.offered.take n)
include hp hidle hn ht

theorem execGoppaSample_congr (he : execGoppaSample s = .next t) :
    ∃ t', execGoppaSample s' = .next t' ∧ SameAnswer .goppaSample n s s' t t' := by
  have hedit := SameEdit.refl s.mem s'.mem
  rcases execGoppaSample_next he with rfl | ⟨a, g, q, ha, rfl⟩ | ⟨q, ha, rfl⟩
  · exact absurd rfl hidle
  · obtain ⟨hq, ha'⟩ := attempts_found_congr (goppaAttempt_is _) (looksAt_goppaAttempt _) ha hn ht
    rw [← hp] at ha'
    exact ⟨_, execGoppaSample_of_found ha', .complete true { tries := fun _ => rfl } (hedit.store _ _) hq rfl⟩
  · obtain ⟨hq, ha'⟩ := attempts_exhausted_congr (goppaAttempt_is _) (looksAt_goppaAttempt _) ha hn ht
    rw [← hp] at ha'
    exact ⟨_, execGoppaSample_of_exhausted ha', .raiseError _ { tries := fun _ => by simp [hp] }
      (hedit.havoc hp _) hq rfl⟩

theorem execFwSample_congr (he : execFwSample s = .next t) :
    ∃ t', execFwSample s' = .next t' ∧ SameAnswer .fwSample n s s' t t' := by
  have hedit := SameEdit.refl s.mem s'.mem
  rcases execFwSample_next he with rfl | ⟨a, pos, q, ha, rfl⟩ | ⟨q, ha, rfl⟩
  · exact absurd rfl hidle
  · obtain ⟨hq, ha'⟩ := attempts_found_congr (fwAttempt_is _) (looksAt_fwAttempt _) ha hn ht
    rw [← hp] at ha'
    exact ⟨_, execFwSample_of_found ha', .complete true { weight := fun _ => by simp [hp], tries := fun _ => rfl }
      (hedit.storeBits hp _ _) hq rfl⟩
  · obtain ⟨hq, ha'⟩ := attempts_exhausted_congr (fwAttempt_is _) (looksAt_fwAttempt _) ha hn ht
    rw [← hp] at ha'
    exact ⟨_, execFwSample_of_exhausted ha', .raiseError _ { weight := fun _ => rfl, tries := fun _ => by simp [hp] }
      (hedit.havoc hp _) hq rfl⟩

theorem execSupportGen_congr (he : execSupportGen s = .next t) :
    ∃ t', execSupportGen s' = .next t' ∧ SameAnswer .supportGen n s s' t t' := by
  have hedit := SameEdit.refl s.mem s'.mem
  rcases execSupportGen_next he with rfl | ⟨ds, q, u, hd, rfl, hcase⟩
  · exact absurd rfl hidle
  have hn' : s.port.offered.length = q.offered.length + n := by rcases hcase with ⟨-, rfl⟩ | ⟨-, rfl⟩ <;> exact hn
  obtain ⟨hq, hd'⟩ := draw_congr hd hn' ht
  rw [← hp] at hd'
  have hw : acceptSupport s'.params ds = acceptSupport s.params ds := by rw [hp]
  rcases hcase with ⟨hl, rfl⟩ | ⟨hl, rfl⟩
  · exact ⟨_, execSupportGen_of_length_eq hd' hw (by rw [hp, hl]),
      .complete true { accept := fun _ => rfl } (hedit.store _ _) hq rfl⟩
  · exact ⟨_, execSupportGen_of_length_ne hd' hw (by rwa [hp]),
      .complete false { accept := fun _ => rfl } (hedit.havoc hp _) hq rfl⟩

end samplers

/-- Every command answers alike from two states that agree on its inputs and on the bytes it takes. -/
theorem exec_congr (h : SameOperands i s s') (he : exec i s = .next t) (hidle : t.eng ≠ s.eng)
    (hn : s.port.offered.length = t.port.offered.length + n) (ht : s'.port.offered.take n = s.port.offered.take n) :
    ∃ t', exec i s' = .next t' ∧ SameAnswer i n s s' t t' := by
  by_cases hi : i ≠ .goppaSample ∧ i ≠ .supportGen ∧ i ≠ .fwSample
  · obtain ⟨t', he', ha⟩ := (sameResult_exec h hi).exists_next he
    have hport : t.port = s.port := by rw [ha.port, RandomPort.skip_zero]
    obtain rfl : n = 0 := by rw [hport] at hn; omega
    exact ⟨t', he', ha⟩
  · obtain rfl | rfl | rfl : i = .goppaSample ∨ i = .supportGen ∨ i = .fwSample := by tauto
    · exact execGoppaSample_congr h.params hidle hn ht he
    · exact execSupportGen_congr h.params hidle hn ht he
    · exact execFwSample_congr h.params hidle hn ht he

/-- Settles O13: the command's result from `s` and from `s'` is one completion with one change of the memories. -/
theorem outcomeDependsOnListedInputs : Obligations.OutcomeDependsOnListedInputs := by
  intro i s s' t n hp hopa hopb hwords hbusy _ he hidle hn ht
  have hne : t.eng ≠ s.eng := by simp [hidle, hbusy]
  obtain ⟨t', he', ha⟩ := exec_congr ⟨⟨hp, hwords⟩, hopa, hopb⟩ he hne hn ht
  obtain ⟨hidle', hok, herr, hcode, ⟨hres, hweight, htries, haccept, hbmL, hpiv⟩, hedit, hport, hport'⟩ := ha
  have hlen' := length_le_of_take_eq ht (by omega)
  refine ⟨t', he', hidle', hok, herr, hcode, hres, hweight, htries, haccept, hbmL, hpiv, ?_, ?_, ?_,
    fun _ _ a _ => hedit a⟩
  · rw [hport', RandomPort.skip_offered, List.length_drop]; omega
  · rw [hport', RandomPort.skip_offered]
  · rw [hport, hport', RandomPort.skip_rcnt, RandomPort.skip_rcnt, add_sub_cancel_left,
      add_sub_cancel_left]

end Sys2Proof.Machine
end

section
/-! What one step can do to the flags, the engine, CMD, the parameters and the memory's list, said once: a command's
completion (rule R143), a reset (rules R350, R351), and the other changes the ports make. -/

namespace Sys2Proof.Machine

variable {s t u : State}

/-! ## Completion -/

/-- From `s` to `t` a command ends: ENG goes idle and STATUS takes a completion (rule R143); CMD and the parameters
stay, and the memory keeps its canonical form. -/
structure Completes (s t : State) : Prop where
  params : t.params = s.params
  cmd : t.cmd = s.cmd
  eng : t.eng = .idle
  status : ∃ ok code, code.toNat ≤ 3 ∧ t.status = s.status.complete ok code
  wf : Memory.wf s.mem → Memory.wf t.mem

/-- The command's writes, as `u` has them, and then `complete(ok)`. -/
theorem Completes.of_complete (ok : Bool) (hm : Memory.wf s.mem → Memory.wf u.mem) (hp : u.params = s.params := by rfl)
    (hc : u.cmd = s.cmd := by rfl) (hs : u.status = s.status := by rfl) : Completes s (u.complete ok) :=
  ⟨hp, hc, rfl, ⟨ok, 0#4, by decide, congrArg (·.complete ok 0#4) hs⟩, hm⟩

/-- The command's writes, as `u` has them, and then an error. -/
theorem Completes.of_raiseError {code : BitVec 4} (hcode : code.toNat ≤ 3) (hm : Memory.wf s.mem → Memory.wf u.mem)
    (hp : u.params = s.params := by rfl) (hc : u.cmd = s.cmd := by rfl) (hs : u.status = s.status := by rfl) :
    Completes s (u.raiseError code) :=
  ⟨hp, hc, rfl, ⟨false, code, hcode, congrArg (·.complete false code) hs⟩, hm⟩

/-- The commands that draw bytes, and so may wait (rule R95). -/
def IsSampler (i : Instr) : Prop := i = .goppaSample ∨ i = .supportGen ∨ i = .fwSample

/-- A sampler reads no memory and needs no monic G (rules R114, R321). -/
theorem IsSampler.checked {i : Instr} (h : IsSampler i) (s : State) :
    s.inputsWritten i = true ∧ s.operandError i = false := by
  obtain rfl | rfl | rfl := h <;> exact ⟨rfl, rfl⟩

/-- What the run of a command answers is its completion, or, for a sampler that waits, the state it was given. -/
theorem exec_completes {i : Instr} (h : exec i s = .next t) : t = s ∧ IsSampler i ∨ Completes s t := by
  cases i with
  | nop => cases h; exact .inr (.of_complete true id)
  | gfAdd => cases h; exact .inr (.of_complete true id)
  | gfMul => cases h; exact .inr (.of_complete true id)
  | gfInv => cases h; exact .inr (.of_complete true id)
  | polyMul =>
    obtain ⟨a, b, -, -, rfl⟩ := execPolyMul_next h
    exact .inr (.of_complete true fun hm => wf_store hm _ _)
  | polyMulmod =>
    obtain ⟨a, b, g, -, -, -, ⟨-, rfl⟩ | ⟨-, rfl⟩⟩ := execPolyMulmod_next h
    · exact .inr (.of_raiseError (by decide) id)
    · exact .inr (.of_complete true fun hm => wf_store hm _ _)
  | irredTest =>
    obtain ⟨g, -, ⟨-, rfl⟩ | ⟨-, rfl⟩⟩ := execIrredTest_next h
    · exact .inr (.of_raiseError (by decide) id)
    · exact .inr (.of_complete _ id)
  | goppaSample =>
    obtain rfl | ⟨a, g, q, -, rfl⟩ | ⟨q, -, rfl⟩ := execGoppaSample_next h
    · exact .inl ⟨rfl, .inl rfl⟩
    · exact .inr (.of_complete true fun hm => Memory.wf_writeWords hm _ _)
    · exact .inr (.of_raiseError (by decide) fun hm => Memory.wf_havoc hm _ _)
  | supportGen =>
    obtain rfl | ⟨ds, q, u, -, rfl, ⟨-, rfl⟩ | ⟨-, rfl⟩⟩ := execSupportGen_next h
    · exact .inl ⟨rfl, .inr (.inl rfl)⟩
    · exact .inr (.of_complete true fun hm => Memory.wf_writeWords hm _ _)
    · exact .inr (.of_complete false fun hm => Memory.wf_havoc hm _ _)
  | buildH =>
    obtain ⟨g, l, -, -, rfl⟩ := execBuildH_next h
    exact .inr (.of_complete _ fun hm => wf_store hm _ _)
  | systematize =>
    obtain ⟨rows, -, rfl | ⟨-, rows', -, rfl⟩ | ⟨-, l, out, -, -, rfl⟩⟩ := execSystematize_next h
    · exact .inr (.of_complete false fun hm => wf_stateHavoc hm _)
    · exact .inr (.of_complete true fun hm => wf_store hm _ _)
    · exact .inr (.of_complete true fun hm => wf_store (wf_store hm _ _) _ _)
  | fwSample =>
    obtain rfl | ⟨a, pos, q, -, rfl⟩ | ⟨q, -, rfl⟩ := execFwSample_next h
    · exact .inl ⟨rfl, .inr (.inr rfl)⟩
    · exact .inr (.of_complete true fun hm => Memory.wf_writeWords hm _ _)
    · exact .inr (.of_raiseError (by decide) fun hm => Memory.wf_havoc hm _ _)
  | encode =>
    obtain ⟨e, rows, -, -, rfl⟩ := execEncode_next h
    exact .inr (.of_complete true fun hm => wf_store hm _ _)
  | decSyndrome =>
    obtain ⟨v, g, l, -, -, -, rfl⟩ := execDecSyndrome_next h
    exact .inr (.of_complete _ fun hm => wf_store hm _ _)
  | bmSolve =>
    obtain ⟨syn, -, rfl⟩ := execBmSolve_next h
    exact .inr (.of_complete _ fun hm => wf_store hm _ _)
  | rootFind =>
    obtain ⟨sig, l, g, syn, -, -, -, -, rfl⟩ := execRootFind_next h
    exact .inr (.of_complete _ fun hm => Memory.wf_writeWords hm _ _)
  | decode =>
    obtain ⟨v, g, l, syn, x, -, -, -, -, -, rfl⟩ := execDecode_next h
    exact .inr (.of_complete _ fun hm => Memory.wf_writeWords (wf_store (wf_store hm _ _) _ _) _ _)

/-! ## Reset -/

/-- From `s` to `t` CMD, STATUS and ENG take their reset values (rule R61); the parameters stay, and the memory keeps
its canonical form. -/
structure Resets (s t : State) : Prop where
  params : t.params = s.params
  cmd : t.cmd = 0#32
  eng : t.eng = .idle
  status : t.status = Status.reset
  wf : Memory.wf s.mem → Memory.wf t.mem

theorem foldl_havoc_params (rs : List Region) (s : State) : (rs.foldl State.havoc s).params = s.params := by
  induction rs generalizing s with
  | nil => rfl
  | cons r rs ih => exact ih (s.havoc r)

theorem wf_foldl_havoc (rs : List Region) (h : Memory.wf s.mem) : Memory.wf (rs.foldl State.havoc s).mem := by
  induction rs generalizing s with
  | nil => exact h
  | cons r rs ih => exact ih (wf_stateHavoc h r)

theorem softReset_resets (s : State) (full : Nat) : Resets s (s.softReset full) := by
  unfold State.softReset
  split
  · exact ⟨rfl, rfl, rfl, rfl, id⟩
  · exact ⟨foldl_havoc_params _ (s.loseBytes full), rfl, rfl, rfl, wf_foldl_havoc (s := s.loseBytes full) _⟩

theorem powerOn_resets (s : State) (full : Nat) : Resets s (s.powerOn full) :=
  have h := softReset_resets s full
  ⟨h.params, h.cmd, h.eng, h.status, fun _ => List.Pairwise.nil⟩

/-! ## The step -/

/-- The changes a step can make, once the input taken has left the list. -/
inductive Change (s : State) : State → Prop
  /-- Nothing the invariants below speak of: a wait, a read, a byte offered, a write of IRQ_EN, OPA or OPB. -/
  | quiet {t : State} (hp : t.params = s.params := by rfl) (hc : t.cmd = s.cmd := by rfl)
      (hs : t.status = s.status := by rfl) (he : t.eng = s.eng := by rfl) (hm : t.mem = s.mem := by rfl) : Change s t
  /-- DONE cleared or kept, and any WERR: a STATUS write (rule R37), a dropped write (rule R141). -/
  | flags (done werr : Bool) (hd : done = true → s.status.done = true) :
      Change s { s with status := { s.status with done := done, werr := werr } }
  /-- A memory word written by the host, the engine being idle. -/
  | stored (he : s.eng = .idle) (r : Region) (i : Nat) (w : Word) : Change s (writeMem r i w s)
  /-- A reset of either kind. -/
  | reset {t : State} (h : Resets s t) : Change s t
  /-- A command that stays in flight, its checks passed (rules R140, R147, R321). -/
  | issued (w : Word) (i : Instr) (hd : decode w = .command i) (hw : s.inputsWritten i = true)
      (ho : s.operandError i = false) : Change s (s.issue w i)
  /-- A completion, `u` being the state its issue left. -/
  | completed {u t : State} (hp : u.params = s.params) (hm : u.mem = s.mem)
      (hop : s.status.lastOp = opcodeOf s.cmd → u.status.lastOp = opcodeOf u.cmd) (h : Completes u t) : Change s t

theorem writeCtrl_change (w : Word) (s : State) : Change s (writeCtrl w s) := by
  unfold writeCtrl
  split
  · exact .reset (softReset_resets s _)
  · exact .quiet

theorem writeReg_change (r : Reg) (w : Word) (s : State) : Change s (writeReg r w s) := by
  cases r <;> exact .quiet

/-- An ILLEGAL word and a command nothing overlaps complete within the write; a sampler that waits, and a command that
is overlapped, stay in flight. -/
theorem issueCommand_change {w : Word} {ov : Bool} (h : issueCommand w ov s = .next t) : Change s t := by
  obtain ⟨-, -, rfl⟩ | ⟨i, hd, ⟨hw, ho, rfl⟩ | hx⟩ := issueCommand_cases h
  · exact .completed (u := { s with cmd := w, status := s.status.issue (opcodeOf w) }) rfl rfl (fun _ => rfl)
      (.of_raiseError (code := State.errIllegal) (by decide) id)
  · exact .issued w i hd hw ho
  · obtain ⟨rfl, hi⟩ | hc := exec_completes hx
    · exact .issued w i hd (hi.checked s).1 (hi.checked s).2
    · exact .completed (u := s.issue w i) rfl rfl (fun _ => rfl) hc

theorem hostWrite_change {a width : Nat} {w : Word} {ov : Bool} (h : hostWrite a width w ov s = .next t) :
    Change s t := by
  obtain rfl | rfl | ⟨-, rfl⟩ | ⟨-, hx⟩ | ⟨-, r, rfl⟩ | ⟨he, rfl | ⟨r, i, -, rfl⟩⟩ := hostWrite_cases h
  · exact writeCtrl_change w s
  · exact .flags _ _ fun hd => (Bool.and_eq_true_iff.1 hd).1
  · exact .flags _ _ id
  · exact issueCommand_change hx
  · exact writeReg_change r w s
  · exact .quiet
  · exact .stored he r i w

theorem accept_change {x : Input} (h : accept x s = .next t) : Change s t := by
  obtain ⟨act, ov⟩ := x
  cases act with
  | read a width =>
    obtain ⟨v, rfl⟩ | ⟨-, rfl⟩ := hostRead_cases h
    · exact .quiet
    · exact .quiet
  | write a width w => exact hostWrite_change h
  | offer b => cases h; exact .quiet
  | powerOn => cases h; exact .reset (powerOn_resets s _)

/-- A step takes the oldest input or none, and makes one of the changes. -/
theorem step_change (h : step s = .next t) : ∃ rest, Change { s with inputs := rest } t := by
  obtain ⟨-, ha⟩ := live_of_step h
  obtain hx | ⟨i, he, hx, hidle⟩ := advance_cases ha
  · cases hi : s.inputs with
    | nil =>
      rw [acceptNext_nil hi] at hx
      cases hx
      exact ⟨s.inputs, .quiet⟩
    | cons x rest =>
      rw [acceptNext_cons hi] at hx
      exact ⟨rest, accept_change hx⟩
  · obtain ⟨rfl, -⟩ | hc := exec_completes hx
    · cases he.symm.trans hidle
    · exact ⟨s.inputs, .completed rfl rfl id hc⟩

end Sys2Proof.Machine
end

section
/-! The invariants of 10_state.md: the memory's canonical form (rule R60), the agreement of STATUS, ENG and CMD (rules
R37, R46), and the parameters (rule R33). Every step keeps them, and the state after reset meets them. -/

namespace Sys2Proof.Machine

variable {s t : State}

/-- Settles O14: each change a step makes keeps the list in order. -/
theorem stepKeepsMemoryCanonical : Obligations.StepKeepsMemoryCanonical := by
  intro s t h hs
  obtain ⟨rest, hc⟩ := step_change hs
  cases hc with
  | quiet _ _ _ _ hm => exact hm ▸ h
  | flags => exact h
  | stored _ r i w => exact Memory.wf_writeWord h _ _
  | reset hr => exact hr.wf h
  | issued => exact h
  | completed _ hm _ hc => exact hc.wf (hm ▸ h)

/-- Settles O19: no change a step makes touches the parameters. -/
theorem parametersNeverChange : Obligations.ParametersNeverChange := by
  intro s t hs
  obtain ⟨rest, hc⟩ := step_change hs
  cases hc with
  | quiet hp => exact hp
  | flags => rfl
  | stored => rfl
  | reset hr => exact hr.params
  | issued => rfl
  | completed hp _ _ hc => exact hc.params.trans hp

/-! ## The flags, the engine and CMD -/

namespace State.StatusCoherent

/-- Only the flags, CMD and ENG matter, and, while a command is in flight, the memory and the parameters. -/
theorem congr (h : s.StatusCoherent) (hp : t.params = s.params := by rfl) (hc : t.cmd = s.cmd := by rfl)
    (hs : t.status = s.status := by rfl) (he : t.eng = s.eng := by rfl) (hm : t.mem = s.mem := by rfl) :
    t.StatusCoherent := by
  obtain ⟨⟩ := s
  obtain ⟨⟩ := t
  cases hp; cases hc; cases hs; cases he; cases hm
  exact ⟨h.busy_iff, h.err_iff, h.code_produced, h.ok_quiet, h.done_quiet, h.last_op, h.in_flight, h.inputs_written,
    h.operand_checked⟩

/-- On an idle engine nothing is asked of a command in flight. -/
theorem of_idle (he : s.eng = .idle) (hb : s.status.busy = false) (herr : s.status.err = true ↔ s.status.errcode ≠ 0#4)
    (hcode : s.status.errcode.toNat ≤ 3) (hok : s.status.ok = true → s.status.err = false)
    (hop : s.status.lastOp = opcodeOf s.cmd) : s.StatusCoherent where
  busy_iff := by simp [hb, he]
  err_iff := herr
  code_produced := hcode
  ok_quiet h := ⟨hb, hok h⟩
  done_quiet _ := hb
  last_op := hop
  in_flight i h := by cases he.symm.trans h
  inputs_written i h := by cases he.symm.trans h
  operand_checked i h := by cases he.symm.trans h

/-- DONE may be cleared, and WERR is free. -/
theorem withFlags (h : s.StatusCoherent) {done werr : Bool} (hd : done = true → s.status.done = true) :
    StatusCoherent { s with status := { s.status with done := done, werr := werr } } :=
  ⟨h.busy_iff, h.err_iff, h.code_produced, h.ok_quiet, fun h' => h.done_quiet (hd h'), h.last_op, h.in_flight,
    h.inputs_written, h.operand_checked⟩

theorem writeMem (h : s.StatusCoherent) (he : s.eng = .idle) (r : Region) (i : Nat) (w : Word) :
    (writeMem r i w s).StatusCoherent :=
  have hb : s.status.busy = false := by simpa [he] using h.busy_iff
  of_idle he hb h.err_iff h.code_produced (fun h' => (h.ok_quiet h').2) h.last_op

/-- The flags a reset leaves are all 0, and so is CMD. -/
theorem of_reset (hc : t.cmd = 0#32) (he : t.eng = .idle) (hs : t.status = Status.reset) : t.StatusCoherent := by
  refine of_idle he ?_ ?_ ?_ ?_ ?_ <;> simp only [hs, hc] <;> decide

/-- A command in flight has the flags of its issue, and has passed its checks. -/
theorem issue {w : Word} {i : Instr} (hd : decode w = .command i) (hw : s.inputsWritten i = true)
    (ho : s.operandError i = false) : (s.issue w i).StatusCoherent where
  busy_iff := by simp
  err_iff := by simp
  code_produced := by simp
  ok_quiet h := by simp at h
  done_quiet h := by simp at h
  last_op := rfl
  in_flight j h := by cases h; exact hd
  inputs_written j h := by cases h; exact hw
  operand_checked j h := by cases h; rwa [operandError_issue]

/-- A completion makes the flags agree, whatever they were; LAST_OP is kept. -/
theorem of_completes (h : Completes s t) (hop : s.status.lastOp = opcodeOf s.cmd) : t.StatusCoherent := by
  obtain ⟨ok, code, hcode, hs⟩ := h.status
  refine of_idle h.eng ?_ ?_ ?_ ?_ ?_ <;> rw [hs]
  · rfl
  · simp
  · exact hcode
  · simp
  · rw [h.cmd]; exact hop

end State.StatusCoherent

/-- Settles O15: each change a step makes keeps the agreement. -/
theorem stepKeepsStatusCoherent : Obligations.StepKeepsStatusCoherent := by
  intro s t h hs
  obtain ⟨rest, hc⟩ := step_change hs
  have h : State.StatusCoherent { s with inputs := rest } := h.congr
  cases hc with
  | quiet hp hc hs he hm => exact h.congr hp hc hs he hm
  | flags _ _ hd => exact h.withFlags hd
  | stored he r i w => exact h.writeMem he r i w
  | reset hr => exact .of_reset hr.cmd hr.eng hr.status
  | issued w i hd hw ho => exact .issue hd hw ho
  | completed _ _ hop hc => exact .of_completes hc (hop h.last_op)

/-- Settles O18: after reset every register is 0, the engine is idle and no word is written. -/
theorem resetMeetsInvariants : Obligations.ResetMeetsInvariants := by
  intro p _
  have hmem := memoryReduced_nil p
  exact ⟨List.Pairwise.nil, .of_reset rfl rfl rfl,
    ⟨reduced_zero p, reduced_zero p, reduced_zero p, hmem.words, hmem.whole, hmem.inside⟩,
    ⟨Nat.zero_le _, Nat.zero_le _, Nat.zero_le _, Nat.zero_le _, fun _ => rfl⟩⟩

end Sys2Proof.Machine
end

section
/-! What the host reads (10_state.md section 3): every register's value (rules R33-R42), and the answer of a read while
the engine is IDLE (rules R34, R60, R83, R92). -/

namespace Sys2Proof.Machine

variable {s : State}

/-! ## The parameter registers -/

/-- The bounds of rule R7 that make the window and the ceilings fit their registers (rule R33). -/
theorem legal_fits {p : Params} (h : p.legal = true) :
    p.n ≤ 2 ^ 16 ∧ p.mu ≤ 64 ∧ p.nu ≤ 64 ∧ (p.variantF = false → p.mu = 0 ∧ p.nu = 0) ∧
      p.goppaMaxTries < 2 ^ 32 ∧ p.fwMaxTries < 2 ^ 32 ∧ p.supportDraws < 2 ^ 32 := by
  obtain ⟨-, hm, -, -, -, hn, -⟩ := legal_bounds h
  have hn : p.n ≤ 2 ^ 16 := hn.trans (Nat.pow_le_pow_right (by omega) hm)
  simp only [Params.legal, Params.windowOk, Params.triesOk, Params.drawsOk, Bool.and_eq_true, decide_eq_true_eq] at h
  obtain ⟨⟨⟨-, hw⟩, ⟨⟨-, hg⟩, -⟩, hf⟩, -, hd⟩ := h
  cases hv : p.variantF <;> simp [hv] at hw
  · exact ⟨hn, by omega, by omega, fun _ => hw, hg, hf, hd⟩
  · exact ⟨hn, by omega, by omega, by simp, hg, hf, hd⟩

/-- Fields side by side: the number of the upper one is shifted past the lower one. -/
theorem toNat_append_add {n m : Nat} (x : BitVec n) (y : BitVec m) : (x ++ y).toNat = 2 ^ m * x.toNat + y.toNat := by
  rw [BitVec.toNat_append, ← Nat.shiftLeft_add_eq_or_of_lt y.isLt, Nat.shiftLeft_eq, Nat.mul_comm]

/-- PARAM_FLAGS: VARIANT_F is bit 0 and N_EQ_Q bit 1 (rule R33). -/
theorem toNat_paramFlags (s : State) : (readReg s .paramFlags).toNat =
    (if s.params.variantF then 1 else 0) + (if s.params.n = 2 ^ s.params.m then 2 else 0) := by
  have hq : s.params.nEqQ = decide (s.params.n = 2 ^ s.params.m) := rfl
  simp only [readReg, hq, toNat_append_add]
  cases s.params.variantF <;> by_cases h : s.params.n = 2 ^ s.params.m <;> simp [h]

/-- PARAM_MUNU: MU in the low half and NU from bit 16 on (rule R33). -/
theorem toNat_paramMunu (hmu : s.params.mu ≤ 64) (hnu : s.params.nu ≤ 64) :
    (readReg s .paramMunu).toNat = s.params.mu + 2 ^ 16 * s.params.nu := by
  simp only [readReg, toNat_append_add, BitVec.toNat_ofNat]
  omega

/-- Settles O20: a legal record's numbers fit their registers, so each reads as itself. -/
theorem parameterRegistersReadBuildValues : Obligations.ParameterRegistersReadBuildValues := by
  intro s h
  obtain ⟨-, hm, -, ht, hr, -⟩ := legal_bounds h
  obtain ⟨hn, hmu, hnu, hplain, hg, hf, hd⟩ := legal_fits h
  have fits {x : Nat} (hx : x < 2 ^ 32) : (BitVec.ofNat 32 x).toNat = x := by
    rw [BitVec.toNat_ofNat, Nat.mod_eq_of_lt hx]
  refine ⟨rfl, rfl, fits (by omega), fits (by omega), fits (by omega), fits ?_, fits ?_, toNat_paramFlags s,
    toNat_paramMunu hmu hnu, fun hv => ?_, fits hg, fits hf, fits hd⟩
  · simp only [Params.k]; omega
  · simp only [Params.r]; omega
  · obtain ⟨h0, h1⟩ := hplain hv
    simp [readReg, h0, h1]

/-! ## The other registers -/

/-- A 64-bit register is its two halves. -/
theorem halves_append (x : BitVec 64) : x.extractLsb' 32 32 ++ x.extractLsb' 0 32 = x := by
  rw [BitVec.extractLsb'_append_extractLsb'_eq_extractLsb' (by rfl)]
  simp

/-- Settles O21: a narrow register is zero-extended, and a 64-bit one read in two halves. -/
theorem registersReadBack : Obligations.RegistersReadBack := by
  intro s
  have wide {n : Nat} (x : BitVec n) (hn : n ≤ 32) : (x.setWidth 32).toNat = x.toNat :=
    BitVec.toNat_setWidth_of_le hn
  refine ⟨?_, rfl, rfl, rfl, rfl, rfl, wide _ (by omega), wide _ (by omega), wide _ (by omega), halves_append _,
    halves_append _⟩
  cases h : s.irqEn <;> simp [readReg, h]

/-- Settles O27: bit `j` falls into one of the fields of the word, or between two of them. -/
theorem statusWordLayout : Obligations.StatusWordLayout := by
  intro s j
  simp only [readReg, Status.toWord, BitVec.getLsbD_append, BitVec.getLsbD_ofBool, BitVec.getLsbD_zero, Nat.sub_sub]
  obtain hj | hj | hj | hj | hj | hj :
      j < 5 ∨ 5 ≤ j ∧ j < 8 ∨ 8 ≤ j ∧ j < 12 ∨ 12 ≤ j ∧ j < 16 ∨ 16 ≤ j ∧ j < 24 ∨ 24 ≤ j := by omega
  · interval_cases j <;> simp
  all_goals simp (disch := omega) only [if_pos, if_neg]

/-- Settles O31: the registers from CTRL on hold 0, and the parameter registers lie below 0x040. -/
theorem powerOnState : Obligations.PowerOnState := by
  intro p
  refine ⟨fun r h => ?_, rfl, rfl, fun _ => rfl, rfl⟩
  cases r
  case ctrl | cmd | status | opa | opb | res | weight | tries | accept | bmL | pivmaskLo | pivmaskHi | rcntLo |
      rcntHi => simp [readReg, State.resetOf, Status.toWord, Status.reset]
  all_goals exact absurd h (by decide)

/-! ## The answer of a read -/

/-- An offset of the register window that no register has is reserved (rule R34). -/
theorem locate_reserved (p : Params) {a : Nat} (hal : a % 4 = 0) (hlt : a < 0x1000) (h : ∀ r : Reg, a ≠ r.offset) :
    locate p a 4 = some .reserved := by
  have hnone : (Reg.all.find? fun r => r.offset == a) = none :=
    List.find?_eq_none.2 fun r _ => by simpa using (h r).symm
  simp [locate, hal, hlt, hnone]

theorem hostRead_idle_next {a width : Nat} {x : Target} {v : Word} (hl : locate s.params a width = some x)
    (he : s.eng = .idle) (hv : readTarget s x = some v) : hostRead a width s = .next { s with rdata := v } := by
  simp [hostRead, hl, he, hv]

theorem hostRead_idle_uninit {a width : Nat} {x : Target} (hl : locate s.params a width = some x)
    (he : s.eng = .idle) (hv : readTarget s x = none) : hostRead a width s = .fault .uninit := by
  simp [hostRead, hl, he, hv]

/-- Settles O23: `locate` says which case a read is, and that case what it answers. -/
theorem idleReadAnswers : Obligations.IdleReadAnswers := by
  intro s a ov rest ⟨hlive, hin⟩ he
  have hstep : step s = hostRead a 4 { s with inputs := rest } := step_of_takesInput hlive hin (.inl he)
  rw [hstep]
  refine ⟨?_, fun hal hlt hr => ?_, ?_, ?_⟩
  · rintro r rfl
    exact hostRead_idle_next (locate_reg _ r) he rfl
  · exact hostRead_idle_next (locate_reserved _ hal hlt hr) he rfl
  · rintro r i v hi rfl hv
    exact hostRead_idle_next (locate_word hlive.1 hi) he hv
  · rintro r i hi rfl hv
    exact hostRead_idle_uninit (locate_word hlive.1 hi) he hv

end Sys2Proof.Machine
end

section
/-! What a host write does to the registers (rules R34, R35, R37, R39). -/

namespace Sys2Proof.Machine

variable {s : State} {a width : Nat} {w : Word} {ov : Bool}

theorem hostWrite_ctrl (hl : locate s.params a width = some (.reg .ctrl)) :
    hostWrite a width w ov s = .next (writeCtrl w s) := by simp [hostWrite, hl]

/-- Without SRST, CTRL takes IRQ_EN (rule R35). -/
theorem writeCtrl_irqEn (h : w.getLsbD 0 = false) : writeCtrl w s = { s with irqEn := w.getLsbD 1 } := by
  rw [writeCtrl, h]
  rfl

theorem hostWrite_status (hl : locate s.params a width = some (.reg .status)) :
    hostWrite a width w ov s = .next { s with status := s.status.writeOneToClear w } := by simp [hostWrite, hl]

theorem hostWrite_idle_reg {r : Reg} (hl : locate s.params a width = some (.reg r)) (he : s.eng = .idle)
    (hc : r ≠ .ctrl) (hm : r ≠ .cmd) (hs : r ≠ .status) : hostWrite a width w ov s = .next (writeReg r w s) := by
  cases r <;> simp_all [hostWrite]

theorem hostWrite_idle_reserved (hl : locate s.params a width = some .reserved) (he : s.eng = .idle) :
    hostWrite a width w ov s = .next s := by simp [hostWrite, hl, he]

/-- Every register but OPA and OPB ignores the write (10_state.md section 3). -/
theorem writeReg_readOnly {r : Reg} (ha : r ≠ .opa) (hb : r ≠ .opb) (w : Word) (s : State) : writeReg r w s = s := by
  cases r
  case opa => exact absurd rfl ha
  case opb => exact absurd rfl hb
  all_goals rfl

/-- The bits OPA and OPB keep of a word are its value modulo 2^M (rule R39). -/
theorem toNat_and_lowMask_degree {p : Params} (h : p.legal = true) (w : Word) :
    (w &&& lowMask p.m).toNat = w.toNat % 2 ^ p.m := by
  obtain ⟨-, hm, -⟩ := legal_bounds h
  rw [toNat_and_lowMask, Nat.min_eq_left (by omega)]

/-- Settles O25: a register's offset names it, and any other offset below 0x1000 is reserved. -/
theorem idleRegisterWrites : Obligations.IdleRegisterWrites := by
  intro s a w ov rest ⟨hlive, hin⟩ htakes
  have hstep : step s = hostWrite a 4 w ov { s with inputs := rest } := step_of_takesInput hlive hin htakes
  rw [hstep]
  refine ⟨?_, fun he => ⟨?_, ?_, fun hal hlt hctrl hcmd hstatus hopa hopb => ?_⟩⟩
  · rintro rfl h0
    exact (hostWrite_ctrl (locate_reg _ .ctrl)).trans (congrArg _ (writeCtrl_irqEn h0))
  · rintro rfl
    exact ⟨_, hostWrite_idle_reg (locate_reg _ .opa) he (by decide) (by decide) (by decide),
      toNat_and_lowMask_degree hlive.1 w⟩
  · rintro rfl
    exact ⟨_, hostWrite_idle_reg (locate_reg _ .opb) he (by decide) (by decide) (by decide),
      toNat_and_lowMask_degree hlive.1 w⟩
  · by_cases hr : ∃ r : Reg, a = r.offset
    · obtain ⟨r, rfl⟩ := hr
      have other {r' : Reg} (h : r.offset ≠ r'.offset) : r ≠ r' := fun e => h (congrArg Reg.offset e)
      have hwrite := hostWrite_idle_reg (s := { s with inputs := rest }) (w := w) (ov := ov) (locate_reg _ r) he
        (other hctrl) (other hcmd) (other hstatus)
      rwa [writeReg_readOnly (other hopa) (other hopb)] at hwrite
    · exact hostWrite_idle_reserved (locate_reserved _ hal hlt fun r e => hr ⟨r, e⟩) he

/-- Settles O26: the port takes the write, and STATUS takes it in any engine state. -/
theorem statusWriteOneToClear : Obligations.StatusWriteOneToClear := by
  intro s w ov rest ⟨hlive, hin⟩ htakes
  rw [step_of_takesInput hlive hin htakes]
  exact hostWrite_status (ov := ov) (locate_reg _ .status)

end Sys2Proof.Machine
end

section
/-! The engine's turn, in which a command completes or a sampler waits (rules R93, R95), and how a command's run can
end. -/

namespace Sys2Proof.Machine

variable {s t : State} {i : Instr} {f : Fault}

/-! ## The engine's turn -/

/-- The next input, if there is one, does not overlap the command in flight. -/
theorem inputOverlaps_eq_false (h : ∀ x ∈ s.inputs.head?, x.overlap = false) : s.inputOverlaps = false := by
  unfold State.inputOverlaps
  split
  · rfl
  · rename_i x rest hin
    exact h x (by simp [hin])

theorem engineTurn_of_completes (hx : exec i s = .next t) (ht : t.eng = .idle) : engineTurn i s = .next t := by
  simp [engineTurn, hx, ht]

/-- Where a sampler lacks a byte, its turn is the ports' (rule R95). -/
theorem engineTurn_of_starves (he : s.eng = .busy i) (hs : s.starves i) : engineTurn i s = acceptNext s := by
  simp [engineTurn, exec_of_starves hs, he]

/-- Settles O7: the engine has the turn, and the command completes in it. -/
theorem busyEngineCompletes : Obligations.BusyEngineCompletes := by
  intro s t i hlive he hquiet hx ht
  rw [step_of_live hlive, advance_engine he (inputOverlaps_eq_false hquiet)]
  exact engineTurn_of_completes hx ht

/-- Settles O8: the port takes the offer in any engine state; with no input the starved sampler's turn passes to ports
that have nothing to take. -/
theorem offeredByteJoinsStreamAndStarvedSamplerWaits : Obligations.OfferedByteJoinsStreamAndStarvedSamplerWaits := by
  constructor
  · intro s b ov rest ⟨hlive, hin⟩ htakes
    exact step_of_takesInput hlive hin htakes
  · intro s i hlive he hin hstarves
    have hquiet : s.inputOverlaps = false := inputOverlaps_eq_false (by simp [hin])
    rw [step_of_live hlive, advance_engine he hquiet, engineTurn_of_starves he hstarves, acceptNext_nil hin]

/-! ## How a command's run can end -/

/-- A command's run answers a state or faults UNINIT (rule R147). -/
inductive AnswersOrUninit : Result → Prop where
  | next (t : State) : AnswersOrUninit (.next t)
  | uninit : AnswersOrUninit (.fault .uninit)

theorem AnswersOrUninit.fault_eq {x : Result} (h : AnswersOrUninit x) (hx : x = .fault f) : f = .uninit := by
  cases h with
  | next t => cases hx
  | uninit => cases hx; rfl

theorem execSystematize_answersOrUninit (s : State) : AnswersOrUninit (execSystematize s) := by
  unfold execSystematize
  split
  · exact .uninit
  split
  · split
    · exact .uninit
    · split <;> exact .next _
  · split <;> exact .next _

/-- Every command has its meaning from every state, and unwritten inputs are its only fault (rule R147). -/
theorem exec_answersOrUninit (i : Instr) (s : State) : AnswersOrUninit (exec i s) := by
  cases i with
  | nop | gfAdd | gfMul | gfInv => exact .next _
  | polyMul | buildH | encode | decSyndrome | bmSolve | rootFind | decode =>
    simp only [exec, execPolyMul, execBuildH, execEncode, execDecSyndrome, execBmSolve, execRootFind, execDecode]
    split
    · exact .next _
    · exact .uninit
  | polyMulmod | irredTest =>
    simp only [exec, execPolyMulmod, execIrredTest]
    split
    · split <;> exact .next _
    · exact .uninit
  | goppaSample | fwSample =>
    simp only [exec, execGoppaSample, execFwSample]
    split <;> exact .next _
  | supportGen =>
    simp only [exec, execSupportGen]
    split
    · exact .next _
    · split <;> exact .next _
  | systematize => exact execSystematize_answersOrUninit s

theorem issueCommand_answersOrUninit (w : Word) (ov : Bool) (s : State) : AnswersOrUninit (issueCommand w ov s) := by
  unfold issueCommand
  split
  · exact .next _
  split
  · split
    · exact .next _
    · exact .uninit
  · exact exec_answersOrUninit _ _

end Sys2Proof.Machine
end

section
/-! The bus error (rules R81-R85): where an access names nothing, and that nothing else raises one. -/

namespace Sys2Proof.Machine

variable {s : State} {a width : Nat}

/-- An access names a target exactly where it is 4 bytes wide, aligned, and in the register window or at a used word. -/
theorem locate_isSome_iff {p : Params} (h : p.legal = true) : (locate p a width).isSome ↔
    width = 4 ∧ a % 4 = 0 ∧ (a < 0x1000 ∨ ∃ r i, i < Region.words p r ∧ a = r.base + 4 * i) := by
  constructor
  · intro hsome
    obtain ⟨x, hx⟩ := Option.isSome_iff_exists.1 hsome
    obtain ⟨hw, hal, ⟨r, -, rfl⟩ | ⟨-, hlt, -⟩ | ⟨r, i, -, hi, rfl⟩⟩ := locate_cases hx
    · exact ⟨hw, hal, .inl (by cases r <;> decide)⟩
    · exact ⟨hw, hal, .inl hlt⟩
    · exact ⟨hw, hal, .inr ⟨r, i, hi, rfl⟩⟩
  · rintro ⟨rfl, hal, hlt | ⟨r, i, hi, rfl⟩⟩
    · by_cases hr : ∃ r : Reg, a = r.offset
      · obtain ⟨r, rfl⟩ := hr
        simp
      · simp [locate_reserved p hal hlt fun r e => hr ⟨r, e⟩]
    · simp [show locate p (r.base + 4 * i) 4 = _ from locate_word h hi]

theorem hostRead_answersOrUninit {x : Target} (h : locate s.params a width = some x) :
    AnswersOrUninit (hostRead a width s) := by
  simp only [hostRead, h]
  split
  · exact .next _
  · split
    · exact .next _
    · exact .uninit

theorem hostWrite_answersOrUninit {x : Target} (h : locate s.params a width = some x) (w : Word) (ov : Bool) :
    AnswersOrUninit (hostWrite a width w ov s) := by
  unfold hostWrite
  split
  · rename_i hnone
    cases hnone.symm.trans h
  · exact .next _
  · exact .next _
  · split
    · exact .next _
    · split
      · exact issueCommand_answersOrUninit w ov s
      · exact .next _
      · exact .next _
      · exact .next _

/-- An access as the port takes it: a read, or a write of `w`. -/
def access (read : Bool) (a width : Nat) (w : Word) (ov : Bool) : Input :=
  ⟨if read then .read a width else .write a width w, ov⟩

/-- The error response of an access: the read data 0 for a read, none for a write (rule R83). -/
def errorResponse (read : Bool) : Fault := .busError (if read then some 0#32 else none)

/-- An access that names no target gets the error response; any other answers a state or faults UNINIT. -/
theorem accept_access_cases (s : State) (read : Bool) (a width : Nat) (w : Word) (ov : Bool) :
    locate s.params a width = none ∧ accept (access read a width w ov) s = .fault (errorResponse read) ∨
    (locate s.params a width).isSome ∧ AnswersOrUninit (accept (access read a width w ov) s) := by
  cases hl : locate s.params a width with
  | none =>
    refine .inl ⟨rfl, ?_⟩
    cases read
    · exact hostWrite_busError hl
    · exact hostRead_busError hl
  | some x =>
    refine .inr ⟨rfl, ?_⟩
    cases read
    · exact hostWrite_answersOrUninit hl w ov
    · exact hostRead_answersOrUninit hl

/-- Settles O22: the port takes the access whatever the engine does, and `locate` decides. -/
theorem busErrorExactly : Obligations.BusErrorExactly := by
  intro s a width w ov rest read hlive htakes hin
  have hstep : step s = accept (access read a width w ov) { s with inputs := rest } :=
    step_of_takesInput hlive hin htakes
  rw [hstep, ← locate_isSome_iff hlive.1]
  obtain ⟨hl, hx⟩ | ⟨hl, hx⟩ := accept_access_cases { s with inputs := rest } read a width w ov
  · exact ⟨iff_of_true hx (Option.not_isSome_iff_eq_none.2 hl), fun _ => hx⟩
  · have hno : ∀ d, accept (access read a width w ov) { s with inputs := rest } ≠ .fault (.busError d) :=
      fun d hd => by cases hx.fault_eq hd
    exact ⟨iff_of_false (hno _) (not_not.2 hl), fun ⟨d, hd⟩ => absurd hd (hno d)⟩

end Sys2Proof.Machine
end

section
/-! A memory word written by the host (rules R60, R86, R88, R89). -/

namespace Sys2Proof.Machine

variable {s : State} {p : Params} {r : Region} {i j : Nat}

theorem getLsbD_lowMask (hj : j < 32) (n : Nat) : (lowMask n).getLsbD j = decide (j < n) := by
  rw [lowMask, BitVec.getLsbD_ofNat, Nat.testBit_two_pow_sub_one]
  simp [hj]

/-- The bits a word of a memory has: bits M-1..0 of an element (rule R86), those short of the length of a bit vector
(rules R88, R89). -/
theorem getLsbD_wordMask (p : Params) (r : Region) (i : Nat) (hj : j < 32) : (wordMask p r i).getLsbD j = decide (
    if r = .evec then 32 * i + j < p.n
    else if r = .syn then 32 * i + j < p.r
    else if r = .mat then 32 * (i % p.rowWords) + j < p.n
    else j < p.m) := by
  have hshort (k n : Nat) : j < n - k ↔ k + j < n := by omega
  cases r <;> simp [wordMask, getLsbD_lowMask hj, hshort]

theorem hostWrite_idle_word {a width : Nat} {w : Word} {ov : Bool} (hl : locate s.params a width = some (.word r i))
    (he : s.eng = .idle) : hostWrite a width w ov s = .next (writeMem r i w s) := by simp [hostWrite, hl, he]

/-- Settles O24: the masked word is stored, and every other byte and field stays. -/
theorem memoryWordReadsBack : Obligations.MemoryWordReadsBack := by
  intro s r i w ov rest ⟨hlive, hin⟩ he hi
  have hstep : step s = .next (writeMem r i w { s with inputs := rest }) :=
    (step_of_takesInput hlive hin (.inl he)).trans (hostWrite_idle_word (locate_word hlive.1 hi) he)
  refine ⟨_, w &&& wordMask s.params r i, hstep, rfl, Memory.readWord_writeWord_same _ _ _, fun j hj => ?_,
    fun a ha => ?_⟩
  · rw [BitVec.getLsbD_and, getLsbD_wordMask _ _ _ hj]
  · exact (Memory.read_writeWord _ _ _ a).trans (if_neg (by rw [Region.addr]; omega))

end Sys2Proof.Machine
end

section
/-! Decoding and encoding agree (rules R110, R112, R113, R115): the opcode map reads the same way in both directions, and
a word with RSVD zero is its opcode under 24 zero bits. -/

namespace Sys2Proof

variable {w : Word} {o : BitVec 8} {i : Instr}

theorem Laws.Encoding.statement : ∀ i, Encoding.Statement i
  | .nop => Encoding.nop
  | .gfAdd => Encoding.gfAdd
  | .gfMul => Encoding.gfMul
  | .gfInv => Encoding.gfInv
  | .polyMul => Encoding.polyMul
  | .polyMulmod => Encoding.polyMulmod
  | .irredTest => Encoding.irredTest
  | .goppaSample => Encoding.goppaSample
  | .supportGen => Encoding.supportGen
  | .buildH => Encoding.buildH
  | .systematize => Encoding.systematize
  | .fwSample => Encoding.fwSample
  | .encode => Encoding.encode
  | .decSyndrome => Encoding.decSyndrome
  | .bmSolve => Encoding.bmSolve
  | .rootFind => Encoding.rootFind
  | .decode => Encoding.decode

theorem decode_encode (i : Instr) : decode (encode i) = .command i := by
  obtain ⟨-, -, hdec⟩ := Laws.Encoding.statement i
  exact hdec

/-- No command has two rows in the map of rule R113. -/
theorem opcode_eq_of_ofOpcode (h : ofOpcode o = some i) : opcode i = o := by
  unfold ofOpcode at h
  split at h <;> cases h <;> exact BitVec.eq_of_toNat_eq (Eq.symm ‹o.toNat = _›)

theorem rsvdZero_iff_div_eq_zero : rsvdZero w = true ↔ w.toNat / 256 = 0 := by
  rw [rsvdZero, beq_iff_eq, ← BitVec.toNat_inj, BitVec.extractLsb'_toNat, Nat.shiftRight_eq_div_pow,
    BitVec.toNat_ofNat]
  omega

/-- The format of rule R110: RSVD, then OPCODE. -/
theorem zero_append_opcodeOf (h : rsvdZero w = true) : 0#24 ++ opcodeOf w = w := by
  have hr : w.extractLsb' 8 24 = 0#24 := beq_iff_eq.1 h
  calc 0#24 ++ opcodeOf w = w.extractLsb' 8 24 ++ w.extractLsb' 0 8 := by rw [hr, opcodeOf]
    _ = w.extractLsb' 0 (24 + 8) :=
        BitVec.extractLsb'_append_extractLsb'_eq_extractLsb' (start₁ := 0) (len₁ := 8) rfl
    _ = w := BitVec.extractLsb'_eq_self

theorem decode_of_rsvdZero_false (h : rsvdZero w = false) : decode w = .illegal .reservedBits := by simp [decode, h]

/-- With RSVD zero the opcode decides, so no word is rejected for its RSVD. -/
theorem decode_cases_of_rsvdZero (h : rsvdZero w = true) :
    (∃ i, ofOpcode (opcodeOf w) = some i ∧ decode w = .command i) ∨ decode w = .illegal .reservedOpcode := by
  cases ho : ofOpcode (opcodeOf w) with
  | none => exact .inr (by simp [decode, h, ho])
  | some i => exact .inl ⟨i, rfl, by simp [decode, h, ho]⟩

theorem decode_eq_reservedBits_iff : decode w = .illegal .reservedBits ↔ w.toNat / 256 ≠ 0 := by
  rw [Ne, ← rsvdZero_iff_div_eq_zero]
  cases h : rsvdZero w with
  | false => simp [decode_of_rsvdZero_false h]
  | true => obtain ⟨i, -, hd⟩ | hd := decode_cases_of_rsvdZero h <;> simp [hd]

theorem eq_encode_of_decode (hd : decode w = .command i) : w = encode i := by
  cases h : rsvdZero w with
  | false => simp [decode_of_rsvdZero_false h] at hd
  | true =>
    obtain ⟨j, ho, hj⟩ | hj := decode_cases_of_rsvdZero h
    · obtain rfl : j = i := Decoded.command.inj (hj.symm.trans hd)
      rw [encode, opcode_eq_of_ofOpcode ho, zero_append_opcodeOf h]
    · simp [hj] at hd

/-- The two kinds of ILLEGAL word and the commands' words share no word and leave out none. -/
theorem Decoded.eq_reservedOpcode_iff (d : Decoded) :
    d = .illegal .reservedOpcode ↔ ¬d = .illegal .reservedBits ∧ ∀ i, ¬d = .command i := by
  match d with
  | .command i => simp
  | .illegal .reservedBits => simp
  | .illegal .reservedOpcode => simp

/-- Settles O1: `encode` inverts `decode` on the commands, and a reserved opcode is what the other two clauses leave. -/
theorem decodeExactlyTheTable : Obligations.DecodeExactlyTheTable := by
  intro w
  have hcommand (i : Instr) : decode w = .command i ↔ w = encode i :=
    ⟨eq_encode_of_decode, fun h => h ▸ decode_encode i⟩
  refine ⟨hcommand, decode_eq_reservedBits_iff, ?_⟩
  simp only [Decoded.eq_reservedOpcode_iff (decode w), decode_eq_reservedBits_iff, hcommand, not_not, Ne]

/-- Settles O2: each row of the table is the word of its command. -/
theorem opcodeTableWords : Obligations.OpcodeTableWords :=
  ⟨decode_encode .nop, decode_encode .gfAdd, decode_encode .gfMul, decode_encode .gfInv, decode_encode .polyMul,
    decode_encode .polyMulmod, decode_encode .irredTest, decode_encode .goppaSample, decode_encode .supportGen,
    decode_encode .buildH, decode_encode .systematize, decode_encode .fwSample, decode_encode .encode,
    decode_encode .decSyndrome, decode_encode .bmSolve, decode_encode .rootFind, decode_encode .decode,
    decode_eq_reservedBits_iff.2 (by decide), by decide⟩

end Sys2Proof
end

section
/-! Where a command finds its inputs written (rules R60, R114, R147): that is where its loads answer, and the only thing
its run can fail on. -/

namespace Sys2Proof.Machine

variable {s : State} {i : Instr}

/-! ## Loads and spans -/

@[simp] theorem loadSpan_span (s : State) (r : Region) : s.loadSpan (r.span s.params) = s.load r := rfl

theorem loadSpan_isSome_iff {x : Span} : (s.loadSpan x).isSome ↔
    ∀ j, j < x.count → (Memory.readWord s.mem (x.region.base + 4 * (x.first + j))).isSome := by
  simp only [State.loadSpan, Memory.readWords_isSome_iff, Region.addr, Nat.mul_add, Nat.add_assoc]

/-- The check at issue looks at every word the command reads. -/
theorem inputsWritten_iff : s.inputsWritten i = true ↔ ∀ x ∈ inputSpans s.params i, ∀ j, j < x.count →
    (Memory.readWord s.mem (x.region.base + 4 * (x.first + j))).isSome := by
  simp only [State.inputsWritten, List.all_eq_true, loadSpan_isSome_iff]

theorem inputsWritten_eq_false_iff : s.inputsWritten i = false ↔ ∃ x ∈ inputSpans s.params i, ∃ j, j < x.count ∧
    Memory.readWord s.mem (x.region.base + 4 * (x.first + j)) = none := by
  rw [← Bool.not_eq_true, inputsWritten_iff]
  simp

@[simp] theorem inputsWritten_issue (s : State) (w : Word) (i j : Instr) :
    (s.issue w j).inputsWritten i = s.inputsWritten i := rfl

theorem mapM_isSome_iff {α β : Type} {f : α → Option β} {l : List α} :
    (l.mapM f).isSome ↔ ∀ x ∈ l, (f x).isSome := by
  induction l with
  | nil => simp
  | cons x l ih =>
    rw [List.mapM_cons, List.forall_mem_cons, ← ih]
    cases f x <;> cases l.mapM f <;> simp

/-- MAT's rows load exactly where its words do (rule R89). -/
theorem loadRows_isSome (s : State) : s.loadRows.isSome = (s.load .mat).isSome := by
  rw [Bool.eq_iff_iff, State.loadRows, mapM_isSome_iff, load_isSome_iff]
  simp only [List.mem_range, Option.isSome_map, loadSpan_isSome_iff, Region.words, Region.addr]
  constructor
  · intro h k hk
    have hw : 0 < s.params.rowWords := Nat.pos_of_mul_pos_left (by omega : 0 < s.params.r * s.params.rowWords)
    have := h (k / s.params.rowWords) (Nat.div_lt_of_lt_mul (by rwa [Nat.mul_comm])) (k % s.params.rowWords)
      (Nat.mod_lt _ hw)
    rwa [Nat.mul_comm (k / _), Nat.div_add_mod] at this
  · intro h r hr j hj
    have := Nat.mul_le_mul_right s.params.rowWords (show r + 1 ≤ s.params.r from hr)
    rw [Nat.add_one_mul] at this
    exact h _ (by omega)

/-- The check for ENCODE: all of EVEC, and the right block of MAT. -/
theorem inputsWritten_encode (s : State) :
    s.inputsWritten .encode = ((s.loadBits .evec).isSome && s.loadRightBlock.isSome) := by
  have hblock : s.loadRightBlock.isSome = ((inputSpans s.params .encode).tail.all fun x => (s.loadSpan x).isSome) := by
    rw [Bool.eq_iff_iff, State.loadRightBlock, mapM_isSome_iff]
    simp [inputSpans]
  rw [hblock, State.loadBits, Option.isSome_map]
  rfl

/-! ## A command fails on its inputs alone -/

/-- The answer of a run whose inputs are written, or not: a next state, or the fault UNINIT (rule R147). -/
inductive UninitUnless : Bool → Result → Prop where
  | next (t : State) : UninitUnless true (.next t)
  | uninit : UninitUnless false (.fault .uninit)

theorem UninitUnless.fault_iff {b : Bool} {x : Result} (h : UninitUnless b x) : x = .fault .uninit ↔ b = false := by
  cases h <;> simp

theorem UninitUnless.exists_next {b : Bool} {x : Result} (h : UninitUnless b x) (hb : b = true) :
    ∃ t, x = .next t := by
  cases h with
  | next t => exact ⟨t, rfl⟩
  | uninit => cases hb

theorem execPolyMul_uninitUnless (s : State) : UninitUnless (s.inputsWritten .polyMul) (execPolyMul s) := by
  simp only [State.inputsWritten, inputSpans, List.all_cons, List.all_nil, loadSpan_span, execPolyMul]
  obtain _ | a := s.load .pa
  · exact .uninit
  obtain _ | b := s.load .pb
  · exact .uninit
  exact .next _

theorem execPolyMulmod_uninitUnless (s : State) :
    UninitUnless (s.inputsWritten .polyMulmod) (execPolyMulmod s) := by
  simp only [State.inputsWritten, inputSpans, List.all_cons, List.all_nil, loadSpan_span, execPolyMulmod]
  obtain _ | a := s.load .pa
  · exact .uninit
  obtain _ | b := s.load .pb
  · exact .uninit
  obtain _ | g := s.load .g
  · exact .uninit
  dsimp only
  split <;> exact .next _

theorem execIrredTest_uninitUnless (s : State) : UninitUnless (s.inputsWritten .irredTest) (execIrredTest s) := by
  simp only [State.inputsWritten, inputSpans, List.all_cons, List.all_nil, loadSpan_span, execIrredTest]
  obtain _ | g := s.load .g
  · exact .uninit
  dsimp only
  split <;> exact .next _

theorem execBuildH_uninitUnless (s : State) : UninitUnless (s.inputsWritten .buildH) (execBuildH s) := by
  simp only [State.inputsWritten, inputSpans, List.all_cons, List.all_nil, loadSpan_span, execBuildH]
  obtain _ | g := s.load .g
  · exact .uninit
  obtain _ | l := s.load .l
  · exact .uninit
  exact .next _

theorem execSystematize_uninitUnless (s : State) :
    UninitUnless (s.inputsWritten .systematize) (execSystematize s) := by
  simp only [State.inputsWritten, inputSpans, List.all_cons, loadSpan_span, execSystematize, ← loadRows_isSome]
  obtain _ | rows := s.loadRows
  · exact .uninit
  dsimp only
  split
  · simp only [List.all_cons, List.all_nil, loadSpan_span]
    obtain _ | l := s.load .l
    · exact .uninit
    dsimp only
    split <;> exact .next _
  · split <;> exact .next _

theorem execEncode_uninitUnless (s : State) : UninitUnless (s.inputsWritten .encode) (execEncode s) := by
  rw [inputsWritten_encode, execEncode]
  obtain _ | e := s.loadBits .evec
  · exact .uninit
  obtain _ | rows := s.loadRightBlock
  · exact .uninit
  exact .next _

theorem execBmSolve_uninitUnless (s : State) : UninitUnless (s.inputsWritten .bmSolve) (execBmSolve s) := by
  simp only [State.inputsWritten, inputSpans, List.all_cons, List.all_nil, loadSpan_span, execBmSolve]
  obtain _ | syn := s.load .s
  · exact .uninit
  exact .next _

theorem execRootFind_uninitUnless (s : State) : UninitUnless (s.inputsWritten .rootFind) (execRootFind s) := by
  simp only [State.inputsWritten, inputSpans, List.all_cons, List.all_nil, loadSpan_span, execRootFind]
  obtain _ | sig := s.load .sig
  · exact .uninit
  obtain _ | l := s.load .l
  · exact .uninit
  obtain _ | g := s.load .g
  · exact .uninit
  obtain _ | syn := s.load .s
  · exact .uninit
  exact .next _

/-- Every command answers a next state where its inputs are written, and faults UNINIT elsewhere. -/
theorem exec_uninitUnless (i : Instr) (s : State) : UninitUnless (s.inputsWritten i) (exec i s) := by
  cases i with
  | nop | gfAdd | gfMul | gfInv => exact .next _
  | goppaSample =>
    simp only [exec, execGoppaSample]
    split <;> exact .next _
  | supportGen =>
    simp only [exec, execSupportGen]
    split
    · exact .next _
    · split <;> exact .next _
  | fwSample =>
    simp only [exec, execFwSample]
    split <;> exact .next _
  | polyMul => exact execPolyMul_uninitUnless s
  | polyMulmod => exact execPolyMulmod_uninitUnless s
  | irredTest => exact execIrredTest_uninitUnless s
  | buildH => exact execBuildH_uninitUnless s
  | systematize => exact execSystematize_uninitUnless s
  | encode => exact execEncode_uninitUnless s
  | bmSolve => exact execBmSolve_uninitUnless s
  | rootFind => exact execRootFind_uninitUnless s
  | decSyndrome | decode =>
    simp only [State.inputsWritten, inputSpans, List.all_cons, List.all_nil, loadSpan_span, exec, execDecSyndrome,
      execDecode, State.loadBits]
    obtain _ | v := s.load .syn
    · exact .uninit
    obtain _ | g := s.load .g
    · exact .uninit
    obtain _ | l := s.load .l
    · exact .uninit
    exact .next _

/-- Settles O10: the run faults exactly where the check at issue would, and answers a next state elsewhere. -/
theorem uninitExactlyOnUnwrittenInput : Obligations.UninitExactlyOnUnwrittenInput := by
  intro s i
  refine ⟨(exec_uninitUnless i s).fault_iff.trans inputsWritten_eq_false_iff,
    fun f hf => (exec_answersOrUninit i s).fault_eq hf, fun r hr => ?_⟩
  have h := exec_answersOrUninit i s
  rw [hr] at h
  cases h

end Sys2Proof.Machine
end

section
/-! What a command writes and how it ends, said once (rules R41, R93, R97, R114, R143, R150): its frame, the bytes it
takes, and the four ends of its run. -/

namespace Sys2Proof.Machine

variable {s t u : State} {i : Instr}

/-! ## How many words a command stores -/

theorem length_pivotAt {rows rows' : List Bits} {c r : Nat} (h : pivotAt rows c r = some rows') :
    rows'.length = rows.length := by
  obtain ⟨j, -, rfl⟩ := Option.map_eq_some_iff.1 h
  rw [clearColumn, List.length_mapIdx, length_swapAt]

theorem length_eliminate {rows rows' : List Bits} {c n : Nat} (h : eliminate rows c n = some rows') :
    rows'.length = rows.length := by
  induction n generalizing rows c with
  | zero => cases h; rfl
  | succ n ih =>
    rw [eliminate] at h
    split at h
    · exact (ih h).trans (length_pivotAt ‹_›)
    · cases h

theorem length_swapPivots (k : Nat) (rows : List Bits) (l : List Word) (j : Nat) (piv : List Nat) :
    (swapPivots k rows l j piv).1.length = rows.length ∧ (swapPivots k rows l j piv).2.length = l.length := by
  induction piv generalizing rows l j with
  | nil => exact ⟨rfl, rfl⟩
  | cons pj rest ih =>
    rw [swapPivots]
    split
    · exact ih rows l _
    · simpa using ih (rows.map _) (swapAt _ l _ _) _

theorem length_semiSystematic {p : Params} {rows : List Bits} {l : List Word} {out : Systematic}
    (h : semiSystematic p rows l = some out) : out.rows.length = rows.length ∧ out.l.length = l.length := by
  simp only [semiSystematic, Option.bind_eq_bind, Option.bind_eq_some_iff] at h
  obtain ⟨rows1, h1, h⟩ := h
  split at h
  · cases h
  · obtain ⟨rows3, h3, h⟩ := Option.bind_eq_some_iff.1 h
    cases h
    obtain ⟨hr, hl⟩ := length_swapPivots (p.r - p.mu) rows1 l 0 (echelonPivots (window p rows1) 0 0 p.nu)
    exact ⟨(length_eliminate h3).trans (hr.trans (length_eliminate h1)), hl⟩

theorem length_loadRows {rows : List Bits} (h : s.loadRows = some rows) : rows.length = s.params.r := by
  obtain ⟨hlen, -⟩ := mapM_eq_some h
  rw [hlen, List.length_range]

theorem length_rows_words {p : Params} {rows : List Bits} (h : rows.length = p.r) :
    (rows.flatMap (Bits.toWords p.rowWords)).length ≤ Region.words p .mat := by
  rw [length_flatMap_toWords, h]
  exact le_rfl

/-- The locator has at most T+1 coefficients, of whatever record. -/
theorem length_locator (p : Params) (syn : List Word) : (locator (bmRun p syn)).length ≤ p.t + 1 := by
  rw [locator, List.length_reverse]
  refine List.foldlRecOn (motive := fun x : Bm => x.c.length ≤ p.t + 1) _ _ (by simp [bmInit]) fun x hx n _ => ?_
  simp only [bmStep]
  split
  · rw [List.length_zipWith]; omega
  · exact hx

theorem length_goppaAttempt {p : Params} {q q' : RandomPort} {g : List Word}
    (h : goppaAttempt p q = some (some g, q')) : g.length = p.t + 1 := by
  rw [goppaAttempt_is p q] at h
  simp only [Option.ite_none_right_eq_some, Option.some.injEq, Prod.mk.injEq] at h
  obtain ⟨-, ⟨-, rfl⟩, -⟩ := h
  simp [goppaCandidate, drawsAt]

/-! ## The memory outside the written windows -/

namespace sameOutside

variable {rs : List Region}

theorem refl (s : State) (rs : List Region) : sameOutside s s rs := fun _ _ => rfl

/-- Storing words that fit one of the windows. -/
theorem store (h : sameOutside s u rs) {r : Region} (hr : r ∈ rs) {ws : List Word}
    (hl : ws.length ≤ r.words s.params) : sameOutside s (u.store r ws) rs := by
  intro a ha
  have hout := has_eq_false (ha r hr)
  exact (Memory.read_writeWords_other (by omega)).trans (h a ha)

theorem havoc (h : sameOutside s u rs) {r : Region} (hr : r ∈ rs) (hp : u.params = s.params := by rfl) :
    sameOutside s (u.havoc r) rs := by
  intro a ha
  rw [State.havoc_mem, Memory.read_havoc, hp, if_neg (has_eq_false (ha r hr)), h a ha]

theorem storeBits (h : sameOutside s u rs) {r : Region} (hr : r ∈ rs) (v : Bits)
    (hp : u.params = s.params := by rfl) : sameOutside s (u.storeBits r v) rs :=
  h.store hr (by rw [Bits.length_toWords, hp])

theorem storeRows (h : sameOutside s u rs) (hr : .mat ∈ rs) {rows : List Bits} (hl : rows.length = s.params.r)
    (hp : u.params = s.params := by rfl) : sameOutside s (u.storeRows rows) rs :=
  h.store hr (by rw [hp]; exact length_rows_words hl)

end sameOutside

/-! ## What a command writes -/

/-- From `s` to `u` a command has made its writes, and its run has not ended: outside its row of rule R114 every
register and every byte is kept, and it took no more bytes than `maxBytes` says it can. -/
structure Writes (i : Instr) (s u : State) : Prop where
  mem : sameOutside s u (writeSet s.params i)
  port : ∃ n, n ≤ maxBytes s.params i ∧ u.port = s.port.skip n := by
    exact ⟨0, Nat.zero_le _, (RandomPort.skip_zero _).symm⟩
  params : u.params = s.params := by rfl
  irqEn : u.irqEn = s.irqEn := by rfl
  cmd : u.cmd = s.cmd := by rfl
  status : u.status = s.status := by rfl
  opa : u.opa = s.opa := by rfl
  opb : u.opb = s.opb := by rfl
  inputs : u.inputs = s.inputs := by rfl
  rdata : u.rdata = s.rdata := by rfl
  draws : u.draws = s.draws := by rfl
  res : i ≠ .gfAdd → i ≠ .gfMul → i ≠ .gfInv → u.res = s.res := by simp
  weight : i ≠ .fwSample → i ≠ .rootFind → i ≠ .decode → u.weight = s.weight := by simp
  tries : i ≠ .goppaSample → i ≠ .fwSample → u.tries = s.tries := by simp
  accept : i ≠ .supportGen → u.accept = s.accept := by simp
  bmL : i ≠ .bmSolve → i ≠ .decode → u.bmL = s.bmL := by simp
  pivmask : i ≠ .systematize → u.pivmask = s.pivmask := by simp

theorem Writes.refl (i : Instr) (s : State) : Writes i s s where
  mem := .refl s _

/-- The four ends of a command's run from `s`: it waits for a byte (rule R95), or it has made its writes and completes
(rule R143), or it raises OPERAND before any write, or EXHAUSTED (rule R320). -/
inductive Ends (i : Instr) (s : State) : State → Prop where
  | waits (h : s.starves i) : Ends i s s
  | completes {u : State} (ok : Bool) (h : Writes i s u) : Ends i s (u.complete ok)
  | operand (h : i = .polyMulmod ∨ i = .irredTest) : Ends i s (s.raiseError State.errOperand)
  | exhausted {u : State} (hi : i = .goppaSample ∨ i = .fwSample) (h : Writes i s u) :
      Ends i s (u.raiseError State.errExhausted)

/-! ## The samplers -/

theorem execGoppaSample_ends (h : execGoppaSample s = .next t) : Ends .goppaSample s t := by
  cases ha : attempts (goppaAttempt s.params) 0 s.port s.params.goppaMaxTries with
  | waits =>
    have hs := starves_goppaSample.2 ha
    cases (exec_of_starves hs).symm.trans h
    exact .waits hs
  | found a g q =>
    cases (execGoppaSample_of_found ha).symm.trans h
    obtain ⟨-, htries, htook, q0, hg⟩ := attempts_found (goppaAttempt_takes _) ha
    exact .completes true
      { mem := (sameOutside.refl s _).store List.mem_cons_self (length_goppaAttempt hg).le
        port := ⟨_, Nat.mul_le_mul_left _ (by omega), htook.eq_skip⟩ }
  | exhausted q =>
    cases (execGoppaSample_of_exhausted ha).symm.trans h
    exact .exhausted (.inl rfl)
      { mem := (sameOutside.refl s _).havoc List.mem_cons_self
        port := ⟨_, le_rfl, (attempts_exhausted (goppaAttempt_takes _) ha).eq_skip⟩ }

theorem execFwSample_ends (h : execFwSample s = .next t) : Ends .fwSample s t := by
  cases ha : attempts (fwAttempt s.params) 0 s.port s.params.fwMaxTries with
  | waits =>
    have hs := starves_fwSample.2 ha
    cases (exec_of_starves hs).symm.trans h
    exact .waits hs
  | found a pos q =>
    cases (execFwSample_of_found ha).symm.trans h
    obtain ⟨-, htries, htook, -⟩ := attempts_found (fwAttempt_takes _) ha
    exact .completes true
      { mem := (sameOutside.refl s _).storeBits List.mem_cons_self _
        port := ⟨_, Nat.mul_le_mul_left _ (by omega), htook.eq_skip⟩ }
  | exhausted q =>
    cases (execFwSample_of_exhausted ha).symm.trans h
    exact .exhausted (.inr rfl)
      { mem := (sameOutside.refl s _).havoc List.mem_cons_self
        port := ⟨_, le_rfl, (attempts_exhausted (fwAttempt_takes _) ha).eq_skip⟩ }

theorem execSupportGen_ends (h : execSupportGen s = .next t) : Ends .supportGen s t := by
  by_cases hs : s.starves .supportGen
  · cases (exec_of_starves hs).symm.trans h
    exact .waits hs
  obtain ⟨⟨ds, q⟩, hd⟩ := Option.ne_none_iff_exists'.1 (mt starves_supportGen.2 hs)
  have hport : q = s.port.skip (2 * s.params.supportDraws) := (draw_spec hd).2.1.eq_skip
  by_cases hl : (acceptSupport s.params ds).length = s.params.n
  · cases (execSupportGen_of_length_eq hd rfl hl).symm.trans h
    exact .completes true
      { mem := (sameOutside.refl s _).store List.mem_cons_self hl.le
        port := ⟨_, le_rfl, hport⟩ }
  · cases (execSupportGen_of_length_ne hd rfl hl).symm.trans h
    exact .completes false
      { mem := (sameOutside.refl s _).havoc List.mem_cons_self
        port := ⟨_, le_rfl, hport⟩ }

/-! ## Every command -/

theorem execSystematize_ends (h : execSystematize s = .next t) : Ends .systematize s t := by
  have hmat : .mat ∈ writeSet s.params .systematize := by simp [writeSet]; split <;> simp
  obtain ⟨rows, hrows, rfl | ⟨-, rows', he, rfl⟩ | ⟨hf, l, out, hl, hout, rfl⟩⟩ := execSystematize_next h
  · exact .completes false { mem := (sameOutside.refl s _).havoc hmat }
  · exact .completes true
      { mem := (sameOutside.refl s _).storeRows hmat ((length_eliminate he).trans (length_loadRows hrows)) }
  · obtain ⟨hlr, hll⟩ := length_semiSystematic hout
    refine .completes true { mem := ?_ }
    refine ((sameOutside.refl s _).storeRows hmat (hlr.trans (length_loadRows hrows))).store ?_ ?_
    · simp [writeSet, hf]
    · exact (hll.trans (length_load hl)).le

theorem execDecode_ends (h : execDecode s = .next t) : Ends .decode s t := by
  obtain ⟨v, g, l, syn, x, -, -, -, rfl, rfl, rfl⟩ := execDecode_next h
  have hmem (r : Region) (hr : r = .s ∨ r = .sig ∨ r = .evec) : r ∈ writeSet s.params .decode := by
    simpa [writeSet] using hr
  have hs := (sameOutside.refl s _).store (hmem .s (.inl rfl)) (elementList_doubledSyndrome s.params g l v).1.le
  have hsig := hs.store (hmem .sig (.inr (.inl rfl))) (length_locator s.params (doubledSyndrome s.params g l v))
  exact .completes _ { mem := sameOutside.storeBits hsig (hmem .evec (.inr (.inr rfl))) _ }

/-- Every run of a command that answers ends in one of the four ways. -/
theorem exec_ends (h : exec i s = .next t) : Ends i s t := by
  cases i with
  | nop => cases h; exact .completes true (.refl _ _)
  | gfAdd | gfMul | gfInv => cases h; exact .completes true { mem := .refl s _ }
  | polyMul =>
    obtain ⟨a, b, -, -, rfl⟩ := execPolyMul_next h
    exact .completes true
      { mem := (sameOutside.refl s _).store List.mem_cons_self (elementList_polyMul s.params a b).1.le }
  | polyMulmod =>
    obtain ⟨a, b, g, -, -, -, ⟨-, rfl⟩ | ⟨-, rfl⟩⟩ := execPolyMulmod_next h
    · exact .operand (.inl rfl)
    · exact .completes true
        { mem := (sameOutside.refl s _).store List.mem_cons_self (elementList_mulmod s.params a b g).1.le }
  | irredTest =>
    obtain ⟨g, -, ⟨-, rfl⟩ | ⟨-, rfl⟩⟩ := execIrredTest_next h
    · exact .operand (.inr rfl)
    · exact .completes _ (.refl _ _)
  | goppaSample => exact execGoppaSample_ends h
  | supportGen => exact execSupportGen_ends h
  | buildH =>
    obtain ⟨g, l, -, -, rfl⟩ := execBuildH_next h
    exact .completes _
      { mem := (sameOutside.refl s _).storeRows List.mem_cons_self (parityRows_fits s.params g l).1 }
  | systematize => exact execSystematize_ends h
  | fwSample => exact execFwSample_ends h
  | encode =>
    obtain ⟨e, rows, -, -, rfl⟩ := execEncode_next h
    exact .completes true { mem := (sameOutside.refl s _).storeBits List.mem_cons_self _ }
  | decSyndrome =>
    obtain ⟨v, g, l, -, -, -, rfl⟩ := execDecSyndrome_next h
    exact .completes _
      { mem := (sameOutside.refl s _).store List.mem_cons_self (elementList_doubledSyndrome s.params g l v).1.le }
  | bmSolve =>
    obtain ⟨syn, -, rfl⟩ := execBmSolve_next h
    exact .completes _ { mem := (sameOutside.refl s _).store List.mem_cons_self (length_locator s.params syn) }
  | rootFind =>
    obtain ⟨sig, l, g, syn, -, -, -, -, rfl⟩ := execRootFind_next h
    exact .completes _ { mem := sameOutside.storeBits (sameOutside.refl s _) List.mem_cons_self _ }
  | decode => exact execDecode_ends h

end Sys2Proof.Machine
end

section
/-! Completion (rules R143, R145, R149, R163-R165): what it does to STATUS, that every command reaches it, and what of
the state a command keeps (rule R150). -/

namespace Sys2Proof.Machine

variable {s t : State} {i : Instr}

/-! ## Completion -/

theorem State.complete_eq (s : State) (ok : Bool) : s.complete ok = { s with
    eng := .idle
    status := ⟨false, true, ok, false, s.status.werr, 0#4, s.status.lastOp⟩ } := by
  simp [State.complete, Status.complete]

theorem State.raiseError_eq (s : State) {code : BitVec 4} (h : code ≠ 0#4) : s.raiseError code = { s with
    eng := .idle
    status := ⟨false, true, false, true, s.status.werr, code, s.status.lastOp⟩ } := by
  simp [State.raiseError, Status.complete, h]

/-- Settles O6: with and without an error. -/
theorem completionSetsStatus : Obligations.CompletionSetsStatus :=
  fun s ok _ => ⟨s.complete_eq ok, s.raiseError_eq⟩

/-- Settles O38: each of the four runs writes its result, if it has one, and completes with OK = 1. -/
theorem fieldCommandResults : Obligations.FieldCommandResults := by
  intro s
  have hcomplete (u : State) : Host.Outcome.next (u.complete true) = (.next _ : Result) :=
    congrArg _ (u.complete_eq true)
  exact ⟨_, rfl, hcomplete s, hcomplete { s with res := gadd s.opa s.opb },
    hcomplete { s with res := gmul s.params s.opa s.opb }, hcomplete { s with res := ginv s.params s.opa }⟩

/-! ## The frame -/

/-- Whatever end the run has, only ENG and STATUS differ from what the command's writes left, and of STATUS neither WERR
nor LAST_OP. -/
theorem Ends.exists_writes (h : Ends i s t) : ∃ u f e, Writes i s u ∧ t = { u with status := f, eng := e } ∧
    f.werr = s.status.werr ∧ f.lastOp = s.status.lastOp := by
  cases h with
  | waits => exact ⟨s, _, _, .refl i s, rfl, rfl, rfl⟩
  | completes ok hw =>
    exact ⟨_, _, _, hw, rfl, (congrArg Status.werr hw.status :), (congrArg Status.lastOp hw.status :)⟩
  | operand => exact ⟨s, _, _, .refl i s, rfl, rfl, rfl⟩
  | exhausted _ hw =>
    exact ⟨_, _, _, hw, rfl, (congrArg Status.werr hw.status :), (congrArg Status.lastOp hw.status :)⟩

/-- A command that takes no byte leaves the port. -/
theorem Writes.port_eq (h : Writes i s t) (hi : maxBytes s.params i = 0) : t.port = s.port := by
  obtain ⟨n, hn, hport⟩ := h.port
  obtain rfl : n = 0 := by omega
  rw [hport, RandomPort.skip_zero]

/-- Settles O12: the command's writes keep what rule R114 does not list, and its end adds only the flags. -/
theorem commandWritesOnlyItsWriteSet : Obligations.CommandWritesOnlyItsWriteSet := by
  intro i s t h
  obtain ⟨u, f, e, hw, rfl, hwerr, hop⟩ := (exec_ends h).exists_writes
  refine ⟨hw.params, hw.irqEn, hw.cmd, hw.opa, hw.opb, hw.inputs, hw.rdata, hw.draws, hwerr, hop, hw.res, hw.weight,
    hw.tries, hw.accept, hw.bmL, hw.pivmask, fun hgoppa hsupport hfw => hw.port_eq ?_, hw.mem⟩
  cases i
  case goppaSample => exact absurd rfl hgoppa
  case supportGen => exact absurd rfl hsupport
  case fwSample => exact absurd rfl hfw
  all_goals rfl

/-! ## Termination -/

/-- Settles O11: a run with its inputs written answers, and with its bytes offered it does not wait. -/
theorem everyCommandCompletes : Obligations.EveryCommandCompletes := by
  intro s i hwritten hfed
  obtain ⟨t, ht⟩ := (exec_uninitUnless i s).exists_next (inputsWritten_iff.2 hwritten)
  refine ⟨t, ht, ?_⟩
  cases exec_ends ht with
  | waits hs => exact absurd hs hfed
  | completes ok hw => exact ⟨rfl, rfl, rfl, rfl, by simp, by simp, by simp, .inl rfl⟩
  | operand hi =>
    exact ⟨rfl, rfl, rfl, rfl, fun _ => rfl, fun _ => hi,
      fun h : State.errOperand = 3#4 => absurd h (by decide), .inr (.inl rfl)⟩
  | exhausted hi hw =>
    exact ⟨rfl, rfl, rfl, rfl, fun _ => rfl, fun h : State.errExhausted = 2#4 => absurd h (by decide), fun _ => hi,
      .inr (.inr rfl)⟩

/-- Settles O9: a coherent state's command in flight has its inputs written, so its run completes, and the engine has
the turn. -/
theorem commandInFlightTerminates : Obligations.CommandInFlightTerminates := by
  intro s i hlegal hc he hquiet hfed
  obtain ⟨t, hx, hidle, hbusy, hdone, -⟩ :=
    everyCommandCompletes s i (inputsWritten_iff.1 (hc.inputs_written i he)) hfed
  exact ⟨t, busyEngineCompletes s t i ⟨hlegal, hc.code_produced⟩ he hquiet hx hidle, hidle, hbusy, hdone⟩

end Sys2Proof.Machine
end

section
/-! The write of a command word to CMD on an idle engine (rules R140, R142, R147, R321). -/

namespace Sys2Proof.Machine

variable {s : State} {w : Word} {i : Instr} {ov : Bool}

/-! ## The issue -/

theorem hostWrite_idle_cmd {a width : Nat} (hl : locate s.params a width = some (.reg .cmd)) (he : s.eng = .idle) :
    hostWrite a width w ov s = issueCommand w ov s := by simp [hostWrite, hl, he]

theorem step_cmdWrite {rest : List Input} (hf : s.faces ⟨.write 0x044 4 w, ov⟩ rest) (he : s.eng = .idle) :
    step s = issueCommand w ov { s with inputs := rest } := by
  obtain ⟨hlive, hin⟩ := hf
  rw [step_of_takesInput hlive hin (.inl he)]
  exact hostWrite_idle_cmd (locate_reg _ .cmd) he

theorem issueCommand_illegal {why : Illegal} (hd : decode w = .illegal why) :
    issueCommand w ov s = .next (s.illegalCommand w) := by simp [issueCommand, hd]

theorem issueCommand_alone (hd : decode w = .command i) : issueCommand w false s = exec i (s.issue w i) := by
  simp [issueCommand, hd]

/-- An unwritten input faults at issue, whatever overlaps the command (rule R147). -/
theorem issueCommand_unwritten (hd : decode w = .command i) (hw : s.inputsWritten i = false) :
    issueCommand w ov s = .fault .uninit := by
  have hx : exec i (s.issue w i) = .fault .uninit := (exec_uninitUnless i _).fault_iff.2 hw
  simp [issueCommand, hd, hw, hx]

theorem issueCommand_inFlight (hd : decode w = .command i) (hw : s.inputsWritten i = true)
    (ho : s.operandError i = false) : issueCommand w true s = .next (s.issue w i) := by
  simp [issueCommand, hd, hw, ho]

/-! ## The check of G (rules R172, R190) -/

theorem wordAt_of_load {r : Region} {ws : List Word} {j : Nat} (h : s.load r = some ws) (hj : j < r.words s.params) :
    s.wordAt r j = coeff ws j := by
  have hlen : j < ws.length := by rwa [length_load h]
  rw [State.wordAt, Region.addr, Memory.readWord_of_readWords h hlen, coeff, List.getD_eq_getElem _ _ hlen]
  rfl

theorem operandError_iff : s.operandError i = true ↔
    (i = .polyMulmod ∨ i = .irredTest) ∧ ∃ g, s.load .g = some g ∧ coeff g s.params.t ≠ 1#32 := by
  cases i <;> simp [State.operandError, Option.any_eq_true]

/-- With its inputs written, a command that needs a monic G reads G[T] from the memory. -/
theorem operandError_iff_wordAt (hw : s.inputsWritten i = true) : s.operandError i = true ↔
    (i = .polyMulmod ∨ i = .irredTest) ∧ s.wordAt .g s.params.t ≠ 1#32 := by
  rw [operandError_iff]
  refine and_congr_right fun hi => ?_
  obtain ⟨g, hg⟩ : ∃ g, s.load .g = some g := by
    have hmem : Region.g.span s.params ∈ inputSpans s.params i := by
      obtain rfl | rfl := hi <;> simp [inputSpans]
    exact Option.isSome_iff_exists.1 (List.all_eq_true.1 hw _ hmem)
  rw [wordAt_of_load hg (Nat.lt_succ_self _), hg]
  simp

/-- OPERAND ends the run before any write (rule R321). -/
theorem exec_of_operandError (hw : s.inputsWritten i = true) (ho : s.operandError i = true) :
    exec i s = .next (s.raiseError State.errOperand) := by
  obtain ⟨hi, g, hg, hc⟩ := operandError_iff.1 ho
  obtain ⟨t, ht⟩ := (exec_uninitUnless i s).exists_next hw
  rw [ht]
  obtain rfl | rfl := hi
  · obtain ⟨_, _, _, -, -, hg', ⟨-, rfl⟩ | ⟨hc', -⟩⟩ := execPolyMulmod_next ht
    · rfl
    · cases hg.symm.trans hg'
      exact absurd hc' hc
  · obtain ⟨_, hg', ⟨-, rfl⟩ | ⟨hc', -⟩⟩ := execIrredTest_next ht
    · rfl
    · cases hg.symm.trans hg'
      exact absurd hc' hc

/-- An error raised at issue leaves an idle engine idle, whatever ENG the issue had set. -/
theorem raiseError_at_issue (he : s.eng = .idle) (w : Word) (e : Engine) {code : BitVec 4} (hcode : code ≠ 0#4) :
    State.raiseError { s with cmd := w, status := s.status.issue (opcodeOf w), eng := e } code =
      { s with cmd := w, status := ⟨false, true, false, true, s.status.werr, code, opcodeOf w⟩ } := by
  rw [State.raiseError_eq _ hcode, ← he]
  rfl

theorem issueCommand_operandError (he : s.eng = .idle) (hd : decode w = .command i) (hw : s.inputsWritten i = true)
    (ho : s.operandError i = true) : issueCommand w ov s = .next
      { s with cmd := w, status := ⟨false, true, false, true, s.status.werr, State.errOperand, opcodeOf w⟩ } := by
  rw [issueCommand_operand hd ho, exec_of_operandError (by rwa [inputsWritten_issue]) (by rwa [operandError_issue])]
  exact congrArg _ (raiseError_at_issue he w (.busy i) (by decide))

/-! ## The three issues -/

/-- Settles O3: the port takes the write, and the command has its run in the same step. -/
theorem stepRunsIssuedCommand : Obligations.StepRunsIssuedCommand := by
  intro s w i rest hf he hd
  rw [step_cmdWrite hf he, issueCommand_alone hd]
  rfl

/-- Settles O4: the checks at issue come first, unwritten inputs and then OPERAND. -/
theorem overlappedIssueStaysInFlight : Obligations.OverlappedIssueStaysInFlight := by
  intro s w i rest hf he hd
  rw [step_cmdWrite hf he, ← inputsWritten_eq_false_iff, ← inputsWritten_iff]
  refine ⟨issueCommand_unwritten (s := { s with inputs := rest }) hd, fun hw => ?_⟩
  rw [← operandError_iff_wordAt hw]
  exact ⟨issueCommand_operandError (s := { s with inputs := rest }) he hd hw,
    fun ho => issueCommand_inFlight hd hw (Bool.eq_false_of_not_eq_true ho)⟩

/-- Settles O5: a word that is no command's decodes to ILLEGAL, for whichever reason. -/
theorem illegalWordChangesOnlyCmdAndStatus : Obligations.IllegalWordChangesOnlyCmdAndStatus := by
  intro s w ov rest hf he hw
  cases hd : decode w with
  | command i => exact absurd (eq_encode_of_decode hd) (hw i)
  | illegal why =>
    rw [step_cmdWrite hf he, issueCommand_illegal hd]
    exact congrArg _ (raiseError_at_issue (s := { s with inputs := rest }) he w s.eng (by decide))

end Sys2Proof.Machine
end

section
/-! What the host can do to a command in flight: writes are dropped (rules R141, R356), a soft reset abandons it (rules
R146, R351). -/

namespace Sys2Proof.Machine

variable {s u : State} {i : Instr} {a : Nat}

/-! ## Dropped writes -/

theorem takesInput_of_busy {ov : Bool} (he : s.eng = .busy i) (h : ov = true ∨ s.starves i) : s.takesInput ov :=
  .inr (h.imp_right fun hs => ⟨i, he, hs⟩)

theorem offset_of_locate {p : Params} {width : Nat} {r : Reg} (h : locate p a width = some (.reg r)) :
    a = r.offset := by
  obtain ⟨-, -, ⟨_, hx, ha⟩ | ⟨hx, -⟩ | ⟨_, _, hx, -⟩⟩ := locate_cases h <;> cases hx
  exact ha

theorem hostWrite_busy {width : Nat} {x : Target} {w : Word} {ov : Bool} (hl : locate s.params a width = some x)
    (hctrl : x ≠ .reg .ctrl) (hstatus : x ≠ .reg .status) (he : s.eng ≠ .idle) :
    hostWrite a width w ov s = .next s.dropWrite := by
  unfold hostWrite
  split
  · rename_i hnone
    cases hnone.symm.trans hl
  · rename_i h
    exact absurd (Option.some.inj (hl.symm.trans h)) hctrl
  · rename_i h
    exact absurd (Option.some.inj (hl.symm.trans h)) hstatus
  · exact if_pos he

/-- Settles O28: the access names a target, which is neither CTRL nor STATUS. -/
theorem busyWriteIsDropped : Obligations.BusyWriteIsDropped := by
  intro s i a w ov rest ⟨hlive, hin⟩ he htaken hctrl hstatus hal hin_map
  obtain ⟨x, hx⟩ := Option.isSome_iff_exists.1 ((locate_isSome_iff hlive.1).2 ⟨rfl, hal, hin_map⟩)
  rw [step_of_takesInput hlive hin (takesInput_of_busy he htaken)]
  refine hostWrite_busy hx ?_ ?_ (by simp [he])
  · rintro rfl
    exact hctrl (offset_of_locate hx)
  · rintro rfl
    exact hstatus (offset_of_locate hx)

/-! ## The bytes an abandoned command may have taken -/

theorem Writes.taken_le (h : Writes i s u) :
    s.port.offered.length - u.port.offered.length ≤ maxBytes s.params i := by
  obtain ⟨n, hn, hport⟩ := h.port
  rw [hport, RandomPort.skip_offered, List.length_drop]
  omega

theorem starvesAfter_le {k tries n : Nat} {r : Nat → Prop} (h : starvesAfter k tries n r) : n ≤ k * tries := by
  obtain ⟨made, hmade, -, hlt, -⟩ := h
  exact hlt.le.trans (Nat.mul_le_mul_left k hmade)

/-- A sampler that waits has been offered less than it can take. -/
theorem offered_le_of_starves (h : s.starves i) : s.port.offered.length ≤ maxBytes s.params i := by
  obtain ⟨rfl, h⟩ | ⟨rfl, h⟩ | ⟨rfl, h⟩ := h
  · exact starvesAfter_le h
  · exact h.le
  · exact starvesAfter_le h

/-- What a command in flight would take is bounded by what it can take (rule R146). -/
theorem consumption_le (he : s.eng = .busy i) : s.consumption ≤ maxBytes s.params i := by
  rw [State.consumption, he]
  dsimp only
  split
  · rename_i t ht
    cases exec_ends ht with
    | waits hs => simpa [he] using offered_le_of_starves hs
    | completes ok hw => exact hw.taken_le
    | operand hi => exact (Writes.refl i s).taken_le
    | exhausted hi hw => exact hw.taken_le
  · exact Nat.zero_le _

/-! ## The abandoned command's memories -/

theorem read_foldl_havoc (rs : List Region) (s : State) (a : Nat) : Memory.read (rs.foldl State.havoc s).mem a =
    if ∃ r ∈ rs, r.has s.params a = true then none else Memory.read s.mem a := by
  induction rs generalizing s with
  | nil => simp
  | cons r rs ih =>
    rw [List.foldl_cons, ih, State.havoc_params, State.havoc_mem, Memory.read_havoc]
    simp only [List.mem_cons, exists_eq_or_imp, Region.has, Bool.and_eq_true, decide_eq_true_eq]
    by_cases hr : r.base ≤ a ∧ a < r.base + 4 * r.words s.params <;> simp [hr]

theorem foldl_havoc_eq (rs : List Region) (s : State) :
    rs.foldl State.havoc s = { s with mem := (rs.foldl State.havoc s).mem } := by
  induction rs generalizing s with
  | nil => rfl
  | cons r rs ih => exact ih (s.havoc r)

/-- Abandoned, the command leaves its write set unwritten and every other byte as it was (rule R146). -/
theorem read_abort (s : State) (i : Instr) (full a : Nat) : Memory.read (s.abort i full).mem a =
    if ∃ r ∈ writeSet s.params i, r.has s.params a = true then none else Memory.read s.mem a :=
  read_foldl_havoc _ (s.loseBytes full) a

theorem softReset_busy (he : s.eng = .busy i) (full : Nat) : s.softReset full = { State.resetOf s.params with
    port := ⟨s.port.offered.drop (Config.freeTaken s.draws % (full + 1)), 0#64⟩
    mem := (s.abort i full).mem
    inputs := s.inputs
    rdata := s.rdata
    draws := s.draws + 1 } := by
  rw [State.softReset, he]
  dsimp only
  rw [State.resetRegisters, State.abort, foldl_havoc_eq]
  rfl

/-- Settles O33: the port takes the write, and the reset abandons the command. -/
theorem softResetAbortsCommand : Obligations.SoftResetAbortsCommand := by
  intro s i w ov rest ⟨hlive, hin⟩ he htaken hsrst
  have hstep : step s =
      .next (State.softReset { s with inputs := rest } (State.consumption { s with inputs := rest })) := by
    rw [step_of_takesInput hlive hin (takesInput_of_busy he htaken)]
    refine (hostWrite_ctrl (ov := ov) (locate_reg _ .ctrl)).trans (congrArg _ ?_)
    rw [writeCtrl, if_pos hsrst]
  rw [softReset_busy (s := { s with inputs := rest }) he] at hstep
  have hlost := consumption_le (s := { s with inputs := rest }) he
  refine ⟨_, _, hstep, (Nat.le_of_lt_succ (Nat.mod_lt _ (Nat.succ_pos _))).trans hlost, rfl, fun r hr a ha => ?_,
    fun a ha => ?_⟩
  · exact (read_abort _ i _ a).trans (if_pos ⟨r, hr, ha⟩)
  · refine (read_abort _ i _ a).trans (if_neg ?_)
    rintro ⟨r, hr, hhas⟩
    simp [ha r hr] at hhas

end Sys2Proof.Machine
end

section
/-! Polynomial division as the model runs it: one round per power, from the highest one down, each subtracting the
multiple of the monic divisor that clears its power (rules R7, R161, R173). -/

namespace Sys2Proof.Machine

/-- What `round k` does to `c`, read as the polynomial `poly c`: it subtracts the multiple of `d` that clears the power
`natDegree d + k`. -/
def ClearsPower {R α : Type} [CommRing R] (poly : α → Polynomial R) (d : Polynomial R) (round : Nat → α → α) (k : Nat)
    (c : α) : Prop :=
  poly (round k c) = poly c - Polynomial.C ((poly c).coeff (d.natDegree + k)) * Polynomial.X ^ k * d

section division

variable {R α : Type} [CommRing R] {poly : α → Polynomial R} {d : Polynomial R} {round : Nat → α → α}

/-- A round lowers the degree below the power it clears. -/
theorem ClearsPower.degree_lt {k : Nat} {c : α} (hd : d.Monic) (h : ClearsPower poly d round k c)
    (hc : (poly c).degree < (d.natDegree + (k + 1) : Nat)) : (poly (round k c)).degree < (d.natDegree + k : Nat) := by
  rw [Polynomial.degree_lt_iff_coeff_zero] at hc ⊢
  intro j hj
  rw [h, Polynomial.coeff_sub, mul_assoc, Polynomial.coeff_C_mul, Polynomial.coeff_X_pow_mul', if_pos (by omega)]
  rcases hj.eq_or_lt with rfl | hlt
  · rw [Nat.add_sub_cancel, hd.coeff_natDegree, mul_one, sub_self]
  · rw [hc j (by omega), Polynomial.coeff_eq_zero_of_natDegree_lt (p := d) (by omega), mul_zero, sub_zero]

/-- A round keeps the remainder. -/
theorem ClearsPower.modByMonic_eq {k : Nat} {c : α} (hd : d.Monic) (h : ClearsPower poly d round k c) :
    poly (round k c) %ₘ d = poly c %ₘ d := by
  refine Polynomial.modByMonic_eq_of_dvd_sub hd ?_
  rw [h, sub_sub_cancel_left]
  exact (dvd_mul_left _ _).neg_right

/-- All rounds together leave the remainder. -/
theorem poly_foldr_rounds [Nontrivial R] {Inv : α → Prop} (hd : d.Monic) {n : Nat} {c : α}
    (hinv : ∀ k c, Inv c → k < n → Inv (round k c)) (hclear : ∀ k c, Inv c → k < n → ClearsPower poly d round k c)
    (hc : Inv c) (hdeg : (poly c).degree < (d.natDegree + n : Nat)) :
    poly ((List.range n).foldr round c) = poly c %ₘ d := by
  induction n generalizing c with
  | zero =>
    rw [Nat.add_zero, ← Polynomial.degree_eq_natDegree hd.ne_zero] at hdeg
    exact ((Polynomial.modByMonic_eq_self_iff hd).2 hdeg).symm
  | succ n ih =>
    have h := hclear n c hc n.lt_succ_self
    rw [List.range_succ, List.foldr_append, List.foldr_cons, List.foldr_nil, ← h.modByMonic_eq hd]
    exact ih (fun k c hc hk => hinv k c hc (by omega)) (fun k c hc hk => hclear k c hc (by omega))
      (hinv n c hc n.lt_succ_self) (h.degree_lt hd hdeg)

end division

end Sys2Proof.Machine
end

section
/-! A number as the polynomial over GF(2) whose coefficient of z^i is bit `i` (rule R8), and the remainder of rule R7's
trial division. -/

namespace Sys2Proof.Machine

open Polynomial (X C)

theorem coeff_sum_bits (n : Nat) (f : Nat → Bool) (i : Nat) :
    (∑ j ∈ Finset.range n, if f j then X ^ j else 0 : Polynomial (ZMod 2)).coeff i =
      if i < n ∧ f i = true then 1 else 0 := by
  have hterm (j : Nat) : (if f j then X ^ j else 0 : Polynomial (ZMod 2)).coeff i =
      if i = j then (if f i then 1 else 0) else 0 := by
    by_cases hij : i = j
    · subst hij; split <;> simp
    · split <;> simp [Polynomial.coeff_X_pow, hij]
  rw [Polynomial.finsetSum_coeff, Finset.sum_congr rfl fun j _ => hterm j, Finset.sum_ite_eq]
  simp only [Finset.mem_range, ite_and]

/-- The polynomial over GF(2) that a number writes out, bit `i` the coefficient of z^i. -/
noncomputable def bitPoly (n : Nat) : Polynomial (ZMod 2) := ∑ i ∈ Finset.range n, if n.testBit i then X ^ i else 0

theorem coeff_bitPoly (n i : Nat) : (bitPoly n).coeff i = if n.testBit i then 1 else 0 := by
  rw [bitPoly, coeff_sum_bits]
  by_cases hi : i < n
  · simp [hi]
  · simp [Nat.testBit_lt_two_pow (lt_of_le_of_lt (not_lt.1 hi) Nat.lt_two_pow_self)]

theorem coeff_bitPoly_eq_zero_iff {n i : Nat} : (bitPoly n).coeff i = 0 ↔ n.testBit i = false := by
  rw [coeff_bitPoly]; split <;> simp [*]

theorem degree_bitPoly_lt_iff {n k : Nat} : (bitPoly n).degree < k ↔ n < 2 ^ k := by
  simp only [Polynomial.degree_lt_iff_coeff_zero, coeff_bitPoly_eq_zero_iff]
  exact ⟨Nat.lt_pow_two_of_testBit n, fun h j hj =>
    Nat.testBit_lt_two_pow (lt_of_lt_of_le h (Nat.pow_le_pow_right (by omega) hj))⟩

theorem bitPoly_injective : Function.Injective bitPoly := by
  intro n n' h
  refine Nat.eq_of_testBit_eq fun i => ?_
  have hi : n.testBit i = false ↔ n'.testBit i = false := by
    rw [← coeff_bitPoly_eq_zero_iff, h, coeff_bitPoly_eq_zero_iff]
  simpa using not_congr hi

@[simp] theorem bitPoly_zero : bitPoly 0 = 0 := rfl

@[simp] theorem bitPoly_one : bitPoly 1 = 1 := by simp [bitPoly]

theorem bitPoly_xor (n n' : Nat) : bitPoly (n ^^^ n') = bitPoly n + bitPoly n' := by
  ext i
  simp only [Polynomial.coeff_add, coeff_bitPoly, Nat.testBit_xor]
  cases n.testBit i <;> cases n'.testBit i <;> decide

theorem bitPoly_shiftLeft (n k : Nat) : bitPoly (n <<< k) = X ^ k * bitPoly n := by
  ext i
  simp only [Polynomial.coeff_X_pow_mul', coeff_bitPoly, Nat.testBit_shiftLeft]
  by_cases hk : k ≤ i <;> simp [hk]

/-- Every polynomial over GF(2) is written out by a number. -/
theorem bitPoly_surjective : Function.Surjective bitPoly := by
  intro q
  induction q using Polynomial.induction_on' with
  | add q q' h h' =>
    obtain ⟨n, rfl⟩ := h
    obtain ⟨n', rfl⟩ := h'
    exact ⟨n ^^^ n', bitPoly_xor n n'⟩
  | monomial k a =>
    obtain rfl | rfl : a = 0 ∨ a = 1 := by revert a; decide
    · exact ⟨0, by simp⟩
    · exact ⟨1 <<< k, by rw [bitPoly_shiftLeft, bitPoly_one, mul_one, Polynomial.X_pow_eq_monomial]⟩

/-- A number of exactly `e + 1` bits writes a monic polynomial of degree `e`. -/
theorem bitPoly_monic {d e : Nat} (hlt : d < 2 ^ (e + 1)) (htop : d.testBit e = true) :
    (bitPoly d).Monic ∧ (bitPoly d).natDegree = e := by
  have hcoeff : (bitPoly d).coeff e = 1 := by simp [coeff_bitPoly, htop]
  have hle : (bitPoly d).natDegree ≤ e :=
    Nat.le_of_lt_succ ((Polynomial.natDegree_lt_iff_degree_lt (by rintro h; simp [h] at hcoeff)).2
      (degree_bitPoly_lt_iff.2 hlt))
  exact ⟨Polynomial.monic_of_natDegree_le_of_coeff_eq_one e hle hcoeff,
    le_antisymm hle (Polynomial.le_natDegree_of_ne_zero (by simp [hcoeff]))⟩

/-- Over GF(2) the round that clears a power adds the shifted divisor where the power's bit is set. -/
theorem sub_clear_eq_ite {q : Polynomial (ZMod 2)} {b : Bool} {j : Nat} (hb : q.coeff j = if b then 1 else 0) (k : Nat)
    (d : Polynomial (ZMod 2)) : q - C (q.coeff j) * X ^ k * d = if b then q + X ^ k * d else q := by
  rw [hb]
  split
  · rw [C.map_one, one_mul, CharTwo.sub_eq_add]
  · rw [C.map_zero, zero_mul, zero_mul, sub_zero]

/-- The remainder of rule R7's trial division. -/
theorem bitPoly_gf2Mod {m e f d : Nat} (hf : f < 2 ^ (m + 1)) (hd : d < 2 ^ (e + 1)) (htop : d.testBit e = true) :
    bitPoly (gf2Mod m e f d) = bitPoly f %ₘ bitPoly d := by
  obtain ⟨hmonic, hdeg⟩ := bitPoly_monic hd htop
  refine poly_foldr_rounds (Inv := fun _ => True) hmonic (fun _ _ _ _ => trivial) (fun k c _ _ => ?_) trivial ?_
  · rw [ClearsPower, sub_clear_eq_ite (coeff_bitPoly c _), hdeg, Nat.add_comm e k, ← bitPoly_shiftLeft, ← bitPoly_xor]
    split <;> rfl
  · rw [degree_bitPoly_lt_iff, hdeg]
    exact lt_of_lt_of_le hf (Nat.pow_le_pow_right (by omega) (by omega))

end Sys2Proof.Machine
end

section
/-! A word as a polynomial over GF(2) (rule R8), FIELD_POLY as an irreducible one of degree M (rule R7), and `gmul` as
multiplication modulo FIELD_POLY (rule R161). -/

namespace Sys2Proof.Machine

open Polynomial (X C)

variable {p : Params}

/-! ## Words -/

theorem wordPoly_eq_bitPoly (w : Word) : wordPoly w = bitPoly w.toNat := by
  ext i
  rw [coeff_bitPoly, BitVec.testBit_toNat]
  refine (coeff_sum_bits 32 w.getLsbD i).trans ?_
  by_cases hi : i < 32
  · simp [hi]
  · simp [BitVec.getLsbD_of_ge w i (not_lt.1 hi)]

theorem coeff_wordPoly (w : Word) (i : Nat) : (wordPoly w).coeff i = if w.getLsbD i then 1 else 0 := by
  rw [wordPoly_eq_bitPoly, coeff_bitPoly, BitVec.testBit_toNat]

/-- The terms of a word of `n` bits. -/
theorem wordPoly_eq_sum {w : Word} {n : Nat} (hw : w.toNat < 2 ^ n) :
    wordPoly w = ∑ j ∈ Finset.range n, if w.getLsbD j then X ^ j else 0 := by
  ext i
  rw [coeff_wordPoly, coeff_sum_bits]
  by_cases hi : i < n
  · simp [hi]
  · have hbit : w.getLsbD i = false := by
      rw [← BitVec.testBit_toNat]
      exact Nat.testBit_lt_two_pow (lt_of_lt_of_le hw (Nat.pow_le_pow_right (by omega) (not_lt.1 hi)))
    simp [hbit]

theorem wordPoly_injective : Function.Injective wordPoly := by
  intro v w h
  rw [wordPoly_eq_bitPoly, wordPoly_eq_bitPoly] at h
  exact BitVec.eq_of_toNat_eq (bitPoly_injective h)

theorem degree_wordPoly_lt_iff {w : Word} {k : Nat} : (wordPoly w).degree < k ↔ w.toNat < 2 ^ k := by
  rw [wordPoly_eq_bitPoly, degree_bitPoly_lt_iff]

theorem wordPoly_xor (v w : Word) : wordPoly (v ^^^ w) = wordPoly v + wordPoly w := by
  simp only [wordPoly_eq_bitPoly, BitVec.toNat_xor, bitPoly_xor]

/-- A shift that loses no bit multiplies by a power of z. -/
theorem wordPoly_shiftLeft {w : Word} {k n : Nat} (hw : w.toNat < 2 ^ n) (hn : n + k ≤ 32) :
    wordPoly (w <<< k) = X ^ k * wordPoly w := by
  have hfit : w.toNat <<< k < 2 ^ 32 := by
    rw [Nat.shiftLeft_eq]
    calc w.toNat * 2 ^ k < 2 ^ n * 2 ^ k := Nat.mul_lt_mul_of_pos_right hw (Nat.two_pow_pos k)
      _ = 2 ^ (n + k) := (pow_add 2 n k).symm
      _ ≤ 2 ^ 32 := Nat.pow_le_pow_right (by omega) hn
  rw [wordPoly_eq_bitPoly, wordPoly_eq_bitPoly, BitVec.toNat_shiftLeft, Nat.mod_eq_of_lt hfit, bitPoly_shiftLeft]

@[simp] theorem wordPoly_zero : wordPoly 0#32 = 0 := by simp [wordPoly_eq_bitPoly]

@[simp] theorem wordPoly_one : wordPoly 1#32 = 1 := by simp [wordPoly_eq_bitPoly]

/-! ## FIELD_POLY -/

/-- FIELD_POLY has M+1 bits, the top one set, and no polynomial of degree 1 to M/2 divides it (rule R7). -/
theorem legal_fieldPoly (h : p.legal = true) : p.fieldPoly.toNat < 2 ^ (p.m + 1) ∧
    p.fieldPoly.toNat.testBit p.m = true ∧ gf2Irreducible p.m p.fieldPoly.toNat = true := by
  simp only [Params.legal, Params.polyOk, Bool.and_eq_true, decide_eq_true_eq] at h
  obtain ⟨⟨⟨⟨⟨⟨⟨-, ⟨hlt, htop⟩, hirr⟩, -⟩, -⟩, -⟩, -⟩, -⟩, -⟩ := h
  exact ⟨hlt, htop, hirr⟩

theorem fieldPoly_monic (h : p.legal = true) :
    (wordPoly p.fieldPoly).Monic ∧ (wordPoly p.fieldPoly).natDegree = p.m := by
  obtain ⟨hlt, htop, -⟩ := legal_fieldPoly h
  rw [wordPoly_eq_bitPoly]
  exact bitPoly_monic hlt htop

theorem degree_fieldPoly (h : p.legal = true) : (wordPoly p.fieldPoly).degree = p.m := by
  obtain ⟨hmonic, hdeg⟩ := fieldPoly_monic h
  rw [Polynomial.degree_eq_natDegree hmonic.ne_zero, hdeg]

/-- A monic polynomial over GF(2) is a number whose top bit is its degree. -/
theorem exists_bitPoly_eq_of_monic {q : Polynomial (ZMod 2)} (hq : q.Monic) :
    ∃ n, bitPoly n = q ∧ n < 2 ^ (q.natDegree + 1) ∧ n.testBit q.natDegree = true := by
  obtain ⟨n, rfl⟩ := bitPoly_surjective q
  refine ⟨n, rfl, ?_, ?_⟩
  · rw [← degree_bitPoly_lt_iff, Polynomial.degree_eq_natDegree hq.ne_zero]
    exact_mod_cast Nat.lt_succ_self _
  · by_contra hbit
    have hlead := hq.coeff_natDegree
    rw [coeff_bitPoly, if_neg hbit] at hlead
    exact zero_ne_one hlead

/-- What rule R7's trial division checks is irreducibility: its divisors are all monic ones of degree 1 to M/2. -/
theorem fieldPoly_irreducible (h : p.legal = true) : Irreducible (wordPoly p.fieldPoly) := by
  obtain ⟨hlt, -, hirr⟩ := legal_fieldPoly h
  obtain ⟨hmonic, hdeg⟩ := fieldPoly_monic h
  obtain ⟨hm, -⟩ := legal_bounds h
  have hne : wordPoly p.fieldPoly ≠ 1 := by
    intro h1
    rw [h1, Polynomial.natDegree_one] at hdeg
    omega
  refine (hmonic.irreducible_iff_lt_natDegree_lt hne).2 fun q hq hrange hdvd => ?_
  obtain ⟨n, hn, hnlt, htop⟩ := exists_bitPoly_eq_of_monic hq
  obtain ⟨e, he⟩ : ∃ e, q.natDegree = e + 1 := ⟨_, (Nat.sub_add_cancel (Finset.mem_Ioc.1 hrange).1).symm⟩
  rw [he] at hnlt htop
  have hzero : gf2Mod p.m (e + 1) p.fieldPoly.toNat n = 0 := by
    apply bitPoly_injective
    rw [bitPoly_gf2Mod hlt hnlt htop, bitPoly_zero, ← wordPoly_eq_bitPoly, hn]
    exact (Polynomial.modByMonic_eq_zero_iff_dvd hq).2 hdvd
  have hge : 2 ^ (e + 1) ≤ n := Nat.ge_two_pow_of_testBit htop
  rw [hdeg, he, Finset.mem_Ioc] at hrange
  rw [pow_succ 2 (e + 1)] at hnlt
  simp only [gf2Irreducible, List.all_eq_true, List.mem_range, bne_iff_ne] at hirr
  refine hirr e (by omega) (n - 2 ^ (e + 1)) (by omega) ?_
  rwa [Nat.add_sub_cancel' hge]

/-! ## The product before reduction -/

/-- The first `n` rounds add the terms of `a * b` for the bits of `b` below `n`. -/
theorem wordPoly_foldl_gmulRaw (hm : p.m ≤ 16) {a : Word} (ha : Reduced p a) (b : Word) {n : Nat} (hn : n ≤ p.m) :
    wordPoly ((List.range n).foldl (fun acc i => if b.getLsbD i then acc ^^^ (a <<< i) else acc) 0#32) =
      (∑ j ∈ Finset.range n, if b.getLsbD j then X ^ j else 0) * wordPoly a := by
  induction n with
  | zero => simp
  | succ n ih =>
    rw [List.range_succ, List.foldl_append, List.foldl_cons, List.foldl_nil, Finset.sum_range_succ, add_mul,
      ← ih (by omega)]
    split
    · rw [wordPoly_xor, wordPoly_shiftLeft ha (by omega)]
    · rw [zero_mul, add_zero]

theorem wordPoly_gmulRaw (h : p.legal = true) {a b : Word} (ha : Reduced p a) (hb : Reduced p b) :
    wordPoly (gmulRaw p a b) = wordPoly a * wordPoly b := by
  obtain ⟨-, hm, -⟩ := legal_bounds h
  rw [gmulRaw, wordPoly_foldl_gmulRaw hm ha b le_rfl, ← wordPoly_eq_sum hb, mul_comm]

/-! ## The reduction -/

/-- The mask of rule R161's result drops nothing from a remainder. -/
theorem wordPoly_and_lowMask {w : Word} {q : Polynomial (ZMod 2)} {n : Nat} (hw : wordPoly w = q) (hq : q.degree < n) :
    wordPoly (w &&& lowMask n) = q := by
  rw [and_lowMask_eq_self_iff.2 (degree_wordPoly_lt_iff.1 (hw ▸ hq)), hw]

theorem wordPoly_greduce (h : p.legal = true) {x : Word} (hx : (wordPoly x).degree < (2 * p.m - 1 : Nat)) :
    wordPoly (greduce p x) = wordPoly x %ₘ wordPoly p.fieldPoly := by
  obtain ⟨hm2, hm16, -⟩ := legal_bounds h
  obtain ⟨hlt, -⟩ := legal_fieldPoly h
  obtain ⟨hmonic, hdeg⟩ := fieldPoly_monic h
  have hwidth : (wordPoly x).degree < ((wordPoly p.fieldPoly).natDegree + (p.m - 1) : Nat) := by
    rwa [hdeg, show p.m + (p.m - 1) = 2 * p.m - 1 by omega]
  refine wordPoly_and_lowMask (poly_foldr_rounds (Inv := fun _ => True) hmonic (fun _ _ _ _ => trivial)
    (fun k acc _ hk => ?_) trivial hwidth) (degree_fieldPoly h ▸ Polynomial.degree_modByMonic_lt _ hmonic)
  have hshift := wordPoly_shiftLeft (k := k) hlt (by omega)
  rw [ClearsPower, sub_clear_eq_ite (coeff_wordPoly acc _), hdeg, ← hshift, ← wordPoly_xor]
  split <;> rfl

/-! ## The product -/

/-- Two M-bit operands have a product of 2M-1 bits. -/
theorem degree_mul_wordPoly_lt (hm : 2 ≤ p.m) {a b : Word} (ha : Reduced p a) (hb : Reduced p b) :
    (wordPoly a * wordPoly b).degree < (2 * p.m - 1 : Nat) := by
  have hnat {w : Word} (hw : Reduced p w) : (wordPoly w).natDegree < p.m := by
    rcases eq_or_ne (wordPoly w) 0 with h0 | h0
    · rw [h0, Polynomial.natDegree_zero]; omega
    · exact (Polynomial.natDegree_lt_iff_degree_lt h0).2 (degree_wordPoly_lt_iff.2 hw)
  have hle := Polynomial.natDegree_mul_le (p := wordPoly a) (q := wordPoly b)
  have hda := hnat ha
  have hdb := hnat hb
  exact lt_of_le_of_lt Polynomial.degree_le_natDegree (by exact_mod_cast (by omega))

/-- Settles O35: the shifted sum is the product, and the rounds leave its remainder. -/
theorem gmulIsTheReducedProduct : Obligations.GmulIsTheReducedProduct := by
  intro p a b h ha hb
  obtain ⟨hm, -⟩ := legal_bounds h
  have hraw := wordPoly_gmulRaw h ha hb
  refine ⟨reduced_gmul p a b, ?_⟩
  rw [gmul, wordPoly_greduce h (hraw ▸ degree_mul_wordPoly_lt hm ha hb), hraw]

end Sys2Proof.Machine
end

section
/-! The words of M bits as the field GF(2^M) (rule R166): every operation of section 1 is the field's, so the field's
laws hold of the words. -/

namespace Sys2Proof.Machine

variable {p : Params}

/-! ## The words as field elements -/

/-- GF(2^M): polynomials over GF(2) modulo FIELD_POLY. -/
abbrev GF (p : Params) : Type := AdjoinRoot (wordPoly p.fieldPoly)

/-- The field element a word stands for (rule R8). -/
noncomputable def toGF (p : Params) (w : Word) : GF p := AdjoinRoot.mk _ (wordPoly w)

@[simp] theorem toGF_zero (p : Params) : toGF p 0#32 = 0 := by simp [toGF]

@[simp] theorem toGF_one (p : Params) : toGF p 1#32 = 1 := by simp [toGF]

@[simp] theorem toGF_gadd (p : Params) (a b : Word) : toGF p (gadd a b) = toGF p a + toGF p b := by
  rw [toGF, gadd, wordPoly_xor, map_add]; rfl

theorem mk_modByMonic (f q : Polynomial (ZMod 2)) : AdjoinRoot.mk f (q %ₘ f) = AdjoinRoot.mk f q :=
  AdjoinRoot.mk_eq_mk.2 (Polynomial.dvd_modByMonic_sub q f)

theorem toGF_gmul (h : p.legal = true) {a b : Word} (ha : Reduced p a) (hb : Reduced p b) :
    toGF p (gmul p a b) = toGF p a * toGF p b := by
  rw [toGF, toGF, toGF, (gmulIsTheReducedProduct p a b h ha hb).2, mk_modByMonic, map_mul]

/-- Different words of M bits are different elements. -/
theorem toGF_injective (h : p.legal = true) {a b : Word} (ha : Reduced p a) (hb : Reduced p b)
    (hab : toGF p a = toGF p b) : a = b := by
  have hdeg : (wordPoly a - wordPoly b).degree < (wordPoly p.fieldPoly).degree := by
    rw [degree_fieldPoly h]
    exact lt_of_le_of_lt (Polynomial.degree_sub_le _ _)
      (max_lt (degree_wordPoly_lt_iff.2 ha) (degree_wordPoly_lt_iff.2 hb))
  exact wordPoly_injective (sub_eq_zero.1 (Polynomial.eq_zero_of_dvd_of_degree_lt (AdjoinRoot.mk_eq_mk.1 hab) hdeg))

/-- Every polynomial of degree below M is a word of M bits. -/
theorem exists_wordPoly_eq (h : p.legal = true) {q : Polynomial (ZMod 2)} (hq : q.degree < p.m) :
    ∃ w, Reduced p w ∧ wordPoly w = q := by
  obtain ⟨-, hm, -⟩ := legal_bounds h
  obtain ⟨n, rfl⟩ := bitPoly_surjective q
  have hlt : n < 2 ^ p.m := degree_bitPoly_lt_iff.1 hq
  have hn : (BitVec.ofNat 32 n).toNat = n := by
    rw [BitVec.toNat_ofNat]
    exact Nat.mod_eq_of_lt (lt_of_lt_of_le hlt (Nat.pow_le_pow_right (by omega) (by omega)))
  exact ⟨BitVec.ofNat 32 n, hn.trans_lt hlt, by rw [wordPoly_eq_bitPoly, hn]⟩

/-- Every element is a word of M bits. -/
theorem exists_toGF_eq (h : p.legal = true) (x : GF p) : ∃ w, Reduced p w ∧ toGF p w = x := by
  obtain ⟨hmonic, -⟩ := fieldPoly_monic h
  obtain ⟨q, rfl⟩ := AdjoinRoot.mk_surjective x
  obtain ⟨w, hw, hq⟩ := exists_wordPoly_eq h (degree_fieldPoly h ▸ Polynomial.degree_modByMonic_lt q hmonic)
  exact ⟨w, hw, by rw [toGF, hq, mk_modByMonic]⟩

/-! ## Powers -/

theorem GF_add_self (x : GF p) : x + x = 0 := by
  obtain ⟨q, rfl⟩ := AdjoinRoot.mk_surjective x
  rw [← map_add, CharTwo.add_self_eq_zero, map_zero]

theorem card_GF (h : p.legal = true) : Nat.card (GF p) = 2 ^ p.m := by
  obtain ⟨hmonic, hdeg⟩ := fieldPoly_monic h
  have := hmonic.finite_adjoinRoot
  rw [Module.natCard_eq_pow_finrank (K := ZMod 2), (AdjoinRoot.powerBasis' hmonic).finrank,
    AdjoinRoot.powerBasis'_dim, hdeg, Nat.card_zmod]

theorem GF_pow_card (h : p.legal = true) (x : GF p) : x ^ 2 ^ p.m = x := by
  have : Fact (Irreducible (wordPoly p.fieldPoly)) := ⟨fieldPoly_irreducible h⟩
  have hcard := card_GF h
  have : Finite (GF p) := Nat.finite_of_card_ne_zero (by rw [hcard]; positivity)
  have := Fintype.ofFinite (GF p)
  rw [← hcard, Nat.card_eq_fintype_card, FiniteField.pow_card]

theorem four_le_two_pow_m (h : p.legal = true) : 4 ≤ 2 ^ p.m :=
  Nat.pow_le_pow_right (n := 2) (i := 2) (by omega) (legal_bounds h).1

/-- The power of rule R162 is the inverse. -/
theorem GF_mul_pow_eq_one (h : p.legal = true) {x : GF p} (hx : x ≠ 0) : x * x ^ (2 ^ p.m - 2) = 1 := by
  have : Fact (Irreducible (wordPoly p.fieldPoly)) := ⟨fieldPoly_irreducible h⟩
  have h4 := four_le_two_pow_m h
  refine mul_left_cancel₀ hx ?_
  rw [← pow_succ', ← pow_succ', mul_one, show 2 ^ p.m - 2 + 1 + 1 = 2 ^ p.m by omega, GF_pow_card h]

theorem toGF_gpow (h : p.legal = true) {a : Word} (ha : Reduced p a) (n : Nat) :
    Reduced p (gpow p a n) ∧ toGF p (gpow p a n) = toGF p a ^ n := by
  induction n with
  | zero => exact ⟨reduced_one h, by simp [gpow]⟩
  | succ n ih => exact ⟨reduced_gmul p _ _, by rw [gpow, toGF_gmul h ih.1 ha, ih.2, pow_succ]⟩

/-- A square chain adds the exponents 2 + 4 + ... + 2^n. -/
theorem toGF_squareChain (h : p.legal = true) {sq acc : Word} (hsq : Reduced p sq) (hacc : Reduced p acc) (n : Nat) :
    toGF p (squareChain p sq acc n) = toGF p acc * toGF p sq ^ (2 ^ (n + 1) - 2) := by
  induction n generalizing sq acc with
  | zero => simp [squareChain]
  | succ n ih =>
    have hexp : 2 ^ (n + 1 + 1) - 2 = 2 + 2 * (2 ^ (n + 1) - 2) := by
      have hpos := Nat.two_pow_pos n
      have h1 := pow_succ 2 n
      have h2 := pow_succ 2 (n + 1)
      omega
    rw [squareChain, ih (reduced_gmul p _ _) (reduced_gmul p _ _), toGF_gmul h hacc (reduced_gmul p _ _),
      toGF_gmul h hsq hsq, hexp, pow_add (toGF p sq), pow_mul (toGF p sq), pow_two (toGF p sq), mul_assoc]

theorem toGF_ginv (h : p.legal = true) {a : Word} (ha : Reduced p a) :
    toGF p (ginv p a) = toGF p a ^ (2 ^ p.m - 2) := by
  obtain ⟨hm, -⟩ := legal_bounds h
  rw [ginv, toGF_squareChain h ha (reduced_one h), toGF_one, one_mul, Nat.sub_add_cancel (by omega)]

theorem gmul_ginv (h : p.legal = true) {a : Word} (ha : Reduced p a) (hne : a ≠ 0#32) :
    gmul p a (ginv p a) = 1#32 := by
  have hinv := reduced_ginv h a
  have hx : toGF p a ≠ 0 := fun h0 => hne (toGF_injective h ha (reduced_zero p) (h0.trans (toGF_zero p).symm))
  refine toGF_injective h (reduced_gmul p _ _) (reduced_one h) ?_
  rw [toGF_gmul h ha hinv, toGF_ginv h ha, toGF_one, GF_mul_pow_eq_one h hx]

theorem ginv_eq_gpow (h : p.legal = true) {a : Word} (ha : Reduced p a) : ginv p a = gpow p a (2 ^ p.m - 2) := by
  obtain ⟨hr, hpow⟩ := toGF_gpow h ha (2 ^ p.m - 2)
  exact toGF_injective h (reduced_ginv h a) hr ((toGF_ginv h ha).trans hpow.symm)

/-- Settles O36: the chain of squares is the power, which inverts, and a power of 0 is 0. -/
theorem ginvIsThePowerAndInverts : Obligations.GinvIsThePowerAndInverts := by
  intro p a h ha
  refine ⟨ginv_eq_gpow h ha, gmul_ginv h ha, ?_⟩
  have h4 := four_le_two_pow_m h
  rw [ginv_eq_gpow h (reduced_zero p), show 2 ^ p.m - 2 = 2 ^ p.m - 3 + 1 by omega, gpow, gmul_zero_right]

/-! ## The laws -/

theorem gmul_comm (h : p.legal = true) {a b : Word} (ha : Reduced p a) (hb : Reduced p b) :
    gmul p a b = gmul p b a := by
  refine toGF_injective h (reduced_gmul p _ _) (reduced_gmul p _ _) ?_
  rw [toGF_gmul h ha hb, toGF_gmul h hb ha, mul_comm]

theorem gmul_assoc (h : p.legal = true) {a b c : Word} (ha : Reduced p a) (hb : Reduced p b) (hc : Reduced p c) :
    gmul p (gmul p a b) c = gmul p a (gmul p b c) := by
  refine toGF_injective h (reduced_gmul p _ _) (reduced_gmul p _ _) ?_
  rw [toGF_gmul h (reduced_gmul p a b) hc, toGF_gmul h ha hb, toGF_gmul h ha (reduced_gmul p b c), toGF_gmul h hb hc,
    mul_assoc]

theorem gmul_gadd (h : p.legal = true) {a b c : Word} (ha : Reduced p a) (hb : Reduced p b) (hc : Reduced p c) :
    gmul p a (gadd b c) = gadd (gmul p a b) (gmul p a c) := by
  refine toGF_injective h (reduced_gmul p _ _) (reduced_gadd (reduced_gmul p _ _) (reduced_gmul p _ _)) ?_
  rw [toGF_gmul h ha (reduced_gadd hb hc), toGF_gadd, toGF_gadd, toGF_gmul h ha hb, toGF_gmul h ha hc, mul_add]

theorem gmul_one (h : p.legal = true) {a : Word} (ha : Reduced p a) : gmul p a 1#32 = a := by
  refine toGF_injective h (reduced_gmul p _ _) ha ?_
  rw [toGF_gmul h ha (reduced_one h), toGF_one, mul_one]

/-- Squaring is additive: the mixed terms cancel. -/
theorem gmul_gadd_gadd_self (h : p.legal = true) {a b : Word} (ha : Reduced p a) (hb : Reduced p b) :
    gmul p (gadd a b) (gadd a b) = gadd (gmul p a a) (gmul p b b) := by
  have hab := reduced_gadd ha hb
  refine toGF_injective h (reduced_gmul p _ _) (reduced_gadd (reduced_gmul p _ _) (reduced_gmul p _ _)) ?_
  rw [toGF_gmul h hab hab, toGF_gadd, toGF_gadd, toGF_gmul h ha ha, toGF_gmul h hb hb]
  linear_combination GF_add_self (toGF p a * toGF p b)

theorem gpow_two_pow_m (h : p.legal = true) {a : Word} (ha : Reduced p a) : gpow p a (2 ^ p.m) = a := by
  obtain ⟨hr, hpow⟩ := toGF_gpow h ha (2 ^ p.m)
  exact toGF_injective h hr ha (hpow.trans (GF_pow_card h _))

/-- Settles O37: addition is XOR, and every other law is the field's, read back on the words. -/
theorem fieldLaws : Obligations.FieldLaws := by
  intro p a b c h ha hb hc
  exact ⟨reduced_gadd ha hb, reduced_gmul p a b, reduced_ginv h a, BitVec.xor_comm a b, BitVec.xor_assoc a b c,
    gmul_comm h ha hb, gmul_assoc h ha hb hc, gmul_gadd h ha hb hc, BitVec.xor_zero, gmul_one h ha, BitVec.xor_self,
    gmul_zero_right p a, gmul_ginv h ha, gmul_gadd_gadd_self h ha hb, gpow_two_pow_m h ha⟩

end Sys2Proof.Machine
end

section
/-! Lists of elements as polynomials over GF(2^M) (rule R12): the product of rule R171 and the remainder of rule R173
are the product and the remainder of polynomials. -/

namespace Sys2Proof.Machine

open Polynomial (X C)

variable {p : Params} {a b c g q r : List Word}

/-! ## Coefficients -/

theorem reduced_coeff (ha : ∀ x ∈ a, Reduced p x) (i : Nat) : Reduced p (coeff a i) :=
  ElementList.coeff (k := a.length) ⟨rfl, ha⟩ i

theorem coeff_set (c : List Word) (i j : Nat) (x : Word) :
    coeff (c.set i x) j = if i = j ∧ j < c.length then x else coeff c j := by
  simp only [coeff, List.getD_eq_getElem?_getD, List.getElem?_set]
  by_cases hij : i = j
  · subst hij
    by_cases hi : i < c.length <;> simp [hi]
  · simp [hij]

theorem coeff_take (c : List Word) (n i : Nat) : coeff (c.take n) i = if i < n then coeff c i else 0#32 := by
  simp only [coeff, List.getD_eq_getElem?_getD, List.getElem?_take]
  split <;> rfl

theorem coeff_map_range {f : Nat → Word} {n i : Nat} :
    coeff ((List.range n).map f) i = if i < n then f i else 0#32 := by
  by_cases hi : i < n <;> simp [coeff, hi]

/-- Zeros above a polynomial change no coefficient. -/
theorem coeff_append_replicate_zero (c : List Word) (n i : Nat) :
    coeff (c ++ List.replicate n 0#32) i = coeff c i := by
  rcases lt_or_ge i c.length with hi | hi
  · rw [coeff, coeff, List.getD_append _ _ _ _ hi]
  · rw [coeff_of_le hi, coeff, List.getD_append_right _ _ _ _ hi, List.getD_eq_getElem?_getD, List.getElem?_replicate]
    split <;> rfl

/-! ## The product (rule R171) -/

/-- Terms that are 0 add nothing. -/
theorem foldl_xor_of_zero {l : List Nat} {f : Nat → Word} (h : ∀ i ∈ l, f i = 0#32) (acc : Word) :
    l.foldl (fun acc i => acc ^^^ f i) acc = acc := by
  induction l generalizing acc with
  | nil => rfl
  | cons i l ih =>
    rw [List.foldl_cons, h i List.mem_cons_self, BitVec.xor_zero, ih fun j hj => h j (List.mem_cons_of_mem i hj)]

/-- A sum may leave out the terms at its two ends that are 0. -/
theorem xorSum_eq_foldl_range' {f : Nat → Word} {n start count : Nat} (hle : start + count ≤ n)
    (hlow : ∀ i, i < start → f i = 0#32) (hhigh : ∀ i, start + count ≤ i → i < n → f i = 0#32) :
    xorSum n f = (List.range' start count).foldl (fun acc i => acc ^^^ f i) 0#32 := by
  have hsplit : List.range n =
      List.range' 0 start ++ (List.range' start count ++ List.range' (start + count) (n - (start + count))) := by
    have hrest := List.range'_append_1 (s := 0) (m := start) (n := count + (n - (start + count)))
    rw [Nat.zero_add] at hrest
    rw [List.range'_append_1, hrest, List.range_eq_range']
    congr 1
    omega
  rw [xorSum, hsplit, List.foldl_append, List.foldl_append, foldl_xor_of_zero (l := List.range' 0 start),
    foldl_xor_of_zero (l := List.range' (start + count) _)]
  · intro i hi
    rw [List.mem_range'_1] at hi
    exact hhigh i hi.1 (by omega)
  · intro i hi
    rw [List.mem_range'_1] at hi
    exact hlow i (by omega)

/-- The bounds of rule R171's loop leave out only terms that are 0. -/
theorem convAt_eq_prodCoeff {t : Nat} (ha : a.length = t + 1) (hb : b.length = t + 1) (k : Nat) :
    convAt p t a b k = prodCoeff p a b k := by
  refine (xorSum_eq_foldl_range' (by omega) (fun i hi => ?_) fun i hi hik => ?_).symm
  · rw [coeff_of_le (by omega : b.length ≤ k - i), gmul_zero_right]
  · rw [coeff_of_le (by omega : a.length ≤ i), gmul_zero_left]

theorem coeff_polyMul (ha : a.length = p.t + 1) (hb : b.length = p.t + 1) (k : Nat) :
    coeff (polyMul p a b) k = prodCoeff p a b k := by
  rw [polyMul, coeff_map_range]
  split
  · exact convAt_eq_prodCoeff ha hb k
  · rename_i hk
    refine (xorSum_eq_zero fun i _ => ?_).symm
    rcases lt_or_ge p.t i with hi | hi
    · rw [coeff_of_le (by omega : a.length ≤ i), gmul_zero_left]
    · rw [coeff_of_le (by omega : b.length ≤ k - i), gmul_zero_right]

/-! ## Polynomials over GF(2^M) -/

/-- The polynomial a list of elements writes out, index = power (rule R12). -/
noncomputable def listPoly (p : Params) (c : List Word) : Polynomial (GF p) :=
  ∑ i ∈ Finset.range c.length, C (toGF p (coeff c i)) * X ^ i

theorem coeff_listPoly (p : Params) (c : List Word) (i : Nat) : (listPoly p c).coeff i = toGF p (coeff c i) := by
  simp only [listPoly, Polynomial.finsetSum_coeff, Polynomial.coeff_C_mul_X_pow, Finset.sum_ite_eq, Finset.mem_range]
  split
  · rfl
  · rw [coeff_of_le (by omega), toGF_zero]

theorem toGF_xorSum (p : Params) (n : Nat) (f : Nat → Word) :
    toGF p (xorSum n f) = ∑ i ∈ Finset.range n, toGF p (f i) := by
  induction n with
  | zero => exact toGF_zero p
  | succ n ih =>
    rw [Finset.sum_range_succ, ← ih, ← toGF_gadd, xorSum, List.range_succ, List.foldl_append]
    rfl

/-- `prodCoeff` is the coefficient of the product. -/
theorem coeff_mul_listPoly (h : p.legal = true) (ha : ∀ x ∈ a, Reduced p x) (hb : ∀ x ∈ b, Reduced p x) (k : Nat) :
    (listPoly p a * listPoly p b).coeff k = toGF p (prodCoeff p a b k) := by
  rw [prodCoeff, toGF_xorSum, Polynomial.coeff_mul, Finset.Nat.sum_antidiagonal_eq_sum_range_succ_mk]
  refine Finset.sum_congr rfl fun i _ => ?_
  rw [toGF_gmul h (reduced_coeff ha i) (reduced_coeff hb _), coeff_listPoly, coeff_listPoly]

theorem reduced_prodCoeff (p : Params) (a b : List Word) (k : Nat) : Reduced p (prodCoeff p a b k) :=
  List.foldlRecOn (motive := Reduced p) _ _ (reduced_zero p) fun _ h _ _ => reduced_gadd h (reduced_gmul p _ _)

/-- Lists of elements with the same polynomial have the same coefficients. -/
theorem coeff_eq_of_listPoly_eq (h : p.legal = true) (ha : ∀ x ∈ a, Reduced p x) (hb : ∀ x ∈ b, Reduced p x)
    (hab : listPoly p a = listPoly p b) (k : Nat) : coeff a k = coeff b k := by
  refine toGF_injective h (reduced_coeff ha k) (reduced_coeff hb k) ?_
  rw [← coeff_listPoly, hab, coeff_listPoly]

/-- Every polynomial is written out by a list of elements. -/
theorem exists_listPoly_eq (h : p.legal = true) (f : Polynomial (GF p)) :
    ∃ c, (∀ x ∈ c, Reduced p x) ∧ listPoly p c = f := by
  choose word hred hword using exists_toGF_eq h
  refine ⟨(List.range (f.natDegree + 1)).map fun i => word (f.coeff i), fun x hx => ?_, ?_⟩
  · obtain ⟨i, -, rfl⟩ := List.mem_map.1 hx
    exact hred _
  · ext i
    rw [coeff_listPoly, coeff_map_range]
    split
    · exact hword _
    · rw [toGF_zero, Polynomial.coeff_eq_zero_of_natDegree_lt (by omega)]

/-- Quotient and remainder in the words of rule R173, and as polynomials. -/
theorem prodCoeff_eq_iff (h : p.legal = true) (ha : ∀ x ∈ a, Reduced p x) (hb : ∀ x ∈ b, Reduced p x)
    (hq : ∀ x ∈ q, Reduced p x) (hg : ∀ x ∈ g, Reduced p x) (hr : ∀ x ∈ r, Reduced p x) :
    (∀ k, prodCoeff p a b k = prodCoeff p q g k ^^^ coeff r k) ↔
      listPoly p a * listPoly p b = listPoly p q * listPoly p g + listPoly p r := by
  have hcoeff (k : Nat) : (listPoly p q * listPoly p g + listPoly p r).coeff k =
      toGF p (gadd (prodCoeff p q g k) (coeff r k)) := by
    rw [Polynomial.coeff_add, coeff_mul_listPoly h hq hg, coeff_listPoly, toGF_gadd]
  rw [Polynomial.ext_iff]
  refine forall_congr' fun k => ?_
  rw [hcoeff, coeff_mul_listPoly h ha hb]
  exact ⟨congrArg (toGF p), toGF_injective h (reduced_prodCoeff p a b k)
    (reduced_gadd (reduced_prodCoeff p q g k) (reduced_coeff hr k))⟩

/-! ## The remainder (rule R173) -/

theorem GF_sub_eq_add (x y : GF p) : x - y = x + y := by
  rw [sub_eq_add_neg, neg_eq_of_add_eq_zero_left (GF_add_self y)]

/-- The inner loop of rule R173 after `n` of its steps: `x` times coefficient `i` of `g` is added at index `k + i`. -/
def addShifted (p : Params) (g : List Word) (x : Word) (k n : Nat) (c : List Word) : List Word :=
  (List.range n).foldl (fun c i => c.set (k + i) (gadd (coeff c (k + i)) (gmul p x (coeff g i)))) c

theorem pmodRound_eq (p : Params) (g : List Word) (t k : Nat) (c : List Word) :
    pmodRound p g t k c = addShifted p g (coeff c (t + k)) k (t + 1) c := rfl

theorem addShifted_succ (p : Params) (g : List Word) (x : Word) (k n : Nat) (c : List Word) :
    addShifted p g x k (n + 1) c = (addShifted p g x k n c).set (k + n)
      (gadd (coeff (addShifted p g x k n c) (k + n)) (gmul p x (coeff g n))) := by
  rw [addShifted, List.range_succ, List.foldl_append]
  rfl

theorem length_addShifted (p : Params) (g : List Word) (x : Word) (k n : Nat) (c : List Word) :
    (addShifted p g x k n c).length = c.length := by
  induction n with
  | zero => rfl
  | succ n ih => rw [addShifted_succ, List.length_set, ih]

theorem coeff_addShifted (p : Params) (g : List Word) (x : Word) {k n : Nat} (hn : k + n ≤ c.length) (j : Nat) :
    coeff (addShifted p g x k n c) j =
      if k ≤ j ∧ j < k + n then gadd (coeff c j) (gmul p x (coeff g (j - k))) else coeff c j := by
  induction n generalizing j with
  | zero => rw [if_neg (by omega)]; rfl
  | succ n ih =>
    rw [addShifted_succ, coeff_set, length_addShifted]
    by_cases hj : k + n = j
    · subst hj
      rw [if_pos ⟨rfl, by omega⟩, if_pos ⟨by omega, by omega⟩, ih (by omega), if_neg (by omega),
        Nat.add_sub_cancel_left]
    · rw [if_neg (fun hset => hj hset.1), ih (by omega)]
      exact if_congr (by omega) rfl rfl

/-- One round subtracts the multiple of the divisor that clears index `t + k`. -/
theorem pmodRound_clears (h : p.legal = true) {n t k : Nat} (hg : ElementList p (t + 1) g) (hc : ElementList p n c)
    (hdeg : (listPoly p g).natDegree = t) (hk : k + (t + 1) ≤ n) :
    ClearsPower (listPoly p) (listPoly p g) (pmodRound p g t) k c := by
  ext j
  rw [pmodRound_eq, hdeg, coeff_listPoly, coeff_addShifted p g _ (hc.1.symm ▸ hk), Polynomial.coeff_sub, mul_assoc,
    Polynomial.coeff_C_mul, Polynomial.coeff_X_pow_mul', coeff_listPoly, coeff_listPoly, coeff_listPoly, GF_sub_eq_add]
  rcases lt_or_ge j k with hj | hj
  · rw [if_neg (by omega), if_neg (by omega), mul_zero, add_zero]
  · rw [if_pos hj, ← toGF_gmul h (hc.coeff _) (hg.coeff _), ← toGF_gadd]
    split
    · rfl
    · rw [coeff_of_le (c := g) (by rw [hg.1]; omega), gmul_zero_right, gadd, BitVec.xor_zero]

/-- A list of `t + 1` elements that ends in 1 writes out a monic polynomial of degree `t`. -/
theorem listPoly_monic (h : p.legal = true) {t : Nat} (hg : g.length = t + 1) (hlead : coeff g t = 1#32) :
    (listPoly p g).Monic ∧ (listPoly p g).natDegree = t := by
  have : Fact (Irreducible (wordPoly p.fieldPoly)) := ⟨fieldPoly_irreducible h⟩
  have htop : (listPoly p g).coeff t = 1 := by rw [coeff_listPoly, hlead, toGF_one]
  have hle : (listPoly p g).natDegree ≤ t := by
    rw [Polynomial.natDegree_le_iff_coeff_eq_zero]
    intro j hj
    rw [coeff_listPoly, coeff_of_le (by omega), toGF_zero]
  exact ⟨Polynomial.monic_of_natDegree_le_of_coeff_eq_one t hle htop,
    le_antisymm hle (Polynomial.le_natDegree_of_ne_zero (by simp [htop]))⟩

theorem degree_listPoly_eq (h : p.legal = true) {t : Nat} (hg : g.length = t + 1) (hlead : coeff g t = 1#32) :
    (listPoly p g).degree = t := by
  have : Fact (Irreducible (wordPoly p.fieldPoly)) := ⟨fieldPoly_irreducible h⟩
  obtain ⟨hmonic, hdeg⟩ := listPoly_monic h hg hlead
  rw [Polynomial.degree_eq_natDegree hmonic.ne_zero, hdeg]

theorem degree_listPoly_lt (p : Params) (c : List Word) : (listPoly p c).degree < (c.length : Nat) := by
  rw [Polynomial.degree_lt_iff_coeff_zero]
  intro j hj
  rw [coeff_listPoly, coeff_of_le hj, toGF_zero]

/-- The loop of rule R173 leaves the remainder. -/
theorem listPoly_pmod (h : p.legal = true) {n t : Nat} (hg : ElementList p (t + 1) g) (hlead : coeff g t = 1#32)
    (hc : ElementList p n c) : listPoly p (pmod p c g t) = listPoly p c %ₘ listPoly p g := by
  have : Fact (Irreducible (wordPoly p.fieldPoly)) := ⟨fieldPoly_irreducible h⟩
  obtain ⟨hmonic, hdeg⟩ := listPoly_monic h hg.1 hlead
  have hloop : listPoly p ((List.range (c.length - t)).foldr (pmodRound p g t) c) = listPoly p c %ₘ listPoly p g := by
    refine poly_foldr_rounds (Inv := ElementList p n) hmonic (fun k c hc _ => hc.pmodRound g t k)
      (fun k c' hc' hk => pmodRound_clears h hg hc' hdeg (by rw [hc.1] at hk; omega)) hc ?_
    refine lt_of_lt_of_le (degree_listPoly_lt p c) ?_
    rw [hdeg]
    exact_mod_cast (by omega)
  ext j
  rw [← hloop, pmod, coeff_listPoly, coeff_take]
  split
  · rw [coeff_listPoly]
  · rename_i hj
    have hlt := Polynomial.degree_modByMonic_lt (listPoly p c) hmonic
    rw [degree_listPoly_eq h hg.1 hlead, Polynomial.degree_lt_iff_coeff_zero] at hlt
    rw [hloop, hlt j (by omega), toGF_zero]

theorem elementList_pmod {n t : Nat} (hc : ElementList p n c) (ht : t ≤ n) (g : List Word) :
    ElementList p t (pmod p c g t) :=
  (List.foldrRecOn (motive := ElementList p n) _ _ hc fun _ hc _ _ => hc.pmodRound g t _).take ht

/-- The result of POLY_MULMOD is the remainder of the product. -/
theorem listPoly_mulmod (h : p.legal = true) (ha : ElementList p (p.t + 1) a) (hb : ElementList p (p.t + 1) b)
    (hg : ElementList p (p.t + 1) g) (hlead : coeff g p.t = 1#32) :
    listPoly p (mulmod p a b g) = listPoly p a * listPoly p b %ₘ listPoly p g := by
  have hprod : listPoly p (polyMul p a b) = listPoly p a * listPoly p b := by
    ext k
    rw [coeff_listPoly, coeff_polyMul ha.1 hb.1, coeff_mul_listPoly h ha.2 hb.2]
  rw [← hprod, ← listPoly_pmod h hg hlead (elementList_polyMul p a b)]
  ext k
  rw [coeff_listPoly, coeff_listPoly, mulmod, coeff_append_replicate_zero]

theorem coeff_mulmod_of_le (p : Params) (a b g : List Word) {k : Nat} (hk : p.t ≤ k) :
    coeff (mulmod p a b g) k = 0#32 := by
  have hlen := (elementList_pmod (elementList_polyMul p a b) (by omega : p.t ≤ 2 * p.t + 1) g).1
  rw [mulmod, coeff_append_replicate_zero, coeff_of_le (hlen.trans_le hk)]

end Sys2Proof.Machine
end

section
/-! The polynomial commands (rules R171-R173), and the check of G (rules R172, R190, R321). -/

namespace Sys2Proof.Machine

variable {s : State} {a b g : List Word} {r : Region} {ws : List Word}

/-- A whole memory stored at completion is there. -/
theorem load_complete_store (hl : ws.length = r.words s.params) (ok : Bool) :
    ((s.store r ws).complete ok).load r = some ws := load_store_same hl

theorem execPolyMul_eq (ha : s.load .pa = some a) (hb : s.load .pb = some b) :
    execPolyMul s = .next ((s.store .pr (polyMul s.params a b)).complete true) := by simp [execPolyMul, ha, hb]

theorem execPolyMulmod_eq (ha : s.load .pa = some a) (hb : s.load .pb = some b) (hg : s.load .g = some g)
    (hlead : coeff g s.params.t = 1#32) :
    execPolyMulmod s = .next ((s.store .pr (mulmod s.params a b g)).complete true) := by
  simp [execPolyMulmod, ha, hb, hg, hlead]

/-- Settles O39: all of PR is written, and its words are the coefficients of the product. -/
theorem polyMulProduct : Obligations.PolyMulProduct := by
  intro s a b _ ha hb
  have hpr := load_complete_store (s := s) (r := .pr) (elementList_polyMul s.params a b).1 true
  refine ⟨_, execPolyMul_eq ha hb, rfl, rfl, load_isSome_iff.1 (Option.isSome_of_eq_some hpr), fun k hk => ?_⟩
  rw [wordAt_of_load hpr (Nat.lt_succ_of_le hk)]
  exact coeff_polyMul (length_load ha) (length_load hb) k

/-- Settles O40: PR is the remainder of the product of polynomials; the quotient is a list of elements too, and
division by a monic polynomial has one result. -/
theorem polyMulmodRemainder : Obligations.PolyMulmodRemainder := by
  intro s a b g h ha hb hg hlead hra hrb hrg
  obtain ⟨hlen, hred⟩ := elementList_mulmod s.params a b g
  have hrem := listPoly_mulmod h ⟨length_load ha, hra⟩ ⟨length_load hb, hrb⟩ ⟨length_load hg, hrg⟩ hlead
  obtain ⟨hmonic, hdeg⟩ := listPoly_monic h (length_load hg) hlead
  refine ⟨_, _, execPolyMulmod_eq ha hb hg hlead, rfl, rfl, load_complete_store hlen true,
    fun k => coeff_mulmod_of_le s.params a b g, ?_, fun q r hq hr hlt heq => ?_⟩
  · obtain ⟨q, hq, hquot⟩ := exists_listPoly_eq h (listPoly s.params a * listPoly s.params b /ₘ listPoly s.params g)
    refine ⟨q, (prodCoeff_eq_iff h hra hrb hq hrg hred).2 ?_⟩
    rw [hquot, hrem, add_comm, mul_comm (_ /ₘ _), Polynomial.modByMonic_add_div]
  · have hsum := (prodCoeff_eq_iff h hra hrb hq hrg hr).1 heq
    refine coeff_eq_of_listPoly_eq h hr hred ?_
    rw [hrem]
    refine (Polynomial.div_modByMonic_unique (listPoly s.params q) _ hmonic ⟨?_, ?_⟩).2.symm
    · rw [hsum, add_comm, mul_comm]
    · rw [degree_listPoly_eq h (length_load hg) hlead]
      exact (degree_listPoly_lt s.params r).trans_le (by exact_mod_cast hlt)

/-- Settles O41: the check of G fails before any write, whatever else the command reads. -/
theorem nonMonicGoppaIsOperandError : Obligations.NonMonicGoppaIsOperandError := by
  intro s i g hi hg hlead
  have ho : s.operandError i = true := operandError_iff.2 ⟨hi.imp_left And.left, g, hg, hlead⟩
  have hw : s.inputsWritten i = true := by
    obtain ⟨rfl, ha, hb⟩ | rfl := hi
    · simp [State.inputsWritten, inputSpans, ha, hb, hg]
    · simp [State.inputsWritten, inputSpans, hg]
  rw [exec_of_operandError hw ho, s.raiseError_eq (by decide)]

end Sys2Proof.Machine
end

section
/-! The bounds of the integer registers (rules R167, R226): each command that writes one keeps its bound, and every step
keeps all of them. -/

namespace Sys2Proof.Machine

variable {s t : State} {i : Instr}

/-! ## What the commands count -/

theorem toNat_ofNat_le (w n : Nat) : (BitVec.ofNat w n).toNat ≤ n := by
  rw [BitVec.toNat_ofNat]
  exact Nat.mod_le n _

theorem legal_t_le {p : Params} (h : p.legal = true) : p.t ≤ p.n := by
  obtain ⟨hm, -, -, -, hr, -⟩ := legal_bounds h
  exact (Nat.le_mul_of_pos_left p.t (by omega)).trans hr.le

/-- No more than N candidates are accepted (rule R197). -/
theorem length_acceptSupport_le (p : Params) (draws : List Word) : (acceptSupport p draws).length ≤ p.n := by
  refine List.foldlRecOn (motive := fun w : List Word => w.length ≤ p.n) _ _ (Nat.zero_le _) fun w hw c _ => ?_
  split
  · rename_i hlt
    rw [List.length_append]
    exact hlt.1
  · exact hw

/-- After `n` iterations the recurrence has length at most `n` (rule R283). -/
theorem len_foldl_bmStep_le (p : Params) (syn : List Word) (n : Nat) :
    ((List.range n).foldl (bmStep p syn) (bmInit p)).len ≤ n := by
  induction n with
  | zero => exact le_rfl
  | succ n ih =>
    rw [List.range_succ, List.foldl_append, List.foldl_cons, List.foldl_nil, bmStep]
    dsimp only
    split <;> omega

theorem toNat_bmL_le (p : Params) (syn : List Word) : (BitVec.ofNat 16 (bmRun p syn).len).toNat ≤ 2 * p.t :=
  (toNat_ofNat_le 16 _).trans (len_foldl_bmStep_le p syn _)

/-- ROOT_FIND counts at most the N points of L (rule R287). -/
theorem toNat_rootCount_le {p : Params} {sig l : List Word} (hl : s.load .l = some l) :
    (BitVec.ofNat 17 ((rootFlags p sig l).count true)).toNat ≤ s.params.n :=
  ((toNat_ofNat_le 17 _).trans List.count_le_length).trans_eq (State.ElementsReduced.length_rootFlags hl)

/-! ## One register after a command -/

theorem weight_le_of_exec (hp : s.params.legal = true) (h : s.weight.toNat ≤ s.params.n) (he : exec i s = .next t) :
    t.weight.toNat ≤ s.params.n := by
  cases i
  case fwSample =>
    obtain rfl | ⟨a, pos, q, -, rfl⟩ | ⟨q, -, rfl⟩ := execFwSample_next he
    · exact h
    · exact (toNat_ofNat_le 17 _).trans (legal_t_le hp)
    · exact Nat.zero_le _
  case rootFind =>
    obtain ⟨sig, l, g, syn, -, hl, -, -, rfl⟩ := execRootFind_next he
    exact toNat_rootCount_le hl
  case decode =>
    obtain ⟨v, g, l, syn, x, -, -, hl, -, -, rfl⟩ := execDecode_next he
    exact toNat_rootCount_le hl
  all_goals
    obtain ⟨u, f, e, hw, rfl, -⟩ := (exec_ends he).exists_writes
    exact (congrArg BitVec.toNat (hw.weight nofun nofun nofun)).trans_le h

theorem accept_le_of_exec (h : s.accept.toNat ≤ s.params.n) (he : exec i s = .next t) :
    t.accept.toNat ≤ s.params.n := by
  cases i
  case supportGen =>
    obtain rfl | ⟨ds, q, u, -, rfl, ⟨-, rfl⟩ | ⟨-, rfl⟩⟩ := execSupportGen_next he
    · exact h
    all_goals exact (toNat_ofNat_le 17 _).trans (length_acceptSupport_le s.params ds)
  all_goals
    obtain ⟨u, f, e, hw, rfl, -⟩ := (exec_ends he).exists_writes
    exact (congrArg BitVec.toNat (hw.accept nofun)).trans_le h

theorem tries_le_of_exec (h : s.tries.toNat ≤ max s.params.goppaMaxTries s.params.fwMaxTries)
    (he : exec i s = .next t) : t.tries.toNat ≤ max s.params.goppaMaxTries s.params.fwMaxTries := by
  cases i
  case goppaSample =>
    obtain rfl | ⟨a, g, q, ha, rfl⟩ | ⟨q, -, rfl⟩ := execGoppaSample_next he
    · exact h
    · obtain ⟨-, hle, -⟩ := attempts_found (goppaAttempt_takes _) ha
      exact (toNat_ofNat_le 32 a).trans (le_max_of_le_left (by omega))
    · exact (toNat_ofNat_le 32 _).trans (le_max_left _ _)
  case fwSample =>
    obtain rfl | ⟨a, pos, q, ha, rfl⟩ | ⟨q, -, rfl⟩ := execFwSample_next he
    · exact h
    · obtain ⟨-, hle, -⟩ := attempts_found (fwAttempt_takes _) ha
      exact (toNat_ofNat_le 32 a).trans (le_max_of_le_right (by omega))
    · exact (toNat_ofNat_le 32 _).trans (le_max_right _ _)
  all_goals
    obtain ⟨u, f, e, hw, rfl, -⟩ := (exec_ends he).exists_writes
    exact (congrArg BitVec.toNat (hw.tries nofun nofun)).trans_le h

theorem bmL_le_of_exec (h : s.bmL.toNat ≤ 2 * s.params.t) (he : exec i s = .next t) :
    t.bmL.toNat ≤ 2 * s.params.t := by
  cases i
  case bmSolve =>
    obtain ⟨syn, -, rfl⟩ := execBmSolve_next he
    exact toNat_bmL_le s.params syn
  case decode =>
    obtain ⟨v, g, l, syn, x, -, -, -, -, rfl, rfl⟩ := execDecode_next he
    exact toNat_bmL_le s.params syn
  all_goals
    obtain ⟨u, f, e, hw, rfl, -⟩ := (exec_ends he).exists_writes
    exact (congrArg BitVec.toNat (hw.bmL nofun nofun)).trans_le h

/-- Only the semi-systematic form writes PIVMASK bits (rule R226). -/
theorem pivmask_of_exec (h : s.pivmask = 0#64) (hf : s.params.variantF = false) (he : exec i s = .next t) :
    t.pivmask = 0#64 := by
  cases i
  case systematize =>
    obtain ⟨rows, -, rfl | ⟨-, rows', -, rfl⟩ | ⟨hf', -⟩⟩ := execSystematize_next he
    · rfl
    · rfl
    · cases hf.symm.trans hf'
  all_goals
    obtain ⟨u, f, e, hw, rfl, -⟩ := (exec_ends he).exists_writes
    exact (hw.pivmask nofun).trans h

/-! ## The invariant -/

namespace State.CountersBounded

/-- Only the five registers and the parameters matter. -/
theorem congr (h : s.CountersBounded) (hp : t.params = s.params := by rfl) (hw : t.weight = s.weight := by rfl)
    (ha : t.accept = s.accept := by rfl) (ht : t.tries = s.tries := by rfl) (hb : t.bmL = s.bmL := by rfl)
    (hm : t.pivmask = s.pivmask := by rfl) : t.CountersBounded := by
  obtain ⟨h1, h2, h3, h4, h5⟩ := h
  rw [← hp] at h1 h2 h3 h4 h5
  exact ⟨hw ▸ h1, ha ▸ h2, ht ▸ h3, hb ▸ h4, hm ▸ h5⟩

theorem of_exec (h : s.CountersBounded) (hp : s.params.legal = true) (he : exec i s = .next t) : t.CountersBounded := by
  have hparams : t.params = s.params := (commandWritesOnlyItsWriteSet i s t he).1
  refine ⟨?_, ?_, ?_, ?_, ?_⟩ <;> rw [hparams]
  · exact weight_le_of_exec hp h.weight he
  · exact accept_le_of_exec h.accept he
  · exact tries_le_of_exec h.tries he
  · exact bmL_le_of_exec h.bmL he
  · exact fun hf => pivmask_of_exec (h.pivmask hf) hf he

/-- A reset leaves the registers 0 (rules R61, R350, R351). -/
theorem softReset (s : State) (full : Nat) : (s.softReset full).CountersBounded := by
  unfold State.softReset
  split <;> exact ⟨Nat.zero_le _, Nat.zero_le _, Nat.zero_le _, Nat.zero_le _, fun _ => rfl⟩

theorem writeReg (h : s.CountersBounded) (r : Reg) (w : Word) : (writeReg r w s).CountersBounded := by
  cases r <;> exact h.congr

theorem writeCtrl (h : s.CountersBounded) (w : Word) : (writeCtrl w s).CountersBounded := by
  unfold Machine.writeCtrl
  split
  · exact softReset s _
  · exact h.congr

theorem of_issueCommand {w : Word} {ov : Bool} (h : s.CountersBounded) (hp : s.params.legal = true)
    (he : issueCommand w ov s = .next t) : t.CountersBounded := by
  obtain ⟨-, -, rfl⟩ | ⟨i, -, ⟨-, -, rfl⟩ | hx⟩ := issueCommand_cases he
  · exact h.congr
  · exact h.congr
  · exact of_exec (s := s.issue w i) h.congr hp hx

theorem of_hostWrite {a width : Nat} {w : Word} {ov : Bool} (h : s.CountersBounded) (hp : s.params.legal = true)
    (he : hostWrite a width w ov s = .next t) : t.CountersBounded := by
  obtain rfl | rfl | ⟨-, rfl⟩ | ⟨-, hx⟩ | ⟨-, r, rfl⟩ | ⟨-, rfl | ⟨r, i, -, rfl⟩⟩ := hostWrite_cases he
  · exact h.writeCtrl w
  · exact h.congr
  · exact h.congr
  · exact h.of_issueCommand hp hx
  · exact h.writeReg r w
  · exact h
  · exact h.congr

theorem of_accept {x : Input} (h : s.CountersBounded) (hp : s.params.legal = true)
    (he : Machine.accept x s = .next t) : t.CountersBounded := by
  obtain ⟨act, ov⟩ := x
  cases act with
  | read a width =>
    obtain ⟨v, rfl⟩ | ⟨-, rfl⟩ := hostRead_cases he
    · exact h.congr
    · exact h.congr
  | write a width w => exact h.of_hostWrite hp he
  | offer b => cases he; exact h.congr
  | powerOn => cases he; exact (softReset s _).congr

theorem of_acceptNext (h : s.CountersBounded) (hp : s.params.legal = true) (he : acceptNext s = .next t) :
    t.CountersBounded := by
  cases hi : s.inputs with
  | nil =>
    rw [acceptNext_nil hi] at he
    cases he; exact h
  | cons x rest =>
    rw [acceptNext_cons hi] at he
    exact of_accept (s := { s with inputs := rest }) h.congr hp he

end State.CountersBounded

/-- Settles O17: an input taken keeps the registers or resets them, and a command keeps the bound of each. -/
theorem stepKeepsCountersBounded : Obligations.StepKeepsCountersBounded := by
  intro s t h hs
  obtain ⟨⟨hp, -⟩, ha⟩ := live_of_step hs
  obtain hx | ⟨i, -, hx, -⟩ := advance_cases ha
  · exact h.of_acceptNext hp hx
  · exact h.of_exec hp hx

end Sys2Proof.Machine
end

section
/-! The irreducibility test (rule R191): its divisors are all monic polynomials of degree 1 to T/2, and a polynomial
over GF(2^M) is irreducible exactly when no two polynomials of degree at least 1 have it as their product. -/

namespace Sys2Proof.Machine

open Polynomial (X C)

variable {p : Params} {a b c d : List Word} {e : Nat}

/-! ## Lists and polynomials -/

theorem GF_isDomain (h : p.legal = true) : IsDomain (GF p) := by
  have : Fact (Irreducible (wordPoly p.fieldPoly)) := ⟨fieldPoly_irreducible h⟩
  exact inferInstance

theorem toGF_eq_zero_iff (h : p.legal = true) {w : Word} (hw : Reduced p w) : toGF p w = 0 ↔ w = 0#32 :=
  ⟨fun h0 => toGF_injective h hw (reduced_zero p) (h0.trans (toGF_zero p).symm), fun h0 => h0 ▸ toGF_zero p⟩

/-- A polynomial of degree below `n` is written out by `n` elements. -/
theorem exists_elementList_eq (h : p.legal = true) {f : Polynomial (GF p)} {n : Nat} (hf : f.degree < n) :
    ∃ c, ElementList p n c ∧ listPoly p c = f := by
  obtain ⟨c, hc, rfl⟩ := exists_listPoly_eq h f
  refine ⟨(List.range n).map (coeff c), ⟨by simp, fun x hx => ?_⟩, ?_⟩
  · obtain ⟨i, -, rfl⟩ := List.mem_map.1 hx
    exact reduced_coeff hc i
  · ext i
    rw [coeff_listPoly, coeff_map_range]
    split
    · rw [coeff_listPoly]
    · rw [toGF_zero, (Polynomial.degree_lt_iff_coeff_zero _ n).1 hf i (not_lt.1 ‹_›)]

theorem listPoly_eq_zero_iff (h : p.legal = true) (hc : ∀ x ∈ c, Reduced p x) :
    listPoly p c = 0 ↔ ∀ x ∈ c, x = 0#32 := by
  refine ⟨fun h0 x hx => ?_, fun h0 => Finset.sum_eq_zero fun i hi => ?_⟩
  · obtain ⟨i, hi, rfl⟩ := List.getElem_of_mem hx
    rw [← toGF_eq_zero_iff h (hc _ hx), ← List.getD_eq_getElem c 0#32 hi]
    exact (coeff_listPoly p c i).symm.trans (by rw [h0, Polynomial.coeff_zero])
  · have hi := Finset.mem_range.1 hi
    rw [coeff, List.getD_eq_getElem _ _ hi, h0 _ (List.getElem_mem hi), toGF_zero, C.map_zero, zero_mul]

theorem coeff_concat_one (c : List Word) : coeff (c ++ [1#32]) c.length = 1#32 := by simp [coeff]

/-- A leading 1 is the highest power of x. -/
theorem listPoly_concat_one (p : Params) (c : List Word) : listPoly p (c ++ [1#32]) = listPoly p c + X ^ c.length := by
  have hlow : ∀ i ∈ Finset.range c.length,
      C (toGF p (coeff (c ++ [1#32]) i)) * X ^ i = C (toGF p (coeff c i)) * X ^ i := fun i hi => by
    rw [coeff, coeff, List.getD_append _ _ _ _ (Finset.mem_range.1 hi)]
  rw [listPoly, List.length_append, List.length_singleton, Finset.sum_range_succ, Finset.sum_congr rfl hlow, ← listPoly,
    coeff_concat_one, toGF_one, C.map_one, one_mul]

/-- Coefficients of M bits are those of a product exactly where the polynomials are equal. -/
theorem coeff_eq_prodCoeff_iff (h : p.legal = true) (ha : ∀ x ∈ a, Reduced p x) (hb : ∀ x ∈ b, Reduced p x)
    (hc : ∀ x ∈ c, Reduced p x) :
    (∀ k, coeff c k = prodCoeff p a b k) ↔ listPoly p c = listPoly p a * listPoly p b := by
  rw [Polynomial.ext_iff]
  refine forall_congr' fun k => ?_
  rw [coeff_listPoly, coeff_mul_listPoly h ha hb]
  exact ⟨congrArg (toGF p), toGF_injective h (reduced_coeff hc k) (reduced_prodCoeff p a b k)⟩

theorem natDegree_listPoly (h : p.legal = true) {n : Nat} (hc : HasDegree p c n) : (listPoly p c).natDegree = n := by
  obtain ⟨hlen, hred, htop⟩ := hc
  refine Polynomial.natDegree_eq_of_le_of_coeff_ne_zero ?_ ?_
  · rw [Polynomial.natDegree_le_iff_coeff_eq_zero]
    intro j hj
    rw [coeff_listPoly, coeff_of_le (by omega), toGF_zero]
  · rwa [coeff_listPoly, Ne, toGF_eq_zero_iff h (reduced_coeff hred n)]

/-! ## The divisors that are tried -/

theorem toNat_ofNat_and_lowMask {n : Nat} (hn : n ≤ 32) (x : Nat) :
    (BitVec.ofNat 32 x &&& lowMask n).toNat = x % 2 ^ n := by
  rw [toNat_and_lowMask, BitVec.toNat_ofNat, Nat.min_eq_left hn, Nat.mod_mod_of_dvd _ (Nat.pow_dvd_pow 2 hn)]

theorem elementList_monic (h : p.legal = true) (e x : Nat) : ElementList p (e + 1) (monic p e x) := by
  refine ElementList.append ⟨by simp, fun w hw => ?_⟩ ⟨rfl, by simpa using reduced_one h⟩
  obtain ⟨i, -, rfl⟩ := List.mem_map.1 hw
  exact toNat_and_lowMask_lt _ _

theorem coeff_monic_self (p : Params) (e x : Nat) : coeff (monic p e x) e = 1#32 := by simp [coeff, monic]

/-- The `x`-th monic polynomial, `x` having the coefficients below the leading one as its digits. -/
theorem monic_ofDigits (h : p.legal = true) (hd : ElementList p e d) :
    monic p e (Nat.ofDigits (2 ^ p.m) (d.map BitVec.toNat)) = d ++ [1#32] := by
  obtain ⟨-, hm, -⟩ := legal_bounds h
  obtain ⟨hlen, hred⟩ := hd
  have hdigits : ∀ x ∈ d.map BitVec.toNat, x < 2 ^ p.m := by simpa using hred
  refine congrArg (· ++ [1#32]) (List.ext_getElem (by simpa using hlen.symm) fun i _ hi => BitVec.eq_of_toNat_eq ?_)
  rw [List.getElem_map, List.getElem_range, toNat_ofNat_and_lowMask (by omega), Nat.shiftRight_eq_div_pow, pow_mul,
    Nat.ofDigits_div_pow_eq_ofDigits_drop i (Nat.two_pow_pos _) _ hdigits,
    List.drop_eq_getElem_cons (by simpa using hi), Nat.ofDigits_cons, Nat.add_mul_mod_self_left, List.getElem_map,
    Nat.mod_eq_of_lt (hred _ (List.getElem_mem hi))]

/-- The divisors tried at degree `e` are all monic polynomials of that degree. -/
theorem exists_monic_eq (h : p.legal = true) {q : Polynomial (GF p)} (hq : q.Monic) :
    ∃ x < 2 ^ (p.m * q.natDegree), listPoly p (monic p q.natDegree x) = q := by
  obtain ⟨hm, -⟩ := legal_bounds h
  have := GF_isDomain h
  have hlow : q.eraseLead.degree < q.natDegree :=
    Polynomial.degree_eq_natDegree hq.ne_zero ▸ Polynomial.degree_eraseLead_lt hq.ne_zero
  obtain ⟨d, hd, hdq⟩ := exists_elementList_eq h hlow
  refine ⟨Nat.ofDigits (2 ^ p.m) (d.map BitVec.toNat), ?_, ?_⟩
  · have hlt := Nat.ofDigits_lt_base_pow_length (b := 2 ^ p.m) (l := d.map BitVec.toNat)
      (Nat.one_lt_two_pow (by omega)) (by simpa using hd.2)
    rwa [List.length_map, hd.1, ← pow_mul] at hlt
  · rw [monic_ofDigits h hd, listPoly_concat_one, hdq, hd.1, Polynomial.X_pow_eq_monomial, ← hq.leadingCoeff,
      Polynomial.eraseLead_add_monomial_natDegree_leadingCoeff]

theorem divides_iff (h : p.legal = true) {n : Nat} (hd : ElementList p (e + 1) d) (hlead : coeff d e = 1#32)
    (hc : ElementList p n c) (hn : e ≤ n) : divides p d e c = true ↔ listPoly p d ∣ listPoly p c := by
  obtain ⟨hmonic, -⟩ := listPoly_monic h hd.1 hlead
  rw [← Polynomial.modByMonic_eq_zero_iff_dvd hmonic, ← listPoly_pmod h hd hlead hc,
    listPoly_eq_zero_iff h (elementList_pmod hc hn d).2]
  simp [divides]

/-! ## The predicate -/

theorem monicT_ne_one (h : p.legal = true) (hc : MonicT p c) : listPoly p c ≠ 1 := by
  obtain ⟨-, -, ht, -⟩ := legal_bounds h
  obtain ⟨hlen, -, hlead⟩ := hc
  intro h1
  have hdeg := (listPoly_monic h hlen hlead).2
  rw [h1, Polynomial.natDegree_one] at hdeg
  omega

/-- Trial division decides irreducibility: a proper factor gives a monic one of at most half the degree. -/
theorem irreducible_iff (h : p.legal = true) (hc : MonicT p c) :
    irreducible p c = true ↔ Irreducible (listPoly p c) := by
  have := GF_isDomain h
  have ⟨hlen, hred, hlead⟩ := hc
  obtain ⟨hmonic, hdeg⟩ := listPoly_monic h hlen hlead
  have htried (e : Nat) (he : e < p.t / 2) (x : Nat) : divides p (monic p (e + 1) x) (e + 1) c = true ↔
      listPoly p (monic p (e + 1) x) ∣ listPoly p c :=
    divides_iff (n := p.t + 1) h (elementList_monic h _ x) (coeff_monic_self p _ x) ⟨hlen, hred⟩ (by omega)
  simp only [hmonic.irreducible_iff_lt_natDegree_lt (monicT_ne_one h hc), hdeg, irreducible,
    List.all_eq_true, List.mem_range, Bool.not_eq_true', ← Bool.not_eq_true]
  constructor
  · intro hnone q hq hrange hdvd
    obtain ⟨x, hx, hxq⟩ := exists_monic_eq h hq
    obtain ⟨e, he⟩ : ∃ e, q.natDegree = e + 1 := ⟨_, (Nat.sub_add_cancel (Finset.mem_Ioc.1 hrange).1).symm⟩
    rw [he] at hx hxq hrange
    have hlt : e < p.t / 2 := (Finset.mem_Ioc.1 hrange).2
    exact hnone e hlt x hx ((htried e hlt x).2 (by rwa [hxq]))
  · intro hnone e he x _ hdiv
    obtain ⟨hmx, hdx⟩ := listPoly_monic h (elementList_monic h (e + 1) x).1 (coeff_monic_self p (e + 1) x)
    exact hnone _ hmx (by rw [hdx, Finset.mem_Ioc]; omega) ((htried e he x).1 hdiv)

theorem hasDegree_monic (h : p.legal = true) (e x : Nat) : HasDegree p (monic p e x) e := by
  obtain ⟨hlen, hred⟩ := elementList_monic h e x
  exact ⟨hlen, hred, by rw [coeff_monic_self]; decide⟩

/-- A product of two polynomials of degree at least 1 is what is not irreducible. -/
theorem factors_iff (h : p.legal = true) (hc : MonicT p c) : Factors p c ↔ ¬Irreducible (listPoly p c) := by
  have := GF_isDomain h
  constructor
  · rintro ⟨a, b, da, db, hda, hdb, ha, hb, hprod⟩ hirr
    rw [coeff_eq_prodCoeff_iff h ha.2.1 hb.2.1 hc.2.1] at hprod
    rcases hirr.isUnit_or_isUnit hprod with hu | hu
    · have := natDegree_listPoly h ha ▸ Polynomial.natDegree_eq_zero_of_isUnit hu
      omega
    · have := natDegree_listPoly h hb ▸ Polynomial.natDegree_eq_zero_of_isUnit hu
      omega
  · intro hirr
    rw [(listPoly_monic h hc.1 hc.2.2).1.irreducible_iff_natDegree, and_iff_right (monicT_ne_one h hc)] at hirr
    push Not at hirr
    obtain ⟨f, g, hf, hg, hfg, hdf, hdg⟩ := hirr
    obtain ⟨x, -, hx⟩ := exists_monic_eq h hf
    obtain ⟨y, -, hy⟩ := exists_monic_eq h hg
    have ha := hasDegree_monic h f.natDegree x
    have hb := hasDegree_monic h g.natDegree y
    exact ⟨_, _, _, _, Nat.one_le_iff_ne_zero.2 hdf, Nat.one_le_iff_ne_zero.2 hdg, ha, hb,
      (coeff_eq_prodCoeff_iff h ha.2.1 hb.2.1 hc.2.1).2 (by rw [hx, hy, hfg])⟩

/-- Settles O42: both sides say that the polynomial over GF(2^M) is irreducible. -/
theorem irreducibleMeansNoFactors : Obligations.IrreducibleMeansNoFactors := by
  intro p c h hc
  rw [irreducible_iff h hc, factors_iff h hc, not_not]

/-- Settles O43: a monic G passes the check, and OK is the predicate. -/
theorem irredTestReports : Obligations.IrredTestReports := by
  intro s g h hg hmonic
  refine ⟨irreducible s.params g, irreducibleMeansNoFactors s.params g h hmonic, ?_⟩
  rw [← s.complete_eq]
  simp [exec, execIrredTest, hg, hmonic.2.2]

end Sys2Proof.Machine
end

section
/-! The generators (rules R192-R195, R197, R201): an irreducible Goppa polynomial has no root, GOPPA_SAMPLE takes the
first irreducible candidate of the stream, and SUPPORT_GEN the first distinct draws. -/

namespace Sys2Proof.Machine

open Polynomial (X C)

variable {p : Params} {s : State} {c : List Word}

/-! ## Roots (rule R194) -/

theorem listPoly_cons (p : Params) (x : Word) (c : List Word) :
    listPoly p (x :: c) = listPoly p c * X + C (toGF p x) := by
  rw [listPoly, List.length_cons, Finset.sum_range_succ', listPoly, Finset.sum_mul, pow_zero, mul_one]
  refine congrArg₂ (· + ·) (Finset.sum_congr rfl fun i _ => ?_) rfl
  rw [pow_succ, ← mul_assoc]
  rfl

/-- Horner's rule evaluates the polynomial (rule R170). -/
theorem toGF_peval (h : p.legal = true) (hc : ∀ x ∈ c, Reduced p x) {a : Word} (ha : Reduced p a) :
    Reduced p (peval p c a) ∧ toGF p (peval p c a) = (listPoly p c).eval (toGF p a) := by
  induction c with
  | nil => exact ⟨reduced_zero p, by simp [peval, listPoly]⟩
  | cons x c ih =>
    obtain ⟨hr, he⟩ := ih fun y hy => hc y (List.mem_cons_of_mem x hy)
    have hx := hc x List.mem_cons_self
    refine ⟨reduced_gadd (reduced_gmul p _ a) hx, ?_⟩
    rw [listPoly_cons, Polynomial.eval_add, Polynomial.eval_mul, Polynomial.eval_X, Polynomial.eval_C, ← he,
      ← toGF_gmul h hr ha, ← toGF_gadd]
    rfl

/-- Settles O44: a root would be a factor of degree 1 of an irreducible polynomial of degree T >= 2. -/
theorem irreducibleHasNoRoot : Obligations.IrreducibleHasNoRoot := by
  intro p c a h hc hirr ha hroot
  have := GF_isDomain h
  obtain ⟨-, -, ht, -⟩ := legal_bounds h
  have heval := (toGF_peval h hc.2.1 ha).2
  rw [hroot, toGF_zero] at heval
  have hdeg := (listPoly_monic h hc.1 hc.2.2).2
  exact ((irreducible_iff h hc).1 hirr).not_isRoot_of_natDegree_ne_one (by omega) heval.symm

/-! ## GOPPA_SAMPLE -/

theorem length_drawsAt (p : Params) (l : List Byte) (k n : Nat) : (drawsAt p l k n).length = n := by simp [drawsAt]

theorem reduced_of_mem_drawsAt {l : List Byte} {k n : Nat} {x : Word} (hx : x ∈ drawsAt p l k n) : Reduced p x := by
  obtain ⟨i, -, rfl⟩ := List.mem_map.1 hx
  exact drawAt_lt p l _

/-- A candidate is T draws and the leading coefficient 1 (rule R193). -/
theorem monicT_goppaCandidate (h : p.legal = true) (l : List Byte) (a : Nat) : MonicT p (goppaCandidate p l a) := by
  have hlen := length_drawsAt p l (p.t * a) p.t
  have hdraws : ElementList p p.t (drawsAt p l (p.t * a) p.t) := ⟨hlen, fun x => reduced_of_mem_drawsAt⟩
  have hlead := coeff_concat_one (drawsAt p l (p.t * a) p.t)
  obtain ⟨hl, hred⟩ := hdraws.append (l' := [1#32]) ⟨rfl, by simpa using reduced_one h⟩
  exact ⟨hl, hred, by rwa [hlen] at hlead⟩

/-- The bytes offered reach as far as GOPPA_SAMPLE asks: it ends at its first irreducible candidate, or with none among
all it may try (rules R192, R195). -/
inductive GoppaEnds (s : State) : State → Prop where
  /-- Candidate `b`, from 0 on, is the first that is irreducible. -/
  | found (b : Nat) (hb : b < s.params.goppaMaxTries) (hfed : 2 * s.params.t * (b + 1) ≤ s.port.offered.length)
      (hirr : irreducible s.params (goppaCandidate s.params s.port.offered b) = true)
      (hrej : ∀ a, a < b → irreducible s.params (goppaCandidate s.params s.port.offered a) = false) :
      GoppaEnds s ((State.store
        { s with port := s.port.skip (2 * s.params.t * (b + 1)), tries := BitVec.ofNat 32 (b + 1) } .g
        (goppaCandidate s.params s.port.offered b)).complete true)
  /-- Every candidate is rejected. -/
  | exhausted (hfed : 2 * s.params.t * s.params.goppaMaxTries ≤ s.port.offered.length)
      (hrej : ∀ a, a < s.params.goppaMaxTries →
        irreducible s.params (goppaCandidate s.params s.port.offered a) = false) :
      GoppaEnds s ((State.havoc
        { s with
          port := s.port.skip (2 * s.params.t * s.params.goppaMaxTries)
          tries := BitVec.ofNat 32 s.params.goppaMaxTries } .g).raiseError State.errExhausted)

/-- A run of GOPPA_SAMPLE that does not wait ends in one of the two ways. -/
theorem exists_goppaEnds (hfed : ¬s.starves .goppaSample) :
    ∃ t, execGoppaSample s = .next t ∧ GoppaEnds s t := by
  rw [starves_goppaSample] at hfed
  have his := goppaAttempt_is s.params
  cases hrun : attempts (goppaAttempt s.params) 0 s.port s.params.goppaMaxTries with
  | waits => exact absurd hrun hfed
  | found a g q =>
    obtain ⟨b, rfl, hb, hl, rfl, hg, hrej⟩ := attempts_found_first his hrun
    simp only [goppaCandidate_drop, Option.ite_none_right_eq_some, Option.some.injEq] at hg
    obtain ⟨hirr, rfl⟩ := hg
    rw [Nat.zero_add] at hrun
    refine ⟨_, execGoppaSample_of_found hrun, .found b hb hl hirr fun a ha => ?_⟩
    simpa [goppaCandidate_drop] using hrej a ha
  | exhausted q =>
    obtain ⟨hl, rfl, hrej⟩ := attempts_exhausted_all his hrun
    refine ⟨_, execGoppaSample_of_exhausted hrun, .exhausted hl fun a ha => ?_⟩
    simpa [goppaCandidate_drop] using hrej a ha

/-- Settles O45: only the first end has OK = 1, and it stores an irreducible candidate. -/
theorem goppaSampleGivesRootFreeG : Obligations.GoppaSampleGivesRootFreeG := by
  intro s t h hbusy he hidle hok
  have hfed : ¬s.starves .goppaSample := by
    intro hs
    cases (exec_of_starves hs).symm.trans he
    simp [hbusy] at hidle
  obtain ⟨_, he', hends⟩ := exists_goppaEnds hfed
  cases he'.symm.trans he
  cases hends with
  | exhausted => simp [Status.complete] at hok
  | found b _ _ hirr =>
    have hmonic := monicT_goppaCandidate h s.port.offered b
    refine ⟨_, load_complete_store hmonic.1 true, hmonic, (irreducibleMeansNoFactors _ _ h hmonic).1 hirr,
      fun a ha => ?_⟩
    have hroot := irreducibleHasNoRoot _ _ a h hmonic hirr ha
    exact ⟨hroot, gmul_ginv h (toGF_peval h hmonic.2.1 ha).1 hroot⟩

theorem toNat_ofNat_tries (h : p.legal = true) {n : Nat} (hn : n ≤ p.goppaMaxTries) :
    (BitVec.ofNat 32 n).toNat = n := by
  obtain ⟨-, -, -, -, hmax, -⟩ := legal_fits h
  rw [BitVec.toNat_ofNat, Nat.mod_eq_of_lt (by omega)]

theorem one_le_goppaMaxTries (h : p.legal = true) : 1 ≤ p.goppaMaxTries := by
  simp only [Params.legal, Params.triesOk, Bool.and_eq_true, decide_eq_true_eq] at h
  obtain ⟨⟨-, ⟨⟨hmin, -⟩, -⟩, -⟩, -⟩ := h
  exact hmin

theorem unspecified_of_mem_eq_havoc {t : State} {m : Memory} {r : Region}
    (h : t.mem = Memory.havoc m r.base (r.words t.params)) : t.unspecified r := by
  intro a ha
  simp only [Region.has, Bool.and_eq_true, decide_eq_true_eq] at ha
  rw [h, Memory.read_havoc, if_pos ha]

/-- Settles O46: TRIES counts the attempts made, the candidates of which are counted from 1. -/
theorem goppaSampleFirstIrreducible : Obligations.GoppaSampleFirstIrreducible := by
  intro s h hfed
  obtain ⟨t, he, hends⟩ := exists_goppaEnds hfed
  refine ⟨t, fun a => goppaCandidate s.params s.port.offered (a - 1), fun a => rfl, he, ?_⟩
  cases hends with
  | found b hb hl hirr hrej =>
    have hmonic := monicT_goppaCandidate h s.port.offered b
    dsimp only [State.complete_tries, State.store_tries]
    rw [toNat_ofNat_tries h hb]
    exact ⟨rfl, rfl, hl, rfl, rfl, Nat.succ_pos b, hb, fun a ha hlt => hrej _ (by omega),
      fun _ => ⟨load_complete_store hmonic.1 true, rfl, rfl⟩,
      fun hf => absurd (hf.symm.trans hirr) Bool.false_ne_true⟩
  | exhausted hl hrej =>
    have hmin := one_le_goppaMaxTries h
    have hlast := hrej (s.params.goppaMaxTries - 1) (by omega)
    dsimp only [State.raiseError_tries, State.havoc_tries]
    rw [toNat_ofNat_tries h le_rfl]
    exact ⟨rfl, rfl, hl, rfl, rfl, hmin, le_rfl, fun a ha hlt => hrej _ (by omega),
      fun ht => absurd (hlast.symm.trans ht) Bool.false_ne_true,
      fun _ => ⟨rfl, unspecified_of_mem_eq_havoc rfl, rfl, rfl⟩⟩

/-! ## SUPPORT_GEN -/

theorem eraseDups_concat (xs : List Word) (x : Word) :
    (xs ++ [x]).eraseDups = if x ∈ xs then xs.eraseDups else xs.eraseDups ++ [x] := by
  rw [List.eraseDups_append]
  by_cases hx : x ∈ xs
  · simp [List.removeAll, hx]
  · simp [List.removeAll, hx, List.eraseDups_cons]

/-- The accepted candidates are the first N distinct draws (rule R197). -/
theorem acceptSupport_eq (p : Params) (draws : List Word) :
    acceptSupport p draws = draws.eraseDups.take p.n := by
  induction draws using List.reverseRecOn with
  | nil => simp [acceptSupport]
  | append_singleton draws x ih =>
    rw [acceptSupport, List.foldl_append, List.foldl_cons, List.foldl_nil, ← acceptSupport, ih, eraseDups_concat]
    rcases lt_or_ge draws.eraseDups.length p.n with hlen | hlen
    · have hall : draws.eraseDups.take p.n = draws.eraseDups := List.take_of_length_le hlen.le
      rw [hall]
      by_cases hx : x ∈ draws
      · rw [if_neg (by simp [hx]), if_pos hx, hall]
      · rw [if_pos ⟨hlen, by simpa using hx⟩, if_neg hx,
          List.take_of_length_le (by rw [List.length_append]; exact hlen)]
    · rw [if_neg (by simp [hlen])]
      split
      · rfl
      · rw [List.take_append_of_le_length hlen]

theorem nodup_acceptSupport (p : Params) (draws : List Word) : (acceptSupport p draws).Nodup := by
  refine List.foldlRecOn (motive := List.Nodup) _ _ List.nodup_nil fun w hw x _ => ?_
  split
  · rename_i hx
    rw [← List.concat_eq_append]
    exact hw.concat hx.2
  · exact hw

theorem toNat_ofNat_accept (h : p.legal = true) (draws : List Word) :
    (BitVec.ofNat 17 (acceptSupport p draws).length).toNat = (acceptSupport p draws).length := by
  obtain ⟨hn, -⟩ := legal_fits h
  have hle := length_acceptSupport_le p draws
  rw [BitVec.toNat_ofNat, Nat.mod_eq_of_lt (by omega)]

/-- Settles O47: the draws are those of the stream, and the accepted ones are N, or fewer. -/
theorem supportGenFirstDistinctDraws : Obligations.SupportGenFirstDistinctDraws := by
  intro s h hfed
  have hdraw : s.port.draw s.params s.params.supportDraws = _ := (draw_eq _ _ _).trans (if_pos hfed)
  have hreduced : ∀ x ∈ drawsAt s.params s.port.offered 0 s.params.supportDraws, Reduced s.params x :=
    fun x => reduced_of_mem_drawsAt
  generalize drawsAt s.params s.port.offered 0 s.params.supportDraws = ds at hdraw hreduced ⊢
  have hl := acceptSupport_eq s.params ds
  have hacc := toNat_ofNat_accept h ds
  have hnodup := nodup_acceptSupport s.params ds
  have hred : ∀ x ∈ acceptSupport s.params ds, Reduced s.params x :=
    fun x hx => hreduced x (mem_of_mem_acceptSupport hx)
  by_cases hlen : (acceptSupport s.params ds).length = s.params.n
  · exact ⟨_, _, hl, execSupportGen_of_length_eq hdraw rfl hlen, rfl, rfl, hacc, hnodup, hred, rfl,
      iff_of_true rfl hlen, fun _ => load_complete_store hlen true, fun hlt => absurd hlen hlt.ne⟩
  · exact ⟨_, _, hl, execSupportGen_of_length_ne hdraw rfl hlen, rfl, rfl, hacc, hnodup, hred, rfl,
      iff_of_false Bool.false_ne_true hlen, fun heq => absurd heq hlen, fun _ => unspecified_of_mem_eq_havoc rfl⟩

end Sys2Proof.Machine
end

section
/-! A bit matrix as its columns over GF(2) (rules R13, R224, R230): the terms MAT's statements use, sums of bits,
kernel, dependent columns and dependent rows, are spans and sums of the columns. -/

namespace Sys2Proof.Machine

open Submodule

variable {k : Nat} {x : Fin k → ZMod 2} {v : Nat → Fin k → ZMod 2}

/-! ## Bits -/

/-- A bit as an element of GF(2). -/
def toBit (b : Bool) : ZMod 2 := if b then 1 else 0

@[simp] theorem toBit_false : toBit false = 0 := rfl

@[simp] theorem toBit_true : toBit true = 1 := rfl

theorem toBit_xor (a b : Bool) : toBit (a ^^ b) = toBit a + toBit b := by revert a b; decide

theorem toBit_and (a b : Bool) : toBit (a && b) = toBit a * toBit b := by revert a b; decide

theorem toBit_inj {a b : Bool} : toBit a = toBit b ↔ a = b := by revert a b; decide

theorem toBit_decide_eq_one (z : ZMod 2) : toBit (decide (z = 1)) = z := by revert z; decide

theorem toBit_parity (n : Nat) (f : Nat → Bool) : toBit (parity n f) = ∑ i ∈ Finset.range n, toBit (f i) := by
  induction n with
  | zero => rfl
  | succ n ih =>
    rw [Finset.sum_range_succ, ← ih, ← toBit_xor, parity, List.range_succ, List.foldl_append]
    rfl

/-! ## Columns -/

/-- Column `c` of the first `k` rows of a bit matrix. -/
def column (k : Nat) (a : Nat → Nat → Bool) (c : Nat) (r : Fin k) : ZMod 2 := toBit (a r c)

/-- The span of the first `c` members of a sequence of columns. -/
abbrev spanBefore (v : Nat → Fin k → ZMod 2) (c : Nat) : Submodule (ZMod 2) (Fin k → ZMod 2) :=
  span (ZMod 2) (v '' Set.Iio c)

theorem spanBefore_succ (v : Nat → Fin k → ZMod 2) (c : Nat) :
    spanBefore v (c + 1) = spanBefore v c ⊔ span (ZMod 2) {v c} := by
  rw [spanBefore, ← Order.succ_eq_add_one, Order.Iio_succ_eq_insert, Set.image_insert_eq, span_insert, sup_comm]

theorem spanBefore_succ_eq_self {c : Nat} (h : v c ∈ spanBefore v c) : spanBefore v (c + 1) = spanBefore v c := by
  rwa [spanBefore_succ, sup_eq_left, span_singleton_le_iff_mem]

theorem spanBefore_mono {c d : Nat} (h : c ≤ d) : spanBefore v c ≤ spanBefore v d :=
  span_mono (Set.image_mono (Set.Iio_subset_Iio h))

theorem spanBefore_congr {w : Nat → Fin k → ZMod 2} {c : Nat} (h : ∀ i, i < c → w i = v i) :
    spanBefore w c = spanBefore v c :=
  congrArg (span (ZMod 2)) (Set.image_congr h)

/-- A linear map of columns takes their span to the span of their images. -/
theorem spanBefore_eq_map {j : Nat} (f : (Fin k → ZMod 2) →ₗ[ZMod 2] (Fin j → ZMod 2)) {w : Nat → Fin j → ZMod 2}
    {c : Nat} (h : ∀ i, i < c → w i = f (v i)) : spanBefore w c = (spanBefore v c).map f := by
  rw [map_span, Set.image_image]
  exact congrArg (span (ZMod 2)) (Set.image_congr h)

/-- A sum of columns before `c`, each taken or not. -/
theorem mem_spanBefore_iff {c : Nat} : x ∈ spanBefore v c ↔
    ∃ pick : Nat → Bool, x = ∑ i ∈ Finset.range c, toBit (pick i) • v i := by
  rw [spanBefore, ← Finset.coe_range, mem_span_image_finset_iff_exists_fun']
  constructor
  · rintro ⟨z, rfl⟩
    exact ⟨fun i => decide (z i = 1), by simp only [toBit_decide_eq_one]⟩
  · rintro ⟨pick, rfl⟩
    exact ⟨_, rfl⟩

/-- A nonzero sum of rows vanishes on the first columns of a sequence exactly where these do not span. -/
theorem spanBefore_ne_top_iff {c : Nat} : spanBefore v c ≠ ⊤ ↔
    ∃ z : Fin k → ZMod 2, z ≠ 0 ∧ ∀ i, i < c → ∑ r, z r * v i r = 0 := by
  have hker : ∀ z : Fin k → ZMod 2, spanBefore v c ≤ LinearMap.ker (Module.piEquiv (Fin k) (ZMod 2) (ZMod 2) z) ↔
      ∀ i, i < c → ∑ r, z r * v i r = 0 := fun z => by
    rw [span_le, Set.image_subset_iff]
    simp [Set.subset_def, Module.piEquiv_apply_apply, mul_comm]
  constructor
  · intro h
    obtain ⟨f, hf, hle⟩ := exists_le_ker_of_lt_top _ (lt_top_iff_ne_top.2 h)
    obtain ⟨z, rfl⟩ := (Module.piEquiv (Fin k) (ZMod 2) (ZMod 2)).surjective f
    exact ⟨z, fun hz => hf (by rw [hz, map_zero]), (hker z).1 hle⟩
  · rintro ⟨z, hz, hv⟩ htop
    have htop' := top_le_iff.1 (htop ▸ (hker z).2 hv)
    rw [LinearMap.ker_eq_top, LinearEquiv.map_eq_zero_iff] at htop'
    exact hz htop'

/-! ## MAT -/

section state

variable {s : State}

/-- The columns of MAT. -/
abbrev State.matColumn (s : State) : Nat → Fin s.params.r → ZMod 2 := column s.params.r s.matAt

theorem inKernel_iff (e : Nat → Bool) :
    s.inKernel e ↔ ∑ c ∈ Finset.range s.params.n, toBit (e c) • s.matColumn c = 0 := by
  simp only [State.inKernel, dot, ← toBit_inj (b := false), toBit_parity, toBit_and, funext_iff, Fin.forall_iff,
    Finset.sum_apply, Pi.smul_apply, smul_eq_mul, column, mul_comm]
  rfl

theorem colInSpan_iff {c : Nat} : s.colInSpan c ↔ s.matColumn c ∈ spanBefore s.matColumn c := by
  simp only [State.colInSpan, mem_spanBefore_iff, ← toBit_inj, toBit_parity, toBit_and, funext_iff, Fin.forall_iff,
    Finset.sum_apply, Pi.smul_apply, smul_eq_mul, column]

theorem rowsDependentOn_iff {c : Nat} : s.rowsDependentOn c ↔ spanBefore s.matColumn c ≠ ⊤ := by
  simp only [State.rowsDependentOn, spanBefore_ne_top_iff, ← toBit_inj (b := false), toBit_parity, toBit_and,
    Finset.sum_range]
  constructor
  · rintro ⟨pick, ⟨r, hr, hp⟩, h⟩
    exact ⟨fun r => toBit (pick r), fun hz => by simpa [hp] using congrFun hz ⟨r, hr⟩, h⟩
  · rintro ⟨z, hz, h⟩
    obtain ⟨r, hr⟩ := Function.ne_iff.1 hz
    refine ⟨fun i => if hi : i < s.params.r then decide (z ⟨i, hi⟩ = 1) else false, ⟨r, r.2, ?_⟩, fun i hi => ?_⟩
    · simpa using (by decide : ∀ y : ZMod 2, y ≠ 0 → y = 1) _ hr
    · simpa [toBit_decide_eq_one, column] using h i hi

end state

end Sys2Proof.Machine
end

section
/-! Row operations as invertible linear maps of the columns (rules R223, R224): they keep which columns are sums of the
columns before them, which columns span, and the kernel. One step of the reducer is such a map. -/

namespace Sys2Proof.Machine

open Submodule

variable {k c r : Nat} {x : Fin k → ZMod 2} {u v w : Nat → Fin k → ZMod 2} {rows rows' : List Bits}

/-! ## Row operations -/

/-- One invertible linear map takes every column of `v` to that of `w`. -/
def RowEquiv (v w : Nat → Fin k → ZMod 2) : Prop :=
  ∃ g : (Fin k → ZMod 2) ≃ₗ[ZMod 2] (Fin k → ZMod 2), ∀ c, w c = g (v c)

namespace RowEquiv

theorem refl (v : Nat → Fin k → ZMod 2) : RowEquiv v v := ⟨LinearEquiv.refl _ _, fun _ => rfl⟩

theorem trans (h : RowEquiv u v) (h' : RowEquiv v w) : RowEquiv u w := by
  obtain ⟨g, hg⟩ := h
  obtain ⟨g', hg'⟩ := h'
  exact ⟨g.trans g', fun c => by rw [hg', hg, LinearEquiv.trans_apply]⟩

/-- The columns permuted on both sides. -/
theorem comp (h : RowEquiv v w) (σ : Nat → Nat) : RowEquiv (v ∘ σ) (w ∘ σ) := by
  obtain ⟨g, hg⟩ := h
  exact ⟨g, fun c => hg (σ c)⟩

theorem mem_spanBefore_iff (h : RowEquiv v w) (c : Nat) : w c ∈ spanBefore w c ↔ v c ∈ spanBefore v c := by
  obtain ⟨g, hg⟩ := h
  rw [spanBefore_eq_map g.toLinearMap fun i _ => hg i, hg c]
  exact g.injective.mem_set_image

theorem spanBefore_eq_top_iff (h : RowEquiv v w) (c : Nat) : spanBefore w c = ⊤ ↔ spanBefore v c = ⊤ := by
  obtain ⟨g, hg⟩ := h
  rw [spanBefore_eq_map g.toLinearMap fun i _ => hg i, Submodule.map_eq_top_iff (e := g)]

theorem sum_eq_zero_iff (h : RowEquiv v w) (n : Nat) (z : Nat → ZMod 2) :
    ∑ c ∈ Finset.range n, z c • w c = 0 ↔ ∑ c ∈ Finset.range n, z c • v c = 0 := by
  obtain ⟨g, hg⟩ := h
  simp only [hg, ← map_smul, ← map_sum, map_eq_zero_iff g g.injective]

end RowEquiv

/-! ## Columns that end above a row -/

/-- The columns with no 1 in row `r` or below it. -/
def lowRows (k r : Nat) : Submodule (ZMod 2) (Fin k → ZMod 2) := Submodule.pi {i | r ≤ i.val} fun _ => ⊥

/-- The column with its only 1 in row `r`. -/
def unitColumn (k r : Nat) (i : Fin k) : ZMod 2 := toBit (decide (i.val = r))

theorem mem_lowRows : x ∈ lowRows k r ↔ ∀ i : Fin k, r ≤ i → x i = 0 := by simp [lowRows, Submodule.mem_pi]

theorem lowRows_zero (k : Nat) : lowRows k 0 = ⊥ :=
  eq_bot_iff.2 fun _ hx => funext fun i => mem_lowRows.1 hx i (Nat.zero_le _)

theorem unitColumn_mem_lowRows (h : c < r) : unitColumn k c ∈ lowRows k r :=
  mem_lowRows.2 fun i hi => by simp [unitColumn, show i.val ≠ c by omega]

theorem unitColumn_notMem_lowRows (h : r < k) : unitColumn k r ∉ lowRows k r := fun hmem => by
  simpa [unitColumn] using mem_lowRows.1 hmem ⟨r, h⟩ le_rfl

theorem lowRows_eq_top_iff : lowRows k r = ⊤ ↔ k ≤ r := by
  refine ⟨fun h => Nat.le_of_not_lt fun hr => unitColumn_notMem_lowRows hr (h ▸ mem_top), fun h => ?_⟩
  exact eq_top_iff.2 fun x _ => mem_lowRows.2 fun i hi => absurd i.isLt (by omega)

theorem lowRows_succ (h : r < k) : lowRows k (r + 1) = lowRows k r ⊔ span (ZMod 2) {unitColumn k r} := by
  refine le_antisymm (fun x hx => ?_) (sup_le (fun x hx => mem_lowRows.2 fun i hi => ?_) ?_)
  · refine mem_sup.2 ⟨x - x ⟨r, h⟩ • unitColumn k r, mem_lowRows.2 fun i hi => ?_, _,
      smul_mem _ (x ⟨r, h⟩) (mem_span_singleton_self _), sub_add_cancel _ _⟩
    rcases Nat.eq_or_lt_of_le hi with rfl | hi
    · simp [unitColumn]
    · simp [unitColumn, mem_lowRows.1 hx i hi, show i.val ≠ r by omega]
  · exact mem_lowRows.1 hx i (by omega)
  · rw [span_singleton_le_iff_mem]
    exact unitColumn_mem_lowRows (Nat.lt_succ_self r)

/-- The first `c` columns are those of the identity. -/
def UnitBefore (v : Nat → Fin k → ZMod 2) (c : Nat) : Prop := ∀ i, i < c → v i = unitColumn k i

theorem unitBefore_zero : UnitBefore v 0 := fun i hi => absurd hi (Nat.not_lt_zero i)

theorem UnitBefore.spanBefore_eq (h : UnitBefore v c) (hc : c ≤ k) : spanBefore v c = lowRows k c := by
  induction c with
  | zero => simp [lowRows_zero]
  | succ c ih =>
    rw [spanBefore_succ, ih (fun i hi => h i (by omega)) (by omega), h c (by omega), lowRows_succ hc]

theorem UnitBefore.notMem_spanBefore (h : UnitBefore v c) (hc : c ≤ k) {i : Nat} (hi : i < c) :
    v i ∉ spanBefore v i := by
  have hbefore : UnitBefore v i := fun j hj => h j (by omega)
  rw [hbefore.spanBefore_eq (by omega), h i hi]
  exact unitColumn_notMem_lowRows (by omega)

/-! ## A pivot -/

/-- Bit `c` of row `r` of a list of rows (rule R13). -/
def entry (rows : List Bits) (r c : Nat) : Bool := (rows.getD r 0).testBit c

theorem getD_swapAt {α : Type} {d : α} {xs : List α} {i j : Nat} (hi : i < xs.length) (hj : j < xs.length) (m : Nat) :
    (swapAt d xs i j).getD m d = xs.getD (Equiv.swap i j m) d := by
  simp only [swapAt, List.getD_eq_getElem?_getD, List.getElem?_set, List.length_set, Equiv.swap_apply_def]
  split_ifs <;> grind

theorem entry_swapAt {i j : Nat} (hi : i < rows.length) (hj : j < rows.length) (m c : Nat) :
    entry (swapAt 0 rows i j) m c = entry rows (Equiv.swap i j m) c := by rw [entry, getD_swapAt hi hj, entry]

theorem entry_clearColumn (rows : List Bits) (c r i c' : Nat) : entry (clearColumn rows c r) i c' =
    (entry rows i c' ^^ (decide (i ≠ r) && entry rows i c && entry rows r c')) := by
  have hrow : (clearColumn rows c r).getD i 0 =
      if i ≠ r ∧ entry rows i c then rows.getD i 0 ^^^ rows.getD r 0 else rows.getD i 0 := by
    simp only [clearColumn, entry, List.getD_eq_getElem?_getD, List.getElem?_mapIdx]
    cases rows[i]? <;> simp
  rw [entry, hrow]
  split
  · rename_i hadd
    rw [Nat.testBit_xor, hadd.2, decide_eq_true hadd.1, Bool.true_and, Bool.true_and, entry, entry]
  · rename_i hno
    have hcond : (decide (i ≠ r) && entry rows i c) = false := by simpa using hno
    rw [hcond, Bool.false_and, Bool.xor_false, entry]

/-- A swap of rows permutes the entries of every column. -/
theorem column_swapAt (hk : rows.length = k) (r j : Fin k) (c : Nat) : column k (entry (swapAt 0 rows r j)) c =
    LinearEquiv.funCongrLeft (ZMod 2) (ZMod 2) (Equiv.swap r j) (column k (entry rows) c) := by
  funext i
  rw [column, entry_swapAt (hk ▸ r.isLt) (hk ▸ j.isLt), Fin.val_injective.swap_apply]
  rfl

/-- The column without its entry in row `r`. -/
def withoutRow (x : Fin k → ZMod 2) (r : Fin k) : Fin k → ZMod 2 := Function.update x r 0

theorem proj_withoutRow (x : Fin k → ZMod 2) (r : Fin k) :
    (LinearMap.proj r : (Fin k → ZMod 2) →ₗ[ZMod 2] ZMod 2) (withoutRow x r) = 0 := by simp [withoutRow]

/-- Clearing adds to each column a multiple of the pivot's column, the pivot's row left out. -/
theorem column_clearColumn (rows : List Bits) (c : Nat) (r : Fin k) (i : Nat) :
    column k (entry (clearColumn rows c r)) i =
      LinearEquiv.transvection (proj_withoutRow (column k (entry rows) c) r) (column k (entry rows) i) := by
  funext m
  simp only [column, entry_clearColumn, toBit_xor, toBit_and, LinearEquiv.transvection.apply, Pi.add_apply,
    Pi.smul_apply, LinearMap.proj_apply, withoutRow, Function.update_apply, Fin.ext_iff, smul_eq_mul]
  by_cases hm : m.val = r <;> simp [hm, mul_comm]

theorem pivotRow_eq_some {j : Nat} (h : pivotRow rows c r = some j) :
    r ≤ j ∧ j < rows.length ∧ entry rows j c = true := by
  have hmem := List.mem_range'_1.1 (List.mem_of_find?_eq_some h)
  exact ⟨hmem.1, by omega, List.find?_some (p := fun j => entry rows j c) h⟩

theorem pivotRow_eq_none (h : pivotRow rows c r = none) {j : Nat} (hr : r ≤ j) (hj : j < rows.length) :
    entry rows j c = false :=
  Bool.eq_false_of_not_eq_true (List.find?_eq_none.1 h j (List.mem_range'_1.2 (by omega)))

/-- No pivot: the column ends above row `r`. -/
theorem pivotAt_eq_none (hk : rows.length = k) (h : pivotAt rows c r = none) :
    column k (entry rows) c ∈ lowRows k r :=
  mem_lowRows.2 fun i hi => by
    rw [column, pivotRow_eq_none (Option.map_eq_none_iff.1 h) hi (hk ▸ i.isLt), toBit_false]

/-- A pivot: an invertible map takes the column to that of the identity, and keeps every column that ends above row
`r`. -/
theorem pivotAt_eq_some (hk : rows.length = k) (h : pivotAt rows c r = some rows') : r < k ∧
    ∃ g : (Fin k → ZMod 2) ≃ₗ[ZMod 2] (Fin k → ZMod 2),
      (∀ i, column k (entry rows') i = g (column k (entry rows) i)) ∧
      g (column k (entry rows) c) = unitColumn k r ∧ ∀ x ∈ lowRows k r, g x = x := by
  obtain ⟨j, hj, rfl⟩ := Option.map_eq_some_iff.1 h
  obtain ⟨hrj, hjk, hbit⟩ := pivotRow_eq_some hj
  obtain ⟨r, rfl⟩ : ∃ r' : Fin k, r'.val = r := ⟨⟨r, by omega⟩, rfl⟩
  obtain ⟨j, rfl⟩ : ∃ j' : Fin k, j'.val = j := ⟨⟨j, by omega⟩, rfl⟩
  have hpivot : column k (entry (swapAt 0 rows r j)) c r = 1 := by
    rw [column, entry_swapAt (by omega) hjk, Equiv.swap_apply_left, hbit, toBit_true]
  refine ⟨r.isLt, (LinearEquiv.funCongrLeft (ZMod 2) (ZMod 2) (Equiv.swap r j)).trans (LinearEquiv.transvection
    (proj_withoutRow (column k (entry (swapAt 0 rows r j)) c) r)), fun i => ?_, ?_, fun x hx => ?_⟩
  · rw [LinearEquiv.trans_apply, ← column_swapAt hk, column_clearColumn]
  · rw [LinearEquiv.trans_apply, ← column_swapAt hk]
    funext m
    simp only [LinearEquiv.transvection.apply, LinearMap.proj_apply, hpivot, one_smul, Pi.add_apply, withoutRow,
      Function.update_apply, unitColumn, Fin.ext_iff]
    by_cases hm : m.val = r
    · simp [Fin.ext hm, hpivot]
    · simp [hm, CharTwo.add_self_eq_zero]
  · have hx' := mem_lowRows.1 hx
    have hswap : LinearEquiv.funCongrLeft (ZMod 2) (ZMod 2) (Equiv.swap r j) x = x := by
      funext m
      rw [LinearEquiv.funCongrLeft_apply, LinearMap.funLeft_apply, Equiv.swap_apply_def]
      split_ifs with hmr hmj
      · rw [hmr, hx' r le_rfl, hx' j hrj]
      · rw [hmj, hx' r le_rfl, hx' j hrj]
      · rfl
    rw [LinearEquiv.trans_apply, hswap, LinearEquiv.transvection.apply, LinearMap.proj_apply, hx' r le_rfl, zero_smul,
      add_zero]

/-! ## Elimination -/

/-- One step of an elimination makes one more column that of the identity. -/
theorem UnitBefore.pivotAt (hunit : UnitBefore (column k (entry rows)) c) (hk : rows.length = k)
    (h : pivotAt rows c c = some rows') : RowEquiv (column k (entry rows)) (column k (entry rows')) ∧
      UnitBefore (column k (entry rows')) (c + 1) := by
  obtain ⟨-, g, hg, hc, hlow⟩ := pivotAt_eq_some hk h
  refine ⟨⟨g, hg⟩, fun i hi => ?_⟩
  rw [hg]
  rcases Nat.lt_succ_iff_lt_or_eq.1 hi with hi | rfl
  · rw [hunit i hi, hlow _ (unitColumn_mem_lowRows hi)]
  · exact hc

/-- An elimination that finishes makes its columns those of the identity, by row operations. -/
theorem eliminate_eq_some {n : Nat} (hk : rows.length = k) (hunit : UnitBefore (column k (entry rows)) c)
    (h : eliminate rows c n = some rows') : RowEquiv (column k (entry rows)) (column k (entry rows')) ∧
      UnitBefore (column k (entry rows')) (c + n) := by
  induction n generalizing rows c with
  | zero =>
    cases h
    exact ⟨.refl _, hunit⟩
  | succ n ih =>
    rw [eliminate] at h
    split at h
    · rename_i rows1 h1
      obtain ⟨hequiv1, hunit1⟩ := hunit.pivotAt hk h1
      obtain ⟨hequiv, hdone⟩ := ih ((length_pivotAt h1).trans hk) hunit1 h
      exact ⟨hequiv1.trans hequiv, by rwa [Nat.add_right_comm, Nat.add_assoc] at hdone⟩
    · cases h

/-- An elimination that fails meets a column that is a sum of the columns before it. -/
theorem eliminate_eq_none {n : Nat} (hk : rows.length = k) (hunit : UnitBefore (column k (entry rows)) c)
    (hn : c + n ≤ k) (h : eliminate rows c n = none) :
    ∃ i, i < c + n ∧ column k (entry rows) i ∈ spanBefore (column k (entry rows)) i := by
  induction n generalizing rows c with
  | zero => cases h
  | succ n ih =>
    rw [eliminate] at h
    split at h
    · rename_i rows1 h1
      obtain ⟨hequiv1, hunit1⟩ := hunit.pivotAt hk h1
      obtain ⟨i, hi, hmem⟩ := ih ((length_pivotAt h1).trans hk) hunit1 (by omega) h
      exact ⟨i, by omega, (hequiv1.mem_spanBefore_iff i).1 hmem⟩
    · refine ⟨c, by omega, ?_⟩
      rw [hunit.spanBefore_eq (by omega)]
      exact pivotAt_eq_none hk ‹_›

/-- `eliminate(0, n)` finishes exactly where no column is a sum of the columns before it. -/
theorem eliminate_isSome_iff {n : Nat} (hk : rows.length = k) (hn : n ≤ k) : (eliminate rows 0 n).isSome ↔
    ∀ i, i < n → column k (entry rows) i ∉ spanBefore (column k (entry rows)) i := by
  cases h : eliminate rows 0 n with
  | none =>
    obtain ⟨i, hi, hmem⟩ := eliminate_eq_none hk unitBefore_zero (by omega) h
    exact iff_of_false Bool.false_ne_true fun hall => hall i (by omega) hmem
  | some rows' =>
    obtain ⟨hequiv, hdone⟩ := eliminate_eq_some hk unitBefore_zero h
    exact iff_of_true rfl fun i hi =>
      (hequiv.mem_spanBefore_iff i).not.1 (hdone.notMem_spanBefore (by omega) (by omega))

end Sys2Proof.Machine
end

section
/-! MAT as its host sees it (rule R89): the rows SYSTEMATIZE loads and stores, bit by bit. -/

namespace Sys2Proof.Machine

variable {s : State} {rows : List Bits}

/-- MAT's bits where its words are the rows packed one after another. -/
theorem matAt_of_load (h : s.load .mat = some (rows.flatMap (Bits.toWords s.params.rowWords))) {r c : Nat}
    (hr : r < s.params.r) (hc : c < 32 * s.params.rowWords) : s.matAt r c = entry rows r c := by
  have hw : c / 32 < s.params.rowWords := by omega
  have hi : r * s.params.rowWords + c / 32 < s.params.r * s.params.rowWords := by
    have := Nat.mul_le_mul_right s.params.rowWords (Nat.succ_le_of_lt hr)
    rw [Nat.succ_mul] at this
    omega
  have hlen : r * s.params.rowWords + c / 32 < (rows.flatMap (Bits.toWords s.params.rowWords)).length := by
    rw [length_load h]; exact hi
  rw [State.matAt, wordAt_of_load h hi, coeff, List.getD_eq_getElem _ _ hlen, getElem_flatMap_toWords,
    BitVec.getLsbD_ofNat, decide_eq_true (Nat.mod_lt c (by omega)), Bool.true_and, Nat.testBit_shiftRight, entry]
  rw [Nat.mul_comm r, Nat.mul_add_div (by omega), Nat.div_eq_of_lt hw, Nat.add_zero, Nat.mul_add_mod,
    Nat.mod_eq_of_lt hw, Nat.div_add_mod]

/-- Row `r` of MAT as one bit vector. -/
def State.matRow (s : State) (r : Nat) : Bits :=
  Bits.ofWords ((List.range s.params.rowWords).map fun j => s.wordAt .mat (r * s.params.rowWords + j))

/-- The rows of MAT, in order. -/
def State.matRows (s : State) : List Bits := (List.range s.params.r).map s.matRow

@[simp] theorem length_matRows (s : State) : s.matRows.length = s.params.r := by simp [State.matRows]

/-- A written MAT loads as its rows. -/
theorem loadRows_eq (h : s.written .mat) : s.loadRows = some s.matRows := by
  have hrow : ∀ r ∈ List.range s.params.r,
      (s.loadSpan ⟨.mat, r * s.params.rowWords, s.params.rowWords⟩).map Bits.ofWords = pure (s.matRow r) := by
    intro r hr
    have hle := Nat.mul_le_mul_right s.params.rowWords (Nat.succ_le_of_lt (List.mem_range.1 hr))
    rw [Nat.succ_mul] at hle
    have hload : s.loadSpan ⟨.mat, r * s.params.rowWords, s.params.rowWords⟩ =
        some ((List.range s.params.rowWords).map fun j => s.wordAt .mat (r * s.params.rowWords + j)) := by
      refine Memory.readWords_eq_some_iff.2 ⟨by simp, fun j hj => ?_⟩
      rw [List.length_map, List.length_range] at hj
      have hsome := h (r * s.params.rowWords + j) (by simp only [Region.words]; omega)
      rw [List.getElem_map, List.getElem_range, State.wordAt, ← Option.some_get hsome, Option.getD_some]
      simp only [Option.some_get, Region.addr, Nat.mul_add, Nat.add_assoc]
    rw [hload]
    rfl
  rw [State.loadRows, mapM_congr hrow, List.mapM_pure]
  rfl

theorem entry_matRows {r c : Nat} (hr : r < s.params.r) (hc : c < 32 * s.params.rowWords) :
    entry s.matRows r c = s.matAt r c := by
  have hrow : s.matRows.getD r 0 = s.matRow r := by simp [State.matRows, hr]
  rw [entry, hrow, State.matRow, Bits.testBit_ofWords, List.getD_eq_getElem _ _ (by simp; omega),
    List.getElem_map, List.getElem_range, State.matAt]

theorem n_le_rowWords (p : Params) : p.n ≤ 32 * p.rowWords := by simp only [Params.rowWords]; omega

/-- The columns of the rows SYSTEMATIZE loads are MAT's. -/
theorem column_matRows {c : Nat} (hc : c < s.params.n) :
    column s.params.r (entry s.matRows) c = s.matColumn c :=
  funext fun r => congrArg toBit (entry_matRows r.isLt (lt_of_lt_of_le hc (n_le_rowWords _)))

theorem inKernel_iff_rows (e : Nat → Bool) : s.inKernel e ↔ ∑ c ∈ Finset.range s.params.n,
    toBit (e c) • column s.params.r (entry s.matRows) c = 0 := by
  rw [inKernel_iff, Finset.sum_congr rfl fun c hc => by rw [← column_matRows (Finset.mem_range.1 hc)]]

/-! ## A stored reduction -/

theorem load_storeRows (h : rows.length = s.params.r) :
    (s.storeRows rows).load .mat = some (rows.flatMap (Bits.toWords s.params.rowWords)) :=
  load_store_same (by rw [length_flatMap_toWords, h]; rfl)

/-- The columns of a MAT stored as rows are theirs. -/
theorem matColumn_of_load (h : s.load .mat = some (rows.flatMap (Bits.toWords s.params.rowWords))) {c : Nat}
    (hc : c < s.params.n) : s.matColumn c = column s.params.r (entry rows) c :=
  funext fun r => congrArg toBit (matAt_of_load h r.isLt (lt_of_lt_of_le hc (n_le_rowWords _)))

theorem matAt_of_unitBefore (h : s.load .mat = some (rows.flatMap (Bits.toWords s.params.rowWords)))
    (hp : s.params.legal = true) (hunit : UnitBefore (column s.params.r (entry rows)) s.params.r) {r c : Nat}
    (hr : r < s.params.r) (hc : c < s.params.r) : s.matAt r c = decide (r = c) := by
  obtain ⟨-, -, -, -, hn, -⟩ := legal_bounds hp
  have hcol := (matColumn_of_load h (hc.trans hn)).trans (hunit c hc)
  exact toBit_inj.1 (congrFun hcol ⟨r, hr⟩)

theorem inKernel_iff_of_rowEquiv (h : s.load .mat = some (rows.flatMap (Bits.toWords s.params.rowWords)))
    {v : Nat → Fin s.params.r → ZMod 2} (hequiv : RowEquiv v (column s.params.r (entry rows))) (e : Nat → Bool) :
    s.inKernel e ↔ ∑ c ∈ Finset.range s.params.n, toBit (e c) • v c = 0 := by
  rw [inKernel_iff, ← hequiv.sum_eq_zero_iff,
    Finset.sum_congr rfl fun c hc => by rw [matColumn_of_load h (Finset.mem_range.1 hc)]]

end Sys2Proof.Machine
end

section
/-! Plain SYSTEMATIZE (rules R224, R227, R230). -/

namespace Sys2Proof.Machine

open Submodule

variable {s : State}

/-- As many columns as rows that span are independent. -/
theorem notMem_spanBefore_of_eq_top {k : Nat} {v : Nat → Fin k → ZMod 2} (h : spanBefore v k = ⊤) {i : Nat}
    (hi : i < k) : v i ∉ spanBefore v i := by
  have himage : ∀ c (hc : c ≤ k), v '' Set.Iio c = (fun j : Fin k => v j) '' {j | j.val < c} := fun c hc =>
    Set.ext fun x => ⟨fun ⟨j, hj, hx⟩ => ⟨⟨j, lt_of_lt_of_le hj hc⟩, hj, hx⟩, fun ⟨j, hj, hx⟩ => ⟨j, hj, hx⟩⟩
  have hspan : ⊤ ≤ span (ZMod 2) (Set.range fun j : Fin k => v j) := by
    rw [← h, spanBefore, himage k le_rfl]
    exact span_mono (Set.image_subset_range _ _)
  have hind := linearIndependent_of_top_le_span_of_card_eq_finrank hspan (by simp)
  rw [spanBefore, himage i hi.le]
  exact hind.notMem_span_image (x := ⟨i, hi⟩) (lt_irrefl i)

/-- MAT's left block is singular exactly where the elimination finds a column without a pivot (rule R224). -/
theorem leftSingular_iff (hp : s.params.legal = true) :
    s.leftSingular ↔ eliminate s.matRows 0 s.params.r = none := by
  obtain ⟨-, -, -, -, hn, -⟩ := legal_bounds hp
  have hcol : ∀ c, c < s.params.r → s.matColumn c = column _ (entry s.matRows) c :=
    fun c hc => (column_matRows (hc.trans hn)).symm
  rw [State.leftSingular, rowsDependentOn_iff, spanBefore_congr hcol, ← Option.not_isSome_iff_eq_none, not_iff_not]
  refine ⟨fun htop => ?_, fun hsome => ?_⟩
  · exact (eliminate_isSome_iff (length_matRows s) le_rfl).2 fun i => notMem_spanBefore_of_eq_top htop
  · obtain ⟨rows', he⟩ := Option.isSome_iff_exists.1 hsome
    obtain ⟨hequiv, hunit⟩ := eliminate_eq_some (length_matRows s) unitBefore_zero he
    rw [Nat.zero_add] at hunit
    rw [← hequiv.spanBefore_eq_top_iff, hunit.spanBefore_eq le_rfl, lowRows_eq_top_iff]

theorem execSystematize_plain_fails {rows : List Bits} (hf : s.params.variantF = false) (hrows : s.loadRows = some rows)
    (he : eliminate rows 0 s.params.r = none) : execSystematize s = .next s.systematizeFails := by
  simp [execSystematize, hf, hrows, he]

theorem execSystematize_plain_succeeds {rows rows' : List Bits} (hf : s.params.variantF = false)
    (hrows : s.loadRows = some rows) (he : eliminate rows 0 s.params.r = some rows') :
    execSystematize s = .next (State.complete { s.storeRows rows' with pivmask := 0#64 } true) := by
  simp [execSystematize, hf, hrows, he]

/-- A failed reduction leaves L (rule R227). -/
theorem load_systematizeFails (hp : s.params.legal = true) : s.systematizeFails.load .l = s.load .l :=
  load_havoc_other (r := .mat) hp (by decide)

/-- Settles O50: the elimination on columns 0..R-1 finishes exactly on an invertible left block, and then is an
invertible map of MAT's columns. -/
theorem systematizePlain : Obligations.SystematizePlain := by
  intro s hp hf _ hw
  have hrows := loadRows_eq hw
  have hsing := leftSingular_iff hp
  cases he : eliminate s.matRows 0 s.params.r with
  | none =>
    rw [he, eq_self, iff_true] at hsing
    exact ⟨_, execSystematize_plain_fails hf hrows he, rfl, rfl, load_systematizeFails hp,
      iff_of_false Bool.false_ne_true (not_not.2 hsing), fun _ => unspecified_of_mem_eq_havoc rfl,
      fun hns => absurd hsing hns⟩
  | some rows' =>
    replace hsing : ¬s.leftSingular := by simp [hsing, he]
    obtain ⟨hequiv, hunit⟩ := eliminate_eq_some (length_matRows s) unitBefore_zero he
    rw [Nat.zero_add] at hunit
    have hlen := (length_eliminate he).trans (length_matRows s)
    have hmat : State.load (State.complete { s.storeRows rows' with pivmask := 0#64 } true) .mat =
        some (rows'.flatMap (Bits.toWords s.params.rowWords)) := load_storeRows hlen
    exact ⟨_, execSystematize_plain_succeeds hf hrows he, rfl, rfl,
      load_store_other (r := .mat) hp (by decide) (length_rows_words hlen), iff_of_true rfl hsing,
      fun h => absurd h hsing, fun _ => ⟨load_isSome_iff.1 (Option.isSome_of_eq_some hmat),
        fun r c => matAt_of_unitBefore hmat hp hunit,
        fun e => (inKernel_iff_of_rowEquiv hmat hequiv e).trans (inKernel_iff_rows e).symm⟩⟩

end Sys2Proof.Machine
end

section
/-! BUILD_H (rules R220-R222): the entries of the parity-check matrix. -/

namespace Sys2Proof.Machine

variable {p : Params} {s : State} {g l : List Word}

/-- Term `j` of a geometric list is the first one times the power `j`. -/
theorem coeff_geometric (h : p.legal = true) {w a : Word} (hw : Reduced p w) (ha : Reduced p a) {n j : Nat}
    (hj : j < n) : coeff (geometric p w a n) j = gmul p (gpow p a j) w := by
  induction n generalizing w j with
  | zero => omega
  | succ n ih =>
    cases j with
    | zero => rw [gpow, gmul_comm h (reduced_one h) hw, gmul_one h hw]; rfl
    | succ j =>
      have hpow := (toGF_gpow h ha j).1
      calc coeff (geometric p w a (n + 1)) (j + 1) = coeff (geometric p (gmul p w a) a n) j := by
            rw [geometric, coeff, coeff, List.getD_cons_succ]
        _ = gmul p (gpow p a j) (gmul p w a) := ih (reduced_gmul p w a) (by omega)
        _ = gmul p (gpow p a (j + 1)) w := by rw [gmul_comm h hw ha, ← gmul_assoc h hpow ha hw, gpow]

/-- Bit `i` of row `r` is bit `r mod M` of power `r / M` in column `i` (rule R221). -/
theorem entry_parityRows {r i : Nat} (hr : r < p.r) (hi : i < l.length) : entry (parityRows p g l) r i =
    (coeff (columnElems p g (coeff l i)) (r / p.m)).getLsbD (r % p.m) := by
  rw [entry, List.getD_eq_getElem _ _ (by simpa [parityRows] using hr)]
  simp [parityRows, Bits.testBit_ofList, coeff, hi]

theorem noRoots_iff : noRoots p g l = true ↔ ∀ i, i < l.length → peval p g (coeff l i) ≠ 0#32 := by
  simp only [noRoots, List.all_eq_true, bne_iff_ne, List.forall_mem_iff_getElem, coeff]
  exact forall₂_congr fun i hi => by rw [List.getD_eq_getElem _ _ hi]

theorem execBuildH_eq (hg : s.load .g = some g) (hl : s.load .l = some l) : execBuildH s =
    .next ((s.storeRows (parityRows s.params g l)).complete (noRoots s.params g l)) := by simp [execBuildH, hg, hl]

/-- Settles O49: MAT's bit is that of the column's element, and 1/0 is 0. -/
theorem buildHEntries : Obligations.BuildHEntries := by
  intro s g l hp hg hl hrg hrl
  obtain ⟨hm, -, -, -, hn, -⟩ := legal_bounds hp
  have hlen : l.length = s.params.n := length_load hl
  have hmat : ((s.storeRows (parityRows s.params g l)).complete (noRoots s.params g l)).load .mat = some _ :=
    load_storeRows (parityRows_fits s.params g l).1
  have hentry : ∀ i j b, i < s.params.n → j < s.params.t → b < s.params.m →
      ((s.storeRows (parityRows s.params g l)).complete (noRoots s.params g l)).matAt (j * s.params.m + b) i =
        (gmul s.params (gpow s.params (coeff l i) j) (ginv s.params (peval s.params g (coeff l i)))).getLsbD b := by
    intro i j b hi hj hb
    have hr : j * s.params.m + b < s.params.m * s.params.t := by
      have := Nat.mul_le_mul_right s.params.m (Nat.succ_le_of_lt hj)
      rw [Nat.succ_mul, Nat.mul_comm s.params.t] at this
      omega
    rw [matAt_of_load hmat hr (lt_of_lt_of_le hi (n_le_rowWords _)), entry_parityRows hr (by omega),
      Nat.mul_comm j, Nat.mul_add_div (by omega), Nat.div_eq_of_lt hb, Nat.mul_add_mod, Nat.mod_eq_of_lt hb,
      Nat.add_zero, columnElems, coeff_geometric hp (reduced_ginv hp _) (reduced_coeff hrl i) hj]
  refine ⟨_, execBuildH_eq hg hl, load_isSome_iff.1 (Option.isSome_of_eq_some hmat), rfl, ?_, hentry, ?_⟩
  · rw [← hlen]
    simpa using noRoots_iff
  · intro i r hi hr hroot
    have hzero := (ginvIsThePowerAndInverts s.params 0#32 hp (reduced_zero _)).2.2
    have := hentry i (r / s.params.m) (r % s.params.m) hi (Nat.div_lt_of_lt_mul hr) (Nat.mod_lt r (by omega))
    rwa [Nat.div_add_mod', hroot, hzero, gmul_zero_right, BitVec.getLsbD_zero] at this

end Sys2Proof.Machine
end

section
/-! The reduced row echelon form (rule R225): its pivots are the columns that are no sum of the columns before them, and
there are as many as rows exactly where the columns span. -/

namespace Sys2Proof.Machine

open Submodule

variable {k c rk n : Nat} {rows rows' : List Bits}

/-! ## One column -/

/-- A column without a pivot adds nothing to the span. -/
theorem spanBefore_succ_of_no_pivot (hk : rows.length = k) (hlow : spanBefore (column k (entry rows)) c = lowRows k rk)
    (h : pivotAt rows c rk = none) : column k (entry rows) c ∈ spanBefore (column k (entry rows)) c ∧
      spanBefore (column k (entry rows)) (c + 1) = lowRows k rk := by
  have hmem := pivotAt_eq_none hk h
  rw [← hlow] at hmem
  exact ⟨hmem, (spanBefore_succ_eq_self hmem).trans hlow⟩

/-- A column with a pivot adds the pivot's row. -/
theorem spanBefore_succ_of_pivot (hk : rows.length = k) (hlow : spanBefore (column k (entry rows)) c = lowRows k rk)
    (h : pivotAt rows c rk = some rows') : rk < k ∧ RowEquiv (column k (entry rows)) (column k (entry rows')) ∧
      column k (entry rows) c ∉ spanBefore (column k (entry rows)) c ∧
      spanBefore (column k (entry rows')) (c + 1) = lowRows k (rk + 1) := by
  obtain ⟨hrk, g, hg, hc, hfix⟩ := pivotAt_eq_some hk h
  refine ⟨hrk, ⟨g, hg⟩, fun hmem => ?_, ?_⟩
  · rw [hlow] at hmem
    exact unitColumn_notMem_lowRows hrk (hc ▸ (hfix _ hmem).symm ▸ hmem)
  · have hmap : (lowRows k rk).map g.toLinearMap = lowRows k rk := by
      ext x
      exact ⟨fun ⟨y, hy, hx⟩ => hx ▸ (hfix y hy).symm ▸ hy, fun hx => ⟨x, hx, hfix x hx⟩⟩
    rw [spanBefore_succ, spanBefore_eq_map g.toLinearMap fun i _ => hg i, hlow, hmap, hg, hc, lowRows_succ hrk]

/-! ## The pivots -/

theorem sorted_echelonPivots (rows : List Bits) (c rk n : Nat) :
    (∀ i ∈ echelonPivots rows c rk n, c ≤ i) ∧ (echelonPivots rows c rk n).Pairwise (· < ·) := by
  induction n generalizing rows c rk with
  | zero => simp [echelonPivots]
  | succ n ih =>
    rw [echelonPivots]
    split
    · obtain ⟨hle, hsorted⟩ := ih ‹_› (c + 1) (rk + 1)
      refine ⟨fun i hi => ?_, List.pairwise_cons.2 ⟨hle, hsorted⟩⟩
      rcases List.mem_cons.1 hi with rfl | hi
      · exact le_rfl
      · exact (Nat.le_succ c).trans (hle i hi)
    · obtain ⟨hle, hsorted⟩ := ih rows (c + 1) rk
      exact ⟨fun i hi => (Nat.le_succ c).trans (hle i hi), hsorted⟩

theorem mem_echelonPivots_iff (hk : rows.length = k) (hlow : spanBefore (column k (entry rows)) c = lowRows k rk)
    (i : Nat) : i ∈ echelonPivots rows c rk n ↔
      c ≤ i ∧ i < c + n ∧ column k (entry rows) i ∉ spanBefore (column k (entry rows)) i := by
  induction n generalizing rows c rk with
  | zero => simp only [echelonPivots, List.not_mem_nil, false_iff]; omega
  | succ n ih =>
    rw [echelonPivots]
    have hsplit : c ≤ i ∧ i < c + (n + 1) ↔ i = c ∨ c + 1 ≤ i ∧ i < c + 1 + n := by omega
    rw [← and_assoc, hsplit, or_and_right]
    split
    · rename_i rows' h
      obtain ⟨-, hequiv, hnot, hlow'⟩ := spanBefore_succ_of_pivot hk hlow h
      rw [List.mem_cons, ih ((length_pivotAt h).trans hk) hlow', hequiv.mem_spanBefore_iff, and_assoc]
      exact or_congr_left ⟨fun hi => ⟨hi, hi ▸ hnot⟩, And.left⟩
    · obtain ⟨hmem, hlow'⟩ := spanBefore_succ_of_no_pivot hk hlow ‹_›
      rw [ih hk hlow', and_assoc, or_iff_right]
      rintro ⟨rfl, hnot⟩
      exact hnot hmem

/-- There are at most as many pivots as rows left, and as many exactly where the columns span. -/
theorem length_echelonPivots (hk : rows.length = k) (hrk : rk ≤ k)
    (hlow : spanBefore (column k (entry rows)) c = lowRows k rk) : rk + (echelonPivots rows c rk n).length ≤ k ∧
      (spanBefore (column k (entry rows)) (c + n) = ⊤ ↔ k ≤ rk + (echelonPivots rows c rk n).length) := by
  induction n generalizing rows c rk with
  | zero => exact ⟨hrk, by rw [Nat.add_zero, hlow, lowRows_eq_top_iff, echelonPivots, List.length_nil, Nat.add_zero]⟩
  | succ n ih =>
    rw [echelonPivots, ← Nat.add_assoc, Nat.add_right_comm]
    split
    · rename_i rows' h
      obtain ⟨hlt, hequiv, -, hlow'⟩ := spanBefore_succ_of_pivot hk hlow h
      rw [List.length_cons, ← Nat.add_assoc, Nat.add_right_comm rk, ← hequiv.spanBefore_eq_top_iff]
      exact ih ((length_pivotAt h).trans hk) hlt hlow'
    · exact ih hk hrk (spanBefore_succ_of_no_pivot hk hlow ‹_›).2

end Sys2Proof.Machine
end

section
/-! The window of rule R225: rows s..R-1 of the columns from s on, once columns 0..s-1 are those of the identity. -/

namespace Sys2Proof.Machine

open Submodule

variable {k m s : Nat} {v : Nat → Fin k → ZMod 2} {w : Nat → Fin m → ZMod 2}

/-- The entries of a column from row `s` on. -/
def rowsFrom (h : s + m = k) : (Fin k → ZMod 2) →ₗ[ZMod 2] (Fin m → ZMod 2) :=
  LinearMap.funLeft (ZMod 2) (ZMod 2) fun i => ⟨s + i, by omega⟩

theorem rowsFrom_apply (h : s + m = k) (x : Fin k → ZMod 2) (i : Fin m) :
    rowsFrom h x i = x ⟨s + i, by omega⟩ := rfl

theorem ker_rowsFrom (h : s + m = k) : LinearMap.ker (rowsFrom h) = lowRows k s := by
  ext x
  rw [LinearMap.mem_ker, mem_lowRows, funext_iff]
  refine ⟨fun hx i hi => ?_, fun hx i => hx _ (Nat.le_add_right s i)⟩
  have := hx ⟨i - s, by omega⟩
  rwa [rowsFrom_apply, Pi.zero_apply, show (⟨s + (i.val - s), _⟩ : Fin k) = i from Fin.ext (by simp; omega)] at this

theorem range_rowsFrom (h : s + m = k) : LinearMap.range (rowsFrom h) = ⊤ :=
  LinearMap.range_eq_top.2 (LinearMap.funLeft_surjective_of_injective _ _ _ fun i j hij => Fin.ext (by simpa using hij))

/-- Below the identity the window's columns span what the matrix's columns leave there. -/
theorem spanBefore_window (h : s + m = k) (hunit : UnitBefore v s) {j : Nat}
    (hw : ∀ i, i < j → w i = rowsFrom h (v (s + i))) : spanBefore w j = (spanBefore v (s + j)).map (rowsFrom h) := by
  induction j with
  | zero =>
    rw [Nat.add_zero, hunit.spanBefore_eq (by omega), ← ker_rowsFrom h, (LinearMap.le_ker_iff_map).1 le_rfl]
    simp
  | succ j ih =>
    rw [← Nat.add_assoc, spanBefore_succ, spanBefore_succ, Submodule.map_sup, ← ih fun i hi => hw i (by omega),
      map_span, Set.image_singleton, hw j (by omega)]

theorem comap_map_rowsFrom (h : s + m = k) (hunit : UnitBefore v s) (j : Nat) :
    ((spanBefore v (s + j)).map (rowsFrom h)).comap (rowsFrom h) = spanBefore v (s + j) := by
  refine comap_map_eq_self ?_
  rw [ker_rowsFrom, ← hunit.spanBefore_eq (by omega)]
  exact spanBefore_mono (Nat.le_add_right s j)

theorem mem_spanBefore_window_iff (h : s + m = k) (hunit : UnitBefore v s) {j : Nat}
    (hw : ∀ i, i ≤ j → w i = rowsFrom h (v (s + i))) : w j ∈ spanBefore w j ↔ v (s + j) ∈ spanBefore v (s + j) := by
  rw [spanBefore_window h hunit fun i hi => hw i (by omega), hw j le_rfl, ← mem_comap, comap_map_rowsFrom h hunit]

theorem spanBefore_window_eq_top_iff (h : s + m = k) (hunit : UnitBefore v s) {j : Nat}
    (hw : ∀ i, i < j → w i = rowsFrom h (v (s + i))) : spanBefore w j = ⊤ ↔ spanBefore v (s + j) = ⊤ := by
  rw [spanBefore_window h hunit hw]
  refine ⟨fun htop => ?_, fun htop => ?_⟩
  · rw [← comap_map_rowsFrom h hunit, htop, comap_top]
  · rw [htop, Submodule.map_top, range_rowsFrom]

theorem column_window {p : Params} {rows : List Bits} (h : p.r - p.mu + p.mu = p.r) {j : Nat} (hj : j < p.nu) :
    column p.mu (entry (window p rows)) j = rowsFrom h (column p.r (entry rows) (p.r - p.mu + j)) := by
  funext i
  have hrow : (window p rows).getD i 0 = (rows.getD (p.r - p.mu + i) 0 >>> (p.r - p.mu)) % 2 ^ p.nu := by
    simp only [window, List.getD_eq_getElem?_getD, List.getElem?_map, List.getElem?_drop]
    cases rows[p.r - p.mu + i.val]? <;> simp
  rw [rowsFrom_apply, column, column, entry, entry, hrow, Nat.testBit_mod_two_pow, decide_eq_true hj, Bool.true_and,
    Nat.testBit_shiftRight]

end Sys2Proof.Machine
end

section
/-! The swaps of rule R225, as one permutation of the columns and of L. -/

namespace Sys2Proof.Machine

variable {s : Nat} {ps : List Nat}

/-- The product of the swaps of s+i and s+p_i, `i` ascending from `j`. -/
def swapsFrom (s j : Nat) (ps : List Nat) : Equiv.Perm Nat :=
  ((ps.zipIdx j).map fun (pi, i) => Equiv.swap (s + i) (s + pi)).prod

theorem pivotSwaps_eq (p : Params) (ps : List Nat) : pivotSwaps p ps = swapsFrom (p.r - p.mu) 0 ps := rfl

theorem swapsFrom_cons (s j pj : Nat) (ps : List Nat) :
    swapsFrom s j (pj :: ps) = Equiv.swap (s + j) (s + pj) * swapsFrom s (j + 1) ps := by
  rw [swapsFrom, List.zipIdx_cons, List.map_cons, List.prod_cons, swapsFrom]

/-! ## The swaps of the model -/

theorem testBit_swapBits (i j row c : Nat) : (swapBits i j row).testBit c = row.testBit (Equiv.swap i j c) := by
  unfold swapBits
  split
  · rename_i heq
    rcases eq_or_ne c i with rfl | hi
    · rw [Equiv.swap_apply_left, heq]
    · rcases eq_or_ne c j with rfl | hj
      · rw [Equiv.swap_apply_right, heq]
      · rw [Equiv.swap_apply_of_ne_of_ne hi hj]
  · rename_i hne
    have hij : i ≠ j := fun h => hne (h ▸ rfl)
    rw [Nat.testBit_xor, Nat.testBit_xor, Nat.one_shiftLeft, Nat.one_shiftLeft, Nat.testBit_two_pow,
      Nat.testBit_two_pow]
    rcases eq_or_ne c i with rfl | hi
    · simpa [hij.symm] using Bool.eq_not.2 hne
    · rcases eq_or_ne c j with rfl | hj
      · simpa [hij] using Bool.eq_not.2 (Ne.symm hne)
      · simp [Equiv.swap_apply_of_ne_of_ne hi hj, hi.symm, hj.symm]

theorem entry_swapPivots (j : Nat) (rows : List Bits) (l : List Word) (r c : Nat) :
    entry (swapPivots s rows l j ps).1 r c = entry rows r (swapsFrom s j ps c) := by
  induction ps generalizing rows l j with
  | nil => rfl
  | cons pj ps ih =>
    rw [swapPivots, swapsFrom_cons, Equiv.Perm.mul_apply]
    split
    · rename_i h
      rw [ih, h, Equiv.swap_self, Equiv.refl_apply]
    · have hrow : (rows.map (swapBits (s + j) (s + pj))).getD r 0 = swapBits (s + j) (s + pj) (rows.getD r 0) := by
        simp only [List.getD_eq_getElem?_getD, List.getElem?_map]
        cases rows[r]? <;> simp [swapBits]
      rw [ih, entry, hrow, testBit_swapBits, entry]

theorem coeff_swapPivots {w j : Nat} (rows : List Bits) {l : List Word} (hw : s + w ≤ l.length)
    (hj : j + ps.length ≤ w) (hps : ∀ x ∈ ps, x < w) (c : Nat) :
    coeff (swapPivots s rows l j ps).2 c = coeff l (swapsFrom s j ps c) := by
  induction ps generalizing rows l j with
  | nil => rfl
  | cons pj ps ih =>
    rw [List.length_cons] at hj
    obtain ⟨hpj, hps⟩ := List.forall_mem_cons.1 hps
    rw [swapPivots, swapsFrom_cons, Equiv.Perm.mul_apply]
    split
    · rename_i h
      rw [ih rows hw (by omega) hps, h, Equiv.swap_self, Equiv.refl_apply]
    · rw [ih _ (by rwa [length_swapAt]) (by omega) hps, coeff, getD_swapAt (by omega) (by omega), coeff]

/-! ## Where a column goes -/

/-- The swaps move nothing outside the window. -/
theorem swapsFrom_apply_of_outside {j c w : Nat} (hj : j + ps.length ≤ w) (hps : ∀ x ∈ ps, j ≤ x ∧ x < w)
    (hc : c < s + j ∨ s + w ≤ c) (hsorted : ps.Pairwise (· < ·)) : swapsFrom s j ps c = c := by
  induction ps generalizing j with
  | nil => rfl
  | cons pj ps ih =>
    rw [List.length_cons] at hj
    obtain ⟨hpj, hps⟩ := List.forall_mem_cons.1 hps
    obtain ⟨hlt, hsorted⟩ := List.pairwise_cons.1 hsorted
    rw [swapsFrom_cons, Equiv.Perm.mul_apply,
      ih (by omega) (fun x hx => by have := hlt x hx; have := hps x hx; omega) (by omega) hsorted,
      Equiv.swap_apply_of_ne_of_ne (by omega) (by omega)]

/-- Ascending pivots: the swaps bring the pivots' columns to the window's front, in order. -/
theorem swapsFrom_apply_window {j w : Nat} (hj : j + ps.length ≤ w) (hps : ∀ x ∈ ps, j ≤ x ∧ x < w)
    (hsorted : ps.Pairwise (· < ·)) {i : Nat} (hi : i < ps.length) : swapsFrom s j ps (s + (j + i)) = s + ps[i] := by
  induction ps generalizing j i with
  | nil => cases hi
  | cons pj ps ih =>
    rw [List.length_cons] at hj
    obtain ⟨hpj, hps⟩ := List.forall_mem_cons.1 hps
    obtain ⟨hlt, hsorted⟩ := List.pairwise_cons.1 hsorted
    have hps' : ∀ x ∈ ps, j + 1 ≤ x ∧ x < w := fun x hx => by have := hlt x hx; have := hps x hx; omega
    rw [swapsFrom_cons, Equiv.Perm.mul_apply]
    cases i with
    | zero =>
      rw [Nat.add_zero j, swapsFrom_apply_of_outside (by omega) hps' (.inl (by omega)) hsorted, Equiv.swap_apply_left,
        List.getElem_cons_zero]
    | succ i =>
      have hi' : i < ps.length := by simpa using hi
      have hgt := hlt _ (List.getElem_mem hi')
      rw [show s + (j + (i + 1)) = s + (j + 1 + i) by omega, ih (by omega) hps' hsorted hi',
        Equiv.swap_apply_of_ne_of_ne (by omega) (by omega), List.getElem_cons_succ]

end Sys2Proof.Machine
end

section
/-! SYSTEMATIZE with the f variant (rules R225-R227, R230). -/

namespace Sys2Proof.Machine

open Submodule

variable {p : Params} {s : State} {rows : List Bits} {l : List Word} {out : Systematic} {piv : List Nat}

/-! ## The pivots of the window -/

/-- The window of rule R7: MU rows at the bottom, NU columns from column R - MU on. -/
theorem legal_window (h : p.legal = true) (hf : p.variantF = true) :
    p.r - p.mu + p.mu = p.r ∧ p.mu ≤ p.nu ∧ p.nu ≤ 64 ∧ p.r - p.mu + p.nu ≤ p.n := by
  simp only [Params.legal, Params.windowOk, hf, if_true, Bool.and_eq_true, decide_eq_true_eq] at h
  obtain ⟨⟨⟨-, ⟨⟨⟨-, hmu⟩, hle⟩, hnu⟩, hn⟩, -⟩, -⟩ := h
  exact ⟨Nat.sub_add_cancel hmu, hle, hnu, hn⟩

/-- Ascending offsets of the window columns that are no sum of the columns before them, as many as the window has
rows. -/
structure WindowPivots (p : Params) (v : Nat → Fin p.r → ZMod 2) (piv : List Nat) : Prop where
  sorted : piv.Pairwise (· < ·)
  mem_iff : ∀ j, j ∈ piv ↔ j < p.nu ∧ v (p.r - p.mu + j) ∉ spanBefore v (p.r - p.mu + j)
  length_eq : piv.length = p.mu

/-- The pivots found in the window are those columns, and MU of them where the columns up to the window's end span. -/
theorem windowPivots (hp : p.legal = true) (hf : p.variantF = true) (hk : rows.length = p.r)
    (hunit : UnitBefore (column p.r (entry rows)) (p.r - p.mu)) :
    (spanBefore (column p.r (entry rows)) (p.r - p.mu + p.nu) = ⊤ ↔
      p.mu ≤ (echelonPivots (window p rows) 0 0 p.nu).length) ∧
    (p.mu ≤ (echelonPivots (window p rows) 0 0 p.nu).length →
      WindowPivots p (column p.r (entry rows)) (echelonPivots (window p rows) 0 0 p.nu)) := by
  obtain ⟨hs, -⟩ := legal_window hp hf
  have hwk : (window p rows).length = p.mu := by rw [window, List.length_map, List.length_drop, hk]; omega
  have hlow : spanBefore (column p.mu (entry (window p rows))) 0 = lowRows p.mu 0 := by simp [lowRows_zero]
  obtain ⟨hle, htop⟩ := length_echelonPivots (n := p.nu) hwk (Nat.zero_le _) hlow
  rw [Nat.zero_add] at hle htop
  rw [Nat.zero_add, spanBefore_window_eq_top_iff hs hunit fun i => column_window hs] at htop
  refine ⟨htop, fun hge => ⟨(sorted_echelonPivots _ _ _ _).2, fun j => ?_, le_antisymm hle hge⟩⟩
  rw [mem_echelonPivots_iff hwk hlow, Nat.zero_add]
  simp only [Nat.zero_le, true_and]
  refine and_congr_right fun hj => not_congr ?_
  exact mem_spanBefore_window_iff hs hunit fun i hi => column_window hs (by omega)

namespace WindowPivots

variable {v w : Nat → Fin p.r → ZMod 2}

theorem congr (h : WindowPivots p v piv) (hequiv : RowEquiv w v) : WindowPivots p w piv :=
  ⟨h.sorted, fun j => by rw [h.mem_iff, hequiv.mem_spanBefore_iff], h.length_eq⟩

theorem bounds (h : WindowPivots p v piv) : ∀ x ∈ piv, 0 ≤ x ∧ x < p.nu :=
  fun x hx => ⟨Nat.zero_le x, ((h.mem_iff x).1 hx).1⟩

theorem pivotSwaps_of_outside (h : WindowPivots p v piv) (hle : p.mu ≤ p.nu) {c : Nat}
    (hc : c < p.r - p.mu ∨ p.r - p.mu + p.nu ≤ c) : pivotSwaps p piv c = c := by
  rw [pivotSwaps_eq]
  exact swapsFrom_apply_of_outside (w := p.nu) (by rw [h.length_eq]; omega) h.bounds hc h.sorted

theorem pivotSwaps_window (h : WindowPivots p v piv) (hle : p.mu ≤ p.nu) {i : Nat} (hi : i < piv.length) :
    pivotSwaps p piv (p.r - p.mu + i) = p.r - p.mu + piv[i] := by
  have := swapsFrom_apply_window (s := p.r - p.mu) (j := 0) (w := p.nu) (by rw [h.length_eq]; omega) h.bounds
    h.sorted hi
  rwa [Nat.zero_add, ← pivotSwaps_eq] at this

/-- The columns swapped to the front of the window keep their order, and each is no sum of the columns before it: the
last elimination "always succeeds here" (rule R225). -/
theorem notMem_spanBefore (h : WindowPivots p v piv) (hs : p.r - p.mu + p.mu = p.r) (hle : p.mu ≤ p.nu)
    (hunit : UnitBefore v (p.r - p.mu)) {c : Nat} (hc : c < p.r) :
    (v ∘ pivotSwaps p piv) c ∉ spanBefore (v ∘ pivotSwaps p piv) c := by
  have hfront : ∀ d, d < p.r → d < p.r - p.mu ∧ pivotSwaps p piv d = d ∨
      ∃ i, ∃ hi : i < piv.length, d = p.r - p.mu + i ∧ pivotSwaps p piv d = p.r - p.mu + piv[i] := by
    intro d hd
    rcases Nat.lt_or_ge d (p.r - p.mu) with hlt | hge
    · exact .inl ⟨hlt, h.pivotSwaps_of_outside hle (.inl hlt)⟩
    · obtain ⟨i, rfl⟩ := Nat.exists_eq_add_of_le hge
      have hi : i < piv.length := by rw [h.length_eq]; omega
      exact .inr ⟨i, hi, rfl, h.pivotSwaps_window hle hi⟩
  have hmono : ∀ d, d < c → pivotSwaps p piv d < pivotSwaps p piv c := by
    intro d hd
    rcases hfront d (hd.trans hc) with ⟨hlt, hd'⟩ | ⟨i, hi, rfl, hd'⟩
    · rcases hfront c hc with ⟨-, hc'⟩ | ⟨j, hj, -, hc'⟩ <;> omega
    · rcases hfront c hc with ⟨hlt, -⟩ | ⟨j, hj, rfl, hc'⟩
      · omega
      · have := List.pairwise_iff_getElem.1 h.sorted i j hi hj (by omega)
        omega
  have hpivot : v (pivotSwaps p piv c) ∉ spanBefore v (pivotSwaps p piv c) := by
    rcases hfront c hc with ⟨hlt, hc'⟩ | ⟨i, hi, -, hc'⟩ <;> rw [hc']
    · exact hunit.notMem_spanBefore (by omega) hlt
    · exact ((h.mem_iff _).1 (List.getElem_mem hi)).2
  refine fun hmem => hpivot (span_mono ?_ hmem)
  rintro _ ⟨d, hd, rfl⟩
  exact ⟨_, hmono d hd, rfl⟩

end WindowPivots

/-! ## The reduction -/

/-- The last elimination finishes, and leaves the identity. -/
theorem WindowPivots.exists_reduction (h : WindowPivots p (column p.r (entry rows)) piv)
    (hs : p.r - p.mu + p.mu = p.r) (hle : p.mu ≤ p.nu) (hk : rows.length = p.r)
    (hunit : UnitBefore (column p.r (entry rows)) (p.r - p.mu)) (l : List Word) :
    ∃ rows', eliminate (swapPivots (p.r - p.mu) rows l 0 piv).1 (p.r - p.mu) p.mu = some rows' ∧ rows'.length = p.r ∧
      RowEquiv (column p.r (entry rows) ∘ pivotSwaps p piv) (column p.r (entry rows')) ∧
      UnitBefore (column p.r (entry rows')) p.r := by
  have hcol : column p.r (entry (swapPivots (p.r - p.mu) rows l 0 piv).1) =
      column p.r (entry rows) ∘ pivotSwaps p piv :=
    funext fun c => funext fun r => congrArg toBit (entry_swapPivots 0 rows l r c)
  have hk2 := (length_swapPivots (p.r - p.mu) rows l 0 piv).1.trans hk
  have hunit2 : UnitBefore (column p.r (entry (swapPivots (p.r - p.mu) rows l 0 piv).1)) (p.r - p.mu) := by
    intro i hi
    rw [hcol, Function.comp_apply, h.pivotSwaps_of_outside hle (.inl hi)]
    exact hunit i hi
  cases he : eliminate (swapPivots (p.r - p.mu) rows l 0 piv).1 (p.r - p.mu) p.mu with
  | none =>
    obtain ⟨i, hi, hmem⟩ := eliminate_eq_none hk2 hunit2 hs.le he
    rw [hcol] at hmem
    exact absurd hmem (h.notMem_spanBefore hs hle hunit (by omega))
  | some rows' =>
    obtain ⟨hequiv, hunit'⟩ := eliminate_eq_some hk2 hunit2 he
    rw [hs] at hunit'
    rw [hcol] at hequiv
    exact ⟨rows', rfl, (length_eliminate he).trans hk2, hequiv, hunit'⟩

/-- What a successful reduction leaves: the identity after row operations on the swapped columns, L swapped alike, and
the pivots. -/
structure Reduces (p : Params) (rows : List Bits) (l : List Word) (out : Systematic) (piv : List Nat) : Prop where
  pivots : WindowPivots p (column p.r (entry rows)) piv
  mask : out.pivmask = (piv.map (2 ^ ·)).sum
  length_rows : out.rows.length = p.r
  equiv : RowEquiv (column p.r (entry rows) ∘ pivotSwaps p piv) (column p.r (entry out.rows))
  unit : UnitBefore (column p.r (entry out.rows)) p.r
  support : ∀ c, coeff out.l c = coeff l (pivotSwaps p piv c)

theorem semiSystematic_eq_some {rows1 rows3 : List Bits} (h1 : eliminate rows 0 (p.r - p.mu) = some rows1)
    (hpiv : echelonPivots (window p rows1) 0 0 p.nu = piv) (hmu : p.mu ≤ piv.length)
    (h3 : eliminate (swapPivots (p.r - p.mu) rows1 l 0 piv).1 (p.r - p.mu) p.mu = some rows3) :
    semiSystematic p rows l =
      some ⟨rows3, (swapPivots (p.r - p.mu) rows1 l 0 piv).2, (piv.map (2 ^ ·)).sum⟩ := by
  simp [semiSystematic, h1, hpiv, Nat.not_lt.2 hmu, h3]

/-- Where the reduction succeeds: the columns before the window are independent, and the columns up to its end span. -/
def Reducible (p : Params) (v : Nat → Fin p.r → ZMod 2) : Prop :=
  (∀ c, c < p.r - p.mu → v c ∉ spanBefore v c) ∧ spanBefore v (p.r - p.mu + p.nu) = ⊤

/-- Rule R225: the reduction fails, or leaves the identity. -/
theorem semiSystematic_cases (hp : p.legal = true) (hf : p.variantF = true) (hk : rows.length = p.r)
    (hl : l.length = p.n) :
    ¬Reducible p (column p.r (entry rows)) ∧ semiSystematic p rows l = none ∨
    Reducible p (column p.r (entry rows)) ∧
      ∃ out piv, semiSystematic p rows l = some out ∧ Reduces p rows l out piv := by
  obtain ⟨hs, hle, -, hn⟩ := legal_window hp hf
  rw [Reducible, ← eliminate_isSome_iff hk (Nat.sub_le _ _)]
  cases h1 : eliminate rows 0 (p.r - p.mu) with
  | none => exact .inl ⟨fun h => Bool.false_ne_true h.1, by simp [semiSystematic, h1]⟩
  | some rows1 =>
    obtain ⟨hequiv1, hunit1⟩ := eliminate_eq_some hk unitBefore_zero h1
    rw [Nat.zero_add] at hunit1
    have hk1 := (length_eliminate h1).trans hk
    obtain ⟨htop, hpiv⟩ := windowPivots hp hf hk1 hunit1
    rw [← hequiv1.spanBefore_eq_top_iff, htop]
    by_cases hmu : p.mu ≤ (echelonPivots (window p rows1) 0 0 p.nu).length
    · replace hpiv := hpiv hmu
      obtain ⟨rows3, h3, hk3, hequiv3, hunit3⟩ := hpiv.exists_reduction hs hle hk1 hunit1 l
      refine .inr ⟨⟨rfl, hmu⟩, _, _, semiSystematic_eq_some h1 rfl hmu h3,
        hpiv.congr hequiv1, rfl, hk3, (hequiv1.comp _).trans hequiv3, hunit3, fun c => ?_⟩
      exact coeff_swapPivots rows1 (hl ▸ hn) (by rw [hpiv.length_eq]; omega) (fun x hx => (hpiv.bounds x hx).2) c
    · exact .inl ⟨fun h => hmu h.2, by simp [semiSystematic, h1, Nat.not_le.1 hmu]⟩

/-! ## PIVMASK -/

/-- An ascending list is the range's members it has. -/
theorem filter_range_eq {n : Nat} {f : Nat → Bool} (hsorted : piv.Pairwise (· < ·)) (hlt : ∀ j ∈ piv, j < n)
    (hf : ∀ j, f j = true ↔ j ∈ piv) : (List.range n).filter f = piv := by
  refine List.Perm.eq_of_pairwise' (List.pairwise_lt_range.filter f) hsorted ?_
  refine (List.perm_ext_iff_of_nodup (List.nodup_range.filter f) hsorted.nodup).2 fun j => ?_
  rw [List.mem_filter, List.mem_range, hf]
  exact ⟨And.right, fun hj => ⟨hlt j hj, hj⟩⟩

/-- The sum of distinct powers of 2 has exactly the bits of its exponents. -/
theorem getLsbD_sum_two_pow (hsorted : piv.Pairwise (· < ·)) (hlt : ∀ j ∈ piv, j < 64) (j : Nat) :
    (BitVec.ofNat 64 (piv.map (2 ^ ·)).sum).getLsbD j = true ↔ j ∈ piv := by
  rw [BitVec.getLsbD_ofNat, Bool.and_eq_true, decide_eq_true_eq, ← Nat.mem_bitIndices,
    Nat.bitIndices_sum_map_two_pow hsorted.sortedLT]
  exact ⟨And.right, fun hj => ⟨hlt j hj, hj⟩⟩

theorem WindowPivots.pivotList_eq {v : Nat → Fin p.r → ZMod 2} (h : WindowPivots p v piv) {mask : BitVec 64}
    (hmask : ∀ j, mask.getLsbD j = true ↔ j ∈ piv) : pivotList p mask = piv :=
  filter_range_eq h.sorted (fun j hj => (h.bounds j hj).2) hmask

/-! ## The command -/

theorem colInSpan_iff_rows {c : Nat} (hc : c < s.params.n) : s.colInSpan c ↔
    column s.params.r (entry s.matRows) c ∈ spanBefore (column s.params.r (entry s.matRows)) c := by
  rw [colInSpan_iff, column_matRows hc, spanBefore_congr fun i hi => (column_matRows (s := s) (hi.trans hc))]

theorem reducible_iff (hp : s.params.legal = true) (hf : s.params.variantF = true) :
    Reducible s.params (column s.params.r (entry s.matRows)) ↔
      (∀ c, c < s.params.r - s.params.mu → ¬s.colInSpan c) ∧
        ¬s.rowsDependentOn (s.params.r - s.params.mu + s.params.nu) := by
  obtain ⟨-, -, -, hn⟩ := legal_window hp hf
  rw [Reducible, rowsDependentOn_iff, not_not,
    spanBefore_congr (w := s.matColumn) fun i hi => (column_matRows (lt_of_lt_of_le hi hn)).symm]
  exact and_congr_left' (forall₂_congr fun c hc => (colInSpan_iff_rows (by omega)).not.symm)

/-- What SYSTEMATIZE leaves after a successful semi-systematic reduction (rules R225, R226). -/
def State.systematized (s : State) (out : Systematic) : State :=
  State.complete { (s.storeRows out.rows).store .l out.l with pivmask := BitVec.ofNat 64 out.pivmask } true

theorem execSystematize_semi_succeeds (hf : s.params.variantF = true) (hrows : s.loadRows = some rows)
    (hl : s.load .l = some l) (h : semiSystematic s.params rows l = some out) :
    execSystematize s = .next (s.systematized out) := by
  simp [execSystematize, hf, hrows, hl, h, State.systematized]

theorem execSystematize_semi_fails (hf : s.params.variantF = true) (hrows : s.loadRows = some rows)
    (hl : s.load .l = some l) (h : semiSystematic s.params rows l = none) :
    execSystematize s = .next s.systematizeFails := by
  simp [execSystematize, hf, hrows, hl, h]

theorem load_systematized_mat (hp : s.params.legal = true) (hlen : out.rows.length = s.params.r)
    (hl : out.l.length = s.params.n) :
    (s.systematized out).load .mat = some (out.rows.flatMap (Bits.toWords s.params.rowWords)) :=
  (load_store_other (s := s.storeRows out.rows) (r := .l) (r' := .mat) hp (by decide) hl.le).trans (load_storeRows hlen)

theorem load_systematized_l (hl : out.l.length = s.params.n) : (s.systematized out).load .l = some out.l :=
  load_store_same (s := s.storeRows out.rows) hl

/-- The permutation of rule R230 moved from the columns to the vector they are summed with. -/
theorem sum_comp_perm {k n : Nat} {σ : Equiv.Perm Nat} (hσ : ∀ c, n ≤ c → σ c = c) (v : Nat → Fin k → ZMod 2)
    (e : Nat → Bool) : ∑ c ∈ Finset.range n, toBit (e c) • (v ∘ σ) c =
      ∑ c ∈ Finset.range n, toBit (e (σ.symm c)) • v c := by
  rw [← Equiv.Perm.sum_comp σ (Finset.range n) (fun c => toBit (e (σ.symm c)) • v c)]
  · simp only [Equiv.symm_apply_apply, Function.comp_apply]
  · intro c hc
    exact Finset.mem_coe.2 (Finset.mem_range.2 (Nat.lt_of_not_le fun hle => hc (hσ c hle)))

/-- Settles O51: the elimination and the window's rank decide success, the window's pivots are the columns that are no
sum of the columns before them, and the last elimination cannot fail on the swapped columns. -/
theorem systematizeSemi : Obligations.SystematizeSemi := by
  intro s l hp hf _ hw hl
  have hrows := loadRows_eq hw
  obtain ⟨hno, hout⟩ | ⟨hyes, out, piv, hout, hred⟩ := semiSystematic_cases hp hf (length_matRows s) (length_load hl)
  · exact ⟨_, _, execSystematize_semi_fails hf hrows hl hout, rfl, rfl,
      iff_of_false Bool.false_ne_true ((reducible_iff hp hf).not.1 hno),
      fun _ => ⟨unspecified_of_mem_eq_havoc rfl, rfl, (load_systematizeFails hp).trans hl⟩,
      fun hok => absurd hok Bool.false_ne_true⟩
  · obtain ⟨hpiv, hmask, hlen, hequiv, hunit, hsupport⟩ := hred
    obtain ⟨-, hle, hnu, hn⟩ := legal_window hp hf
    have hlen_l : out.l.length = s.params.n := (length_semiSystematic hout).2.trans (length_load hl)
    have hmat := load_systematized_mat hp hlen hlen_l
    have hload_l := load_systematized_l (s := s) hlen_l
    have hbit : ∀ j, (s.systematized out).pivmask.getLsbD j = true ↔ j ∈ piv := fun j => by
      rw [show (s.systematized out).pivmask = BitVec.ofNat 64 out.pivmask from rfl, hmask]
      exact getLsbD_sum_two_pow hpiv.sorted (fun x hx => by have := hpiv.bounds x hx; omega) j
    have hσ : ∀ c, s.params.n ≤ c → pivotSwaps s.params piv c = c := fun c hc =>
      hpiv.pivotSwaps_of_outside hle (.inr (hn.trans hc))
    refine ⟨_, pivotSwaps s.params piv, execSystematize_semi_succeeds hf hrows hl hout, rfl,
      congrArg _ (hpiv.pivotList_eq hbit).symm, iff_of_true rfl ((reducible_iff hp hf).1 hyes),
      fun hok => absurd hok.symm Bool.false_ne_true, fun _ => ⟨load_isSome_iff.1 (Option.isSome_of_eq_some hmat),
        fun j => ?_, ?_, fun j hj => ?_, fun r c => matAt_of_unitBefore hmat hp hunit, hσ, fun c hc => ?_, fun e => ?_⟩⟩
    · rw [hbit, hpiv.mem_iff]
      exact and_congr_right fun hj => (colInSpan_iff_rows (by omega)).not.symm
    · rw [weightOf, filter_range_eq hpiv.sorted (fun x hx => by have := hpiv.bounds x hx; omega) hbit, hpiv.length_eq]
    · exact Bool.eq_false_of_not_eq_true fun hset => by have := hpiv.bounds j ((hbit j).1 hset); omega
    · rw [wordAt_of_load hload_l hc, hsupport]
    · rw [inKernel_iff_of_rowEquiv hmat hequiv, inKernel_iff_rows, ← sum_comp_perm hσ]
      rfl

end Sys2Proof.Machine
end

section
/-! The elements of a bit memory (rules R13, R88): those of the vector it holds, and how many of them are set. -/

namespace Sys2Proof.Machine

variable {s : State} {r : Region} {v : Bits} {n : Nat} {f : Nat → Bool}

theorem bitAt_of_loadBits (h : s.loadBits r = some v) {j : Nat} (hj : j < 32 * r.words s.params) :
    s.bitAt r j = v.testBit j := by
  obtain ⟨ws, hws, rfl⟩ := Option.map_eq_some_iff.1 h
  rw [State.bitAt, wordAt_of_load hws (by omega), Bits.testBit_ofWords, coeff]

theorem written_of_loadBits (h : s.loadBits r = some v) : s.written r := by
  obtain ⟨ws, hws, -⟩ := Option.map_eq_some_iff.1 h
  exact load_isSome_iff.1 (Option.isSome_of_eq_some hws)

/-! ## The weight -/

/-- The weight of a vector with exactly the bits `pos` set. -/
theorem weightOf_of_mem_iff {pos : List Nat} (hnodup : pos.Nodup) (hlt : ∀ j ∈ pos, j < n)
    (hf : ∀ j, j < n → (f j = true ↔ j ∈ pos)) : weightOf n f = pos.length := by
  refine ((List.perm_ext_iff_of_nodup (List.nodup_range.filter f) hnodup).2 fun j => ?_).length_eq
  rw [List.mem_filter, List.mem_range]
  exact ⟨fun ⟨hj, hset⟩ => (hf j hj).1 hset, fun hj => ⟨hlt j hj, (hf j (hlt j hj)).2 hj⟩⟩

/-- The weight of a vector written out as a list of bits. -/
theorem weightOf_eq_count {flags : List Bool} (hn : flags.length = n) (hf : ∀ j, j < n → f j = flags.getD j false) :
    weightOf n f = flags.count true := by
  have hmap : (List.range n).map f = flags := List.ext_getElem (by simp [hn]) fun j hj hlt => by
    rw [List.getElem_map, List.getElem_range, hf j (hn ▸ hlt), List.getD_eq_getElem _ _ hlt]
  rw [← hmap, List.count_eq_countP, List.countP_map, weightOf, ← List.countP_eq_length_filter]
  exact List.countP_congr fun j _ => by simp

/-! ## EVEC and WEIGHT (rules R250, R287) -/

/-- A vector of N bits stored in EVEC is there. -/
theorem loadBits_storeBits_evec (hv : v < 2 ^ s.params.n) : (s.storeBits .evec v).loadBits .evec = some v :=
  loadBits_storeBits (hv.trans_le (Nat.pow_le_pow_right (by omega) (n_le_rowWords _)))

/-- WEIGHT has room for the count of any N bits (rule R41). -/
theorem toNat_ofNat_weight {p : Params} (h : p.legal = true) {w : Nat} (hw : w ≤ p.n) :
    (BitVec.ofNat 17 w).toNat = w := by
  obtain ⟨hn, -⟩ := legal_fits h
  rw [BitVec.toNat_ofNat, Nat.mod_eq_of_lt (by omega)]

/-- EVEC is written and has weight T, and WEIGHT says so (rules R252, R290). -/
def State.HoldsWeightT (s : State) : Prop :=
  s.written .evec ∧ weightOf s.params.n (s.bitAt .evec) = s.params.t ∧ s.weight.toNat = s.params.t

/-- EVEC's bits where it holds the vector with exactly the bits `pos`. -/
theorem bitAt_evec_iff_mem {pos : List Nat} (h : s.loadBits .evec = some (Bits.ofPositions pos)) {j : Nat}
    (hj : j < 32 * s.params.rowWords) : s.bitAt .evec j = true ↔ j ∈ pos := by
  rw [bitAt_of_loadBits h hj, Bits.testBit_ofPositions, decide_eq_true_iff]

/-- T distinct positions make a vector of weight T. -/
theorem holdsWeightT_of_positions (hp : s.params.legal = true) (hw : s.weight = BitVec.ofNat 17 s.params.t)
    {pos : List Nat} (h : s.loadBits .evec = some (Bits.ofPositions pos)) (hlen : pos.length = s.params.t)
    (hnodup : pos.Nodup) (hlt : ∀ j ∈ pos, j < s.params.n) : s.HoldsWeightT := by
  refine ⟨written_of_loadBits h, ?_, by rw [hw, toNat_ofNat_weight hp (legal_t_le hp)]⟩
  rw [weightOf_of_mem_iff hnodup hlt fun j hj => bitAt_evec_iff_mem h (hj.trans_le (n_le_rowWords _)), hlen]

/-- N bits of which T are set make a vector of weight T. -/
theorem holdsWeightT_of_flags (hp : s.params.legal = true) {flags : List Bool}
    (hw : s.weight = BitVec.ofNat 17 (flags.count true)) (h : s.loadBits .evec = some (Bits.ofList flags))
    (hn : flags.length = s.params.n) (hcount : flags.count true = s.params.t) : s.HoldsWeightT := by
  refine ⟨written_of_loadBits h, ?_, by rw [hw, hcount, toNat_ofNat_weight hp (legal_t_le hp)]⟩
  rw [weightOf_eq_count hn fun j hj => ?_, hcount]
  rw [bitAt_of_loadBits h (hj.trans_le (n_le_rowWords _)), Bits.testBit_ofList]

end Sys2Proof.Machine
end

section
/-! FW_SAMPLE (rules R250-R252): it takes the first attempt of the stream with T distinct positions, or gives up. -/

namespace Sys2Proof.Machine

variable {p : Params} {s : State}

/-- Attempt `a`, from 0 on, gives T pairwise distinct positions (rule R251). -/
def FwSucceeds (p : Params) (l : List Byte) (a : Nat) : Prop :=
  (fwCandidate p l a).length = p.t ∧ (fwCandidate p l a).Nodup

/-- The state FW_SAMPLE ends in at attempt `b`, from 0 on (rule R250). -/
def State.fwFound (s : State) (b : Nat) : State :=
  (State.storeBits
    { s with
      port := s.port.skip (2 * s.params.tau * (b + 1))
      weight := BitVec.ofNat 17 s.params.t
      tries := BitVec.ofNat 32 (b + 1) } .evec
    (Bits.ofPositions (fwCandidate s.params s.port.offered b))).complete true

/-- The bytes offered reach as far as FW_SAMPLE asks: it ends at its first attempt that succeeds, or with none among all
it may make (rule R250). -/
inductive FwEnds (s : State) : State → Prop where
  /-- Attempt `b`, from 0 on, is the first that succeeds. -/
  | found (b : Nat) (hb : b < s.params.fwMaxTries) (hfed : 2 * s.params.tau * (b + 1) ≤ s.port.offered.length)
      (hpos : FwSucceeds s.params s.port.offered b) (hrej : ∀ a, a < b → ¬FwSucceeds s.params s.port.offered a) :
      FwEnds s (s.fwFound b)
  /-- Every attempt fails. -/
  | exhausted (hfed : 2 * s.params.tau * s.params.fwMaxTries ≤ s.port.offered.length)
      (hrej : ∀ a, a < s.params.fwMaxTries → ¬FwSucceeds s.params s.port.offered a) :
      FwEnds s ((State.havoc
        { s with
          port := s.port.skip (2 * s.params.tau * s.params.fwMaxTries)
          weight := 0#17
          tries := BitVec.ofNat 32 s.params.fwMaxTries } .evec).raiseError State.errExhausted)

/-- A run of FW_SAMPLE that does not wait ends in one of the two ways. -/
theorem exists_fwEnds (hfed : ¬s.starves .fwSample) : ∃ t, execFwSample s = .next t ∧ FwEnds s t := by
  rw [starves_fwSample] at hfed
  have his := fwAttempt_is s.params
  cases hrun : attempts (fwAttempt s.params) 0 s.port s.params.fwMaxTries with
  | waits => exact absurd hrun hfed
  | found a pos q =>
    obtain ⟨b, rfl, hb, hl, rfl, hpos, hrej⟩ := attempts_found_first his hrun
    simp only [fwCandidate_drop, Option.ite_none_right_eq_some, Option.some.injEq] at hpos
    obtain ⟨hpos, rfl⟩ := hpos
    rw [Nat.zero_add] at hrun
    refine ⟨_, execFwSample_of_found hrun, .found b hb hl hpos fun a ha => ?_⟩
    simpa only [FwSucceeds, fwCandidate_drop, ite_eq_right_iff, reduceCtorEq, imp_false] using hrej a ha
  | exhausted q =>
    obtain ⟨hl, rfl, hrej⟩ := attempts_exhausted_all his hrun
    refine ⟨_, execFwSample_of_exhausted hrun, .exhausted hl fun a ha => ?_⟩
    simpa only [FwSucceeds, fwCandidate_drop, ite_eq_right_iff, reduceCtorEq, imp_false] using hrej a ha

/-- Positions are columns (rule R251). -/
theorem lt_of_mem_fwCandidate {l : List Byte} {a i : Nat} (hi : i ∈ fwCandidate p l a) : i < p.n := by
  simpa using (List.mem_filter.1 (List.mem_of_mem_take hi)).2

theorem one_le_fwMaxTries (h : p.legal = true) : 1 ≤ p.fwMaxTries := by
  simp only [Params.legal, Params.triesOk, Bool.and_eq_true, decide_eq_true_eq] at h
  obtain ⟨⟨-, ⟨-, hmin⟩, -⟩, -⟩ := h
  exact hmin

theorem toNat_ofNat_fwTries (h : p.legal = true) {n : Nat} (hn : n ≤ p.fwMaxTries) :
    (BitVec.ofNat 32 n).toNat = n := by
  obtain ⟨-, -, -, -, -, hmax, -⟩ := legal_fits h
  rw [BitVec.toNat_ofNat, Nat.mod_eq_of_lt (by omega)]

/-- The positions of the attempt that succeeds are EVEC's bits, and make a vector of weight T. -/
theorem fwFound_evec (h : s.params.legal = true) {b : Nat} (hpos : FwSucceeds s.params s.port.offered b) :
    (s.fwFound b).loadBits .evec = some (Bits.ofPositions (fwCandidate s.params s.port.offered b)) ∧
      (s.fwFound b).HoldsWeightT := by
  obtain ⟨hlen, hnodup⟩ := hpos
  have hlt : ∀ i ∈ fwCandidate s.params s.port.offered b, i < s.params.n := fun i => lt_of_mem_fwCandidate
  have hload : (s.fwFound b).loadBits .evec = _ := loadBits_storeBits_evec (ofPositions_lt hlt)
  exact ⟨hload, holdsWeightT_of_positions h rfl hload hlen hnodup hlt⟩

/-- Settles O48: TRIES counts the attempts made, which are counted from 1. -/
theorem fwSampleWeightT : Obligations.FwSampleWeightT := by
  intro s h hfed
  obtain ⟨t, he, hends⟩ := exists_fwEnds hfed
  refine ⟨t, fun a => fwCandidate s.params s.port.offered (a - 1), fun a => rfl, he, ?_⟩
  cases hends with
  | found b hb hl hpos hrej =>
    obtain ⟨hload, hwritten, hweight, hreg⟩ := fwFound_evec h hpos
    have htries : (s.fwFound b).tries.toNat = b + 1 := toNat_ofNat_fwTries h hb
    rw [htries]
    exact ⟨rfl, rfl, hl, rfl, rfl, Nat.succ_pos b, hb, fun a ha hlt => hrej _ (by omega),
      fun _ => ⟨hwritten, fun j hj => bitAt_evec_iff_mem hload hj, hweight, hreg, rfl, rfl⟩,
      fun hfail => absurd hpos hfail⟩
  | exhausted hl hrej =>
    have hmin := one_le_fwMaxTries h
    have hlast := hrej (s.params.fwMaxTries - 1) (by omega)
    dsimp only [State.raiseError_tries, State.havoc_tries]
    rw [toNat_ofNat_fwTries h le_rfl]
    exact ⟨rfl, rfl, hl, rfl, rfl, hmin, le_rfl, fun a ha hlt => hrej _ (by omega), fun hpos => absurd hpos hlast,
      fun _ => ⟨rfl, rfl, unspecified_of_mem_eq_havoc rfl, rfl, rfl⟩⟩

end Sys2Proof.Machine
end

section
/-! The weight of an error vector that FW_SAMPLE, ROOT_FIND or DECODE completed with OK = 1 (rules R252, R290). -/

namespace Sys2Proof.Machine

variable {s t : State}

/-- A command that completed was not waiting for a byte (rule R95). -/
theorem not_starves_of_completed {i : Instr} (hbusy : s.eng = .busy i) (he : exec i s = .next t)
    (hidle : t.eng = .idle) : ¬s.starves i := fun hs => by
  cases (exec_of_starves hs).symm.trans he
  exact absurd (hbusy.symm.trans hidle) Engine.noConfusion

/-- FW_SAMPLE's OK is that of an attempt that succeeded (rule R252). -/
theorem holdsWeightT_of_execFwSample (h : s.params.legal = true) (hfed : ¬s.starves .fwSample)
    (he : execFwSample s = .next t) (hok : t.status.ok = true) : t.HoldsWeightT := by
  obtain ⟨_, he', hends⟩ := exists_fwEnds hfed
  cases he'.symm.trans he
  cases hends with
  | found b _ _ hpos => exact (fwFound_evec h hpos).2
  | exhausted => exact absurd hok Bool.false_ne_true

/-- ROOT_FIND's writes, where its check passes (rules R287, R290). -/
theorem holdsWeightT_of_rootsOk {u : State} (h : u.params.legal = true) {sig l g syn : List Word}
    (hl : l.length = u.params.n) (hok : rootsOk u.params sig l g syn = true) (ok : Bool) :
    ((u.storeRoots (rootFlags u.params sig l)).complete ok).HoldsWeightT := by
  have hn : (rootFlags u.params sig l).length = u.params.n := (List.length_map _).trans hl
  simp only [rootsOk, Bool.and_eq_true, beq_iff_eq] at hok
  obtain ⟨⟨hcount, -⟩, -⟩ := hok
  exact holdsWeightT_of_flags h rfl
    (loadBits_storeBits_evec (s := { u with weight := _ }) (hn ▸ Bits.ofList_lt (rootFlags u.params sig l))) hn hcount

/-- Settles O59: each command's OK says that its vector has weight T, and DECODE's that ROOT_FIND's stage says so. -/
theorem completedErrorVectorHasWeightT : Obligations.CompletedErrorVectorHasWeightT := by
  intro i s t h hi hbusy he hidle hok
  suffices ht : t.HoldsWeightT by
    have hparams : t.params = s.params := by
      obtain ⟨rfl, -⟩ | hc := exec_completes he
      · rfl
      · exact hc.params
    rwa [State.HoldsWeightT, hparams] at ht
  obtain rfl | rfl | rfl := hi
  · exact holdsWeightT_of_execFwSample h (not_starves_of_completed hbusy he hidle) he hok
  · obtain ⟨sig, l, g, syn, -, hl, -, -, rfl⟩ := execRootFind_next he
    exact holdsWeightT_of_rootsOk h (length_load hl) (Bool.and_eq_true_iff.1 hok).1 _
  · obtain ⟨v, g, l, syn, x, -, -, hl, -, -, rfl⟩ := execDecode_next he
    have hroots := (Bool.and_eq_true_iff.1 (Bool.and_eq_true_iff.1 hok).1).2
    exact holdsWeightT_of_rootsOk (u := { (s.store .s syn).store .sig (locator x) with bmL := BitVec.ofNat 16 x.len })
      h (length_load hl) hroots _

end Sys2Proof.Machine
end

section
/-! ENCODE (rules R255-R257): the syndrome it writes, in the elements of MAT and EVEC, and that it is linear in EVEC. -/

namespace Sys2Proof.Machine

variable {s : State}

/-! ## The right block as ENCODE reads it (rule R114) -/

theorem wordAt_of_loadSpan {x : Span} {ws : List Word} {j : Nat} (h : s.loadSpan x = some ws) (hj : j < x.count) :
    s.wordAt x.region (x.first + j) = coeff ws j := by
  have hlen : j < ws.length := by rwa [Memory.length_readWords h]
  have hword := Memory.readWord_of_readWords h hlen
  rw [Region.addr, Nat.add_assoc, ← Nat.mul_add] at hword
  rw [State.wordAt, Region.addr, hword, coeff, List.getD_eq_getElem _ _ hlen, Option.getD_some]

/-- A list mapped without failure: each answer stands where its entry does. -/
theorem getElem?_of_mapM_eq_some {α β : Type} {f : α → Option β} {l : List α} {ys : List β}
    (h : l.mapM f = some ys) {i : Nat} (hi : i < l.length) : f l[i] = ys[i]? := by
  induction l generalizing ys i with
  | nil => exact absurd hi (Nat.not_lt_zero i)
  | cons x l ih =>
    simp only [List.mapM_cons, Option.bind_eq_bind, Option.bind_eq_some_iff] at h
    obtain ⟨y, hy, ys', hys, h⟩ := h
    obtain rfl : y :: ys' = ys := by simpa using h
    cases i with
    | zero => exact hy
    | succ i => exact ih hys (Nat.lt_of_succ_lt_succ hi)

theorem length_loadRightBlock {rows : List Bits} (h : s.loadRightBlock = some rows) : rows.length = s.params.r :=
  (mapM_eq_some h).1.trans List.length_range

/-- From the word that holds column R on, the rows read are MAT's. -/
theorem entry_loadRightBlock {rows : List Bits} (h : s.loadRightBlock = some rows) {r c : Nat} (hr : r < s.params.r)
    (hlow : s.params.r ≤ c) (hc : c < 32 * s.params.rowWords) : entry rows r c = s.matAt r c := by
  have hlt : r < rows.length := (length_loadRightBlock h).symm ▸ hr
  have hrow := getElem?_of_mapM_eq_some h (i := r) (by rwa [List.length_range])
  rw [List.getElem_range, List.getElem?_eq_getElem hlt, Option.map_eq_some_iff] at hrow
  obtain ⟨ws, hws, hrow⟩ := hrow
  have hword : s.wordAt .mat (r * s.params.rowWords + c / 32) = coeff ws (c / 32 - s.params.r / 32) := by
    rw [← wordAt_of_loadSpan hws (by dsimp only; omega)]
    exact congrArg _ (by dsimp only; omega)
  rw [entry, List.getD_eq_getElem _ _ hlt, ← hrow, Nat.testBit_shiftLeft, decide_eq_true (by omega), Bool.true_and,
    Bits.testBit_ofWords, Nat.sub_mul_div, Nat.sub_mul_mod (by omega), State.matAt, hword, coeff]

/-! ## Sums of bits -/

theorem parity_congr {n : Nat} {f g : Nat → Bool} (h : ∀ c, c < n → f c = g c) : parity n f = parity n g :=
  List.foldl_ext _ _ _ fun b c hc => by rw [h c (List.mem_range.1 hc)]

theorem parity_xor (n : Nat) (f g : Nat → Bool) : (parity n fun c => f c ^^ g c) = (parity n f ^^ parity n g) :=
  toBit_inj.1 (by simp only [toBit_xor, toBit_parity, Finset.sum_add_distrib])

/-- A sum of bits that starts from another bit than 0. -/
theorem foldl_xor_eq (b : Bool) (n : Nat) (f : Nat → Bool) :
    (List.range n).foldl (fun acc c => acc ^^ f c) b = (b ^^ parity n f) := by
  induction n with
  | zero => simp [parity]
  | succ n ih =>
    simp only [parity, List.range_succ, List.foldl_append, List.foldl_cons, List.foldl_nil, ih, Bool.xor_assoc]

/-! ## The syndrome -/

theorem r_lt_n {p : Params} (h : p.legal = true) : p.r < p.n := by
  obtain ⟨-, -, -, -, hn, -⟩ := legal_bounds h
  exact hn

/-- Row `r` of MAT's right block times EVEC[R..N-1] (rule R255). -/
def State.rightSum (s : State) (r : Nat) : Bool :=
  parity s.params.k fun c => s.matAt r (s.params.r + c) && s.bitAt .evec (s.params.r + c)

/-- Element `r` of [I_R | T] * EVEC, with T the right block of MAT (rule R255). -/
def State.syndromeAt (s : State) (r : Nat) : Bool := s.bitAt .evec r ^^ s.rightSum r

/-- The bit ENCODE computes for row `r`. -/
theorem syndromeBit_eq (hp : s.params.legal = true) {e : Bits} {rows : List Bits} (he : s.loadBits .evec = some e)
    (hrows : s.loadRightBlock = some rows) {r : Nat} (hr : r < s.params.r) :
    syndromeBit s.params e r (rows.getD r 0) = s.syndromeAt r := by
  have hn := r_lt_n hp
  have hk : s.params.k = s.params.n - s.params.r := rfl
  have hwords := n_le_rowWords s.params
  rw [syndromeBit, foldl_xor_eq, State.syndromeAt, State.rightSum,
    bitAt_of_loadBits he (by simp only [Region.words]; omega)]
  refine congrArg _ (parity_congr fun c hc => ?_)
  rw [bitAt_of_loadBits he (by simp only [Region.words]; omega),
    ← entry_loadRightBlock hrows hr (Nat.le_add_right _ c) (by omega), entry]

/-- With its inputs written ENCODE completes, and SYN holds the syndrome. -/
theorem exec_encode (hp : s.params.legal = true) (hw : s.inputsWritten .encode = true) :
    ∃ t, exec .encode s = .next t ∧ t.params = s.params ∧ t.status.ok = true ∧ t.status.errcode = 0#4 ∧
      t.loadBits .syn = some (Bits.ofList ((List.range s.params.r).map s.syndromeAt)) := by
  obtain ⟨t, ht⟩ := (execEncode_uninitUnless s).exists_next hw
  obtain ⟨e, rows, he, hrows, rfl⟩ := execEncode_next ht
  have hlen := length_loadRightBlock hrows
  have hsyn : (rows.mapIdx fun r row => syndromeBit s.params e r row) = (List.range s.params.r).map s.syndromeAt := by
    refine List.ext_getElem (by simp [hlen]) fun r hr _ => ?_
    rw [List.length_mapIdx] at hr
    rw [List.getElem_mapIdx, List.getElem_map, List.getElem_range, ← syndromeBit_eq hp he hrows (hlen ▸ hr),
      List.getD_eq_getElem _ _ hr]
  refine ⟨_, ht, rfl, rfl, rfl, ?_⟩
  rw [hsyn]
  refine loadBits_storeBits (r := .syn) ((Bits.ofList_lt _).trans_le (Nat.pow_le_pow_right (by omega) ?_))
  simp only [List.length_map, List.length_range, Region.words, Params.synWords]
  omega

section stored

variable {t : State} (hparams : t.params = s.params)
  (h : t.loadBits .syn = some (Bits.ofList ((List.range s.params.r).map s.syndromeAt)))

include hparams h

/-- SYN's elements where it holds the syndrome of `s`. -/
theorem bitAt_syn {r : Nat} (hr : r < s.params.r) : t.bitAt .syn r = s.syndromeAt r := by
  rw [bitAt_of_loadBits h (by simp only [hparams, Region.words, Params.synWords]; omega), Bits.testBit_ofList]
  simp [hr]

/-- The padding above them is 0 (rule R88). -/
theorem bitAt_syn_padding {j : Nat} (hle : s.params.r ≤ j) (hj : j < 32 * s.params.synWords) :
    t.bitAt .syn j = false := by
  rw [bitAt_of_loadBits h (by rwa [hparams]), Bits.testBit_ofList]
  simp [hle]

end stored

/-- Settles O52: the words that hold a bit of columns R..N-1 are those ENCODE reads. -/
theorem encodeProduct : Obligations.EncodeProduct := by
  intro s hp hevec hmat
  have hw : s.inputsWritten .encode = true := inputsWritten_iff.2 fun x hx j hj => by
    obtain rfl | ⟨r, hr, rfl⟩ := by simpa [inputSpans] using hx
    · simpa only [Region.span, Region.addr, Nat.zero_add] using hevec j hj
    · dsimp only at hj ⊢
      rw [Nat.add_assoc]
      exact hmat r _ hr (Nat.le_add_right _ j) (by omega)
  obtain ⟨t, ht, hparams, hok, hcode, hsyn⟩ := exec_encode hp hw
  exact ⟨t, ht, hok, hcode, written_of_loadBits hsyn, fun r hr => bitAt_syn hparams hsyn hr,
    fun j hle hj => bitAt_syn_padding hparams hsyn hle hj⟩

/-- The syndrome of the XOR of two error vectors, under the same right block (rule R257). -/
theorem syndromeAt_xor {s1 s2 s3 : State} (hp : s1.params.legal = true) (hp2 : s2.params = s1.params)
    (hp3 : s3.params = s1.params)
    (hmat : ∀ r c, r < s1.params.r → s1.params.r ≤ c → c < s1.params.n →
      s2.matAt r c = s1.matAt r c ∧ s3.matAt r c = s1.matAt r c)
    (hevec : ∀ j, j < s1.params.n → s3.bitAt .evec j = (s1.bitAt .evec j ^^ s2.bitAt .evec j)) {r : Nat}
    (hr : r < s1.params.r) : s3.syndromeAt r = (s1.syndromeAt r ^^ s2.syndromeAt r) := by
  have hn := r_lt_n hp
  have hk : s1.params.k = s1.params.n - s1.params.r := rfl
  have hsum : s3.rightSum r = (s1.rightSum r ^^ s2.rightSum r) := by
    simp only [State.rightSum, hp2, hp3]
    rw [← parity_xor]
    refine parity_congr fun c hc => ?_
    obtain ⟨h2, h3⟩ := hmat r (s1.params.r + c) hr (Nat.le_add_right _ c) (by omega)
    rw [h2, h3, hevec _ (by omega), Bool.and_xor_distrib_left]
  rw [State.syndromeAt, State.syndromeAt, State.syndromeAt, hevec r (hr.trans hn), hsum]
  rw [Bool.xor_assoc, Bool.xor_assoc, Bool.xor_left_comm (s2.bitAt .evec r)]

/-- Settles O53: each run writes the syndrome of its own state. -/
theorem encodeLinear : Obligations.EncodeLinear := by
  intro s1 s2 s3 hp hp2 hp3 hw1 hw2 hw3 hmat hevec
  obtain ⟨t1, ht1, hparams1, -, -, hsyn1⟩ := exec_encode hp hw1
  obtain ⟨t2, ht2, hparams2, -, -, hsyn2⟩ := exec_encode (hp2 ▸ hp) hw2
  obtain ⟨t3, ht3, hparams3, -, -, hsyn3⟩ := exec_encode (hp3 ▸ hp) hw3
  refine ⟨t1, t2, t3, ht1, ht2, ht3, fun r hr => ?_⟩
  rw [bitAt_syn hparams1 hsyn1 hr, bitAt_syn hparams2 hsyn2 (hp2 ▸ hr), bitAt_syn hparams3 hsyn3 (hp3 ▸ hr)]
  exact syndromeAt_xor hp hp2 hp3 hmat hevec hr

end Sys2Proof.Machine
end

section
/-! DEC_SYNDROME (rules R280, R281): the loop over the points sums one term a set bit. -/

namespace Sys2Proof.Machine

variable {p : Params} {s : State} {g l : List Word} {v : Bits}

/-! ## Sums -/

theorem xorSum_congr {n : Nat} {f f' : Nat → Word} (h : ∀ i, i < n → f i = f' i) : xorSum n f = xorSum n f' :=
  List.foldl_ext _ _ _ fun acc i hi => by rw [h i (List.mem_range.1 hi)]

theorem xorSum_succ (n : Nat) (f : Nat → Word) : xorSum (n + 1) f = xorSum n f ^^^ f n := by
  rw [xorSum, List.range_succ, List.foldl_append]
  rfl

/-- A sum may leave out terms at its end that are 0. -/
theorem xorSum_eq_of_le {f : Nat → Word} {m n : Nat} (hle : m ≤ n) (h : ∀ i, m ≤ i → i < n → f i = 0#32) :
    xorSum n f = xorSum m f := by
  rw [xorSum_eq_foldl_range' (start := 0) (count := m) (by omega) (fun i hi => absurd hi (Nat.not_lt_zero i))
    (by simpa using h), ← List.range_eq_range', ← xorSum]

theorem coeff_zipWith {f : Word → Word → Word} {a b : List Word} {j : Nat} (ha : j < a.length) (hb : j < b.length) :
    coeff (List.zipWith f a b) j = f (coeff a j) (coeff b j) := by
  simp [coeff, ha, hb]

theorem coeff_append_left {a b : List Word} {i : Nat} (hi : i < a.length) : coeff (a ++ b) i = coeff a i := by
  rw [coeff, coeff, List.getD_append _ _ _ _ hi]

/-! ## The terms of a point -/

/-- Term `j` of a geometric list does not depend on the length of the list. -/
theorem coeff_geometric_succ (p : Params) (w a : Word) {n j : Nat} (hj : j < n) :
    coeff (geometric p w a n) j = coeff (geometric p w a (j + 1)) j := by
  induction j generalizing w n with
  | zero =>
    obtain ⟨n, rfl⟩ : ∃ k, n = k + 1 := ⟨n - 1, by omega⟩
    rfl
  | succ j ih =>
    obtain ⟨n, rfl⟩ : ∃ k, n = k + 1 := ⟨n - 1, by omega⟩
    exact ih (gmul p w a) (by omega)

theorem reduced_coeff_geometric {w : Word} (hw : Reduced p w) (a : Word) (n j : Nat) :
    Reduced p (coeff (geometric p w a n) j) := by
  induction n generalizing w j with
  | zero => exact reduced_zero p
  | succ n ih =>
    cases j with
    | zero => exact hw
    | succ j => exact ih (reduced_gmul p w a) j

/-- The weight `1 / g(a)^2` of the point `a` (rule R281). -/
def pointWeight (p : Params) (g : List Word) (a : Word) : Word := ginv p (gmul p (peval p g a) (peval p g a))

/-- What a set bit at the point `a` adds to s_j (rule R281). -/
def pointTerm (p : Params) (g : List Word) (j : Nat) (a : Word) : Word :=
  coeff (geometric p (pointWeight p g a) a (j + 1)) j

theorem pointTerm_eq (h : p.legal = true) (g : List Word) (j : Nat) {a : Word} (ha : Reduced p a) :
    pointTerm p g j a = gmul p (gpow p a j) (pointWeight p g a) :=
  coeff_geometric h (reduced_ginv h _) ha (Nat.lt_succ_self j)

theorem reduced_pointTerm (h : p.legal = true) (g : List Word) (j : Nat) (a : Word) : Reduced p (pointTerm p g j a) :=
  reduced_coeff_geometric (reduced_ginv h _) a _ j

/-! ## The doubled syndrome -/

theorem length_doubledSyndrome (p : Params) (g l : List Word) (v : Bits) :
    (doubledSyndrome p g l v).length = 2 * p.t := (elementList_doubledSyndrome p g l v).1

/-- The loop body for one more point. -/
theorem doubledSyndrome_concat (p : Params) (g l : List Word) (a : Word) (v : Bits) :
    doubledSyndrome p g (l ++ [a]) v =
      List.zipWith (fun x w => gadd x (gmul p w (if v.testBit l.length then 1#32 else 0#32))) (doubledSyndrome p g l v)
        (geometric p (pointWeight p g a) a (2 * p.t)) := by
  rw [doubledSyndrome, List.zipIdx_append, List.foldl_append, ← doubledSyndrome, Nat.zero_add]
  rfl

/-- s_j is the sum of the terms of the set bits. -/
theorem coeff_doubledSyndrome (h : p.legal = true) (g l : List Word) (v : Bits) {j : Nat} (hj : j < 2 * p.t) :
    coeff (doubledSyndrome p g l v) j =
      xorSum l.length fun i => if v.testBit i then pointTerm p g j (coeff l i) else 0#32 := by
  induction l using List.reverseRecOn with
  | nil =>
    rw [show doubledSyndrome p g [] v = List.replicate (2 * p.t) 0#32 from rfl, coeff,
      List.getD_replicate (h := hj)]
    rfl
  | append_singleton l a ih =>
    have hterm : gmul p (coeff (geometric p (pointWeight p g a) a (2 * p.t)) j)
        (if v.testBit l.length then 1#32 else 0#32) = if v.testBit l.length then pointTerm p g j a else 0#32 := by
      rw [coeff_geometric_succ p _ a hj, ← pointTerm]
      split
      · exact gmul_one h (reduced_pointTerm h g j a)
      · exact gmul_zero_right p _
    have hlast : coeff (l ++ [a]) l.length = a := by simp [coeff]
    rw [doubledSyndrome_concat, coeff_zipWith (by rwa [length_doubledSyndrome]) (by rwa [length_geometric]), ih, hterm,
      List.length_append, List.length_singleton, xorSum_succ, hlast,
      xorSum_congr fun i hi => by rw [← coeff_append_left (b := [a]) hi]]
    rfl

/-! ## The command -/

/-- SYN holds R bits: its padding is 0 (rule R88). -/
theorem State.ElementsReduced.testBit_syn (hr : s.ElementsReduced) (hv : s.loadBits .syn = some v) {i : Nat}
    (hi : s.params.r ≤ i) : v.testBit i = false := by
  obtain ⟨ws, hws, rfl⟩ := Option.map_eq_some_iff.1 hv
  rw [Bits.testBit_ofWords]
  rcases Nat.lt_or_ge (i / 32) ws.length with hlt | hge
  · have hw := hr.words .syn _ _ (length_load hws ▸ hlt) (Memory.readWord_of_readWords hws hlt)
    rw [wordMask, and_lowMask_eq_self_iff] at hw
    rw [List.getD_eq_getElem _ _ hlt, BitVec.getLsbD]
    exact Nat.testBit_lt_two_pow (hw.trans_le (Nat.pow_le_pow_right (by omega) (by omega)))
  · rw [List.getD_eq_default _ _ hge, BitVec.getLsbD_zero]

theorem execDecSyndrome_eq (hv : s.loadBits .syn = some v) (hg : s.load .g = some g) (hl : s.load .l = some l) :
    execDecSyndrome s = .next ((s.store .s (doubledSyndrome s.params g l v)).complete (noRoots s.params g l)) := by
  simp [execDecSyndrome, hv, hg, hl]

/-- Settles O54: the bits of SYN above R are 0, so the sum over all N points is one over the first R. -/
theorem decSyndromeFormula : Obligations.DecSyndromeFormula := by
  intro s g l h hr hsyn hg hl
  have hn := r_lt_n h
  have hlen : l.length = s.params.n := length_load hl
  obtain ⟨v, hv⟩ : ∃ v, s.loadBits .syn = some v := by
    obtain ⟨ws, hws⟩ := Option.isSome_iff_exists.1 (load_isSome_iff.2 hsyn)
    exact ⟨_, Option.map_eq_some_iff.2 ⟨ws, hws, rfl⟩⟩
  have hload := load_complete_store (s := s) (r := .s) (length_doubledSyndrome s.params g l v) (noRoots s.params g l)
  refine ⟨_, execDecSyndrome_eq hv hg hl, rfl, load_isSome_iff.1 (Option.isSome_of_eq_some hload), ?_, fun j hj => ?_⟩
  · rw [← hlen]
    simpa using noRoots_iff
  · rw [wordAt_of_load hload hj, coeff_doubledSyndrome h g l v hj, hlen,
      xorSum_eq_of_le hn.le fun i hi _ => by simp [hr.testBit_syn hv hi]]
    refine xorSum_congr fun i hi => ?_
    rw [bitAt_of_loadBits hv (by simp only [Region.words, Params.synWords]; omega),
      pointTerm_eq h g j (((hr.load rfl hl).coeff i)), pointWeight]

end Sys2Proof.Machine
end

section
/-! BM_SOLVE (rules R283, R284): what an iteration of the recurrence does to each of C, B, b and Lc, and what every
iteration keeps. -/

namespace Sys2Proof.Machine

variable {p : Params} {s : State} {syn : List Word} {x : Bm} {n : Nat}

/-! ## One iteration -/

/-- B shifted up by one, B[T] dropped (rule R283). -/
def shiftUp (p : Params) (c : List Word) : List Word := 0#32 :: c.take p.t

/-- The factor `d / b` of the update of C (rule R283). -/
def bmFactor (p : Params) (syn : List Word) (x : Bm) (n : Nat) : Word :=
  gmul p (discrepancy p x.c syn n) (ginv p x.beta)

/-- C with the multiple of B that clears the discrepancy added (rule R283). -/
def bmCorrect (p : Params) (syn : List Word) (x : Bm) (n : Nat) : List Word :=
  List.zipWith (fun ci bi => gadd ci (gmul p (bmFactor p syn x n) bi)) x.c x.b

/-- No discrepancy: only B moves. -/
theorem bmStep_of_discrepancy_eq_zero (hd : discrepancy p x.c syn n = 0#32) :
    bmStep p syn x n = ⟨x.c, shiftUp p x.b, x.beta, x.len⟩ := by
  simp [bmStep, hd, shiftUp]

/-- A discrepancy that C of this length can clear. -/
theorem bmStep_of_lt (hd : discrepancy p x.c syn n ≠ 0#32) (hn : n < 2 * x.len) :
    bmStep p syn x n = ⟨bmCorrect p syn x n, shiftUp p x.b, x.beta, x.len⟩ := by
  simp [bmStep, hd, Nat.not_le.2 hn, shiftUp, bmCorrect, bmFactor]

/-- A discrepancy that takes a longer C: the old one is kept as B. -/
theorem bmStep_of_le (hd : discrepancy p x.c syn n ≠ 0#32) (hn : 2 * x.len ≤ n) :
    bmStep p syn x n = ⟨bmCorrect p syn x n, shiftUp p x.c, discrepancy p x.c syn n, n + 1 - x.len⟩ := by
  simp [bmStep, hd, hn, shiftUp, bmCorrect, bmFactor]

/-- The three things an iteration can do. -/
theorem bmStep_cases {motive : Bm → Prop}
    (zero : discrepancy p x.c syn n = 0#32 → motive ⟨x.c, shiftUp p x.b, x.beta, x.len⟩)
    (lt : discrepancy p x.c syn n ≠ 0#32 → n < 2 * x.len →
      motive ⟨bmCorrect p syn x n, shiftUp p x.b, x.beta, x.len⟩)
    (le : discrepancy p x.c syn n ≠ 0#32 → 2 * x.len ≤ n →
      motive ⟨bmCorrect p syn x n, shiftUp p x.c, discrepancy p x.c syn n, n + 1 - x.len⟩) :
    motive (bmStep p syn x n) := by
  by_cases hd : discrepancy p x.c syn n = 0#32
  · exact bmStep_of_discrepancy_eq_zero hd ▸ zero hd
  · rcases Nat.lt_or_ge n (2 * x.len) with hn | hn
    · exact bmStep_of_lt hd hn ▸ lt hd hn
    · exact bmStep_of_le hd hn ▸ le hd hn

/-! ## Every iteration -/

/-- The recurrence after its first `n` iterations. -/
def bmAfter (p : Params) (syn : List Word) (n : Nat) : Bm := (List.range n).foldl (bmStep p syn) (bmInit p)

theorem bmRun_eq (p : Params) (syn : List Word) : bmRun p syn = bmAfter p syn (2 * p.t) := rfl

theorem bmAfter_zero (p : Params) (syn : List Word) : bmAfter p syn 0 = bmInit p := rfl

theorem bmAfter_succ (p : Params) (syn : List Word) (n : Nat) :
    bmAfter p syn (n + 1) = bmStep p syn (bmAfter p syn n) n := by
  rw [bmAfter, List.range_succ, List.foldl_append]
  rfl

/-- The working storage is elements, `C[0] = 1`, `B[0] = 0`, and `b` is not 0 (rules R283, R284). -/
structure Bm.Fits (p : Params) (x : Bm) : Prop where
  c : ElementList p (p.t + 1) x.c
  b : ElementList p (p.t + 1) x.b
  beta : Reduced p x.beta
  beta_ne : x.beta ≠ 0#32
  head_c : coeff x.c 0 = 1#32
  head_b : coeff x.b 0 = 0#32

theorem elementList_shiftUp {c : List Word} (hc : ElementList p (p.t + 1) c) :
    ElementList p (p.t + 1) (shiftUp p c) := by
  rw [shiftUp, Nat.add_comm]
  exact (elementList_replicate p 1).append (hc.take (Nat.le_succ _))

theorem reduced_discrepancy (p : Params) (c syn : List Word) (n : Nat) : Reduced p (discrepancy p c syn n) :=
  List.foldlRecOn (motive := Reduced p) _ _ (reduced_zero p) fun _ h _ _ => reduced_gadd h (reduced_gmul p _ _)

theorem Bm.Fits.init (h : p.legal = true) : Bm.Fits p (bmInit p) := by
  obtain ⟨-, -, ht, -⟩ := legal_bounds h
  have hone : ElementList p 1 [1#32] := ⟨rfl, by simpa using reduced_one h⟩
  have hc : ElementList p (1 + p.t) (bmInit p).c := hone.append (elementList_replicate p p.t)
  have hb : ElementList p (1 + (1 + (p.t - 1))) (bmInit p).b :=
    (elementList_replicate p 1).append (hone.append (elementList_replicate p (p.t - 1)))
  exact ⟨by rwa [Nat.add_comm], by rwa [show p.t + 1 = 1 + (1 + (p.t - 1)) by omega], reduced_one h,
    (by decide : 1#32 ≠ 0#32), rfl, rfl⟩

theorem Bm.Fits.correct (hx : x.Fits p) (syn : List Word) (n : Nat) :
    ElementList p (p.t + 1) (bmCorrect p syn x n) ∧ coeff (bmCorrect p syn x n) 0 = 1#32 := by
  refine ⟨hx.c.zipWith_gadd hx.b.1 (gmul p _) (reduced_gmul p _), ?_⟩
  rw [bmCorrect, coeff_zipWith (by rw [hx.c.1]; omega) (by rw [hx.b.1]; omega), hx.head_c, hx.head_b, gmul_zero_right]
  rfl

theorem Bm.Fits.step (hx : x.Fits p) (syn : List Word) (n : Nat) : (bmStep p syn x n).Fits p := by
  obtain ⟨hcorrect, hhead⟩ := hx.correct syn n
  refine bmStep_cases (fun _ => ?_) (fun _ _ => ?_) fun hd _ => ?_
  · exact ⟨hx.c, elementList_shiftUp hx.b, hx.beta, hx.beta_ne, hx.head_c, rfl⟩
  · exact ⟨hcorrect, elementList_shiftUp hx.b, hx.beta, hx.beta_ne, hhead, rfl⟩
  · exact ⟨hcorrect, elementList_shiftUp hx.c, reduced_discrepancy p _ _ n, hd, hhead, rfl⟩

theorem bmAfter_fits (h : p.legal = true) (syn : List Word) (n : Nat) : (bmAfter p syn n).Fits p := by
  induction n with
  | zero => exact .init h
  | succ n ih => exact bmAfter_succ p syn n ▸ ih.step syn n

/-- An iteration never shortens C. -/
theorem len_le_len_bmStep (p : Params) (syn : List Word) (x : Bm) (n : Nat) : x.len ≤ (bmStep p syn x n).len :=
  bmStep_cases (motive := fun y => x.len ≤ y.len) (fun _ => le_rfl) (fun _ _ => le_rfl)
    fun _ hn => by dsimp only; omega

theorem len_bmAfter_mono (p : Params) (syn : List Word) : Monotone fun n => (bmAfter p syn n).len :=
  monotone_nat_of_le_succ fun n => (len_le_len_bmStep p syn _ n).trans_eq (by rw [bmAfter_succ])

/-! ## The locator -/

theorem coeff_reverse {c : List Word} {k i : Nat} (hc : c.length = k + 1) (hi : i ≤ k) :
    coeff c.reverse i = coeff c (k - i) := by
  rw [coeff, List.getD_eq_getElem _ _ (by rw [List.length_reverse]; omega), List.getElem_reverse, coeff,
    List.getD_eq_getElem _ _ (by omega)]
  congr 1
  omega

theorem coeff_locator_self (h : p.legal = true) (syn : List Word) : coeff (locator (bmRun p syn)) p.t = 1#32 := by
  have hfits := bmAfter_fits h syn (2 * p.t)
  rw [bmRun_eq, locator, coeff_reverse hfits.c.1 le_rfl, Nat.sub_self]
  exact hfits.head_c

/-- The degree of `k + 1` coefficients is `k` exactly where the last one is not 0. -/
theorem degree_eq_some_iff {c : List Word} {k : Nat} (hc : c.length = k + 1) :
    degree c = some k ↔ coeff c k ≠ 0#32 := by
  rw [degree, hc, List.range_succ, List.reverse_append, List.reverse_singleton, List.singleton_append, List.find?_cons]
  split
  · exact iff_of_true rfl (bne_iff_ne.1 ‹_›)
  · rename_i h0
    refine iff_of_false (fun hfind => ?_) (by simpa using h0)
    simpa using List.mem_of_find?_eq_some hfind

theorem execBmSolve_eq (h : s.load .s = some syn) : execBmSolve s = .next (State.complete
    { s.store .sig (locator (bmRun s.params syn)) with bmL := BitVec.ofNat 16 (bmRun s.params syn).len }
    (decide ((bmRun s.params syn).len ≤ s.params.t))) := by simp [execBmSolve, h]

/-- BM_L has room for every length (rule R284). -/
theorem toNat_bmL (h : p.legal = true) (syn : List Word) :
    (BitVec.ofNat 16 (bmRun p syn).len).toNat = (bmRun p syn).len := by
  obtain ⟨-, -, -, ht, -⟩ := legal_bounds h
  have hlen : (bmRun p syn).len ≤ 2 * p.t := len_foldl_bmStep_le p syn (2 * p.t)
  rw [BitVec.toNat_ofNat, Nat.mod_eq_of_lt (by omega)]

/-- SIG after BM_SOLVE. -/
theorem load_sig_of_execBmSolve {t : State} (h : s.params.legal = true) (hs : s.load .s = some syn)
    (he : execBmSolve s = .next t) :
    t.params = s.params ∧ t.bmL.toNat = (bmRun s.params syn).len ∧
      t.load .sig = some (locator (bmRun s.params syn)) := by
  cases (execBmSolve_eq hs).symm.trans he
  exact ⟨rfl, toNat_bmL h syn, load_store_same (r := .sig) (elementList_locator h syn).1⟩

/-- Settles O55: C[0] = 1 throughout, and the length never exceeds the number of iterations. -/
theorem bmSolveMonicLocator : Obligations.BmSolveMonicLocator := by
  intro s syn h hs
  have hlead := coeff_locator_self h syn
  obtain ⟨-, hlen, hsig⟩ := load_sig_of_execBmSolve h hs (execBmSolve_eq hs)
  refine ⟨_, _, execBmSolve_eq hs, rfl, hsig, hlead,
    (degree_eq_some_iff (elementList_locator h syn).1).2 (by rw [hlead]; decide), toNat_bmL_le _ syn, ?_⟩
  rw [hlen]
  simp

end Sys2Proof.Machine
end

section
/-! The Berlekamp-Massey recurrence over a commutative ring: the connection polynomial generates the sequence read so
far, and no shorter one does (rules R283, R284). -/

namespace Sys2Proof.Machine

open Polynomial (X C)

variable {R : Type*} [CommRing R] {s b c d : Polynomial R} {beta f : R} {n t len : Nat}

/-- Only the constant term of `F` meets a coefficient of `G` that is not 0. -/
theorem coeff_mul_of_gap {F G : Polynomial R} (hF : F.natDegree ≤ t)
    (hG : ∀ k, n ≤ k + t → k < n → G.coeff k = 0) : (F * G).coeff n = F.coeff 0 * G.coeff n := by
  rw [Polynomial.coeff_mul, Finset.sum_eq_single (0, n) _ (fun hmem => absurd (by simp) hmem)]
  rintro ⟨i, j⟩ hij hne
  rw [Finset.HasAntidiagonal.mem_antidiagonal] at hij
  dsimp only at hij ⊢
  rcases Nat.lt_or_ge t i with hi | hi
  · rw [Polynomial.coeff_eq_zero_of_natDegree_lt (by omega), zero_mul]
  · have hne0 : i ≠ 0 := fun h0 => hne (by rw [h0, ← hij, h0, Nat.zero_add])
    rw [hG j (by omega) (by omega), mul_zero]

/-- `c` of length `len` generates the first `n` terms of `s`. -/
structure Generates (s : Polynomial R) (n : Nat) (c : Polynomial R) (len : Nat) : Prop where
  natDegree_le : c.natDegree ≤ len
  coeff_eq_zero : ∀ k, len ≤ k → k < n → (c * s).coeff k = 0

/-- Massey's bound: where `c` fails at term `n`, a `d` that does not has a length above `n - len`. -/
theorem Generates.lt_add_of_coeff_ne_zero (hc : Generates s n c len) (hn : (c * s).coeff n ≠ 0)
    (hd : Generates s (n + 1) d t) (hd0 : d.coeff 0 = 1) : n < t + len := by
  by_contra! hle
  have hdc : (d * (c * s)).coeff n = (c * s).coeff n := by
    rw [coeff_mul_of_gap hd.natDegree_le fun k _ hk => hc.coeff_eq_zero k (by omega) hk, hd0, one_mul]
  have hcd : (c * (d * s)).coeff n = 0 := by
    rw [coeff_mul_of_gap hc.natDegree_le fun k _ hk => hd.coeff_eq_zero k (by omega) (by omega),
      hd.coeff_eq_zero n (by omega) n.lt_succ_self, mul_zero]
  exact hn (by rw [← hdc, mul_left_comm, hcd])

/-- `b` can clear a discrepancy at term `n`: its own is `beta` there, and 0 on the terms a `c` of length `len`
generates. -/
structure Marks (s : Polynomial R) (n : Nat) (b : Polynomial R) (beta : R) (len : Nat) : Prop where
  natDegree_le : b.natDegree + len ≤ n + 1
  coeff_eq : ∀ k, n < k + len → k ≤ n → (b * s).coeff k = if k = n then beta else 0

/-- Shifting `b` up marks the next term. -/
theorem Marks.shift (h : Marks s n b beta len) : Marks s (n + 1) (X * b) beta len := by
  refine ⟨?_, fun k hk hkn => ?_⟩
  · have hX := Polynomial.natDegree_mul_le (p := (X : Polynomial R)) (q := b)
    have h1 := Polynomial.natDegree_X_le (R := R)
    have hb := h.natDegree_le
    omega
  · obtain ⟨k, rfl⟩ : ∃ j, k = j + 1 := ⟨k - 1, by have := h.natDegree_le; omega⟩
    rw [mul_assoc, Polynomial.coeff_X_mul, h.coeff_eq k (by omega) (by omega)]
    simp

/-- A `c` that fails at term `n` marks it. -/
theorem Generates.marks (hc : Generates s n c len) (hn : len ≤ n) :
    Marks s n c ((c * s).coeff n) (n + 1 - len) := by
  refine ⟨by have := hc.natDegree_le; omega, fun k hk hkn => ?_⟩
  split
  · rw [‹k = n›]
  · exact hc.coeff_eq_zero k (by omega) (by omega)

/-- Subtracting a multiple of `b` clears the discrepancy of `c` at term `n`. -/
theorem Generates.sub_C_mul (hc : Generates s n c len) (hb : Marks s n b beta len)
    (hf : f * beta = (c * s).coeff n) : Generates s (n + 1) (c - C f * b) (max len (n + 1 - len)) := by
  refine ⟨?_, fun k hk hkn => ?_⟩
  · have hcb := Polynomial.natDegree_sub_le c (C f * b)
    have hfb := Polynomial.natDegree_C_mul_le f b
    have hdb := hb.natDegree_le
    have hdc := hc.natDegree_le
    omega
  · rw [sub_mul, Polynomial.coeff_sub, mul_assoc, Polynomial.coeff_C_mul, hb.coeff_eq k (by omega) (by omega)]
    split
    · rw [‹k = n›, hf, sub_self]
    · rw [hc.coeff_eq_zero k (by omega) (by omega), mul_zero, sub_zero]

/-- What the iterations keep, as long as the length does not exceed `t`: the shifted polynomials hold `t + 1`
coefficients, and what is dropped from `b` past them is not used. -/
structure BmInvariant (s : Polynomial R) (t n : Nat) (c b : Polynomial R) (beta : R) (len : Nat) : Prop where
  len_le : len ≤ n
  generates : Generates s n c len
  marks : n < t + len → Marks s n b beta len

namespace BmInvariant

variable {b' : Polynomial R}

theorem init (s : Polynomial R) (t : Nat) : BmInvariant s t 0 1 X 1 0 where
  len_le := le_rfl
  generates := ⟨by simp, fun k _ hk => absurd hk (Nat.not_lt_zero k)⟩
  marks _ := ⟨Polynomial.natDegree_X_le, fun k hk hk' => by omega⟩

/-- `b` shifted, where nothing is dropped. -/
theorem marks_shift (h : BmInvariant s t n c b beta len) (hb : b.natDegree < t → b' = X * b) (hn : n + 1 < t + len) :
    Marks s (n + 1) b' beta len := by
  have hmarks := h.marks (by omega)
  rw [hb (by have := hmarks.natDegree_le; omega)]
  exact hmarks.shift

/-- An iteration without discrepancy. -/
theorem keep (h : BmInvariant s t n c b beta len) (hb : b.natDegree < t → b' = X * b) (hd : (c * s).coeff n = 0) :
    BmInvariant s t (n + 1) c b' beta len where
  len_le := h.len_le.trans n.le_succ
  generates := by
    refine ⟨h.generates.natDegree_le, fun k hk hkn => ?_⟩
    rcases Nat.lt_succ_iff_lt_or_eq.1 hkn with hlt | rfl
    · exact h.generates.coeff_eq_zero k hk hlt
    · exact hd
  marks := h.marks_shift hb

/-- An iteration that clears a discrepancy and keeps the length. -/
theorem correct (h : BmInvariant s t n c b beta len) (hb : b.natDegree < t → b' = X * b)
    (hf : f * beta = (c * s).coeff n) (hn : n < 2 * len) (hlen : len ≤ t) :
    BmInvariant s t (n + 1) (c - C f * b) b' beta len where
  len_le := h.len_le.trans n.le_succ
  generates := by
    have hgen := h.generates.sub_C_mul (h.marks (by omega)) hf
    rwa [max_eq_left (by omega)] at hgen
  marks := h.marks_shift hb

/-- An iteration that clears a discrepancy with a longer `c`. -/
theorem extend (h : BmInvariant s t n c b beta len) (hb : c.natDegree < t → b' = X * c)
    (hf : f * beta = (c * s).coeff n) (hn : 2 * len ≤ n) (hlen : n + 1 - len ≤ t) :
    BmInvariant s t (n + 1) (c - C f * b) b' ((c * s).coeff n) (n + 1 - len) where
  len_le := Nat.sub_le _ _
  generates := by
    have hgen := h.generates.sub_C_mul (h.marks (by omega)) hf
    rwa [max_eq_right (by omega)] at hgen
  marks hlt := by
    have hdeg := h.generates.natDegree_le
    rw [hb (by omega)]
    exact (h.generates.marks h.len_le).shift

end BmInvariant

end Sys2Proof.Machine
end

section
/-! BM_SOLVE runs that recurrence over GF(2^M) (rules R283, R284). -/

namespace Sys2Proof.Machine

open Polynomial (X C)

variable {p : Params} {syn : List Word} {x : Bm} {n : Nat}

/-- The loop's bound min(n, T) leaves out no coefficient of C. -/
theorem discrepancy_eq_prodCoeff {c : List Word} (hc : c.length = p.t + 1) (syn : List Word) (n : Nat) :
    discrepancy p c syn n = prodCoeff p c syn n := by
  rw [prodCoeff, xorSum_eq_of_le (m := min n p.t + 1) (by omega) fun i hi hin => by
    rw [coeff_of_le (c := c) (by omega), gmul_zero_left]]
  rfl

theorem toGF_discrepancy (h : p.legal = true) {c : List Word} (hc : ElementList p (p.t + 1) c)
    (hsyn : ∀ y ∈ syn, Reduced p y) (n : Nat) :
    toGF p (discrepancy p c syn n) = (listPoly p c * listPoly p syn).coeff n := by
  rw [discrepancy_eq_prodCoeff hc.1, coeff_mul_listPoly h hc.2 hsyn]

/-- The shift drops nothing from a polynomial of degree below T. -/
theorem listPoly_shiftUp {c : List Word} (hc : (listPoly p c).natDegree < p.t) :
    listPoly p (shiftUp p c) = X * listPoly p c := by
  have htake : listPoly p (c.take p.t) = listPoly p c := by
    ext i
    rw [coeff_listPoly, coeff_take]
    split
    · rw [coeff_listPoly]
    · rw [toGF_zero, Polynomial.coeff_eq_zero_of_natDegree_lt (by omega)]
  rw [shiftUp, listPoly_cons, htake, toGF_zero, C.map_zero, add_zero, mul_comm]

theorem listPoly_bmInit (h : p.legal = true) : listPoly p (bmInit p).c = 1 ∧ listPoly p (bmInit p).b = X := by
  have hzero (k : Nat) : listPoly p (List.replicate k 0#32) = 0 :=
    (listPoly_eq_zero_iff h (elementList_replicate p k).2).2 fun y hy => List.eq_of_mem_replicate hy
  simp [bmInit, listPoly_cons, hzero]

/-- The factor times `b` is the discrepancy, since `b` is not 0. -/
theorem toGF_bmFactor_mul (h : p.legal = true) (hx : x.Fits p) (syn : List Word) (n : Nat) :
    toGF p (bmFactor p syn x n) * toGF p x.beta = toGF p (discrepancy p x.c syn n) := by
  have hd := reduced_discrepancy p x.c syn n
  have hinv := reduced_ginv h x.beta
  rw [bmFactor, toGF_gmul h hd hinv, mul_assoc, mul_comm (toGF p (ginv p _)), ← toGF_gmul h hx.beta hinv,
    gmul_ginv h hx.beta hx.beta_ne, toGF_one, mul_one]

theorem listPoly_bmCorrect (h : p.legal = true) (hx : x.Fits p) (syn : List Word) (n : Nat) :
    listPoly p (bmCorrect p syn x n) = listPoly p x.c - C (toGF p (bmFactor p syn x n)) * listPoly p x.b := by
  have hlen := (hx.correct syn n).1.1
  have hf : Reduced p (bmFactor p syn x n) := reduced_gmul p _ _
  ext i
  rw [coeff_listPoly, Polynomial.coeff_sub, Polynomial.coeff_C_mul, coeff_listPoly, coeff_listPoly, GF_sub_eq_add]
  rcases Nat.lt_or_ge p.t i with hi | hi
  · rw [coeff_of_le (by omega), coeff_of_le (by rw [hx.c.1]; omega), coeff_of_le (by rw [hx.b.1]; omega), toGF_zero,
      mul_zero, add_zero]
  · rw [bmCorrect, coeff_zipWith (by rw [hx.c.1]; omega) (by rw [hx.b.1]; omega), toGF_gadd,
      toGF_gmul h hf (hx.b.coeff i)]

/-- The invariant of the recurrence, of the model's working storage. -/
def Bm.Inv (p : Params) (syn : List Word) (n : Nat) (x : Bm) : Prop :=
  BmInvariant (listPoly p syn) p.t n (listPoly p x.c) (listPoly p x.b) (toGF p x.beta) x.len

theorem Bm.Inv.step (h : p.legal = true) (hsyn : ∀ y ∈ syn, Reduced p y) (hx : x.Fits p) (hinv : x.Inv p syn n)
    (hlen : (bmStep p syn x n).len ≤ p.t) : (bmStep p syn x n).Inv p syn (n + 1) := by
  have hd := toGF_discrepancy h hx.c hsyn n
  have hf := (toGF_bmFactor_mul h hx syn n).trans hd
  revert hlen
  refine bmStep_cases (motive := fun y => y.len ≤ p.t → y.Inv p syn (n + 1)) (fun hzero _ => ?_)
    (fun hne hn hlen => ?_) fun hne hn hlen => ?_
  · exact hinv.keep listPoly_shiftUp (by rw [← hd, hzero, toGF_zero])
  · rw [Bm.Inv, listPoly_bmCorrect h hx]
    exact hinv.correct listPoly_shiftUp hf hn hlen
  · rw [Bm.Inv, listPoly_bmCorrect h hx, hd]
    exact hinv.extend listPoly_shiftUp hf hn hlen

/-- The invariant holds as long as the length does not exceed T. -/
theorem bmAfter_inv (h : p.legal = true) (hsyn : ∀ y ∈ syn, Reduced p y) (hlen : (bmAfter p syn n).len ≤ p.t) :
    (bmAfter p syn n).Inv p syn n := by
  induction n with
  | zero =>
    obtain ⟨hc, hb⟩ := listPoly_bmInit h
    rw [bmAfter_zero, Bm.Inv, hc, hb, show (bmInit p).beta = 1#32 from rfl, toGF_one]
    exact .init _ _
  | succ n ih =>
    have hprev := ih ((len_bmAfter_mono p syn n.le_succ).trans hlen)
    rw [bmAfter_succ] at hlen ⊢
    exact hprev.step h hsyn (bmAfter_fits h syn n) hlen

/-- Where the length does not exceed T, C generates all 2T syndromes. -/
theorem generates_bmRun (h : p.legal = true) (hsyn : ∀ y ∈ syn, Reduced p y) (hlen : (bmRun p syn).len ≤ p.t) :
    Generates (listPoly p syn) (2 * p.t) (listPoly p (bmRun p syn).c) (bmRun p syn).len :=
  (bmAfter_inv h hsyn hlen).generates

/-- Settles O56: the sum is the discrepancy of C at a term that C generates. -/
theorem bmSolveGeneratesSyndromes : Obligations.BmSolveGeneratesSyndromes := by
  intro s t syn h hs hsyn he hlen n hn hn2
  obtain ⟨hparams, hbm, hsig⟩ := load_sig_of_execBmSolve h hs he
  have hc := (bmAfter_fits h syn (2 * s.params.t)).c
  rw [← bmRun_eq] at hc
  rw [hbm] at hlen
  have hterm : ∀ i, i < s.params.t + 1 → t.wordAt .sig (s.params.t - i) = coeff (bmRun s.params syn).c i := by
    intro i hi
    rw [wordAt_of_load hsig (by simp only [hparams, Region.words]; omega), locator, coeff_reverse hc.1 (by omega)]
    congr 1
    omega
  calc _ = discrepancy s.params (bmRun s.params syn).c syn n := by
        rw [xorSum_congr fun i hi => by rw [hterm i hi], discrepancy, Nat.min_eq_right hn]
        rfl
    _ = 0#32 := by
        refine (toGF_eq_zero_iff h (reduced_discrepancy _ _ _ n)).1 ?_
        rw [toGF_discrepancy h hc hsyn]
        exact (generates_bmRun h hsyn hlen).coeff_eq_zero n (hlen.trans hn) hn2

end Sys2Proof.Machine
end

section
/-! ROOT_FIND (rules R287, R289), and DECODE as the three commands one after another (rule R291). -/

namespace Sys2Proof.Machine

variable {p : Params} {s u : State} {sig l g syn : List Word}

/-! ## ROOT_FIND -/

theorem getD_rootFlags (p : Params) (sig : List Word) {l : List Word} {i : Nat} (hi : i < l.length) :
    (rootFlags p sig l).getD i false = (peval p sig (coeff l i) == 0#32) := by
  simp [rootFlags, coeff, hi]

/-- Lists of one length are equal where their coefficients are. -/
theorem eq_iff_coeff {a b : List Word} {k : Nat} (ha : a.length = k) (hb : b.length = k) :
    a = b ↔ ∀ j, j < k → coeff a j = coeff b j := by
  refine ⟨fun hab j _ => by rw [hab], fun h => List.ext_getElem (ha.trans hb.symm) fun j hja hjb => ?_⟩
  have := h j (ha ▸ hja)
  rwa [coeff, coeff, List.getD_eq_getElem _ _ hja, List.getD_eq_getElem _ _ hjb] at this

/-- The three conditions of ROOT_FIND's OK (rule R289). -/
theorem rootsOk_iff (hsig : sig.length = p.t + 1) (hsyn : syn.length = 2 * p.t) : rootsOk p sig l g syn = true ↔
    (rootFlags p sig l).count true = p.t ∧ coeff sig p.t ≠ 0#32 ∧
      ∀ j, j < 2 * p.t → coeff syn j = coeff (doubledSyndrome p g l (Bits.ofList (rootFlags p sig l))) j := by
  simp only [rootsOk, Bool.and_eq_true, beq_iff_eq, and_assoc]
  refine and_congr_right fun hcount => and_congr ?_ ?_
  · rw [hcount]
    exact degree_eq_some_iff hsig
  · rw [eq_comm]
    exact eq_iff_coeff hsyn (length_doubledSyndrome p g l _)

/-- EVEC and WEIGHT after ROOT_FIND's writes. -/
theorem load_storeRoots (h : u.params.legal = true) (hl : l.length = u.params.n) (ok : Bool) :
    ((u.storeRoots (rootFlags u.params sig l)).complete ok).loadBits .evec =
        some (Bits.ofList (rootFlags u.params sig l)) ∧
      ((u.storeRoots (rootFlags u.params sig l)).complete ok).weight.toNat = (rootFlags u.params sig l).count true := by
  have hn : (rootFlags u.params sig l).length = u.params.n := (List.length_map _).trans hl
  exact ⟨loadBits_storeBits_evec (s := { u with weight := _ }) (hn ▸ Bits.ofList_lt (rootFlags u.params sig l)),
    toNat_ofNat_weight h (hn ▸ List.count_le_length)⟩

theorem execRootFind_eq (hsig : s.load .sig = some sig) (hl : s.load .l = some l) (hg : s.load .g = some g)
    (hs : s.load .s = some syn) :
    execRootFind s = .next ((s.storeRoots (rootFlags s.params sig l)).complete (rootsOk s.params sig l g syn)) := by
  simp [execRootFind, hsig, hl, hg, hs]

/-- Settles O57: EVEC holds the flags of the scan, and the re-check compares the sums term by term. -/
theorem rootFindScansSupport : Obligations.RootFindScansSupport := by
  intro s sig l g syn h hsig hl hg hs
  have hlen : l.length = s.params.n := length_load hl
  have hn := n_le_rowWords s.params
  have hflags : (rootFlags s.params sig l).length = s.params.n := (List.length_map _).trans hlen
  obtain ⟨hevec, hweight⟩ := load_storeRoots (sig := sig) h hlen (rootsOk s.params sig l g syn)
  have hbit : ∀ i, i < 32 * s.params.rowWords →
      ((s.storeRoots (rootFlags s.params sig l)).complete (rootsOk s.params sig l g syn)).bitAt .evec i =
        (rootFlags s.params sig l).getD i false := fun i hi => by
    rw [bitAt_of_loadBits hevec hi, Bits.testBit_ofList]
  refine ⟨_, execRootFind_eq hsig hl hg hs, rfl, written_of_loadBits hevec, fun i hi => ?_, fun j hj hj' => ?_, ?_, ?_⟩
  · rw [hbit i (hi.trans_le hn), getD_rootFlags _ _ (by omega), beq_iff_eq]
  · rw [hbit j hj', List.getD_eq_default _ _ (by omega)]
  · rw [hweight, weightOf_eq_count hflags fun j hj => hbit j (hj.trans_le hn)]
  · rw [hweight, State.complete_status, Status.complete_ok, beq_self_eq_true, Bool.and_true,
      rootsOk_iff (length_load hsig) (length_load hs)]
    refine and_congr_right fun _ => and_congr_right fun _ => forall₂_congr fun j hj => ?_
    rw [coeff_doubledSyndrome h g l _ hj, hlen, xorSum_congr fun i hi => by
      rw [Bits.testBit_ofList, ← hbit i (hi.trans_le hn)]]
    rfl

/-! ## DECODE -/

theorem execDecode_eq {v : Bits} (hv : s.loadBits .syn = some v) (hg : s.load .g = some g) (hl : s.load .l = some l)
    (hs : doubledSyndrome s.params g l v = syn) (hsig : locator (bmRun s.params syn) = sig) :
    execDecode s = .next ((State.storeRoots
      { (s.store .s syn).store .sig sig with bmL := BitVec.ofNat 16 (bmRun s.params syn).len }
      (rootFlags s.params sig l)).complete (noRoots s.params g l && rootsOk s.params sig l g syn)) := by
  subst hs hsig
  simp [execDecode, hv, hg, hl]

/-- The state DEC_SYNDROME and BM_SOLVE leave, and what ROOT_FIND loads from it. -/
theorem load_after_bmSolve (h : s.params.legal = true) (hg : s.load .g = some g) (hl : s.load .l = some l)
    (hs : syn.length = Region.words s.params .s) (hsig : sig.length = Region.words s.params .sig)
    (hmem : u.mem = ((s.store .s syn).store .sig sig).mem) (hp : u.params = s.params) :
    u.load .sig = some sig ∧ u.load .l = some l ∧ u.load .g = some g ∧ u.load .s = some syn := by
  have hload (r : Region) : u.load r = ((s.store .s syn).store .sig sig).load r := by
    rw [State.load, State.load, hmem, hp]
    rfl
  have hother {r : Region} (hr : .sig ≠ r) : u.load r = (s.store .s syn).load r :=
    (hload r).trans (load_store_other h hr hsig.le)
  refine ⟨(hload _).trans (load_store_same hsig), ?_, ?_, (hother (by decide)).trans (load_store_same hs)⟩
  · exact (hother (by decide)).trans ((load_store_other h (by decide) hs.le).trans hl)
  · exact (hother (by decide)).trans ((load_store_other h (by decide) hs.le).trans hg)

/-- Settles O58: each stage loads what the stages before it stored. -/
theorem decodeIsTheThreeStages : Obligations.DecodeIsTheThreeStages := by
  intro s h hsyn hg hl
  obtain ⟨ws, hws⟩ := Option.isSome_iff_exists.1 (load_isSome_iff.2 hsyn)
  obtain ⟨g, hg⟩ := Option.isSome_iff_exists.1 (load_isSome_iff.2 hg)
  obtain ⟨l, hl⟩ := Option.isSome_iff_exists.1 (load_isSome_iff.2 hl)
  have hv : s.loadBits .syn = some (Bits.ofWords ws) := Option.map_eq_some_iff.2 ⟨ws, hws, rfl⟩
  have hs := length_doubledSyndrome s.params g l (Bits.ofWords ws)
  have hsig := (elementList_locator h (doubledSyndrome s.params g l (Bits.ofWords ws))).1
  have hload1 := load_complete_store (s := s) (r := .s) hs (noRoots s.params g l)
  obtain ⟨hsig', hl', hg', hs'⟩ := load_after_bmSolve h hg hl hs hsig rfl rfl
  refine ⟨_, _, _, _, execDecode_eq hv hg hl rfl rfl, execDecSyndrome_eq hv hg hl, execBmSolve_eq hload1,
    execRootFind_eq hsig' hl' hg' hs', ?_⟩
  simp [State.complete, State.storeRoots, Status.complete]

end Sys2Proof.Machine
end

section
/-! Binary Goppa codes (rules R282, R292): a codeword of an irreducible `g` is one of `g^2`. The points of a vector are
the roots of its nodal polynomial, and the parity checks say that `g` divides the derivative of that. -/

namespace Sys2Proof.Machine

open Polynomial (X C)
open Lagrange (nodal)

variable {K : Type*} [Field K] {e : Finset Nat} {a w : Nat → K} {f g : Polynomial K} {n : Nat}

/-! ## Power sums -/

/-- Weights whose power sums are 0 annihilate every polynomial of lower degree. -/
theorem sum_mul_eval_eq_zero (h : ∀ j, j < n → ∑ i ∈ e, w i * a i ^ j = 0) (hf : f.natDegree < n) :
    ∑ i ∈ e, w i * f.eval (a i) = 0 := by
  simp only [Polynomial.eval_eq_sum_range' hf, Finset.mul_sum]
  rw [Finset.sum_comm]
  refine Finset.sum_eq_zero fun j hj => ?_
  simp only [mul_left_comm (w _), ← Finset.mul_sum]
  rw [h j (Finset.mem_range.1 hj), mul_zero]

/-- As many power sums as there are points: the weights are 0. -/
theorem eq_zero_of_powerSums (ha : Set.InjOn a e) (h : ∀ j, j < e.card → ∑ i ∈ e, w i * a i ^ j = 0) {i : Nat}
    (hi : i ∈ e) : w i = 0 := by
  have hcard := Finset.card_pos.2 ⟨i, hi⟩
  have hsum := sum_mul_eval_eq_zero h (f := Lagrange.basis e a i) (by rw [Lagrange.natDegree_basis ha hi]; omega)
  rwa [Finset.sum_eq_single i (fun j hj hji => by rw [Lagrange.eval_basis_of_ne hji.symm hj, mul_zero])
    (fun hmem => absurd hi hmem), Lagrange.eval_basis_self ha hi, mul_one] at hsum

/-! ## The parity checks -/

/-- Division by a linear factor leaves the value at its root. -/
theorem X_sub_C_mul_divByMonic (f : Polynomial K) (x : K) : (X - C x) * (f /ₘ (X - C x)) = f - C (f.eval x) := by
  rw [eq_sub_iff_add_eq', ← Polynomial.modByMonic_X_sub_C_eq_C_eval, Polynomial.modByMonic_add_div]

/-- The parity checks are the coefficients of this sum. -/
theorem sum_divByMonic_eq_zero (h : ∀ j, j < g.natDegree → ∑ i ∈ e, w i * a i ^ j = 0) :
    ∑ i ∈ e, C (w i) * (g /ₘ (X - C (a i))) = 0 := by
  ext k
  simp only [Polynomial.finsetSum_coeff, Polynomial.coeff_C_mul, Polynomial.coeff_divByMonic_X_sub_C, Finset.mul_sum,
    Polynomial.coeff_zero]
  rw [Finset.sum_comm]
  refine Finset.sum_eq_zero fun m hm => ?_
  have hm := Finset.mem_Icc.1 hm
  simp only [← mul_assoc, ← Finset.sum_mul]
  rw [h _ (by omega), zero_mul]

/-- The parity checks make `g` a divisor of the derivative. -/
theorem dvd_derivative_nodal (hg : ∀ i ∈ e, g.eval (a i) ≠ 0)
    (h : ∀ j, j < g.natDegree → ∑ i ∈ e, (g.eval (a i))⁻¹ * a i ^ j = 0) :
    g ∣ Polynomial.derivative (nodal e a) := by
  have hterm : ∀ i ∈ e, nodal (e.erase i) a =
      g * (C (g.eval (a i))⁻¹ * nodal (e.erase i) a) -
        nodal e a * (C (g.eval (a i))⁻¹ * (g /ₘ (X - C (a i)))) := fun i hi => by
    have hinv : C (g.eval (a i))⁻¹ * C (g.eval (a i)) = 1 := by
      rw [← C.map_mul, inv_mul_cancel₀ (hg i hi), C.map_one]
    have hdiv := X_sub_C_mul_divByMonic g (a i)
    rw [Lagrange.nodal_eq_mul_nodal_erase hi]
    linear_combination C (g.eval (a i))⁻¹ * nodal (e.erase i) a * hdiv - nodal (e.erase i) a * hinv
  rw [Lagrange.derivative_nodal, Finset.sum_congr rfl hterm, Finset.sum_sub_distrib, ← Finset.mul_sum,
    ← Finset.mul_sum, sum_divByMonic_eq_zero h, mul_zero, sub_zero]
  exact dvd_mul_right _ _

/-- A divisor of the derivative without a root among the points has these parity checks. -/
theorem sum_eq_zero_of_dvd_derivative_nodal (ha : Set.InjOn a e) (hg : ∀ i ∈ e, g.eval (a i) ≠ 0)
    (hdvd : g ∣ Polynomial.derivative (nodal e a)) {j : Nat} (hj : j < g.natDegree) :
    ∑ i ∈ e, (g.eval (a i))⁻¹ * a i ^ j = 0 := by
  obtain ⟨q, hq⟩ := hdvd
  obtain rfl | ⟨i₀, hi₀⟩ := e.eq_empty_or_nonempty
  · exact Finset.sum_empty
  have hprod : ∀ i ∈ e, ∏ k ∈ e.erase i, (a i - a k) = g.eval (a i) * q.eval (a i) := fun i hi => by
    rw [← Polynomial.eval_mul, ← hq, Lagrange.eval_nodal_derivative_eval_node_eq hi, Lagrange.eval_nodal]
  have hq0 : ∀ i ∈ e, q.eval (a i) ≠ 0 := fun i hi hzero => by
    have hne : ∏ k ∈ e.erase i, (a i - a k) ≠ 0 := Finset.prod_ne_zero_iff.2 fun k hk =>
      sub_ne_zero.2 fun hik => Finset.ne_of_mem_erase hk (ha hi (Finset.mem_of_mem_erase hk) hik).symm
    exact hne (by rw [hprod i hi, hzero, mul_zero])
  have hdeg : g.natDegree + q.natDegree ≤ e.card - 1 := by
    have hgne : g ≠ 0 := fun h0 => hg i₀ hi₀ (by rw [h0, Polynomial.eval_zero])
    have hqne : q ≠ 0 := fun h0 => hq0 i₀ hi₀ (by rw [h0, Polynomial.eval_zero])
    rw [← Polynomial.natDegree_mul hgne hqne, ← hq]
    exact (Polynomial.natDegree_derivative_le _).trans_eq (by rw [Lagrange.natDegree_nodal])
  have hlow : (X ^ j * q).natDegree < e.card - 1 := by
    have hmul := Polynomial.natDegree_mul_le (p := X ^ j) (q := q)
    rw [Polynomial.natDegree_X_pow] at hmul
    omega
  have hlagrange := Lagrange.coeff_eq_sum ha (P := X ^ j * q)
    (Polynomial.degree_le_natDegree.trans_lt (by exact_mod_cast (by omega : (X ^ j * q).natDegree < e.card)))
  rw [Polynomial.coeff_eq_zero_of_natDegree_lt hlow] at hlagrange
  rw [hlagrange]
  refine Finset.sum_congr rfl fun i hi => ?_
  rw [hprod i hi, Polynomial.eval_mul, Polynomial.eval_pow, Polynomial.eval_X, mul_div_mul_right _ _ (hq0 i hi),
    div_eq_inv_mul]

/-! ## Characteristic 2 -/

/-- A derivative has only even powers, and over a perfect field those make a square. -/
theorem exists_derivative_eq_sq [CharP K 2] [PerfectRing K 2] (f : Polynomial K) :
    ∃ q, Polynomial.derivative f = q ^ 2 := by
  have hsecond : Polynomial.derivative (Polynomial.derivative f) = 0 := by
    have hhasse := congrFun (Polynomial.factorial_smul_hasseDeriv (R := K) 2) f
    rw [LinearMap.smul_apply, Nat.factorial_two, two_nsmul, CharTwo.add_self_eq_zero] at hhasse
    exact hhasse.symm
  exact ⟨_, (Polynomial.expand_contract 2 hsecond two_ne_zero).symm.trans (polynomial_expand_eq K 2 _)⟩

/-- The parity checks of an irreducible `g` are those of `g^2`. -/
theorem sum_sq_eq_zero_of_sum_eq_zero [CharP K 2] [PerfectRing K 2] (hirr : Irreducible g) (ha : Set.InjOn a e)
    (hg : ∀ i ∈ e, g.eval (a i) ≠ 0) (h : ∀ j, j < g.natDegree → ∑ i ∈ e, (g.eval (a i))⁻¹ * a i ^ j = 0) {j : Nat}
    (hj : j < 2 * g.natDegree) : ∑ i ∈ e, (g.eval (a i) ^ 2)⁻¹ * a i ^ j = 0 := by
  obtain ⟨q, hq⟩ := exists_derivative_eq_sq (nodal e a)
  have hdvd : g ^ 2 ∣ Polynomial.derivative (nodal e a) :=
    hq ▸ pow_dvd_pow_of_dvd (hirr.prime.dvd_of_dvd_pow (hq ▸ dvd_derivative_nodal hg h)) 2
  have hsq : ∀ i ∈ e, (g ^ 2).eval (a i) ≠ 0 := fun i hi => by
    rw [Polynomial.eval_pow]
    exact pow_ne_zero 2 (hg i hi)
  have hsum := sum_eq_zero_of_dvd_derivative_nodal ha hsq hdvd (j := j) (by rwa [Polynomial.natDegree_pow])
  simpa only [Polynomial.eval_pow] using hsum

end Sys2Proof.Machine
end

section
/-! The key equation (rules R284, R292): a sequence of power sums of `t` distinct points is generated by the reversal of
their nodal polynomial, and what generates it is, reversed, a locator of the points. -/

namespace Sys2Proof.Machine

open Lagrange (nodal)

variable {K : Type*} [Field K] {e : Finset Nat} {a w : Nat → K} {s c : Polynomial K} {t n len : Nat}

/-- The discrepancy of a sequence of power sums is a sum of values of the reversed polynomial. -/
theorem coeff_mul_eq_sum_eval_reflect (hs : ∀ k, k ≤ n → s.coeff k = ∑ i ∈ e, w i * a i ^ k) (hc : c.natDegree ≤ t)
    (hn : t ≤ n) : (c * s).coeff n = ∑ i ∈ e, w i * (c.reflect t).eval (a i) * a i ^ (n - t) := by
  have heval : ∀ x : K, (c.reflect t).eval x = ∑ j ∈ Finset.range (t + 1), c.coeff j * x ^ (t - j) := fun x => by
    have hdeg : (c.reflect t).natDegree < t + 1 :=
      Nat.lt_succ_of_le (Polynomial.natDegree_reflect_le.trans_eq (max_eq_left hc))
    rw [Polynomial.eval_eq_sum_range' hdeg, ← Finset.sum_range_reflect]
    refine Finset.sum_congr rfl fun j hj => ?_
    have hj := Finset.mem_range.1 hj
    rw [Polynomial.coeff_reflect, Polynomial.revAt_le (by omega), show t - (t + 1 - 1 - j) = j by omega,
      show t + 1 - 1 - j = t - j by omega]
  have hcut : (c * s).coeff n = ∑ j ∈ Finset.range (t + 1), c.coeff j * s.coeff (n - j) := by
    rw [Polynomial.coeff_mul, Finset.Nat.sum_antidiagonal_eq_sum_range_succ_mk]
    refine (Finset.sum_subset (Finset.range_mono (by omega)) fun j _ hj => ?_).symm
    rw [Finset.mem_range, not_lt] at hj
    rw [Polynomial.coeff_eq_zero_of_natDegree_lt (by omega), zero_mul]
  simp only [hcut, heval, Finset.mul_sum, Finset.sum_mul]
  rw [Finset.sum_comm]
  refine Finset.sum_congr rfl fun j hj => ?_
  have hj := Finset.mem_range.1 hj
  rw [hs _ (Nat.sub_le n j), Finset.mul_sum]
  refine Finset.sum_congr rfl fun i _ => ?_
  rw [show n - j = t - j + (n - t) by omega, pow_add]
  ring

/-- The reversed nodal polynomial generates the sequence with length `t`. -/
theorem generates_reflect_nodal (hs : ∀ k, k < 2 * t → s.coeff k = ∑ i ∈ e, w i * a i ^ k) (hcard : e.card = t) :
    Generates s (2 * t) ((nodal e a).reflect t) t ∧ ((nodal e a).reflect t).coeff 0 = 1 := by
  have hdeg : (nodal e a).natDegree = t := (Lagrange.natDegree_nodal).trans hcard
  have hdeg' : ((nodal e a).reflect t).natDegree ≤ t :=
    Polynomial.natDegree_reflect_le.trans_eq (by rw [hdeg, max_self])
  refine ⟨⟨hdeg', fun k hk hk2 => ?_⟩, ?_⟩
  · rw [coeff_mul_eq_sum_eval_reflect (fun j hj => hs j (by omega)) hdeg' hk, Polynomial.reflect_reflect]
    exact Finset.sum_eq_zero fun i hi => by rw [Lagrange.eval_nodal_at_node hi, mul_zero, zero_mul]
  · rw [Polynomial.coeff_reflect, Polynomial.revAt_zero, ← hdeg]
    exact Lagrange.nodal_monic.coeff_natDegree

/-- What generates the sequence vanishes, reversed, at each of the points: as many power sums of its values are 0. -/
theorem eval_reflect_eq_zero_of_generates (hs : ∀ k, k < 2 * t → s.coeff k = ∑ i ∈ e, w i * a i ^ k)
    (hcard : e.card = t) (ha : Set.InjOn a e) (hw : ∀ i ∈ e, w i ≠ 0) (hc : Generates s (2 * t) c len) (hlen : len ≤ t)
    {i : Nat} (hi : i ∈ e) : (c.reflect t).eval (a i) = 0 := by
  have hzero : w i * (c.reflect t).eval (a i) = 0 := by
    refine eq_zero_of_powerSums (w := fun i => w i * (c.reflect t).eval (a i)) ha (fun j hj => ?_) hi
    rw [hcard] at hj
    have hgen := hc.coeff_eq_zero (t + j) (by omega) (by omega)
    rwa [coeff_mul_eq_sum_eval_reflect (fun k hk => hs k (by omega)) (hc.natDegree_le.trans hlen) (by omega),
      Nat.add_sub_cancel_left] at hgen
  exact (mul_eq_zero.1 hzero).resolve_left (hw i hi)

/-- A monic polynomial of degree `t` with `t` roots has no other. -/
theorem mem_of_eval_eq_zero {f : Polynomial K} (hf : f.Monic) (hdeg : f.natDegree = e.card)
    (hroots : ∀ i ∈ e, f.eval (a i) = 0) {k : Nat} (ha : Set.InjOn a (insert k e : Finset Nat))
    (hk : f.eval (a k) = 0) : k ∈ e := by
  by_contra hmem
  refine hf.ne_zero (Polynomial.eq_zero_of_degree_lt_of_eval_index_eq_zero _ ha ?_ fun i hi => ?_)
  · rw [Polynomial.degree_eq_natDegree hf.ne_zero, hdeg, Finset.card_insert_of_notMem hmem]
    exact_mod_cast Nat.lt_succ_self _
  · obtain rfl | hi := Finset.mem_insert.1 hi
    · exact hk
    · exact hroots i hi

end Sys2Proof.Machine
end

section
/-! The decoder corrects T errors (rules R282, R284, R292): on the doubled syndrome of a vector of weight T, BM_SOLVE's
locator vanishes exactly at the vector's points. -/

namespace Sys2Proof.Machine

open Polynomial (X C)
open Lagrange (nodal)

variable {p : Params} {g l syn : List Word} {v : Bits}

/-! ## The length of the recurrence -/

/-- Where a polynomial of length T generates the syndromes, the recurrence does not get longer than T. -/
theorem len_bmAfter_le (h : p.legal = true) (hsyn : ∀ y ∈ syn, Reduced p y) {d : Polynomial (GF p)}
    (hd : Generates (listPoly p syn) (2 * p.t) d p.t) (hd0 : d.coeff 0 = 1) {n : Nat} (hn : n ≤ 2 * p.t) :
    (bmAfter p syn n).len ≤ p.t := by
  induction n with
  | zero => exact Nat.zero_le _
  | succ n ih =>
    have hlen := ih (by omega)
    rw [bmAfter_succ]
    refine bmStep_cases (motive := fun y => y.len ≤ p.t) (fun _ => hlen) (fun _ _ => hlen) fun hne _ => ?_
    have hdisc := toGF_discrepancy h (bmAfter_fits h syn n).c hsyn n
    have hbound := (bmAfter_inv h hsyn hlen).generates.lt_add_of_coeff_ne_zero
      (fun h0 => hne ((toGF_eq_zero_iff h (reduced_discrepancy _ _ _ n)).1 (hdisc.trans h0)))
      ⟨hd.natDegree_le, fun k hk hkn => hd.coeff_eq_zero k hk (by omega)⟩ hd0
    dsimp only
    omega

/-- SIG is C reversed (rule R284). -/
theorem listPoly_locator (h : p.legal = true) (syn : List Word) :
    listPoly p (locator (bmRun p syn)) = (listPoly p (bmRun p syn).c).reflect p.t := by
  have hc := (bmAfter_fits h syn (2 * p.t)).c.1
  rw [← bmRun_eq] at hc
  ext i
  rw [coeff_listPoly, Polynomial.coeff_reflect, coeff_listPoly]
  rcases Nat.lt_or_ge p.t i with hi | hi
  · rw [coeff_of_le (by rw [locator, List.length_reverse]; omega), Polynomial.revAt_eq_self_of_lt hi,
      coeff_of_le (by omega)]
  · rw [locator, coeff_reverse hc hi, Polynomial.revAt_le hi]

/-! ## The points of a vector -/

/-- The field element of point `i` of the support. -/
noncomputable def point (p : Params) (l : List Word) (i : Nat) : GF p := toGF p (coeff l i)

/-- The set bits among the first `n`. -/
def ones (n : Nat) (v : Bits) : Finset Nat := (Finset.range n).filter fun i => v.testBit i

theorem mem_ones {n i : Nat} : i ∈ ones n v ↔ i < n ∧ v.testBit i = true := by simp [ones]

theorem card_ones (n : Nat) (v : Bits) : (ones n v).card = weightOf n v.testBit := by
  have hones : ones n v = ((List.range n).filter v.testBit).toFinset := Finset.ext fun i => by simp [mem_ones]
  rw [hones, weightOf, List.toFinset_card_of_nodup (List.nodup_range.filter _)]

/-- N elements of the field (rule R8), pairwise distinct and no roots of `g`: the support of a key (rule R292). -/
structure Support (p : Params) (g l : List Word) : Prop where
  elements_g : ElementList p (p.t + 1) g
  elements_l : ElementList p p.n l
  injOn : Set.InjOn (point p l) (Set.Iio p.n)
  no_root : ∀ i, i < p.n → peval p g (coeff l i) ≠ 0#32

namespace Support

theorem injOn_ones (hk : Support p g l) (v : Bits) : Set.InjOn (point p l) (ones p.n v) :=
  hk.injOn.mono fun _ hi => (mem_ones.1 hi).1

theorem eval_point (h : p.legal = true) (hk : Support p g l) (i : Nat) :
    Reduced p (peval p g (coeff l i)) ∧ toGF p (peval p g (coeff l i)) = (listPoly p g).eval (point p l i) :=
  toGF_peval h hk.elements_g.2 (hk.elements_l.coeff i)

theorem eval_ne_zero (h : p.legal = true) (hk : Support p g l) {i : Nat} (hi : i < p.n) :
    (listPoly p g).eval (point p l i) ≠ 0 := by
  obtain ⟨hr, he⟩ := hk.eval_point h i
  rw [← he, Ne, toGF_eq_zero_iff h hr]
  exact hk.no_root i hi

end Support

/-! ## The doubled syndrome as a sequence of power sums -/

section field

variable [Fact (Irreducible (wordPoly p.fieldPoly))]

/-- `ginv` is the field's inverse, of 0 too (rule R162). -/
theorem toGF_ginv_eq_inv (h : p.legal = true) {a : Word} (ha : Reduced p a) : toGF p (ginv p a) = (toGF p a)⁻¹ := by
  obtain rfl | hne := eq_or_ne a 0#32
  · rw [(ginvIsThePowerAndInverts p 0#32 h (reduced_zero p)).2.2, toGF_zero, inv_zero]
  · refine eq_inv_of_mul_eq_one_right ?_
    rw [← toGF_gmul h ha (reduced_ginv h a), gmul_ginv h ha hne, toGF_one]

theorem toGF_pointTerm (h : p.legal = true) (hk : Support p g l) (i j : Nat) :
    toGF p (pointTerm p g j (coeff l i)) = ((listPoly p g).eval (point p l i) ^ 2)⁻¹ * point p l i ^ j := by
  obtain ⟨hr, he⟩ := hk.eval_point h i
  have ha := hk.elements_l.coeff i
  obtain ⟨hpow, hpow'⟩ := toGF_gpow h ha j
  rw [pointTerm_eq h g j ha, pointWeight, toGF_gmul h hpow (reduced_ginv h _), hpow',
    toGF_ginv_eq_inv h (reduced_gmul p _ _), toGF_gmul h hr hr, he, mul_comm, pow_two]
  rfl

/-- The doubled syndrome of a vector: the power sums of its points, weighted by `1/g^2` (rule R281). -/
theorem toGF_coeff_doubledSyndrome (h : p.legal = true) (hk : Support p g l) (v : Bits) {j : Nat} (hj : j < 2 * p.t) :
    toGF p (coeff (doubledSyndrome p g l v) j) =
      ∑ i ∈ ones p.n v, ((listPoly p g).eval (point p l i) ^ 2)⁻¹ * point p l i ^ j := by
  rw [coeff_doubledSyndrome h g l v hj, toGF_xorSum, hk.elements_l.1, ones, Finset.sum_filter]
  refine Finset.sum_congr rfl fun i _ => ?_
  split
  · exact toGF_pointTerm h hk i j
  · exact toGF_zero p

/-- The locator of the doubled syndrome of a vector of weight T vanishes at the vector's points. -/
theorem eval_locator_eq_zero (h : p.legal = true) (hk : Support p g l) (hv : weightOf p.n v.testBit = p.t) {i : Nat}
    (hi : i ∈ ones p.n v) :
    (listPoly p (locator (bmRun p (doubledSyndrome p g l v)))).eval (point p l i) = 0 := by
  have hsyn := (elementList_doubledSyndrome p g l v).2
  have hs : ∀ k, k < 2 * p.t → (listPoly p (doubledSyndrome p g l v)).coeff k =
      ∑ i ∈ ones p.n v, ((listPoly p g).eval (point p l i) ^ 2)⁻¹ * point p l i ^ k := fun k hk' => by
    rw [coeff_listPoly, toGF_coeff_doubledSyndrome h hk v hk']
  have hcard := (card_ones p.n v).trans hv
  obtain ⟨hgen, hone⟩ := generates_reflect_nodal hs hcard
  have hlen := len_bmAfter_le h hsyn hgen hone le_rfl
  rw [listPoly_locator h]
  exact eval_reflect_eq_zero_of_generates hs hcard (hk.injOn_ones v)
    (fun j hj => inv_ne_zero (pow_ne_zero 2 (hk.eval_ne_zero h (mem_ones.1 hj).1)))
    (generates_bmRun h hsyn hlen) hlen hi

end field

/-! ## The roots -/

/-- The scan of the support finds the vector (rule R287). -/
theorem rootFlags_locator (h : p.legal = true) (hk : Support p g l) (hv : weightOf p.n v.testBit = p.t) :
    rootFlags p (locator (bmRun p (doubledSyndrome p g l v))) l = (List.range p.n).map v.testBit := by
  have : Fact (Irreducible (wordPoly p.fieldPoly)) := ⟨fieldPoly_irreducible h⟩
  obtain ⟨hlen, hred⟩ := elementList_locator h (doubledSyndrome p g l v)
  obtain ⟨hmonic, hdeg⟩ := listPoly_monic h hlen (coeff_locator_self h _)
  have hroot : ∀ i, i < p.n → (peval p (locator (bmRun p (doubledSyndrome p g l v))) (coeff l i) = 0#32 ↔
      v.testBit i = true) := fun i hi => by
    obtain ⟨hr, he⟩ := toGF_peval h hred (hk.elements_l.coeff i)
    rw [← toGF_eq_zero_iff h hr, he]
    refine ⟨fun hzero => ?_, fun hset => eval_locator_eq_zero h hk hv (mem_ones.2 ⟨hi, hset⟩)⟩
    refine (mem_ones.1 (mem_of_eval_eq_zero hmonic (hdeg.trans (hv.symm.trans (card_ones p.n v).symm))
      (fun j hj => eval_locator_eq_zero h hk hv hj) (hk.injOn.mono fun j hj => ?_) hzero)).2
    obtain rfl | hj := Finset.mem_insert.1 hj
    · exact hi
    · exact (mem_ones.1 hj).1
  refine List.ext_getElem (by simp [rootFlags, hk.elements_l.1]) fun i hi hi' => ?_
  have hi : i < p.n := by simpa using hi'
  rw [← List.getD_eq_getElem _ false, getD_rootFlags _ _ (hk.elements_l.1.symm ▸ hi), List.getElem_map,
    List.getElem_range, Bool.eq_iff_iff, beq_iff_eq, hroot i hi]

end Sys2Proof.Machine
end

section
/-! A generated key (rules R220-R230): BUILD_H and SYSTEMATIZE keep the kernel, so the kernel of a key's MAT are the
vectors that meet the parity checks of its G and L. -/

namespace Sys2Proof.Machine

variable {p : Params} {s t u : State} {g l : List Word} {i : Instr}

/-! ## Loads -/

/-- A memory outside the written ones loads as before. -/
theorem sameOutside.load {rs : List Region} (h : sameOutside s t rs) (hp : s.params.legal = true)
    (hparams : t.params = s.params) {r : Region} (hr : r ∉ rs) : t.load r = s.load r := by
  rw [State.load, State.load, hparams]
  refine Memory.readWords_congr fun b h1 h2 => h b fun r' hr' => ?_
  have hout := regions_disjoint hp (r := r) (r' := r') (fun heq => hr (heq ▸ hr')) ⟨h1, h2⟩
  simpa [Region.has] using hout

/-- A command leaves the memories it does not write (rules R114, R150). -/
theorem load_of_exec (hp : s.params.legal = true) (he : exec i s = .next t) {r : Region}
    (hr : r ∉ writeSet s.params i) : t.params = s.params ∧ t.load r = s.load r := by
  obtain ⟨hparams, -, -, -, -, -, -, -, -, -, -, -, -, -, -, -, -, hmem⟩ := commandWritesOnlyItsWriteSet i s t he
  exact ⟨hparams, hmem.load hp hparams hr⟩

/-- MAT's bits are those of the memory. -/
theorem matAt_congr (hparams : t.params = s.params) (h : t.load .mat = s.load .mat) (hw : s.written .mat) {r c : Nat}
    (hr : r < s.params.r) (hc : c < s.params.n) : t.matAt r c = s.matAt r c := by
  obtain ⟨ws, hws⟩ := Option.isSome_iff_exists.1 (load_isSome_iff.2 hw)
  have hrow := Nat.mul_le_mul_right s.params.rowWords (Nat.succ_le_of_lt hr)
  have hn := n_le_rowWords s.params
  rw [Nat.succ_mul] at hrow
  have hj : r * s.params.rowWords + c / 32 < Region.words s.params .mat := by simp only [Region.words]; omega
  rw [State.matAt, State.matAt, hparams, wordAt_of_load hws hj, wordAt_of_load (h.trans hws) (by rwa [hparams])]

theorem inKernel_congr (hparams : t.params = s.params)
    (h : ∀ r c, r < s.params.r → c < s.params.n → t.matAt r c = s.matAt r c) (f : Nat → Bool) :
    t.inKernel f ↔ s.inKernel f := by
  rw [State.inKernel, State.inKernel, hparams]
  exact forall₂_congr fun r hr => by rw [dot, dot, parity_congr fun c hc => by rw [h r c hr hc]]

/-! ## SYSTEMATIZE -/

/-- What a successful SYSTEMATIZE of `s` leaves in `t`, plain or not: `σ` says where the columns went (rule R230). -/
structure Systematizes (s t : State) (l l' : List Word) (σ : Equiv.Perm Nat) : Prop where
  load_l : t.load .l = some l'
  coeff_l : ∀ c, c < s.params.n → coeff l' c = coeff l (σ c)
  fixed : ∀ c, s.params.n ≤ c → σ c = c
  written : t.written .mat
  identity : ∀ r c, r < s.params.r → c < s.params.r → t.matAt r c = decide (r = c)
  kernel : ∀ f, t.inKernel f ↔ s.inKernel fun c => f (σ.symm c)

/-- With the f variant L is stored again, so it is written. -/
theorem load_l_of_execSystematize (hf : s.params.variantF = true)
    (he : execSystematize s = .next t) (hok : t.status.ok = true) : ∃ l', t.load .l = some l' := by
  obtain ⟨rows, -, rfl | ⟨hf', -⟩ | ⟨-, l₁, out, hl₁, hout, rfl⟩⟩ := execSystematize_next he
  · exact absurd hok Bool.false_ne_true
  · exact absurd (hf.symm.trans hf') Bool.noConfusion
  · exact ⟨_, load_systematized_l ((length_semiSystematic hout).2.trans (length_load hl₁))⟩

theorem exists_systematizes (hp : s.params.legal = true) (hr : s.ElementsReduced) (hw : s.written .mat)
    (hl : s.load .l = some l) (he : exec .systematize s = .next t) (hok : t.status.ok = true) :
    ∃ l' σ, Systematizes s t l l' σ := by
  cases hf : s.params.variantF with
  | false =>
    obtain ⟨t', he', -, -, hl', hiff, -, hmat⟩ := systematizePlain s hp hf hr hw
    cases he'.symm.trans he
    obtain ⟨hwritten, hid, hker⟩ := hmat (hiff.1 hok)
    exact ⟨l, 1, hl'.trans hl, fun _ _ => rfl, fun _ _ => rfl, hwritten, hid, hker⟩
  | true =>
    obtain ⟨t', σ, he', -, -, -, -, hmat⟩ := systematizeSemi s l hp hf hr hw hl
    cases he'.symm.trans he
    obtain ⟨hwritten, -, -, -, hid, hfix, hperm, hker⟩ := hmat hok
    obtain ⟨hparams, -⟩ := commandWritesOnlyItsWriteSet _ s t he
    obtain ⟨l', hl'⟩ := load_l_of_execSystematize hf he hok
    exact ⟨l', σ, hl', fun c hc => (wordAt_of_load hl' (by rwa [hparams])).symm.trans (hperm c hc), hfix, hwritten, hid,
      hker⟩

/-- A permutation that moves nothing from `n` on keeps what lies below. -/
theorem lt_of_fixed {σ : Equiv.Perm Nat} {n : Nat} (hσ : ∀ c, n ≤ c → σ c = c) {c : Nat} (hc : c < n) : σ c < n := by
  by_contra! hle
  exact absurd (σ.injective (hσ _ hle)) (by omega)

/-! ## The parity checks -/

theorem getLsbD_xorSum (n : Nat) (f : Nat → Word) (b : Nat) :
    (xorSum n f).getLsbD b = parity n fun i => (f i).getLsbD b := by
  induction n with
  | zero => simp [xorSum, parity]
  | succ n ih =>
    rw [xorSum_succ, BitVec.getLsbD_xor, ih, parity, parity, List.range_succ, List.foldl_append]
    rfl

theorem reduced_xorSum {n : Nat} {f : Nat → Word} (h : ∀ i, Reduced p (f i)) : Reduced p (xorSum n f) :=
  List.foldlRecOn (motive := Reduced p) _ _ (reduced_zero p) fun _ hacc i _ => reduced_gadd hacc (h i)

/-- An element is 0 where its M bits are. -/
theorem eq_zero_of_bits {w : Word} (hw : Reduced p w) (h : ∀ b, b < p.m → w.getLsbD b = false) : w = 0#32 := by
  refine BitVec.eq_of_getLsbD_eq fun b _ => ?_
  rw [BitVec.getLsbD_zero]
  rcases Nat.lt_or_ge b p.m with hb | hb
  · exact h b hb
  · rw [BitVec.getLsbD]
    exact Nat.testBit_lt_two_pow (hw.trans_le (Nat.pow_le_pow_right (by omega) hb))

/-- Entry (j, i) of the parity-check matrix: `L[i]^j / g(L[i])` (rule R221). -/
def checkTerm (p : Params) (g : List Word) (j : Nat) (a : Word) : Word := gmul p (gpow p a j) (ginv p (peval p g a))

/-- A vector in the kernel of BUILD_H's MAT meets the parity checks, each of which is M rows. -/
theorem xorSum_checkTerm_eq_zero {f : Nat → Bool}
    (hmat : ∀ i j b, i < s.params.n → j < s.params.t → b < s.params.m →
      s.matAt (j * s.params.m + b) i = (checkTerm s.params g j (coeff l i)).getLsbD b)
    (hf : s.inKernel f) {j : Nat} (hj : j < s.params.t) :
    (xorSum s.params.n fun i => if f i then checkTerm s.params g j (coeff l i) else 0#32) = 0#32 := by
  refine eq_zero_of_bits (p := s.params) (reduced_xorSum fun i => ?_) fun b hb => ?_
  · split
    · exact reduced_gmul s.params _ _
    · exact reduced_zero s.params
  · have hrow : j * s.params.m + b < s.params.m * s.params.t := by
      have := Nat.mul_le_mul_right s.params.m (Nat.succ_le_of_lt hj)
      rw [Nat.succ_mul, Nat.mul_comm s.params.t] at this
      omega
    rw [getLsbD_xorSum, ← hf _ hrow, dot]
    refine parity_congr fun i hi => ?_
    rw [hmat i j b hi hj hb]
    cases f i <;> simp

/-! ## The key -/

/-- The vectors that meet the parity checks of (G, L): the code of the key. -/
def InCode (p : Params) (g l : List Word) (v : Bits) : Prop :=
  ∀ j, j < p.t → ∑ i ∈ ones p.n v, toGF p (checkTerm p g j (coeff l i)) = 0

/-- A state whose MAT is the SYSTEMATIZE output for (G, L), L as SYSTEMATIZE left it (rule R292). -/
structure IsKey (s : State) (g l : List Word) : Prop where
  support : Support s.params g l
  load_g : s.load .g = some g
  load_l : s.load .l = some l
  written : s.written .mat
  identity : ∀ r c, r < s.params.r → c < s.params.r → s.matAt r c = decide (r = c)
  inCode : ∀ v : Bits, s.inKernel v.testBit → InCode s.params g l v

/-- Every state that holds the key is one. -/
theorem IsKey.congr (h : s.params.legal = true) (hk : IsKey s g l) (hparams : t.params = s.params)
    (hg : t.load .g = s.load .g) (hl : t.load .l = s.load .l) (hm : t.load .mat = s.load .mat) : IsKey t g l := by
  have hmat {r c : Nat} (hr : r < s.params.r) (hc : c < s.params.n) : t.matAt r c = s.matAt r c :=
    matAt_congr hparams hm hk.written hr hc
  refine ⟨hparams ▸ hk.support, hg.trans hk.load_g, hl.trans hk.load_l, ?_, fun r c hr hc => ?_, fun v hv => ?_⟩
  · exact load_isSome_iff.1 (hm ▸ load_isSome_iff.2 hk.written)
  · rw [hparams] at hr hc
    rw [hmat hr (hc.trans (r_lt_n h)), hk.identity r c hr hc]
  · rw [hparams]
    exact hk.inCode v ((inKernel_congr hparams (fun r c => hmat) _).1 hv)

/-- The points of a key: distinct elements, none of them a root of the irreducible G (rule R194). -/
theorem support_of_irreducible (h : p.legal = true) (hg : MonicT p g) (hirr : irreducible p g = true)
    (hl : ElementList p p.n l) (hnodup : l.Nodup) : Support p g l where
  elements_g := ⟨hg.1, hg.2.1⟩
  elements_l := hl
  injOn i hi j hj hij := by
    rw [Set.mem_Iio, ← hl.1] at hi hj
    have heq := toGF_injective h (hl.coeff i) (hl.coeff j) hij
    rw [coeff, coeff, List.getD_eq_getElem _ _ hi, List.getD_eq_getElem _ _ hj] at heq
    exact (hnodup.getElem_inj_iff).1 heq
  no_root i _ := irreducibleHasNoRoot p g _ h hg hirr (hl.coeff i)

/-- The support with its points permuted. -/
theorem Support.perm {l' : List Word} {σ : Equiv.Perm Nat} (hk : Support p g l) (hl' : ElementList p p.n l')
    (hcoeff : ∀ c, c < p.n → coeff l' c = coeff l (σ c)) (hσ : ∀ c, p.n ≤ c → σ c = c) : Support p g l' where
  elements_g := hk.elements_g
  elements_l := hl'
  injOn i hi j hj hij := by
    rw [point, point, hcoeff i hi, hcoeff j hj] at hij
    exact σ.injective (hk.injOn (lt_of_fixed hσ hi) (lt_of_fixed hσ hj) hij)
  no_root i hi := hcoeff i hi ▸ hk.no_root _ (lt_of_fixed hσ hi)

/-- The parity checks of the permuted vector, summed in the order of the permuted points. -/
theorem sum_ones_perm {R : Type*} [AddCommMonoid R] {n : Nat} {σ : Equiv.Perm Nat} (hσ : ∀ c, n ≤ c → σ c = c)
    (v : Bits) (w : Nat → R) :
    (∑ i ∈ Finset.range n, if v.testBit (σ.symm i) then w i else 0) = ∑ i ∈ ones n v, w (σ i) := by
  rw [ones, Finset.sum_filter, ← Equiv.Perm.sum_comp σ (Finset.range n)]
  · simp only [Equiv.symm_apply_apply]
  · intro c hc
    exact Finset.mem_coe.2 (Finset.mem_range.2 (Nat.lt_of_not_le fun hle => hc (hσ c hle)))

/-- The kernel SYSTEMATIZE leaves is in the code of the permuted points, where MAT was BUILD_H's. -/
theorem Systematizes.inCode {l' : List Word} {σ : Equiv.Perm Nat} {v : Bits} (hs : Systematizes s t l l' σ)
    (hmat : ∀ i j b, i < s.params.n → j < s.params.t → b < s.params.m →
      s.matAt (j * s.params.m + b) i = (checkTerm s.params g j (coeff l i)).getLsbD b)
    (hv : t.inKernel v.testBit) : InCode s.params g l' v := by
  intro j hj
  have hcheck := congrArg (toGF s.params) (xorSum_checkTerm_eq_zero hmat ((hs.kernel _).1 hv) hj)
  simp only [toGF_xorSum, apply_ite (toGF s.params), toGF_zero, sum_ones_perm hs.fixed] at hcheck
  rw [← hcheck]
  exact Finset.sum_congr rfl fun i hi => by rw [hs.coeff_l i (mem_ones.1 hi).1]

/-- BUILD_H and SYSTEMATIZE make a key of an irreducible G and distinct points. -/
theorem exists_isKey {s0 s1 s2 : State} (h : s0.params.legal = true) (hr : s0.ElementsReduced)
    (hg : s0.load .g = some g) (hl : s0.load .l = some l) (hmonic : MonicT s0.params g)
    (hirr : irreducible s0.params g = true) (hnodup : l.Nodup) (hbuild : exec .buildH s0 = .next s1)
    (hsys : exec .systematize s1 = .next s2) (hok : s2.status.ok = true) :
    s2.params = s0.params ∧ ∃ l', IsKey s2 g l' := by
  have hsupport := support_of_irreducible h hmonic hirr (hr.load rfl hl) hnodup
  have hr1 := hr.of_exec h hbuild
  obtain ⟨hp1, hl1⟩ := load_of_exec h hbuild (r := .l) (by simp [writeSet])
  obtain ⟨-, hg1⟩ := load_of_exec h hbuild (r := .g) (by simp [writeSet])
  have h1 : s1.params.legal = true := hp1 ▸ h
  obtain ⟨t, ht, hw, -, -, hmat, -⟩ := buildHEntries s0 g l h hg hl hmonic.2.1 (hr.load rfl hl).2
  cases ht.symm.trans hbuild
  obtain ⟨hp2, hg2⟩ := load_of_exec h1 hsys (r := .g) (by simp only [writeSet]; split <;> decide)
  obtain ⟨l', σ, hsysd⟩ := exists_systematizes h1 hr1 hw (hl1.trans hl) hsys hok
  have hr2 := hr1.of_exec h1 hsys
  have hl' := hr2.load rfl hsysd.load_l
  rw [← hp1] at hsupport hmat
  have hsupport' := hsupport.perm (hp2 ▸ hl') hsysd.coeff_l hsysd.fixed
  exact ⟨hp2.trans hp1, l', hp2 ▸ hsupport', hg2.trans (hg1.trans hg), hsysd.load_l, hsysd.written,
    hp2.symm ▸ hsysd.identity, fun v hv => hp2.symm ▸ hsysd.inCode hmat hv⟩

end Sys2Proof.Machine
end

section
/-! The round trip of a key (rule R292): ENCODE's SYN, padded with zeros, differs from EVEC by a codeword, so it has
EVEC's doubled syndrome, and DECODE finds EVEC. -/

namespace Sys2Proof.Machine

variable {p : Params} {s : State} {g l : List Word} {v v' e : Bits}

/-! ## GF(2^M) -/

theorem GF_charP (h : p.legal = true) : CharP (GF p) 2 := by
  have := GF_isDomain h
  exact CharTwo.of_one_ne_zero_of_two_eq_zero one_ne_zero (one_add_one_eq_two (R := GF p) ▸ GF_add_self 1)

theorem GF_finite (h : p.legal = true) : Finite (GF p) := Nat.finite_of_card_ne_zero (by rw [card_GF h]; positivity)

/-- A vector and another are summed over the points of their XOR: what they share cancels. -/
theorem sum_ones_xor (n : Nat) (v v' : Bits) (w : Nat → GF p) :
    ∑ i ∈ ones n (v ^^^ v'), w i = ∑ i ∈ ones n v, w i + ∑ i ∈ ones n v', w i := by
  simp only [ones, Finset.sum_filter, ← Finset.sum_add_distrib, Nat.testBit_xor]
  refine Finset.sum_congr rfl fun i _ => ?_
  cases v.testBit i <;> cases v'.testBit i <;> simp [GF_add_self]

/-! ## Codewords -/

/-- A codeword of an irreducible G has doubled syndrome 0 (rule R282). -/
theorem InCode.sum_pointTerm_eq_zero (h : p.legal = true) (hk : Support p g l) (hmonic : MonicT p g)
    (hirr : irreducible p g = true) (hv : InCode p g l v) {j : Nat} (hj : j < 2 * p.t) :
    ∑ i ∈ ones p.n v, toGF p (pointTerm p g j (coeff l i)) = 0 := by
  have : Fact (Irreducible (wordPoly p.fieldPoly)) := ⟨fieldPoly_irreducible h⟩
  have := GF_charP h
  have := GF_finite h
  have hdeg := (listPoly_monic h hmonic.1 hmonic.2.2).2
  have hcheck : ∀ j, j < (listPoly p g).natDegree →
      ∑ i ∈ ones p.n v, ((listPoly p g).eval (point p l i))⁻¹ * point p l i ^ j = 0 := fun j hj => by
    rw [← hv j (hdeg ▸ hj)]
    refine Finset.sum_congr rfl fun i _ => ?_
    obtain ⟨hr, he⟩ := hk.eval_point h i
    obtain ⟨hpow, hpow'⟩ := toGF_gpow h (hk.elements_l.coeff i) j
    rw [checkTerm, toGF_gmul h hpow (reduced_ginv h _), hpow', toGF_ginv_eq_inv h hr, he, mul_comm]
    rfl
  rw [Finset.sum_congr rfl fun i _ => toGF_pointTerm h hk i j]
  exact sum_sq_eq_zero_of_sum_eq_zero ((irreducible_iff h hmonic).1 hirr) (hk.injOn_ones v)
    (fun i hi => hk.eval_ne_zero h (mem_ones.1 hi).1) hcheck (by rwa [hdeg])

/-- Vectors that differ by a codeword have one doubled syndrome. -/
theorem doubledSyndrome_eq_of_inCode (h : p.legal = true) (hk : Support p g l) (hmonic : MonicT p g)
    (hirr : irreducible p g = true) (hv : InCode p g l (v ^^^ v')) :
    doubledSyndrome p g l v = doubledSyndrome p g l v' := by
  have : Fact (Irreducible (wordPoly p.fieldPoly)) := ⟨fieldPoly_irreducible h⟩
  refine (eq_iff_coeff (length_doubledSyndrome p g l v) (length_doubledSyndrome p g l v')).2 fun j hj => ?_
  refine toGF_injective h ((elementList_doubledSyndrome p g l v).coeff j)
    ((elementList_doubledSyndrome p g l v').coeff j) (sub_eq_zero.1 ?_)
  rw [GF_sub_eq_add, toGF_coeff_doubledSyndrome h hk v hj, toGF_coeff_doubledSyndrome h hk v' hj, ← sum_ones_xor,
    ← hv.sum_pointTerm_eq_zero h hk hmonic hirr hj]
  exact Finset.sum_congr rfl fun i _ => (toGF_pointTerm h hk i j).symm

/-! ## ENCODE -/

/-- The vector ENCODE writes to SYN. -/
def State.syndrome (s : State) : Bits := Bits.ofList ((List.range s.params.r).map s.syndromeAt)

theorem testBit_syndrome (s : State) (i : Nat) :
    s.syndrome.testBit i = (decide (i < s.params.r) && s.syndromeAt i) := by
  rw [State.syndrome, Bits.testBit_ofList]
  by_cases hi : i < s.params.r <;> simp [hi]

theorem parity_add (m k : Nat) (f : Nat → Bool) : parity (m + k) f = (parity m f ^^ parity k fun c => f (m + c)) :=
  toBit_inj.1 (by simp only [toBit_xor, toBit_parity, Finset.sum_range_add])

/-- A sum with one term. -/
theorem parity_decide_and {n r : Nat} (hr : r < n) (f : Nat → Bool) : (parity n fun c => decide (r = c) && f c) = f r :=
  toBit_inj.1 (by
    rw [toBit_parity, Finset.sum_eq_single r (fun c _ hc => by simp [hc.symm])
      fun hmem => absurd (Finset.mem_range.2 hr) hmem]
    simp)

/-- EVEC and SYN, padded with zeros, differ by a vector of the kernel: MAT's left block is the identity (rule R255). -/
theorem inKernel_xor_syndrome (hp : s.params.legal = true) (he : s.loadBits .evec = some e)
    (hid : ∀ r c, r < s.params.r → c < s.params.r → s.matAt r c = decide (r = c)) :
    s.inKernel (e ^^^ s.syndrome).testBit := by
  have hn := r_lt_n hp
  have hwords := n_le_rowWords s.params
  have hevec : ∀ c, c < s.params.n → e.testBit c = s.bitAt .evec c := fun c hc =>
    (bitAt_of_loadBits he (hc.trans_le hwords)).symm
  intro r hr
  have hleft : (parity s.params.r fun c => s.matAt r c && (e ^^^ s.syndrome).testBit c) = s.rightSum r := by
    rw [parity_congr fun c hc => by rw [hid r c hr hc], parity_decide_and hr, Nat.testBit_xor, testBit_syndrome,
      decide_eq_true hr, Bool.true_and, State.syndromeAt, hevec r (hr.trans hn)]
    rw [← Bool.xor_assoc, Bool.xor_self, Bool.false_xor]
  have hright : (parity s.params.k fun c => s.matAt r (s.params.r + c) &&
      (e ^^^ s.syndrome).testBit (s.params.r + c)) = s.rightSum r := by
    refine parity_congr fun c hc => ?_
    rw [Nat.testBit_xor, testBit_syndrome, decide_eq_false (by omega), Bool.false_and, Bool.xor_false,
      hevec _ (by simp only [Params.k] at hc; omega)]
  rw [dot, show s.params.n = s.params.r + s.params.k by simp only [Params.k]; omega, parity_add, hleft, hright,
    Bool.xor_self]

/-! ## DECODE -/

/-- DECODE writes what the scan of its own locator finds. -/
theorem exec_decode (h : s.params.legal = true) (hv : s.loadBits .syn = some v) (hg : s.load .g = some g)
    (hl : s.load .l = some l) {syn sig : List Word} (hsyn : doubledSyndrome s.params g l v = syn)
    (hsig : locator (bmRun s.params syn) = sig) :
    ∃ t, exec .decode s = .next t ∧ t.params = s.params ∧
      t.status.ok = (noRoots s.params g l && rootsOk s.params sig l g syn) ∧
      t.loadBits .evec = some (Bits.ofList (rootFlags s.params sig l)) := by
  obtain ⟨hevec, -⟩ := load_storeRoots (sig := sig)
    (u := { (s.store .s syn).store .sig sig with bmL := BitVec.ofNat 16 (bmRun s.params syn).len }) h (length_load hl)
    (noRoots s.params g l && rootsOk s.params sig l g syn)
  exact ⟨_, execDecode_eq hv hg hl hsyn hsig, rfl, Bool.and_true _, hevec⟩

/-- A vector's first N bits are all that its doubled syndrome depends on. -/
theorem doubledSyndrome_ofList (h : p.legal = true) (hl : l.length = p.n) (g : List Word) (e : Bits) :
    doubledSyndrome p g l (Bits.ofList ((List.range p.n).map e.testBit)) = doubledSyndrome p g l e := by
  refine (eq_iff_coeff (length_doubledSyndrome ..) (length_doubledSyndrome ..)).2 fun j hj => ?_
  rw [coeff_doubledSyndrome h g l _ hj, coeff_doubledSyndrome h g l _ hj, hl]
  exact xorSum_congr fun i hi => by rw [Bits.testBit_ofList]; simp [hi]

/-- ROOT_FIND's three conditions hold where it finds a vector of weight T with the syndrome it was given. -/
theorem rootsOk_of_weight (h : p.legal = true) (hk : Support p g l) (hweight : weightOf p.n e.testBit = p.t) :
    rootsOk p (locator (bmRun p (doubledSyndrome p g l e))) l g (doubledSyndrome p g l e) = true := by
  refine (rootsOk_iff (elementList_locator h _).1 (length_doubledSyndrome ..)).2 ⟨?_, ?_, fun j _ => ?_⟩
  · rw [rootFlags_locator h hk hweight, ← hweight]
    exact (weightOf_eq_count (by simp) fun j hj => by simp [hj]).symm
  · rw [coeff_locator_self h]
    decide
  · rw [rootFlags_locator h hk hweight, doubledSyndrome_ofList h hk.elements_l.1]

/-- DECODE with a key restores a vector of weight T from what has its doubled syndrome. -/
theorem exec_decode_of_weight (h : s.params.legal = true) (hk : Support s.params g l) (hv : s.loadBits .syn = some v)
    (hg : s.load .g = some g) (hl : s.load .l = some l) (hweight : weightOf s.params.n e.testBit = s.params.t)
    (hsyn : doubledSyndrome s.params g l v = doubledSyndrome s.params g l e) :
    ∃ t, exec .decode s = .next t ∧ t.status.ok = true ∧
      ∀ i, i < s.params.n → t.bitAt .evec i = e.testBit i := by
  obtain ⟨t, ht, hparams, hok, hevec⟩ := exec_decode h hv hg hl hsyn rfl
  have hnoroots : noRoots s.params g l = true := noRoots_iff.2 fun i hi => hk.no_root i (hk.elements_l.1 ▸ hi)
  refine ⟨t, ht, by rw [hok, hnoroots, rootsOk_of_weight h hk hweight, Bool.and_true], fun i hi => ?_⟩
  rw [bitAt_of_loadBits hevec (hparams.symm ▸ hi.trans_le (n_le_rowWords s.params)), Bits.testBit_ofList,
    rootFlags_locator h hk hweight]
  simp [hi]

/-- A key has the inputs of ENCODE written, once EVEC is. -/
theorem IsKey.inputsWritten_encode (hk : IsKey s g l) (hevec : s.written .evec) : s.inputsWritten .encode = true := by
  refine inputsWritten_iff.2 fun x hx j hj => ?_
  obtain rfl | ⟨r, hr, rfl⟩ := by simpa [inputSpans] using hx
  · simpa only [Region.span, Region.addr, Nat.zero_add] using hevec j hj
  · have hrow := Nat.mul_le_mul_right s.params.rowWords (Nat.succ_le_of_lt hr)
    rw [Nat.succ_mul] at hrow
    exact hk.written _ (by dsimp only [Region.words] at hj ⊢; omega)

/-- Settles O60: ENCODE's SYN and EVEC differ by a codeword, so DECODE works on EVEC's own doubled syndrome. -/
theorem encodeThenDecodeRestores : Obligations.EncodeThenDecodeRestores := by
  intro s0 s1 s2 s3 g l h hr hg hl hmonic hirr hnodup hbuild hsys hok hp3 hg3 hl3 hmat3 hevec hweight
  obtain ⟨hp2, l', hkey⟩ := exists_isKey h hr hg hl hmonic hirr hnodup hbuild hsys hok
  replace hkey := IsKey.congr (hp2 ▸ h) hkey hp3 hg3 hl3 hmat3
  rw [← hp2, ← hp3] at h hmonic hirr
  obtain ⟨ws, hws⟩ := Option.isSome_iff_exists.1 (load_isSome_iff.2 hevec)
  have he : s3.loadBits .evec = some (Bits.ofWords ws) := Option.map_eq_some_iff.2 ⟨ws, hws, rfl⟩
  have hbit : ∀ i, i < s3.params.n → s3.bitAt .evec i = (Bits.ofWords ws).testBit i := fun i hi =>
    bitAt_of_loadBits he (hi.trans_le (n_le_rowWords s3.params))
  obtain ⟨s4, hencode, hp4, -, -, hsyn⟩ := exec_encode h (hkey.inputsWritten_encode hevec)
  obtain ⟨-, hg4⟩ := load_of_exec h hencode (r := .g) (by simp [writeSet])
  obtain ⟨-, hl4⟩ := load_of_exec h hencode (r := .l) (by simp [writeSet])
  have hcode := hkey.inCode _ (inKernel_xor_syndrome h he hkey.identity)
  have hsame := doubledSyndrome_eq_of_inCode h hkey.support hmonic hirr hcode
  have hweight' : weightOf s3.params.n (Bits.ofWords ws).testBit = s3.params.t := by
    rw [← hweight, weightOf, weightOf, List.filter_congr fun i hi => (hbit i (List.mem_range.1 hi)).symm]
  rw [← hp4] at h hsame hweight' hbit
  obtain ⟨s5, hdecode, hok5, hbit5⟩ := exec_decode_of_weight h (hp4 ▸ hkey.support) hsyn (hg4.trans hkey.load_g)
    (hl4.trans hkey.load_l) hweight' hsame.symm
  refine ⟨s4, s5, hencode, hdecode, hok5, fun i hi => ?_⟩
  rw [hbit5 i (hp4 ▸ hi), hbit i (hp4 ▸ hi)]

end Sys2Proof.Machine
end

section
/-! The interrupt output (rule R330): it follows DONE, which a completion sets and an issue and both resets clear. -/

namespace Sys2Proof.Machine

variable {s t : State} {i : Instr}

theorem State.irq_of_done (h : s.status.done = true) : s.irq = s.irqEn := by
  rw [State.irq, h, Bool.and_true]

theorem State.irq_of_not_done (h : s.status.done = false) : s.irq = false := by
  rw [State.irq, h, Bool.and_false]

/-- Every completion sets DONE, with or without an error (rule R143). -/
theorem Completes.done (h : Completes s t) : t.status.done = true := by
  obtain ⟨ok, code, -, hs⟩ := h.status
  rw [hs, Status.complete_done]

/-- A reset of either kind clears DONE, and with it irq (rules R330, R61). -/
theorem Resets.irq (h : Resets s t) : t.irq = false :=
  State.irq_of_not_done (congrArg Status.done h.status)

/-- A run that leaves the engine idle is no wait but a completion (rules R95, R143). -/
theorem completes_of_exec_idle (h : exec i s = .next t) (hbusy : s.eng = .busy i) (hidle : t.eng = .idle) :
    Completes s t := by
  obtain ⟨rfl, -⟩ | hc := exec_completes h
  · cases hbusy.symm.trans hidle
  · exact hc

/-- Settles O30: a completion sets DONE and keeps IRQ_EN; an issue and the resets clear DONE. -/
theorem irqFollowsDone : Obligations.IrqFollowsDone := by
  refine ⟨fun s => Bool.and_eq_true_iff, fun i s t h hbusy hidle => ?_,
    fun s w i => State.irq_of_not_done rfl, fun s n => ⟨(softReset_resets s n).irq, (powerOn_resets s n).irq⟩⟩
  obtain ⟨-, hirqEn, -⟩ := commandWritesOnlyItsWriteSet i s t h
  rw [State.irq_of_done (completes_of_exec_idle h hbusy hidle).done, hirqEn]

end Sys2Proof.Machine
end

section
/-! What a host read answers while a command is in flight (rules R357, R42, R34): an exact target's value, or a fresh
draw. -/

namespace Sys2Proof.Machine

variable {s : State} {a width : Nat} {x : Target}

/-- The registers a read of which is exact while BUSY are those below OPA (rule R357, 10_state.md section 3). -/
theorem Reg.exactWhileBusy_iff (r : Reg) : r.exactWhileBusy = true ↔ r.offset < 0x050 := by
  cases r <;> decide

/-- An exact target answers its value in any engine state (rule R357). -/
theorem hostRead_exact {v : Word} (hl : locate s.params a width = some x) (hx : x.exactWhileBusy = true)
    (hv : readTarget s x = some v) : hostRead a width s = .next { s with rdata := v } := by
  simp [hostRead, hl, hx, hv]

/-- Any other target is a draw while BUSY, written or not (rule R357; notes/assumptions/25.md). -/
theorem hostRead_busy_draw (hl : locate s.params a width = some x) (he : s.eng ≠ .idle)
    (hx : x.exactWhileBusy = false) : hostRead a width s = .next s.drawRead := by
  simp [hostRead, hl, he, hx]

/-- Settles O29: `locate` says which target the read names, and whether that one is exact decides the answer. -/
theorem busyReadsAreExactOrDraws : Obligations.BusyReadsAreExactOrDraws := by
  intro s i a ov rest ⟨hlive, hin⟩ he htaken
  have hstep : step s = hostRead a 4 { s with inputs := rest } :=
    step_of_takesInput hlive hin (takesInput_of_busy he htaken)
  have hbusy : s.eng ≠ .idle := by simp [he]
  rw [hstep]
  refine ⟨?_, fun hal hlt hr => ?_, ?_⟩
  · rintro r rfl hlow
    exact hostRead_exact (locate_reg _ r) (r.exactWhileBusy_iff.2 hlow) rfl
  · exact hostRead_exact (locate_reserved _ hal hlt hr) rfl rfl
  · rintro (⟨r, rfl, hhigh⟩ | ⟨r, j, hj, rfl⟩)
    · have hdraw : r.exactWhileBusy = false :=
        Bool.eq_false_iff.2 fun h => (r.exactWhileBusy_iff.1 h).not_ge hhigh
      exact hostRead_busy_draw (locate_reg _ r) hbusy hdraw
    · exact hostRead_busy_draw (locate_word hlive.1 hj) hbusy rfl

end Sys2Proof.Machine
end

section
/-! What the two resets do (rules R61, R350, R351): the soft reset of an idle engine, and the reset input in any engine
state. -/

namespace Sys2Proof.Machine

variable {s : State} {i : Instr}

/-! ## The soft reset of an idle engine -/

theorem softReset_idle (he : s.eng = .idle) (full : Nat) : s.softReset full = s.resetRegisters := by
  simp [State.softReset, he]

/-- A CTRL write with SRST is the soft reset, whatever its other bits are (rules R35, R351). -/
theorem writeCtrl_softReset {w : Word} (h : w.getLsbD 0 = true) (s : State) :
    writeCtrl w s = s.softReset s.consumption := if_pos h

/-- Settles O32: the write is the soft reset, and an idle engine has no command to abandon. -/
theorem softResetWhileIdle : Obligations.SoftResetWhileIdle := by
  intro s w ov rest ⟨hlive, hin⟩ he hsrst
  have hstep : step s = .next (writeCtrl w { s with inputs := rest }) :=
    (step_of_takesInput hlive hin (.inl he)).trans (hostWrite_ctrl (ov := ov) (locate_reg _ .ctrl))
  rw [hstep, writeCtrl_softReset hsrst, softReset_idle (s := { s with inputs := rest }) he]
  rfl

/-! ## The reset input -/

/-- On an idle engine no byte of the stream is lost (rule R350). -/
theorem powerOn_idle (he : s.eng = .idle) (full : Nat) : s.powerOn full = { State.resetOf s.params with
    port := ⟨s.port.offered, 0#64⟩, inputs := s.inputs, rdata := s.rdata, draws := s.draws } := by
  rw [State.powerOn, softReset_idle he]
  rfl

/-- The command in flight loses a draw of bytes (rules R146, R350; notes/assumptions/11.md). -/
theorem powerOn_busy (he : s.eng = .busy i) (full : Nat) : s.powerOn full = { State.resetOf s.params with
    port := ⟨s.port.offered.drop (Config.freeTaken s.draws % (full + 1)), 0#64⟩
    inputs := s.inputs
    rdata := s.rdata
    draws := s.draws + 1 } := by
  rw [State.powerOn, softReset_busy he]
  rfl

/-- The draw of the bytes the command had taken stays within what it can take (rule R146). -/
theorem taken_le_maxBytes (he : s.eng = .busy i) (n : Nat) :
    Config.freeTaken n % (s.consumption + 1) ≤ maxBytes s.params i :=
  (Nat.le_of_lt_succ (Nat.mod_lt _ (Nat.succ_pos _))).trans (consumption_le he)

/-- Settles O34: the port takes the reset, and the bytes lost are those of the command in flight, if there is one. -/
theorem powerOnResetClearsAll : Obligations.PowerOnResetClearsAll := by
  intro s ov rest ⟨hlive, hin⟩ htakes
  have hstep : step s =
      .next (State.powerOn { s with inputs := rest } (State.consumption { s with inputs := rest })) :=
    step_of_takesInput hlive hin htakes
  cases he : s.eng with
  | idle =>
    rw [powerOn_idle (s := { s with inputs := rest }) he] at hstep
    exact ⟨_, 0, hstep, fun _ => rfl, nofun, rfl⟩
  | busy i =>
    rw [powerOn_busy (s := { s with inputs := rest }) he] at hstep
    refine ⟨_, _, hstep, nofun, fun j hj => ?_, rfl⟩
    cases hj
    exact taken_le_maxBytes (s := { s with inputs := rest }) he s.draws

end Sys2Proof.Machine
end
